-- ==== Sys2Proof/Word.lean ====
section
/-! DEFINITION. The word types of the device (00_scope.md rule R7: bit 0 is the least significant bit). -/

namespace Sys2Proof

/-- A 32-bit command word, parameter, address, or register channel (R7, R8). -/
abbrev Word := BitVec 32

/-- One byte of memory (R80). -/
abbrev Byte := BitVec 8

/-- The four channels of a register, R, G, B, A, also written c0 to c3 (R9, D18). -/
inductive Chan where
  | r | g | b | a
deriving DecidableEq, Repr

/-- Channel number k of ck (R9). -/
def Chan.idx : Chan → Nat
  | .r => 0
  | .g => 1
  | .b => 2
  | .a => 3

/-- A value for each of the four channels. -/
structure Quad (α : Type) where
  r : α
  g : α
  b : α
  a : α
deriving DecidableEq, Repr

/-- The value of one channel. -/
def Quad.get {α : Type} (q : Quad α) : Chan → α
  | .r => q.r
  | .g => q.g
  | .b => q.b
  | .a => q.a

/-- The same value in every channel. -/
def Quad.all {α : Type} (v : α) : Quad α := ⟨v, v, v, v⟩

/-- Replace the value of one channel. -/
def Quad.set {α : Type} (q : Quad α) (c : Chan) (v : α) : Quad α :=
  match c with
  | .r => { q with r := v }
  | .g => { q with g := v }
  | .b => { q with b := v }
  | .a => { q with a := v }

end Sys2Proof
end

