-- ==== Sys2Proof/Syntax.lean ====
section
/-! DEFINITION. The instructions: 27 commands (30_encoding.md rule R132) and 36 DPP operations (R148 to R154),
one constructor of `Instr` for each row of the opcode table. A DPP instruction is a record of named fields (R148). -/

namespace Sys2Proof

/-- `RGB_PRED_SEL`, `ALPHA_PRED_SEL` (R149, R318). -/
inductive PredSel where
  | none | rgba | rrrr | gggg | bbbb | aaaa
deriving DecidableEq, Repr

/-- The RGB operations (R152, R284 to R293). -/
inductive RgbOp where
  | mad | min | max | cnd | cmp | frc | dp3 | dp4 | d2a | sop
deriving DecidableEq, Repr

/-- The alpha operations (R152, R296 to R308). -/
inductive AlphaOp where
  | mad | min | max | cnd | cmp | frc | dp | ex2 | ln2 | rcp | rsq | sin | cos
deriving DecidableEq, Repr

/-- Operand select (R278). -/
inductive SrcSel where
  | src0 | src1 | src2 | srcp
deriving DecidableEq, Repr

/-- Operand swizzle (R279). -/
inductive Swz where
  | r | g | b | a | zero | half | one
deriving DecidableEq, Repr

/-- Input modifier (R280). -/
inductive IMod where
  | off | neg | abs | nab
deriving DecidableEq, Repr

/-- Output modifier (R312). -/
inductive OMod where
  | u1 | u2 | u4 | u8 | d2 | d4 | d8 | disabled
deriving DecidableEq, Repr

/-- Presubtract operation (R276). -/
inductive SrcpOp where
  | bias | sub | add | inv
deriving DecidableEq, Repr

/-- The four tests of `PRED_OP_*` and `ALU_RESULT_OP_*` (R326, R330). -/
inductive CmpOp where
  | equal | less | greaterEqual | notEqual
deriving DecidableEq, Repr

/-- `ALU_RESULT_SEL` (R330). -/
inductive ResultSel where
  | red | alpha
deriving DecidableEq, Repr

/-- `TARGET` (R152): the first four are RNDR_TGT_A to D on an OUTPUT instruction and PRED_OP_EQUAL, _LESS,
_GREATER_EQUAL, _NOT_EQUAL on an ALU instruction; the last four are the UMRT targets (R323). -/
inductive Target where
  | t0 | t1 | t2 | t3
  | umrtSameIdx | umrtSameIdxAcquire | umrtPerProcessorIdx | umrtPerProcessorIdxAcquire
deriving DecidableEq, Repr

/-- One source address: `ADDRn`, `ADDRn_CONST`, `ADDRn_REL` (R150). -/
structure SrcAddr where
  addr : BitVec 8
  const : Bool
  rel : Bool
deriving DecidableEq, Repr

/-- `ALU_RGB_ADDR` or `ALU_ALPHA_ADDR` (R150). -/
structure AddrWord where
  s0 : SrcAddr
  s1 : SrcAddr
  s2 : SrcAddr
  srcp : SrcpOp
deriving DecidableEq, Repr

/-- Operand x of the RGB unit: `RGB_SEL_x`, the three swizzles and the input modifier (R152). -/
structure RgbOperand where
  sel : SrcSel
  red : Swz
  green : Swz
  blue : Swz
  mod : IMod
deriving DecidableEq, Repr

/-- Operand x of the alpha unit: `ALPHA_SEL_x`, `ALPHA_SWIZ_x` and the input modifier (R152). -/
structure AlphaOperand where
  sel : SrcSel
  swz : Swz
  mod : IMod
deriving DecidableEq, Repr

/-- Every field of an ALU or OUTPUT slot but the two operations (R147, R149, R150, R152). -/
structure AluInst where
  isOutput : Bool
  semWait : Bool
  rgbPredSel : PredSel
  rgbPredInv : Bool
  alphaPredSel : PredSel
  alphaPredInv : Bool
  writeInactive : Bool
  last : Bool
  nop : Bool
  rgbWmask : BitVec 3
  alphaWmask : Bool
  rgbOmask : BitVec 3
  alphaOmask : Bool
  rgbClamp : Bool
  alphaClamp : Bool
  resultSel : ResultSel
  resultOp : CmpOp
  rgbAddr : AddrWord
  alphaAddr : AddrWord
  rgbA : RgbOperand
  rgbB : RgbOperand
  rgbC : RgbOperand
  alphaA : AlphaOperand
  alphaB : AlphaOperand
  alphaC : AlphaOperand
  rgbOmod : OMod
  alphaOmod : OMod
  rgbDst : BitVec 7
  rgbDstRel : Bool
  alphaDst : BitVec 7
  alphaDstRel : Bool
  rgbTarget : Target
  alphaTarget : Target
  wOmask : Bool
  aluWmask : Bool
deriving DecidableEq, Repr

/-- Every field of a TEX slot but the operation (R147, R149, R153). `dxdy` is the word `TEX_ADDR_DXDY`, which
no operation of the manual reads. -/
structure TexInst where
  semWait : Bool
  rgbPredSel : PredSel
  rgbPredInv : Bool
  alphaPredSel : PredSel
  alphaPredInv : Bool
  writeInactive : Bool
  aluWait : Bool
  rgbWmask : BitVec 3
  alphaWmask : Bool
  texId : BitVec 4
  semAcquire : Bool
  ignoreUncovered : Bool
  unscaled : Bool
  srcAddr : BitVec 7
  srcRel : Bool
  swzS : Chan
  swzT : Chan
  swzR : Chan
  swzQ : Chan
  dstAddr : BitVec 7
  dstRel : Bool
  dswzR : Chan
  dswzG : Chan
  dswzB : Chan
  dswzA : Chan
  dxdy : Word
deriving DecidableEq, Repr

/-- `A_OP` (R154, R393). -/
inductive AOp where
  | none | pop | push
deriving DecidableEq, Repr

/-- `B_OP0`, `B_OP1` (R154, R397 to R399). -/
inductive BOp where
  | none | decr | incr
deriving DecidableEq, Repr

/-- Every field of an FC slot but `OP` (R147, R149, R154). -/
structure FcInst where
  semWait : Bool
  predSel : PredSel
  predInv : Bool
  aluWait : Bool
  jumpFunc : BitVec 8
  jumpAny : Bool
  aOp : AOp
  bOp0 : BOp
  bOp1 : BOp
  bPopCnt : BitVec 5
  bElse : Bool
  ignoreUncovered : Bool
  boolAddr : BitVec 5
  intAddr : BitVec 5
  jumpAddr : BitVec 9
  jumpGlobal : Bool
deriving DecidableEq, Repr

/-- The six 32-bit words of an instruction slot (R145, R165). -/
structure Slot where
  w0 : Word
  w1 : Word
  w2 : Word
  w3 : Word
  w4 : Word
  w5 : Word
deriving DecidableEq, Repr

/-- One constructor for each row of the opcode table. A command carries its parameter words (R130, R132). An ALU or
OUTPUT slot holds an RGB and an alpha operation (R270): the constructor of an RGB row carries the alpha operation
beside the fields, the constructor of an alpha row the RGB operation; `AluInst.namedByAlpha` says which names a slot
(log 7). -/
inductive Instr where
  | initPerfCounters (flags : Word)
  | startPerfCounters (reserved : Word)
  | stopPerfCounters (reserved : Word)
  | readPerfCounters (base : Word)
  | setCondVal (val : Word)
  | setDomain (i0 j0 i1 j1 : Word)
  | startProgram (reserved : Word)
  | waitForIdle (reserved : Word)
  | setInstFmt (base format : Word)
  | setInpFmt (index base format height : Word)
  | setOutFmt (index base format height : Word)
  | setCondOutFmt (base format height : Word)
  | setConstfFmt (base format : Word)
  | setConstiFmt (base format : Word)
  | setConstbFmt (base format : Word)
  | invInstCache (reserved : Word)
  | invConstfCache (reserved : Word)
  | invConstiCache (reserved : Word)
  | invConstbCache (reserved : Word)
  | invCondOutCache (reserved : Word)
  | invInpCache (reserved : Word)
  | flushOutCache (reserved : Word)
  | flushCondOutCache (reserved : Word)
  | setOutMask (mask : Word)
  | setCondOutMask (mask : Word)
  | setCondTest (condition : Word)
  | setCondLoc (loc : Word)
  | opRgbMad (alpha : AlphaOp) (f : AluInst)
  | opRgbMin (alpha : AlphaOp) (f : AluInst)
  | opRgbMax (alpha : AlphaOp) (f : AluInst)
  | opRgbCnd (alpha : AlphaOp) (f : AluInst)
  | opRgbCmp (alpha : AlphaOp) (f : AluInst)
  | opRgbFrc (alpha : AlphaOp) (f : AluInst)
  | opRgbDp3 (alpha : AlphaOp) (f : AluInst)
  | opRgbDp4 (alpha : AlphaOp) (f : AluInst)
  | opRgbD2a (alpha : AlphaOp) (f : AluInst)
  | opRgbSop (alpha : AlphaOp) (f : AluInst)
  | opAlphaMad (rgb : RgbOp) (f : AluInst)
  | opAlphaMin (rgb : RgbOp) (f : AluInst)
  | opAlphaMax (rgb : RgbOp) (f : AluInst)
  | opAlphaCnd (rgb : RgbOp) (f : AluInst)
  | opAlphaCmp (rgb : RgbOp) (f : AluInst)
  | opAlphaFrc (rgb : RgbOp) (f : AluInst)
  | opAlphaDp (rgb : RgbOp) (f : AluInst)
  | opAlphaEx2 (rgb : RgbOp) (f : AluInst)
  | opAlphaLn2 (rgb : RgbOp) (f : AluInst)
  | opAlphaRcp (rgb : RgbOp) (f : AluInst)
  | opAlphaRsq (rgb : RgbOp) (f : AluInst)
  | opAlphaSin (rgb : RgbOp) (f : AluInst)
  | opAlphaCos (rgb : RgbOp) (f : AluInst)
  | texNop (f : TexInst)
  | texLookup (f : TexInst)
  | texKillLt0 (f : TexInst)
  | texLookupProj (f : TexInst)
  | texLookupUncached (f : TexInst)
  | fcJump (f : FcInst)
  | fcLoop (f : FcInst)
  | fcEndloop (f : FcInst)
  | fcRep (f : FcInst)
  | fcEndrep (f : FcInst)
  | fcBreakloop (f : FcInst)
  | fcBreakrep (f : FcInst)
  | fcContinue (f : FcInst)
deriving DecidableEq, Repr

/-- The constructor of an RGB operation's row. -/
def Instr.ofRgb (op : RgbOp) (alpha : AlphaOp) (f : AluInst) : Instr :=
  match op with
  | .mad => .opRgbMad alpha f
  | .min => .opRgbMin alpha f
  | .max => .opRgbMax alpha f
  | .cnd => .opRgbCnd alpha f
  | .cmp => .opRgbCmp alpha f
  | .frc => .opRgbFrc alpha f
  | .dp3 => .opRgbDp3 alpha f
  | .dp4 => .opRgbDp4 alpha f
  | .d2a => .opRgbD2a alpha f
  | .sop => .opRgbSop alpha f

/-- The constructor of an alpha operation's row. -/
def Instr.ofAlpha (op : AlphaOp) (rgb : RgbOp) (f : AluInst) : Instr :=
  match op with
  | .mad => .opAlphaMad rgb f
  | .min => .opAlphaMin rgb f
  | .max => .opAlphaMax rgb f
  | .cnd => .opAlphaCnd rgb f
  | .cmp => .opAlphaCmp rgb f
  | .frc => .opAlphaFrc rgb f
  | .dp => .opAlphaDp rgb f
  | .ex2 => .opAlphaEx2 rgb f
  | .ln2 => .opAlphaLn2 rgb f
  | .rcp => .opAlphaRcp rgb f
  | .rsq => .opAlphaRsq rgb f
  | .sin => .opAlphaSin rgb f
  | .cos => .opAlphaCos rgb f

/-- The two operations and the fields of an ALU or OUTPUT slot, whichever row names it. -/
def Instr.alu? : Instr → Option (RgbOp × AlphaOp × AluInst)
  | .opRgbMad a f => some (.mad, a, f)
  | .opRgbMin a f => some (.min, a, f)
  | .opRgbMax a f => some (.max, a, f)
  | .opRgbCnd a f => some (.cnd, a, f)
  | .opRgbCmp a f => some (.cmp, a, f)
  | .opRgbFrc a f => some (.frc, a, f)
  | .opRgbDp3 a f => some (.dp3, a, f)
  | .opRgbDp4 a f => some (.dp4, a, f)
  | .opRgbD2a a f => some (.d2a, a, f)
  | .opRgbSop a f => some (.sop, a, f)
  | .opAlphaMad r f => some (r, .mad, f)
  | .opAlphaMin r f => some (r, .min, f)
  | .opAlphaMax r f => some (r, .max, f)
  | .opAlphaCnd r f => some (r, .cnd, f)
  | .opAlphaCmp r f => some (r, .cmp, f)
  | .opAlphaFrc r f => some (r, .frc, f)
  | .opAlphaDp r f => some (r, .dp, f)
  | .opAlphaEx2 r f => some (r, .ex2, f)
  | .opAlphaLn2 r f => some (r, .ln2, f)
  | .opAlphaRcp r f => some (r, .rcp, f)
  | .opAlphaRsq r f => some (r, .rsq, f)
  | .opAlphaSin r f => some (r, .sin, f)
  | .opAlphaCos r f => some (r, .cos, f)
  | _ => none

/-- The five texture operations (R350). -/
inductive TexOp where
  | nop | lookup | killLt0 | lookupProj | lookupUncached
deriving DecidableEq, Repr

/-- The operation and the fields of a TEX slot. -/
def Instr.tex? : Instr → Option (TexOp × TexInst)
  | .texNop f => some (.nop, f)
  | .texLookup f => some (.lookup, f)
  | .texKillLt0 f => some (.killLt0, f)
  | .texLookupProj f => some (.lookupProj, f)
  | .texLookupUncached f => some (.lookupUncached, f)
  | _ => none

/-- The eight flow-control operations (R154). -/
inductive FcOp where
  | jump | loop | endloop | rep | endrep | breakloop | breakrep | cont
deriving DecidableEq, Repr

/-- The operation and the fields of an FC slot. -/
def Instr.fc? : Instr → Option (FcOp × FcInst)
  | .fcJump f => some (.jump, f)
  | .fcLoop f => some (.loop, f)
  | .fcEndloop f => some (.endloop, f)
  | .fcRep f => some (.rep, f)
  | .fcEndrep f => some (.endrep, f)
  | .fcBreakloop f => some (.breakloop, f)
  | .fcBreakrep f => some (.breakrep, f)
  | .fcContinue f => some (.cont, f)
  | _ => none

end Sys2Proof
end

