-- ==== Sys2Proof/Config.lean ====
section
/-! DEFINITION. The open parameters of the spec (00_scope.md rule R14) and the free values, as constants
without a body: nothing in Lean can evaluate one or prove what it is, so a theorem holds for every choice.
Numbers that a free value depends on are passed as plain numbers; the last `Nat` argument is the value of
`State.draws` (or an offset from it) at which the value is drawn. -/

namespace Sys2Proof

/-- Which `InstLayout` a device has (R14, R148, D1): the layout K1 of R165 to R173, or any other one, by a number. -/
inductive InstLayout where
  | k1
  | other (n : Nat)
deriving DecidableEq, Repr

/-- The seven caches of the MC (R40). -/
inductive CacheId where
  | inst | constf | consti | constb | inp | out | cond
deriving DecidableEq, Repr

/-- Which agent moves next, with the choices the spec leaves to it (R20, R21, R197; log 8). -/
inductive Turn where
  /-- the PE reads and executes one command, or makes the next submitted buffer current -/
  | pe
  /-- the group with this index executes one instruction -/
  | group (k : Nat)
  /-- a processor of a halted group sends its results and reports idle -/
  | retire (k lane : Nat)
  /-- the distributor takes pair number `pair` of launch number `launch` for processor `proc`, which joins
  the group `join` or forms one of its own -/
  | dist (launch pair proc : Nat) (join : Option Nat)
  /-- the MC drops one byte of a cache, writing it to memory first if it is dirty -/
  | evict (cache : CacheId) (addr : Nat)
  /-- clocks pass: `total` of them, at least one processor active in at most `active` of them -/
  | clock (total active : Nat)
deriving DecidableEq, Repr, Inhabited

namespace Config

/-- A drawn 32-bit pattern (the spec's `draw`, R10). -/
opaque freeWord : Nat → Word

/-- A drawn truth value. -/
opaque freeBool : Nat → Bool

/-- `Near` of R443 for the exact real `m * 2^e`: the float that rounding yields at this draw. -/
opaque near : Int → Int → Nat → Word

/-- `Near` of R443 and R454 for a transcendental result that is not a dyadic number. The first argument is
the operation (0 EX2, 1 LN2, 2 RCP, 3 RSQ, 4 SIN, 5 COS), the second the operand. -/
opaque nearTrans : Nat → Word → Nat → Word

/-- `InstLayout` (R148, D1) of a device whose layout is not K1: the record that the six words of a slot stand for, none where they are no
instruction. The number names the layout. -/
opaque instLayout : Nat → Slot → Option Instr

/-- `InitTemps` (R48, D23): what channel c of temporary n holds at program start on the execution for (i, j) that has this
seed. Every execution has a seed of its own, so two launches of one (i, j) may find different values (DESIGN CHOICE, safe; log 2). -/
opaque initTemp (seed : Nat) (i j : BitVec 12) (n c : Nat) : Word

/-- A channel of an output register that the execution never wrote, when it is sent (R334, D24). -/
opaque unwrittenOut : (target c : Nat) → Nat → Word

/-- `TexIndex` outside its pinned cases (R357, D20): base, pitch, tiling, format, height of the input; UNSCALED;
projected; s, t, r, q. -/
opaque texIndex (base pitch tiling format height : Nat) (unscaled proj : Bool) (s t r q : Word) : Nat × Nat

/-- `MissingChannel` (R94): format and channel that the format lacks. -/
opaque missingChannel : (format chan : Nat) → Nat → Word

/-- `UIntDecode` (R94): format (0 UINT16_1, 1 UINT8_4) and the stored integer of one channel. -/
opaque uintDecode : (format raw : Nat) → Word

/-- `UIntEncode` (R94): format and the float of one channel; the low 16 or 8 bits are stored. -/
opaque uintEncode : (format : Nat) → Word → BitVec 16

/-- `IntConstDecode` (R104, R408): iteration count, aL initial value, aL increment. -/
opaque intConstDecode : List Byte → Nat × Int × Int

/-- `BoolConstDecode` (R104, R385). -/
opaque boolConstDecode : List Byte → Bool

/-- The order of `CondCmp` (R256): test 1, v less than the element b of this format. -/
opaque condLess : (format : Nat) → Word → List Byte → Bool

/-- `CondCmp`, test 3, where R256 and R262 do not fix it (log 16). -/
opaque condEqual : (format : Nat) → Word → List Byte → Bool

/-- `CondCmp`, tests 4 and 5, where the order need not be total (R256): the test number comes first. -/
opaque condUnordered : (test format : Nat) → Word → List Byte → Bool

/-- `CondEnc` (R256) for a format other than FLOAT32_1: byte k of the encoding of v. -/
opaque condEncByte : (format : Nat) → Word → Nat → Byte

/-- What a cache holds after reset (R41): its clean bytes, or its dirty ones, as a list of address and byte. -/
opaque cacheAtReset : (cache : CacheId) → (dirty : Bool) → List (Word × Byte)

/-- `LoadText` (R105): where byte number `byte` of a slot's six words lies, from the fields of the instruction descriptor
(base, pitch, tiled or linear, format), the slot and the byte; the address is taken modulo 2^32. -/
opaque textAddr : (base pitch : Nat) → (tiled : Bool) → (format slot byte : Nat) → Nat

/-- Which agent moves after the step at which this draw is taken (R21, R109: unspecified). -/
opaque turn : Nat → Turn

end Config

/-- The parameter `FArith` (R443, D33): what each rounding step draws. -/
structure FArith where
  near : Int → Int → Nat → Word
  nearTrans : Nat → Word → Nat → Word

/-- The arithmetic of this machine, open. -/
def Config.fArith : FArith := ⟨Config.near, Config.nearTrans⟩

end Sys2Proof
end

