-- ==== Sys2Proof/Machine/Float.lean ====
section
/-! DEFINITION. The arithmetic of the DPP (46_dpp_float.md). Everything that R443 leaves loose is taken from an `FArith`
at a draw; the tables of special values and the exact intermediate results are computed. -/

namespace Sys2Proof.Machine

/-- `Ext` of R445: an intermediate result; `real m e` stands for the number m * 2^e, which is not zero. -/
inductive Ext where
  | nan
  | inf (neg : Bool)
  | zero (neg : Bool)
  | real (m e : Int)
deriving DecidableEq, Repr

/-! ## Patterns (R440) -/

def expField (w : Word) : Nat := w.toNat / 2 ^ 23 % 256

def manField (w : Word) : Nat := w.toNat % 2 ^ 23

def signBit (w : Word) : Bool := w.getLsbD 31

def zeroBits (neg : Bool) : Word := if neg then 0x80000000#32 else 0#32

def infBits (neg : Bool) : Word := if neg then 0xFF800000#32 else 0x7F800000#32

/-- The standardized NaN (R312, R456). -/
def stdNaN : Word := 0x7FFFFFFF#32

def oneBits : Word := 0x3F800000#32

def halfBits : Word := 0x3F000000#32

/-- A NaN pattern. -/
def isNaN (w : Word) : Bool := expField w == 255 && manField w != 0

/-- `In` of R442, as a value: a denormal is a zero of its sign. -/
def Ext.ofBits (w : Word) : Ext :=
  if expField w = 255 then (if manField w = 0 then .inf (signBit w) else .nan)
  else if expField w = 0 then .zero (signBit w)
  else .real ((if signBit w then -1 else 1) * ((2 ^ 23 + manField w : Nat) : Int)) ((expField w : Int) - 150)

/-- The pattern with a denormal flushed to a zero of its sign (R442). -/
def flushDenormal (w : Word) : Word := if expField w = 0 then zeroBits (signBit w) else w

/-! ## Exact arithmetic -/

/-- The number m * 2^e as a multiple of 2^lo, for lo at most e. -/
def scaleTo (m e lo : Int) : Int := m * 2 ^ (e - lo).toNat

/-- The extended value m * 2^e, the exact zero being +0 (R447). -/
def Ext.ofReal (m e : Int) : Ext := if m = 0 then .zero false else .real m e

def Ext.isNeg : Ext → Bool
  | .nan => false
  | .inf n => n
  | .zero n => n
  | .real m _ => decide (m < 0)

/-- `MulExt` (R446). -/
def mulExt : Ext → Ext → Ext
  | .nan, _ => .nan
  | _, .nan => .nan
  | .zero _, .inf _ => .nan
  | .inf _, .zero _ => .nan
  | .real m e, .real m' e' => .real (m * m') (e + e')
  | .inf a, b => .inf (a != b.isNeg)
  | a, .inf b => .inf (a.isNeg != b)
  | .zero a, b => .zero (a != b.isNeg)
  | a, .zero b => .zero (a.isNeg != b)

/-- `AddExt` (R447). -/
def addExt : Ext → Ext → Ext
  | .nan, _ => .nan
  | _, .nan => .nan
  | .inf a, .inf b => if a = b then .inf a else .nan
  | .inf a, _ => .inf a
  | _, .inf b => .inf b
  | .zero a, .zero b => .zero (a && b)
  | .zero _, b => b
  | a, .zero _ => a
  | .real m e, .real m' e' => .ofReal (scaleTo m e (min e e') + scaleTo m' e' (min e e')) (min e e')

def negExt : Ext → Ext
  | .nan => .nan
  | .inf n => .inf !n
  | .zero n => .zero !n
  | .real m e => .real (-m) e

/-- `Mad` (R447). -/
def mad (a b c : Word) : Ext := addExt (mulExt (.ofBits a) (.ofBits b)) (.ofBits c)

/-- The value as m * 2^e when it is finite. -/
def Ext.finite? : Ext → Option (Int × Int)
  | .nan => none
  | .inf _ => none
  | .zero _ => some (0, 0)
  | .real m e => some (m, e)

/-- The ordered comparison `FLt` (R450) on extended values: false when either is NaN, the zeros equal. -/
def Ext.lt (a b : Ext) : Bool :=
  match a, b with
  | .nan, _ => false
  | _, .nan => false
  | .inf n, .inf n' => n && !n'
  | .inf n, _ => n
  | _, .inf n => !n
  | a, b =>
    match a.finite?, b.finite? with
    | some (m, e), some (m', e') => decide (scaleTo m e (min e e') < scaleTo m' e' (min e e'))
    | _, _ => false

/-- The magnitude of `a` is smaller than that of `b` by a factor of 2^25 or more (R449). -/
def Ext.muchSmaller (a b : Ext) : Bool :=
  match a.finite?, b.finite? with
  | some (m, e), some (m', e') =>
    decide ((scaleTo m e (min e e')).natAbs * 2 ^ 25 ≤ (scaleTo m' e' (min e e')).natAbs)
  | _, _ => false

/-- Two terms cancel exactly. -/
def Ext.cancels (a b : Ext) : Bool :=
  match a, b with
  | .real _ _, .real _ _ => addExt a b == .zero false
  | _, _ => false

/-- Two terms of largest magnitude cancel exactly and every other term is smaller by a factor of 2^25 or more (R449). -/
def cancelsLarge (ts : List Ext) : Bool :=
  (List.range ts.length).any fun i => (List.range ts.length).any fun j =>
    decide (i < j) && (ts.getD i .nan).cancels (ts.getD j .nan) &&
    (List.range ts.length).all fun k => k == i || k == j || (ts.getD k .nan).muchSmaller (ts.getD i .nan)

/-- The sum of a dot product's terms (R449). -/
def dotSum (ts : List Ext) : Ext := if cancelsLarge ts then .zero false else ts.foldl addExt (.zero true)

def prodBits (a b : Word) : Ext := mulExt (.ofBits a) (.ofBits b)

/-! ## Comparisons (R450) -/

def fLt0 (w : Word) : Bool :=
  match Ext.ofBits w with
  | .nan => false
  | .zero _ => false
  | v => v.isNeg

def fGe0 (w : Word) : Bool :=
  match Ext.ofBits w with
  | .nan => false
  | .zero _ => true
  | v => !v.isNeg

def fEq0 (w : Word) : Bool :=
  match Ext.ofBits w with
  | .zero _ => true
  | _ => false

def fNe0 (w : Word) : Bool := !fEq0 w

def fLt (a b : Word) : Bool := (Ext.ofBits a).lt (.ofBits b)

def fGt (a b : Word) : Bool := (Ext.ofBits b).lt (.ofBits a)

/-- `FGtHalf` (R450). -/
def fGtHalf (w : Word) : Bool := fGt w halfBits

/-! ## Finishing a result -/

/-- log2 of the factor of an output modifier (R312). -/
def omodShift : OMod → Int
  | .u1 => 0
  | .u2 => 1
  | .u4 => 2
  | .u8 => 3
  | .d2 => -1
  | .d4 => -2
  | .d8 => -3
  | .disabled => 0

/-- |m * 2^e| < 2^-126. -/
def belowNormal (m e : Int) : Bool := decide (m.natAbs * 2 ^ (e + 126).toNat < 2 ^ (-(e + 126)).toNat)

/-- m * 2^e lies beyond the largest finite float, (2^24 - 1) * 2^104. -/
def aboveFinite (m e : Int) : Bool := decide ((2 ^ 24 - 1) * 2 ^ (104 - e).toNat < m.natAbs * 2 ^ (e - 104).toNat)

/-- What a real number beyond the largest finite float rounds to: a pattern outside the finite range is an infinity of the number's
sign (R456), and a denormal one is flushed, since only a value passed on bit for bit leaves as a denormal (R458; log 13). -/
def saturate (neg : Bool) (w : Word) : Word := if expField w = 255 then infBits neg else flushDenormal w

/-- What a real number of the normal range rounds to: a finite normal number (R445, R460). A drawn pattern that is none has its lowest
exponent bit flipped, which makes it one (log 13). -/
def normalBits (w : Word) : Word := if expField w = 255 ∨ expField w = 0 then w ^^^ 0x00800000#32 else w

/-- The non-zero real number m * 2^e as a float, once its range is known (R445, R456): below the normal range a zero of its sign, in it
a finite normal number, beyond the finite numbers what `Near` draws. -/
def rounded (fa : FArith) (draw : Nat) (m e : Int) : Word :=
  if belowNormal m e then zeroBits (decide (m < 0))
  else if aboveFinite m e then saturate (decide (m < 0)) (fa.near m e draw)
  else normalBits (fa.near m e draw)

/-- `Finish` (R456) for the seven enabled output modifiers. -/
def finish (fa : FArith) (draw : Nat) (om : OMod) (v : Ext) : Word :=
  match v with
  | .nan => stdNaN
  | .inf n => infBits n
  | .zero n => zeroBits n
  | .real m e => rounded fa draw m (e + omodShift om)

/-- `Clamp` (R314): NaN and the sign of a zero are drawn. -/
def clampBits (draw : Nat) (w : Word) : Word :=
  match Ext.ofBits w with
  | .nan => Config.freeWord draw
  | .zero _ => zeroBits (Config.freeBool draw)
  | v => if v.isNeg then zeroBits (Config.freeBool draw) else if (Ext.ofBits oneBits).lt v then oneBits else w

/-! ## Presubtract (R276, R448) -/

/-- The presubtract of one channel of source 0 and source 1. -/
def presub (fa : FArith) (draw : Nat) (op : SrcpOp) (x0 x1 : Word) : Word :=
  finish fa draw .u1 (match op with
    | .bias => addExt (.ofBits oneBits) (mulExt (.real (-2) 0) (.ofBits x0))
    | .sub => addExt (.ofBits x1) (negExt (.ofBits x0))
    | .add => addExt (.ofBits x1) (.ofBits x0)
    | .inv => addExt (.ofBits oneBits) (negExt (.ofBits x0)))

/-! ## Frc (R452) -/

/-- `Frc`: exact for a finite number; an infinity or NaN gives any pattern, a zero a zero of drawn sign. -/
def frc (draw : Nat) (a : Word) : Ext :=
  match Ext.ofBits a with
  | .nan => .ofBits (Config.freeWord draw)
  | .inf _ => .ofBits (Config.freeWord draw)
  | .zero _ => .zero (Config.freeBool draw)
  | .real m e => if 0 ≤ e then .zero false else .ofReal (m % 2 ^ (-e).toNat) e

/-! ## Transcendentals (R454, R455) -/

/-- A real result m * 2^e that is an exact dyadic number, turned into a float at once (R454): a zero has a drawn sign. A result that is
no dyadic number lies in the normal range, but for those that the functions below treat by themselves, and so is a finite normal
number. -/
def transExact (fa : FArith) (draw : Nat) (m e : Int) : Word :=
  if m = 0 then zeroBits (Config.freeBool draw) else rounded fa draw m e

/-- A power of two: its exponent (the operand is normal, so it is one when its mantissa field is zero). -/
def exactLog (w : Word) : Option Int := if manField w = 0 then some ((expField w : Int) - 127) else none

/-- The value as a number of quarters, when it is one. -/
def quarters? (m e : Int) : Option Int :=
  if -2 ≤ e then some (m * 2 ^ (e + 2).toNat)
  else if m % 2 ^ (-(e + 2)).toNat = 0 then some (m / 2 ^ (-(e + 2)).toNat) else none

/-- The value as an integer, when it is one. -/
def integer? (m e : Int) : Option Int :=
  if 0 ≤ e then some (m * 2 ^ e.toNat) else if m % 2 ^ (-e).toNat = 0 then some (m / 2 ^ (-e).toNat) else none

/-- `Ex2`. -/
def ex2 (fa : FArith) (draw : Nat) (a : Word) : Word :=
  match Ext.ofBits a with
  | .nan => stdNaN
  | .inf true => zeroBits false
  | .inf false => infBits false
  | .zero _ => oneBits
  | .real m e =>
    if !(Ext.real m e).lt (.real 1 7) then infBits false
    else if (Ext.real m e).lt (.real (-126) 0) then zeroBits false
    else
      match integer? m e with
      | some n => transExact fa draw 1 n
      | none => normalBits (fa.nearTrans 0 a draw)

/-- `Ln2`; of a negative number any pattern (R455). -/
def ln2 (fa : FArith) (draw : Nat) (a : Word) : Word :=
  match Ext.ofBits a with
  | .nan => stdNaN
  | .inf true => stdNaN
  | .inf false => infBits false
  | .zero _ => infBits true
  | .real m _ =>
    if m < 0 then Config.freeWord draw
    else
      match exactLog a with
      | some n => transExact fa draw n 0
      | none => normalBits (fa.nearTrans 1 a draw)

/-- `Rcp`. -/
def rcp (fa : FArith) (draw : Nat) (a : Word) : Word :=
  match Ext.ofBits a with
  | .nan => stdNaN
  | .inf n => zeroBits n
  | .zero n => infBits n
  | .real m _ =>
    match exactLog a with
    | some n => transExact fa draw (if m < 0 then -1 else 1) (-n)
    | none =>
      if 253 ≤ expField a then zeroBits (decide (m < 0)) else normalBits (fa.nearTrans 2 a draw)

/-- `Rsq`; of a negative number any pattern (R455). -/
def rsq (fa : FArith) (draw : Nat) (a : Word) : Word :=
  match Ext.ofBits a with
  | .nan => stdNaN
  | .inf true => stdNaN
  | .inf false => zeroBits false
  | .zero _ => infBits false
  | .real m _ =>
    if m < 0 then Config.freeWord draw
    else
      match exactLog a with
      | some n => if n % 2 = 0 then transExact fa draw 1 (-(n / 2)) else normalBits (fa.nearTrans 3 a draw)
      | none => normalBits (fa.nearTrans 3 a draw)

/-- `Sin` of an angle in turns. -/
def sinTurns (fa : FArith) (draw : Nat) (a : Word) : Word :=
  match Ext.ofBits a with
  | .nan => stdNaN
  | .inf _ => stdNaN
  | .zero n => zeroBits n
  | .real m e =>
    match quarters? m e with
    | some q => transExact fa draw (if q % 4 = 1 then 1 else if q % 4 = 3 then -1 else 0) 0
    | none => normalBits (fa.nearTrans 4 a draw)

/-- `Cos` of an angle in turns. -/
def cosTurns (fa : FArith) (draw : Nat) (a : Word) : Word :=
  match Ext.ofBits a with
  | .nan => stdNaN
  | .inf _ => stdNaN
  | .zero _ => oneBits
  | .real m e =>
    match quarters? m e with
    | some q => transExact fa draw (if q % 4 = 0 then 1 else if q % 4 = 2 then -1 else 0) 0
    | none => normalBits (fa.nearTrans 5 a draw)

/-! ## Inline constants (R151) -/

/-- `InlineConst`, as an IEEE pattern (every value is exact). That bits 6:3 are the exponent and 2:0 the mantissa is in the
non-normative table only: R151 leaves the split open (PRESUMED, unsafe; log 4). -/
def inlineConst (x : Nat) : Word :=
  let e := x / 2 ^ 3 % 16
  let m := x % 2 ^ 3
  if 0 < e then BitVec.ofNat 32 ((e + 120) * 2 ^ 23 + m * 2 ^ 20)
  else if m = 0 then BitVec.ofNat 32 (117 * 2 ^ 23)
  else if m = 1 then BitVec.ofNat 32 (118 * 2 ^ 23)
  else if m < 4 then BitVec.ofNat 32 (119 * 2 ^ 23 + (m - 2) * 2 ^ 22)
  else BitVec.ofNat 32 (120 * 2 ^ 23 + (m - 4) * 2 ^ 21)

end Sys2Proof.Machine
end

