-- ==== Sys2Proof/WellFormed.lean ====
section
/-! DEFINITION. Which instructions are well formed: reserved parameter bits are zero (30_encoding.md rules R138, R139),
no field combination the manual calls invalid (R156), the slot is named by the right row (log 7), and every field has a
code in the layout (R168: the UMRT targets have none). -/

namespace Sys2Proof

/-- The alpha operations that are transcendental (R156). -/
def AlphaOp.transcendental : AlphaOp → Bool
  | .ex2 | .ln2 | .rcp | .rsq | .sin | .cos => true
  | .mad | .min | .max | .cnd | .cmp | .frc | .dp => false

/-- The RGB operations that are dot products (R156). -/
def RgbOp.dot : RgbOp → Bool
  | .dp3 | .dp4 | .d2a => true
  | .mad | .min | .max | .cnd | .cmp | .frc | .sop => false

/-- MIN, MAX, CND and CMP (R313). -/
def RgbOp.selects : RgbOp → Bool
  | .min | .max | .cnd | .cmp => true
  | .mad | .frc | .dp3 | .dp4 | .d2a | .sop => false

/-- MIN, MAX, CND and CMP (R313). -/
def AlphaOp.selects : AlphaOp → Bool
  | .min | .max | .cnd | .cmp => true
  | .mad | .frc | .dp | .ex2 | .ln2 | .rcp | .rsq | .sin | .cos => false

/-- "aL may not be added to an inline constant" (R150). -/
def SrcAddr.ok (s : SrcAddr) : Bool := !(s.addr.getLsbD 7 && !s.const && s.rel)

/-- None of the three sources adds aL to an inline constant (R150). -/
def AddrWord.ok (w : AddrWord) : Bool := w.s0.ok && w.s1.ok && w.s2.ok

/-- A target with a code in the layout (R168). -/
def Target.encodable : Target → Bool
  | .t0 | .t1 | .t2 | .t3 => true
  | _ => false

/-- The RGB unit's result goes somewhere. -/
def AluInst.rgbWrites (f : AluInst) : Bool :=
  f.rgbWmask != 0 || f.rgbOmask != 0 || (f.aluWmask && f.resultSel == .red)

/-- The alpha unit's result goes somewhere. -/
def AluInst.alphaWrites (f : AluInst) : Bool :=
  f.alphaWmask || f.alphaOmask || f.wOmask || (f.aluWmask && f.resultSel == .alpha)

/-- The slot is named by its alpha operation: the RGB unit writes nothing, and the alpha unit writes a result or is the
only one of the two that is not left at MAD, the operation of code 0 (log 7). -/
def AluInst.namedByAlpha (rop : RgbOp) (aop : AlphaOp) (f : AluInst) : Bool :=
  !f.rgbWrites && (f.alphaWrites || (rop == .mad && aop != .mad))

/-- The combinations of R156 and R313 that an ALU or OUTPUT slot must avoid. -/
def aluCombinationOk (rop : RgbOp) (aop : AlphaOp) (f : AluInst) : Bool :=
  (rop != .sop || aop.transcendental) &&
  (aop != .dp || rop.dot) &&
  (f.rgbOmod != .disabled || (rop.selects && !f.rgbClamp)) &&
  (f.alphaOmod != .disabled || (aop.selects && !f.alphaClamp))

/-- The combinations and source addresses that an ALU or OUTPUT slot must avoid, and targets with a code (R150, R156, R168). -/
def AluInst.wellFormed (rop : RgbOp) (aop : AlphaOp) (f : AluInst) : Bool :=
  aluCombinationOk rop aop f && f.rgbAddr.ok && f.alphaAddr.ok && f.rgbTarget.encodable && f.alphaTarget.encodable

/-- "you must also set TEX_SEM_WAIT for that instruction" (R156, R369). -/
def TexInst.wellFormed (f : TexInst) : Bool := !f.semAcquire || f.semWait

/-- "Flow control predication cannot be per-channel" (R156, R386). -/
def FcInst.wellFormed (f : FcInst) : Bool := f.predSel != .rgba

/-- The bits of a format parameter that are not reserved (R137). -/
def formatBits : Word := 0x07031FFC#32

/-- No bit outside `used` is set (R139). -/
def onlyBits (used p : Word) : Bool := p &&& ~~~used == 0#32

/-- Reserved bits of the parameters are zero (R138, R139); all 32 bits of a base address are accepted (R136). -/
def Instr.commandWellFormed : Instr → Bool
  | .initPerfCounters p => onlyBits 1#32 p
  | .readPerfCounters _ => true
  | .setCondVal _ => true
  | .setDomain i0 j0 i1 j1 => onlyBits 0xFFF#32 i0 && onlyBits 0xFFF#32 j0 && onlyBits 0xFFF#32 i1 && onlyBits 0xFFF#32 j1
  | .setInstFmt _ f | .setConstfFmt _ f | .setConstiFmt _ f | .setConstbFmt _ f => onlyBits formatBits f
  | .setInpFmt k _ f h => onlyBits 0xF#32 k && onlyBits formatBits f && onlyBits 0x1FFF#32 h
  | .setOutFmt k _ f h => onlyBits 0x3#32 k && onlyBits formatBits f && onlyBits 0x1FFF#32 h
  | .setCondOutFmt _ f h => onlyBits formatBits f && onlyBits 0x1FFF#32 h
  | .setOutMask p => onlyBits 0xF#32 p
  | .setCondOutMask p => onlyBits 1#32 p
  | .setCondTest p => onlyBits 7#32 p
  | .setCondLoc p => onlyBits 1#32 p
  | .startPerfCounters p | .stopPerfCounters p | .startProgram p | .waitForIdle p | .invInstCache p | .invConstfCache p
  | .invConstiCache p | .invConstbCache p | .invCondOutCache p | .invInpCache p | .flushOutCache p
  | .flushCondOutCache p => onlyBits 0#32 p
  | _ => true

/-- The rows named by an alpha operation. -/
def Instr.isAlphaRow : Instr → Bool
  | .opAlphaMad _ _ | .opAlphaMin _ _ | .opAlphaMax _ _ | .opAlphaCnd _ _ | .opAlphaCmp _ _ | .opAlphaFrc _ _
  | .opAlphaDp _ _ | .opAlphaEx2 _ _ | .opAlphaLn2 _ _ | .opAlphaRcp _ _ | .opAlphaRsq _ _ | .opAlphaSin _ _
  | .opAlphaCos _ _ => true
  | _ => false

/-- The slot carries the name its fields give it (log 7). -/
def Instr.canonicalName (i : Instr) : Bool :=
  match i.alu? with
  | some (r, a, f) => f.namedByAlpha r a == i.isAlphaRow
  | none => true

/-- An instruction that the manual accepts and that the layout can hold. -/
def Instr.wellFormed (i : Instr) : Bool :=
  i.commandWellFormed && i.canonicalName &&
  (match i.alu? with
   | some (r, a, f) => f.wellFormed r a
   | none => true) &&
  (match i.tex? with
   | some (_, f) => f.wellFormed
   | none => true) &&
  (match i.fc? with
   | some (_, f) => f.wellFormed
   | none => true)

end Sys2Proof
end

