-- ==== Sys2Proof/Decode.lean ====
section
/-! DEFINITION. Decoding and encoding. Commands: 30_encoding.md rules R130 to R134. DPP slots: the layout K1 of rules
R165 to R172 (PRESUMED, log 4), as one instance of the parameter `InstLayout` (R14, D1). -/

namespace Sys2Proof

/-- Why a decoder refuses its input. -/
inductive DecodeError where
  /-- the first word is no opcode of R132 -/
  | badCommand (w : Word)
  /-- the input ends inside an instruction (R131) -/
  | truncated
  /-- an unused field code (R149, R152, R154) -/
  | invalidEncoding
deriving DecidableEq, Repr

/-- The little-endian word of four bytes, first byte lowest (R82, D2). -/
def wordOfBytes (b0 b1 b2 b3 : Byte) : Word :=
  BitVec.ofNat 32 (b0.toNat + b1.toNat * 2 ^ 8 + b2.toNat * 2 ^ 16 + b3.toNat * 2 ^ 24)

/-- Byte k of a word as it lies in memory (R82). -/
def byteOfWord (w : Word) (k : Nat) : Byte := BitVec.ofNat 8 (w.toNat / 2 ^ (8 * k))

def bytesOfWord (w : Word) : List Byte := [byteOfWord w 0, byteOfWord w 1, byteOfWord w 2, byteOfWord w 3]

/-- The words of a byte sequence; bytes after the last whole word are dropped. -/
def wordsOfBytes : List Byte → List Word
  | b0 :: b1 :: b2 :: b3 :: rest => wordOfBytes b0 b1 b2 b3 :: wordsOfBytes rest
  | _ => []

def bytesOfWords (ws : List Word) : List Byte := ws.flatMap bytesOfWord

/-- Bits `lo + len - 1 .. lo` of a word (R7). -/
def field (w : Word) (lo len : Nat) : Nat := w.toNat / 2 ^ lo % 2 ^ len

def fieldBool (w : Word) (lo : Nat) : Bool := field w lo 1 == 1

def fieldBits (w : Word) (lo len : Nat) : BitVec len := BitVec.ofNat len (field w lo len)

/-- A word with the given values at the given low bits. -/
def packWord (fs : List (Nat × Nat)) : Word := BitVec.ofNat 32 ((fs.map fun f => f.2 * 2 ^ f.1).sum)

/-- The opcode of each command and its number of parameter words, transcribed from R132. -/
def commandParams (w : Word) : Option Nat :=
  match w.toNat with
  | 0xC0010200 => some 1
  | 0xC0000300 => some 1
  | 0xC0000400 => some 1
  | 0xC0010500 => some 1
  | 0xC0000600 => some 1
  | 0xC0030700 => some 4
  | 0xC0000800 => some 1
  | 0xC0000900 => some 1
  | 0xC0010A00 => some 2
  | 0xC0030B00 => some 4
  | 0xC0030C00 => some 4
  | 0xC0020D00 => some 3
  | 0xC0010E00 => some 2
  | 0xC0010F00 => some 2
  | 0xC0011000 => some 2
  | 0xC0001100 => some 1
  | 0xC0001200 => some 1
  | 0xC0001300 => some 1
  | 0xC0001400 => some 1
  | 0xC0001500 => some 1
  | 0xC0001600 => some 1
  | 0xC0001700 => some 1
  | 0xC0001800 => some 1
  | 0xC0001900 => some 1
  | 0xC0001A00 => some 1
  | 0xC0001B00 => some 1
  | 0xC0001C00 => some 1
  | _ => none

/-- Read one command from the words at the read position (R131): the whole opcode word must match. -/
def decodeCommand : List Word → Except DecodeError Instr
  | [] => .error .truncated
  | w :: ps =>
    match w.toNat, ps with
    | 0xC0010200, p :: _ => .ok (.initPerfCounters p)
    | 0xC0000300, p :: _ => .ok (.startPerfCounters p)
    | 0xC0000400, p :: _ => .ok (.stopPerfCounters p)
    | 0xC0010500, p :: _ => .ok (.readPerfCounters p)
    | 0xC0000600, p :: _ => .ok (.setCondVal p)
    | 0xC0030700, p :: q :: r :: t :: _ => .ok (.setDomain p q r t)
    | 0xC0000800, p :: _ => .ok (.startProgram p)
    | 0xC0000900, p :: _ => .ok (.waitForIdle p)
    | 0xC0010A00, p :: q :: _ => .ok (.setInstFmt p q)
    | 0xC0030B00, p :: q :: r :: t :: _ => .ok (.setInpFmt p q r t)
    | 0xC0030C00, p :: q :: r :: t :: _ => .ok (.setOutFmt p q r t)
    | 0xC0020D00, p :: q :: r :: _ => .ok (.setCondOutFmt p q r)
    | 0xC0010E00, p :: q :: _ => .ok (.setConstfFmt p q)
    | 0xC0010F00, p :: q :: _ => .ok (.setConstiFmt p q)
    | 0xC0011000, p :: q :: _ => .ok (.setConstbFmt p q)
    | 0xC0001100, p :: _ => .ok (.invInstCache p)
    | 0xC0001200, p :: _ => .ok (.invConstfCache p)
    | 0xC0001300, p :: _ => .ok (.invConstiCache p)
    | 0xC0001400, p :: _ => .ok (.invConstbCache p)
    | 0xC0001500, p :: _ => .ok (.invCondOutCache p)
    | 0xC0001600, p :: _ => .ok (.invInpCache p)
    | 0xC0001700, p :: _ => .ok (.flushOutCache p)
    | 0xC0001800, p :: _ => .ok (.flushCondOutCache p)
    | 0xC0001900, p :: _ => .ok (.setOutMask p)
    | 0xC0001A00, p :: _ => .ok (.setCondOutMask p)
    | 0xC0001B00, p :: _ => .ok (.setCondTest p)
    | 0xC0001C00, p :: _ => .ok (.setCondLoc p)
    | _, _ => .error (if (commandParams w).isSome then .truncated else .badCommand w)

/-! Codes of the enumerations under K1. -/

def PredSel.ofCode : Nat → Option PredSel
  | 0 => some .none
  | 1 => some .rgba
  | 2 => some .rrrr
  | 3 => some .gggg
  | 4 => some .bbbb
  | 5 => some .aaaa
  | _ => Option.none

def PredSel.code : PredSel → Nat
  | .none => 0
  | .rgba => 1
  | .rrrr => 2
  | .gggg => 3
  | .bbbb => 4
  | .aaaa => 5

/-- R170; codes 6, 11 to 15 name no operation of the manual. -/
def RgbOp.ofCode : Nat → Option RgbOp
  | 0 => some .mad
  | 1 => some .dp3
  | 2 => some .dp4
  | 3 => some .d2a
  | 4 => some .min
  | 5 => some .max
  | 7 => some .cnd
  | 8 => some .cmp
  | 9 => some .frc
  | 10 => some .sop
  | _ => none

def RgbOp.code : RgbOp → Nat
  | .mad => 0
  | .dp3 => 1
  | .dp4 => 2
  | .d2a => 3
  | .min => 4
  | .max => 5
  | .cnd => 7
  | .cmp => 8
  | .frc => 9
  | .sop => 10

/-- R169; codes 4, 14, 15 name no operation of the manual. -/
def AlphaOp.ofCode : Nat → Option AlphaOp
  | 0 => some .mad
  | 1 => some .dp
  | 2 => some .min
  | 3 => some .max
  | 5 => some .cnd
  | 6 => some .cmp
  | 7 => some .frc
  | 8 => some .ex2
  | 9 => some .ln2
  | 10 => some .rcp
  | 11 => some .rsq
  | 12 => some .sin
  | 13 => some .cos
  | _ => none

def AlphaOp.code : AlphaOp → Nat
  | .mad => 0
  | .dp => 1
  | .min => 2
  | .max => 3
  | .cnd => 5
  | .cmp => 6
  | .frc => 7
  | .ex2 => 8
  | .ln2 => 9
  | .rcp => 10
  | .rsq => 11
  | .sin => 12
  | .cos => 13

def SrcSel.ofCode : Nat → SrcSel
  | 0 => .src0
  | 1 => .src1
  | 2 => .src2
  | _ => .srcp

def SrcSel.code : SrcSel → Nat
  | .src0 => 0
  | .src1 => 1
  | .src2 => 2
  | .srcp => 3

/-- R168; code 7 is unused (R279). -/
def Swz.ofCode : Nat → Option Swz
  | 0 => some .r
  | 1 => some .g
  | 2 => some .b
  | 3 => some .a
  | 4 => some .zero
  | 5 => some .half
  | 6 => some .one
  | _ => none

def Swz.code : Swz → Nat
  | .r => 0
  | .g => 1
  | .b => 2
  | .a => 3
  | .zero => 4
  | .half => 5
  | .one => 6

def IMod.ofCode : Nat → IMod
  | 0 => .off
  | 1 => .neg
  | 2 => .abs
  | _ => .nab

def IMod.code : IMod → Nat
  | .off => 0
  | .neg => 1
  | .abs => 2
  | .nab => 3

def OMod.ofCode : Nat → OMod
  | 0 => .u1
  | 1 => .u2
  | 2 => .u4
  | 3 => .u8
  | 4 => .d2
  | 5 => .d4
  | 6 => .d8
  | _ => .disabled

def OMod.code : OMod → Nat
  | .u1 => 0
  | .u2 => 1
  | .u4 => 2
  | .u8 => 3
  | .d2 => 4
  | .d4 => 5
  | .d8 => 6
  | .disabled => 7

def SrcpOp.ofCode : Nat → SrcpOp
  | 0 => .bias
  | 1 => .sub
  | 2 => .add
  | _ => .inv

def SrcpOp.code : SrcpOp → Nat
  | .bias => 0
  | .sub => 1
  | .add => 2
  | .inv => 3

def CmpOp.ofCode : Nat → CmpOp
  | 0 => .equal
  | 1 => .less
  | 2 => .greaterEqual
  | _ => .notEqual

def CmpOp.code : CmpOp → Nat
  | .equal => 0
  | .less => 1
  | .greaterEqual => 2
  | .notEqual => 3

def Target.ofCode : Nat → Target
  | 0 => .t0
  | 1 => .t1
  | 2 => .t2
  | _ => .t3

/-- The codes of the UMRT targets are not known (R168); they are written as target A and are not well formed. -/
def Target.code : Target → Nat
  | .t1 => 1
  | .t2 => 2
  | .t3 => 3
  | _ => 0

def Chan.ofCode : Nat → Chan
  | 0 => .r
  | 1 => .g
  | 2 => .b
  | _ => .a

def ResultSel.ofCode : Nat → ResultSel
  | 0 => .red
  | _ => .alpha

def ResultSel.code : ResultSel → Nat
  | .red => 0
  | .alpha => 1

def AOp.ofCode : Nat → Option AOp
  | 0 => some .none
  | 1 => some .pop
  | 2 => some .push
  | _ => Option.none

def AOp.code : AOp → Nat
  | .none => 0
  | .pop => 1
  | .push => 2

def BOp.ofCode : Nat → Option BOp
  | 0 => some .none
  | 1 => some .decr
  | 2 => some .incr
  | _ => Option.none

def BOp.code : BOp → Nat
  | .none => 0
  | .decr => 1
  | .incr => 2

/-- R171; the code of LOOKUP_UNCACHED is not known to the spec: 7, a code that names no operation (DESIGN CHOICE,
log 6). -/
def TexOp.ofCode : Nat → Option TexOp
  | 0 => some .nop
  | 1 => some .lookup
  | 2 => some .killLt0
  | 3 => some .lookupProj
  | 7 => some .lookupUncached
  | _ => none

def TexOp.code : TexOp → Nat
  | .nop => 0
  | .lookup => 1
  | .killLt0 => 2
  | .lookupProj => 3
  | .lookupUncached => 7

/-- R172. -/
def FcOp.ofCode : Nat → FcOp
  | 0 => .jump
  | 1 => .loop
  | 2 => .endloop
  | 3 => .rep
  | 4 => .endrep
  | 5 => .breakloop
  | 6 => .breakrep
  | _ => .cont

def FcOp.code : FcOp → Nat
  | .jump => 0
  | .loop => 1
  | .endloop => 2
  | .rep => 3
  | .endrep => 4
  | .breakloop => 5
  | .breakrep => 6
  | .cont => 7

def Instr.ofTex (op : TexOp) (f : TexInst) : Instr :=
  match op with
  | .nop => .texNop f
  | .lookup => .texLookup f
  | .killLt0 => .texKillLt0 f
  | .lookupProj => .texLookupProj f
  | .lookupUncached => .texLookupUncached f

def Instr.ofFc (op : FcOp) (f : FcInst) : Instr :=
  match op with
  | .jump => .fcJump f
  | .loop => .fcLoop f
  | .endloop => .fcEndloop f
  | .rep => .fcRep f
  | .endrep => .fcEndrep f
  | .breakloop => .fcBreakloop f
  | .breakrep => .fcBreakrep f
  | .cont => .fcContinue f

/-! The words of a slot under K1: for each, the decoder and the encoder. -/

/-- Ten bits of R167 from bit `lo` on. -/
def decodeSrcAddr (w : Word) (lo : Nat) : SrcAddr :=
  { addr := fieldBits w lo 8, const := fieldBool w (lo + 8), rel := fieldBool w (lo + 9) }

def decodeAddrWord (w : Word) : AddrWord :=
  { s0 := decodeSrcAddr w 0, s1 := decodeSrcAddr w 10, s2 := decodeSrcAddr w 20, srcp := SrcpOp.ofCode (field w 30 2) }

def SrcAddr.fields (s : SrcAddr) (lo : Nat) : List (Nat × Nat) :=
  [(lo, s.addr.toNat), (lo + 8, s.const.toNat), (lo + 9, s.rel.toNat)]

def encodeAddrWord (a : AddrWord) : Word :=
  packWord (a.s0.fields 0 ++ a.s1.fields 10 ++ a.s2.fields 20 ++ [(30, a.srcp.code)])

/-- Thirteen bits of an RGB operand from bit `lo` on (R168, R170). -/
def decodeRgbOperand (w : Word) (lo : Nat) : Option RgbOperand := do
  let red ← Swz.ofCode (field w (lo + 2) 3)
  let green ← Swz.ofCode (field w (lo + 5) 3)
  let blue ← Swz.ofCode (field w (lo + 8) 3)
  return { sel := SrcSel.ofCode (field w lo 2), red, green, blue, mod := IMod.ofCode (field w (lo + 11) 2) }

def RgbOperand.fields (o : RgbOperand) (lo : Nat) : List (Nat × Nat) :=
  [(lo, o.sel.code), (lo + 2, o.red.code), (lo + 5, o.green.code), (lo + 8, o.blue.code), (lo + 11, o.mod.code)]

/-- Seven bits of an alpha operand from bit `lo` on (R169, R170). -/
def decodeAlphaOperand (w : Word) (lo : Nat) : Option AlphaOperand := do
  let swz ← Swz.ofCode (field w (lo + 2) 3)
  return { sel := SrcSel.ofCode (field w lo 2), swz, mod := IMod.ofCode (field w (lo + 5) 2) }

def AlphaOperand.fields (o : AlphaOperand) (lo : Nat) : List (Nat × Nat) :=
  [(lo, o.sel.code), (lo + 2, o.swz.code), (lo + 5, o.mod.code)]

/-- An ALU or OUTPUT slot (R165 to R170). -/
def decodeAlu (s : Slot) : Option (RgbOp × AlphaOp × AluInst) := do
  let rgbPredSel ← PredSel.ofCode (field s.w0 3 3)
  let alphaPredSel ← PredSel.ofCode (field s.w0 25 3)
  let rgbA ← decodeRgbOperand s.w3 0
  let rgbB ← decodeRgbOperand s.w3 13
  let aop ← AlphaOp.ofCode (field s.w4 0 4)
  let alphaA ← decodeAlphaOperand s.w4 12
  let alphaB ← decodeAlphaOperand s.w4 19
  let rop ← RgbOp.ofCode (field s.w5 0 4)
  let rgbC ← decodeRgbOperand s.w5 12
  let alphaC ← decodeAlphaOperand s.w5 25
  return (rop, aop,
    { isOutput := fieldBool s.w0 0
      semWait := fieldBool s.w0 2
      rgbPredSel
      rgbPredInv := fieldBool s.w0 6
      alphaPredSel
      alphaPredInv := fieldBool s.w0 22
      writeInactive := fieldBool s.w0 7
      last := fieldBool s.w0 8
      nop := fieldBool s.w0 9
      rgbWmask := fieldBits s.w0 11 3
      alphaWmask := fieldBool s.w0 14
      rgbOmask := fieldBits s.w0 15 3
      alphaOmask := fieldBool s.w0 18
      rgbClamp := fieldBool s.w0 19
      alphaClamp := fieldBool s.w0 20
      resultSel := ResultSel.ofCode (field s.w0 21 1)
      resultOp := CmpOp.ofCode (field s.w0 23 2)
      rgbAddr := decodeAddrWord s.w1
      alphaAddr := decodeAddrWord s.w2
      rgbA, rgbB, rgbC, alphaA, alphaB, alphaC
      rgbOmod := OMod.ofCode (field s.w3 26 3)
      alphaOmod := OMod.ofCode (field s.w4 26 3)
      rgbDst := fieldBits s.w5 4 7
      rgbDstRel := fieldBool s.w5 11
      alphaDst := fieldBits s.w4 4 7
      alphaDstRel := fieldBool s.w4 11
      rgbTarget := Target.ofCode (field s.w3 29 2)
      alphaTarget := Target.ofCode (field s.w4 29 2)
      wOmask := fieldBool s.w4 31
      aluWmask := fieldBool s.w3 31 })

def encodeAlu (rop : RgbOp) (aop : AlphaOp) (f : AluInst) : Slot where
  w0 := packWord
    [(0, f.isOutput.toNat), (2, f.semWait.toNat), (3, f.rgbPredSel.code), (6, f.rgbPredInv.toNat),
     (7, f.writeInactive.toNat), (8, f.last.toNat), (9, f.nop.toNat), (11, f.rgbWmask.toNat), (14, f.alphaWmask.toNat),
     (15, f.rgbOmask.toNat), (18, f.alphaOmask.toNat), (19, f.rgbClamp.toNat), (20, f.alphaClamp.toNat),
     (21, f.resultSel.code), (22, f.alphaPredInv.toNat), (23, f.resultOp.code), (25, f.alphaPredSel.code)]
  w1 := encodeAddrWord f.rgbAddr
  w2 := encodeAddrWord f.alphaAddr
  w3 := packWord
    (f.rgbA.fields 0 ++ f.rgbB.fields 13 ++ [(26, f.rgbOmod.code), (29, f.rgbTarget.code), (31, f.aluWmask.toNat)])
  w4 := packWord
    ([(0, aop.code), (4, f.alphaDst.toNat), (11, f.alphaDstRel.toNat)] ++ f.alphaA.fields 12 ++ f.alphaB.fields 19 ++
     [(26, f.alphaOmod.code), (29, f.alphaTarget.code), (31, f.wOmask.toNat)])
  w5 := packWord
    ([(0, rop.code), (4, f.rgbDst.toNat), (11, f.rgbDstRel.toNat)] ++ f.rgbC.fields 12 ++ f.alphaC.fields 25)

/-- A texture slot (R165, R166, R171). -/
def decodeTex (s : Slot) : Option (TexOp × TexInst) := do
  let rgbPredSel ← PredSel.ofCode (field s.w0 3 3)
  let alphaPredSel ← PredSel.ofCode (field s.w0 25 3)
  let op ← TexOp.ofCode (field s.w1 22 3)
  return (op,
    { semWait := fieldBool s.w0 2
      rgbPredSel
      rgbPredInv := fieldBool s.w0 6
      alphaPredSel
      alphaPredInv := fieldBool s.w0 22
      writeInactive := fieldBool s.w0 7
      aluWait := fieldBool s.w0 10
      rgbWmask := fieldBits s.w0 11 3
      alphaWmask := fieldBool s.w0 14
      texId := fieldBits s.w1 16 4
      semAcquire := fieldBool s.w1 25
      ignoreUncovered := fieldBool s.w1 26
      unscaled := fieldBool s.w1 27
      srcAddr := fieldBits s.w2 0 7
      srcRel := fieldBool s.w2 7
      swzS := Chan.ofCode (field s.w2 8 2)
      swzT := Chan.ofCode (field s.w2 10 2)
      swzR := Chan.ofCode (field s.w2 12 2)
      swzQ := Chan.ofCode (field s.w2 14 2)
      dstAddr := fieldBits s.w2 16 7
      dstRel := fieldBool s.w2 23
      dswzR := Chan.ofCode (field s.w2 24 2)
      dswzG := Chan.ofCode (field s.w2 26 2)
      dswzB := Chan.ofCode (field s.w2 28 2)
      dswzA := Chan.ofCode (field s.w2 30 2)
      dxdy := s.w3 })

def encodeTex (op : TexOp) (f : TexInst) : Slot where
  w0 := packWord
    [(0, 3), (2, f.semWait.toNat), (3, f.rgbPredSel.code), (6, f.rgbPredInv.toNat), (7, f.writeInactive.toNat),
     (10, f.aluWait.toNat), (11, f.rgbWmask.toNat), (14, f.alphaWmask.toNat), (22, f.alphaPredInv.toNat),
     (25, f.alphaPredSel.code)]
  w1 := packWord
    [(16, f.texId.toNat), (22, op.code), (25, f.semAcquire.toNat), (26, f.ignoreUncovered.toNat), (27, f.unscaled.toNat)]
  w2 := packWord
    [(0, f.srcAddr.toNat), (7, f.srcRel.toNat), (8, f.swzS.idx), (10, f.swzT.idx), (12, f.swzR.idx), (14, f.swzQ.idx),
     (16, f.dstAddr.toNat), (23, f.dstRel.toNat), (24, f.dswzR.idx), (26, f.dswzG.idx), (28, f.dswzB.idx),
     (30, f.dswzA.idx)]
  w3 := f.dxdy
  w4 := 0#32
  w5 := 0#32

/-- A flow-control slot (R165, R166, R172). -/
def decodeFc (s : Slot) : Option (FcOp × FcInst) := do
  let predSel ← PredSel.ofCode (field s.w0 3 3)
  let aOp ← AOp.ofCode (field s.w2 6 2)
  let bOp0 ← BOp.ofCode (field s.w2 24 2)
  let bOp1 ← BOp.ofCode (field s.w2 26 2)
  return (FcOp.ofCode (field s.w2 0 3),
    { semWait := fieldBool s.w0 2
      predSel
      predInv := fieldBool s.w0 6
      aluWait := fieldBool s.w0 10
      jumpFunc := fieldBits s.w2 8 8
      jumpAny := fieldBool s.w2 5
      aOp, bOp0, bOp1
      bPopCnt := fieldBits s.w2 16 5
      bElse := fieldBool s.w2 4
      ignoreUncovered := fieldBool s.w2 28
      boolAddr := fieldBits s.w3 0 5
      intAddr := fieldBits s.w3 8 5
      jumpAddr := fieldBits s.w3 16 9
      jumpGlobal := fieldBool s.w3 31 })

def encodeFc (op : FcOp) (f : FcInst) : Slot where
  w0 := packWord [(0, 2), (2, f.semWait.toNat), (3, f.predSel.code), (6, f.predInv.toNat), (10, f.aluWait.toNat)]
  w1 := 0#32
  w2 := packWord
    [(0, op.code), (4, f.bElse.toNat), (5, f.jumpAny.toNat), (6, f.aOp.code), (8, f.jumpFunc.toNat),
     (16, f.bPopCnt.toNat), (24, f.bOp0.code), (26, f.bOp1.code), (28, f.ignoreUncovered.toNat)]
  w3 := packWord [(0, f.boolAddr.toNat), (8, f.intAddr.toNat), (16, f.jumpAddr.toNat), (31, f.jumpGlobal.toNat)]
  w4 := 0#32
  w5 := 0#32

/-- The row that names an ALU or OUTPUT slot (log 7). -/
def nameAlu (rop : RgbOp) (aop : AlphaOp) (f : AluInst) : Instr :=
  if f.namedByAlpha rop aop then Instr.ofAlpha aop rop f else Instr.ofRgb rop aop f

/-- The record of the six words of a slot under K1, one `InstLayout` (R148, R165 to R172). -/
def decodeSlot (s : Slot) : Except DecodeError Instr :=
  match field s.w0 0 2 with
  | 2 =>
    match decodeFc s with
    | some (op, f) => .ok (Instr.ofFc op f)
    | none => .error .invalidEncoding
  | 3 =>
    match decodeTex s with
    | some (op, f) => .ok (Instr.ofTex op f)
    | none => .error .invalidEncoding
  | _ =>
    match decodeAlu s with
    | some (rop, aop, f) => .ok (nameAlu rop aop f)
    | none => .error .invalidEncoding

/-- An instruction of a processor, no command. -/
def Instr.isDpp (i : Instr) : Bool := i.alu?.isSome || i.tex?.isSome || i.fc?.isSome

/-- The record of the six words of a slot under any `InstLayout` (R14, R148, D1; log 4): K1 is the one the decoder can evaluate, every
other one is free but for standing for DPP instructions. -/
def InstLayout.decode (layout : InstLayout) (s : Slot) : Except DecodeError Instr :=
  match layout with
  | .k1 => decodeSlot s
  | .other n =>
    match Config.instLayout n s with
    | some i => if i.isDpp then .ok i else .error .invalidEncoding
    | none => .error .invalidEncoding

/-- The six words of a DPP instruction under K1; a command has none. -/
def encodeSlot (i : Instr) : Option Slot :=
  match i.alu?, i.tex?, i.fc? with
  | some (rop, aop, f), _, _ => some (encodeAlu rop aop f)
  | _, some (op, f), _ => some (encodeTex op f)
  | _, _, some (op, f) => some (encodeFc op f)
  | _, _, _ => none

/-- The opcode and parameter words of a command (R132). -/
def encodeCommand : Instr → Option (List Word)
  | .initPerfCounters p => some [0xC0010200#32, p]
  | .startPerfCounters p => some [0xC0000300#32, p]
  | .stopPerfCounters p => some [0xC0000400#32, p]
  | .readPerfCounters p => some [0xC0010500#32, p]
  | .setCondVal p => some [0xC0000600#32, p]
  | .setDomain p q r t => some [0xC0030700#32, p, q, r, t]
  | .startProgram p => some [0xC0000800#32, p]
  | .waitForIdle p => some [0xC0000900#32, p]
  | .setInstFmt p q => some [0xC0010A00#32, p, q]
  | .setInpFmt p q r t => some [0xC0030B00#32, p, q, r, t]
  | .setOutFmt p q r t => some [0xC0030C00#32, p, q, r, t]
  | .setCondOutFmt p q r => some [0xC0020D00#32, p, q, r]
  | .setConstfFmt p q => some [0xC0010E00#32, p, q]
  | .setConstiFmt p q => some [0xC0010F00#32, p, q]
  | .setConstbFmt p q => some [0xC0011000#32, p, q]
  | .invInstCache p => some [0xC0001100#32, p]
  | .invConstfCache p => some [0xC0001200#32, p]
  | .invConstiCache p => some [0xC0001300#32, p]
  | .invConstbCache p => some [0xC0001400#32, p]
  | .invCondOutCache p => some [0xC0001500#32, p]
  | .invInpCache p => some [0xC0001600#32, p]
  | .flushOutCache p => some [0xC0001700#32, p]
  | .flushCondOutCache p => some [0xC0001800#32, p]
  | .setOutMask p => some [0xC0001900#32, p]
  | .setCondOutMask p => some [0xC0001A00#32, p]
  | .setCondTest p => some [0xC0001B00#32, p]
  | .setCondLoc p => some [0xC0001C00#32, p]
  | _ => none

def Slot.words (s : Slot) : List Word := [s.w0, s.w1, s.w2, s.w3, s.w4, s.w5]

/-- The words of any instruction. -/
def encode (i : Instr) : List Word :=
  match encodeCommand i with
  | some ws => ws
  | none =>
    match encodeSlot i with
    | some s => s.words
    | none => []

/-- The slot whose words lie first in a list. -/
def slotOfWords : List Word → Option Slot
  | w0 :: w1 :: w2 :: w3 :: w4 :: w5 :: _ => some ⟨w0, w1, w2, w3, w4, w5⟩
  | _ => none

/-- Read one instruction of either level: a command where the first word is an opcode of R132, else a DPP slot. No slot
that `encodeSlot` writes begins with such a word, since bits 31:28 of `CMN_INST` are zero there. -/
def decodeWords (ws : List Word) : Except DecodeError Instr :=
  match ws with
  | [] => .error .truncated
  | w :: _ =>
    if (commandParams w).isSome then decodeCommand ws
    else
      match slotOfWords ws with
      | some s => decodeSlot s
      | none => .error .truncated

/-- Read one instruction from bytes in memory order (R82). -/
def decodeBytes (bs : List Byte) : Except DecodeError Instr := decodeWords (wordsOfBytes bs)

/-- The low 192 bits of a number as bytes, lowest first. -/
def tableBytes (w : Nat) : List Byte := (List.range 24).map fun k => BitVec.ofNat 8 (w / 2 ^ (8 * k))

/-- The instruction that the decoder reads from the bits `w` (bit 0 the least significant bit of the first word). -/
def decodeTableWord (nbits w : Nat) : Option Instr :=
  match decodeBytes (tableBytes (w % 2 ^ nbits)) with
  | .ok i => some i
  | .error _ => none

end Sys2Proof
end

