-- ==== Sys2Proof/Machine/Tables.lean ====
section
/-! DEFINITION. Tables: lists of (key, value) with strictly rising keys, the form of memory, of every cache and of the register
files of a processor. -/

namespace Sys2Proof.Machine

/-- The value at a key. -/
def tabFind {α : Type} : List (Nat × α) → Nat → Option α
  | [], _ => none
  | (k, v) :: rest, key => if k = key then some v else tabFind rest key

/-- Set the value at a key. -/
def tabPut {α : Type} : List (Nat × α) → Nat → α → List (Nat × α)
  | [], key, v => [(key, v)]
  | (k, w) :: rest, key, v =>
    if key < k then (key, v) :: (k, w) :: rest
    else if k = key then (key, v) :: rest
    else (k, w) :: tabPut rest key v

/-- Remove a key. -/
def tabDel {α : Type} : List (Nat × α) → Nat → List (Nat × α)
  | [], _ => []
  | (k, w) :: rest, key => if k = key then rest else (k, w) :: tabDel rest key

/-- The keys rise strictly. -/
def tabSorted {α : Type} : List (Nat × α) → Bool
  | [] => true
  | [_] => true
  | (k, _) :: (k', w) :: rest => decide (k < k') && tabSorted ((k', w) :: rest)

/-- A byte table of the 32-bit address space: keys rise strictly and are addresses. -/
def bytesWf (t : List Host.Cell) : Bool := tabSorted t && t.all fun c => decide (c.1 < 2 ^ 32)

/-- The table that a list of addresses and bytes stands for; a later entry replaces an earlier one of the same address. -/
def tableOf (cs : List (Word × Byte)) : List Host.Cell := cs.foldl (fun t c => tabPut t c.1.toNat c.2) []

end Sys2Proof.Machine
end

