-- ==== Sys2Proof/Machine/State.lean ====
section
/-! DEFINITION. The state of the device (10_state.md) as plain data, the reasons a step can stop (60_exceptions.md rule
R542), and the state after reset (10_state.md rule R73). -/

namespace Sys2Proof.Machine

/-! ## Platform parameters (R14), held as data so that a statement about every state holds for every platform -/

/-- What `MemMap` says of an address (R80). -/
inductive MemKind where
  | local | remote
deriving DecidableEq, Repr

/-- `size` bytes from `base` on are mapped; an address in no region is unmapped (R80, R81). -/
structure Region where
  base : Nat
  size : Nat
  kind : MemKind
deriving DecidableEq, Repr

/-- What a flow-control jump past the end address leads to: R548 lets the program go on at a slot inside it, R50 and R334 have the fetch
stop with `PcOutOfRange`. A device does the one or the other (log 36). -/
inductive EndJump where
  | runs | stops
deriving DecidableEq, Repr

/-- `NPROC`, `MemMap` and `InstLayout` (R14, D1, D3, D13), and the reading of a jump past the end address (log 36). No step changes them.
The array has one processor and `moreProcs` beside it, so that it always has one or more (R14). -/
structure Platform where
  moreProcs : Nat
  memMap : List Region
  layout : InstLayout
  endJump : EndJump
deriving DecidableEq, Repr

/-! ## The MC: descriptors, masks, memory, caches -/

/-- The tiling field (R35). -/
inductive Tiling where
  | linear | tiled | linear2x2 | tiled2x2
deriving DecidableEq, Repr

/-- A descriptor (R34): the base has its low 11 bits zero, the pitch its low two. -/
structure Desc where
  base : Word
  pitch : BitVec 13
  tiling : Tiling
  format : BitVec 3
deriving DecidableEq, Repr

/-- A descriptor with a height: inputs, outputs, conditional output (R34, R92). -/
structure TallDesc where
  desc : Desc
  height : BitVec 13
deriving DecidableEq, Repr

/-- The 25 descriptors (R34). -/
structure Descs where
  inst : Desc
  constf : Desc
  consti : Desc
  constb : Desc
  inp : Vector TallDesc 16
  out : Vector TallDesc 4
  condOut : TallDesc
deriving DecidableEq, Repr

/-- The control state of the MC (R34, R38, R39). -/
structure McRegs where
  descs : Descs
  outMask : BitVec 4
  condOutMask : Bool
deriving DecidableEq, Repr

/-- The bytes of MC memory that differ from what an unlisted address reads as, addresses strictly rising (R71, R117). -/
abbrev Memory := List Host.Cell

/-- A read cache (R40, R95): the bytes it holds. -/
structure ReadCache where
  bytes : List Host.Cell
deriving DecidableEq, Repr

/-- The conditional output cache (R40, R101): clean bytes, which may be stale, and dirty bytes. -/
structure CondCache where
  clean : ReadCache
  dirty : List Host.Cell
deriving DecidableEq, Repr

/-- Main memory and the seven caches (R40, R71). -/
structure MemSys where
  ram : Memory
  inst : ReadCache
  constf : ReadCache
  consti : ReadCache
  constb : ReadCache
  inp : ReadCache
  out : List Host.Cell
  cond : CondCache
deriving DecidableEq, Repr

/-! ## The CO -/

/-- The state of the CO: `cond_test` (R32), `cond_loc`, true for the PE (R33), and whether the CO has accessed an unmapped address and
takes no further step (R20, R81, D13). -/
structure CoRegs where
  test : BitVec 3
  loc : Bool
  stuck : Bool
deriving DecidableEq, Repr

/-! ## Programs and launches -/

/-- `BreakInhibit` (R418, D49). -/
inductive BreakInhibit where
  | all | inner
deriving DecidableEq, Repr

/-- The loaded program but for its text: the per-program header words (R488), the contents of the notes (R491 to R496), and
the launch parameters `OFFSET_ADDR` (R392) and `BreakInhibit` (R418). -/
structure Program where
  fgDepthSrc : Word
  usConfig : Word
  usPixsize : Word
  usFcCtrl : Word
  usCodeAddr : Word
  usCodeRange : Word
  instrCnt : Word
  inputs : List Nat
  outputs : List Nat
  condOutput : Bool
  floatConsts : List Nat
  intConsts : List Nat
  earlyExit : Bool
  offsetAddr : Nat
  breakInhibit : BreakInhibit
deriving DecidableEq, Repr

/-- What a launch uses, as it was when its `start_program` was processed (R30, R105). -/
structure Snapshot where
  condVal : Word
  condTest : BitVec 3
  condLoc : Bool
  condOutMask : Bool
  outMask : BitVec 4
  descs : Descs
  prog : Program
  text : List Slot
deriving DecidableEq, Repr

/-- A pending launch (R29): the index pairs not yet handed to a processor. -/
structure Launch where
  env : Snapshot
  todo : List (BitVec 12 × BitVec 12)
deriving DecidableEq, Repr

/-! ## The PE -/

/-- A submitted command buffer: identifier, address, size in words (R523, R524). -/
structure Submission where
  id : Word
  addr : Word
  size : Word
deriving DecidableEq, Repr

/-- The current command buffer (R25): its submission, the address of the next word, the number of words that remain. -/
structure Current where
  sub : Submission
  pos : Word
  remaining : Nat
deriving DecidableEq, Repr

/-- The domain (R27). -/
structure Domain where
  i0 : BitVec 12
  j0 : BitVec 12
  i1 : BitVec 12
  j1 : BitVec 12
deriving DecidableEq, Repr

/-- The performance counters (R28). -/
structure Perf where
  enabled : Bool
  running : Bool
  total : Word
  active : Word
deriving DecidableEq, Repr

/-- The state of the PE (R25 to R29) and of the submission interface (R521 to R528). `stuck` says that the PE has
accessed an unmapped address, `distStuck` that its work distributor waits for a CO that is stuck: they take no further step (R81,
D13). -/
structure Pe where
  cur : Option Current
  queue : List Submission
  issued : List Word
  consumed : List Word
  isOpen : Bool
  condVal : Word
  domain : Domain
  perf : Perf
  launches : List Launch
  stuck : Bool
  distStuck : Bool
deriving DecidableEq, Repr

/-- The items of device state that a command sets and that R203 names. -/
inductive Item where
  | domain | condVal | condTest | condLoc | condOutMask | outMask | perfEnabled
  | inst | constf | consti | constb | condOut
  | inp (k : BitVec 4)
  | out (k : BitVec 2)
deriving DecidableEq, Repr

/-! ## Processors and groups -/

/-- Why a processor is loop-inactive (R404). -/
inductive OffKind where
  | brk | cont
deriving DecidableEq, Repr

/-- The state of one processor while it is busy (R47 to R64). `temps` and `outs` list the channels that this execution has
written, under the key 4 * register + channel, keys strictly rising; the `Set` fields say which of the bits beside them
it has written. `seed` is the number of this execution's free initial temporaries (R48). `outbox` is what a processor that has
halted has yet to write to its outputs, none before it has made its request to the CO (R334). `stuck` says that it has accessed
an unmapped address, or waits for a CO that is stuck, and takes no further step (R81, D13). -/
structure Lane where
  proc : Nat
  seed : Nat
  i : BitVec 12
  j : BitVec 12
  vIn : Word
  temps : List (Nat × Word)
  pred : Quad Bool
  predSet : Quad Bool
  ar : Bool
  arSet : Bool
  outs : List (Nat × Word)
  wout : Word
  woutSet : Bool
  active : Bool
  bcnt : Nat
  loopOff : Option (OffKind × Nat)
  covered : Bool
  semHeld : Bool
  texPending : List Nat
  semCover : List Nat
  outbox : Option (List Host.Cell)
  stuck : Bool
deriving DecidableEq, Repr

/-- LOOP or REP (R405). -/
inductive FrameKind where
  | loop | rep
deriving DecidableEq, Repr

/-- A frame of the loop stack (R58, R405): iterations still to run, the current one included, and aL. -/
structure Frame where
  kind : FrameKind
  count : Nat
  aL : Int
deriving DecidableEq, Repr

/-- An item of `alu_pending` (R588). -/
inductive AluItem where
  | temp (key : Nat)
  | pred (c : Chan)
  | ar
deriving DecidableEq, Repr

/-- `prev_inst` (R65): what the hazard rules ask of the instruction executed just before. -/
inductive Prev where
  | none
  /-- an ALU or OUTPUT instruction: its NOP bit and the register channels its static masks name (R590) -/
  | alu (nop : Bool) (dsts : List Nat)
  /-- a flow-control instruction: its TEX_SEM_WAIT bit (R594) -/
  | fc (semWait : Bool)
  | tex
deriving DecidableEq, Repr

/-- A group of processors with one program counter (R22). The loop and address stacks have their top first. -/
structure Group where
  env : Snapshot
  pc : Nat
  loopStack : List Frame
  addrStack : List Nat
  aluPending : List AluItem
  prev : Prev
  started : Bool
  halted : Bool
  lanes : List Lane
deriving DecidableEq, Repr

/-! ## The whole -/

/-- The state of the device. -/
structure State where
  platform : Platform
  mem : MemSys
  mc : McRegs
  co : CoRegs
  pe : Pe
  program : Option Program
  groups : List Group
  setItems : List Item
  turn : Turn
  draws : Nat
deriving DecidableEq, Repr

/-- A step that cannot be taken: the model faults of R542. Each is safe: where the spec gives no effect the model stops. The
third flavour of R541, an agent that is stuck, is no fault: it is the `stuck` fields of `Pe`, `CoRegs` and `Lane`. -/
inductive Fault where
  /-- the PE reads a word that is no opcode (R131, D5) -/
  | badCommand (w : Word)
  /-- a command's parameters run past the end of the buffer (R131, D11) -/
  | truncatedCommand
  /-- a reserved bit of a parameter is set (R139, D6) -/
  | reservedBits
  /-- a command that is not pipelined while a processor is busy or a launch pending (R135, D8) -/
  | notIdle
  /-- `start_program` with no program loaded (R203, R546) -/
  | unsetState
  /-- an index above 4095, a row at or past the height, a superfine neighbour at 4096 (R84, R91, R92) -/
  | indexRange
  /-- a request through a descriptor whose format is 5, 6 or 7 (R88, D44) -/
  | reservedFormat
  /-- a superfine input with more than one channel (R91, D44) -/
  | superfineMultiChannel
  /-- memory under a constant descriptor changes while a processor is busy (R104, D47) -/
  | constChanged
  /-- the text of a running program changes in memory (R105) -/
  | textChanged
  /-- an unused field code or a combination the manual calls invalid (R150, R152, R156, D31) -/
  | invalidEncoding
  /-- a register or constant number out of range after adding aL, or above US_PIXSIZE (R272) -/
  | registerRange
  /-- relative addressing outside any LOOP block (R59) -/
  | alInvalid
  /-- loop or address stack overflow, underflow, use in partial mode, or a frame of the wrong kind (R62, R405) -/
  | stackFault
  /-- a branch counter would pass 3 or 31 (R400) -/
  | branchCounterOverflow
  /-- the next instruction lies beyond the program (R548), or a jump has passed the end address on a device where that stops (R50, R334; log 36) -/
  | pcOutOfRange
  /-- the instruction at the end address is no OUTPUT or lacks TEX_SEM_WAIT (R334, R596) -/
  | badLastInstruction
  /-- a channel with a lookup in flight is read or written (R366) -/
  | texHazard
  /-- a TEX or FC instruction uses a pending ALU result without ALU_WAIT (R588) -/
  | aluHazard
  /-- a presubtract source was written by the previous instruction without NOP (R590) -/
  | nopHazard
  /-- a semaphore wait directly after a flow-control instruction that did not wait (R594) -/
  | semErratum
deriving DecidableEq, Repr

/-- An input that the model does not accept (R541). Each is safe. -/
inductive Refusal where
  /-- the instruction with this mnemonic has no meaning yet -/
  | notModelled (mnemonic : String)
  /-- an object, a program header, its notes or the uses that its instructions make are inconsistent (R483 to R497) -/
  | badProgram
  /-- a reserved bit of a program header is set (R488) -/
  | reservedHeaderBits
  /-- a program with US_CONFIG bit 0 set, or a UMRT target (R323, D27) -/
  | umrtUnsupported
  /-- LAST away from the end address, or an Early Exit note of 1 (R335, D22) -/
  | lastUnsupported
  /-- a library call on a closed handle, or close with work outstanding (R522) -/
  | badHandle
  /-- a submission that is misaligned or unmapped, or whose words are no commands, or a query of an unknown identifier (R525, R528) -/
  | badSubmission
  /-- a submission that ends inside a command (R525, R131) -/
  | truncatedCommand
  /-- the host changes a submitted buffer before it is consumed (R527) -/
  | bufferChanged
  /-- the host reaches for memory that is not remote (R81, R530) -/
  | hostAccess
  /-- a DPP instruction is asked for when no running group is to move: a processor instruction has no meaning without a
  processor (R21); `step` never asks so -/
  | noGroup
deriving DecidableEq, Repr

/-! ## Reset -/

/-- A descriptor that no command has set (log 1). -/
def Desc.unset : Desc := { base := 0#32, pitch := 0#13, tiling := .linear, format := 0#3 }

def TallDesc.unset : TallDesc := { desc := Desc.unset, height := 0#13 }

def Descs.unset : Descs :=
  { inst := Desc.unset, constf := Desc.unset, consti := Desc.unset, constb := Desc.unset
    inp := Vector.replicate 16 TallDesc.unset, out := Vector.replicate 4 TallDesc.unset, condOut := TallDesc.unset }

/-- A read cache right after reset: its content is unspecified (R41; log 11). -/
def ReadCache.atReset (k : CacheId) : ReadCache := { bytes := tableOf (Config.cacheAtReset k false) }

/-- The device right after it is opened (R72, R73, R521): no program, no buffer, every processor idle, the content of the seven caches
unspecified (R41, log 11), and every register for which R72 and R73 state no value at zero (log 1). The layout of slots is K1 (PRESUMED, log 4), a jump past the end address runs (log 36). -/
def State.reset : State :=
  { platform := { moreProcs := 0, memMap := [{ base := 0, size := 2 ^ 32, kind := .remote }], layout := .k1, endJump := .runs }
    mem :=
      { ram := [], inst := ReadCache.atReset .inst, constf := ReadCache.atReset .constf, consti := ReadCache.atReset .consti
        constb := ReadCache.atReset .constb, inp := ReadCache.atReset .inp, out := tableOf (Config.cacheAtReset .out true)
        cond := { clean := ReadCache.atReset .cond, dirty := tableOf (Config.cacheAtReset .cond true) } }
    mc := { descs := Descs.unset, outMask := 0#4, condOutMask := false }
    co := { test := 0#3, loc := false, stuck := false }
    pe :=
      { cur := none, queue := [], issued := [], consumed := [], isOpen := true, condVal := 0#32
        domain := { i0 := 0#12, j0 := 0#12, i1 := 0#12, j1 := 0#12 }
        perf := { enabled := false, running := false, total := 0#32, active := 0#32 }, launches := []
        stuck := false, distStuck := false }
    program := none
    groups := []
    setItems := []
    turn := .pe
    draws := 0 }

end Sys2Proof.Machine
end

