-- ==== Sys2Proof/Machine/Ops.lean ====
section
/-! DEFINITION. The named operations over memory, caches and registers: main memory, address translation
(20_memory.md rules R86 to R93), the caches (R95 to R102), the CO test (42_commands_co.md rule R254), and the lookups
and updates that the meanings share. The hardware has no exception, interrupt or privilege mechanism (60_exceptions.md
rules R540, R552, R553, R555), so there is no exception entry and no return from one here (log 32). -/

namespace Sys2Proof.Machine

/-! ## How an operation stops -/

/-- Why an operation gives no result. -/
inductive Stop where
  | fault (f : Fault)
  | refuse (r : Refusal)
  /-- the accessing agent is stuck at an unmapped address (R81, D13): memory and caches as its accesses before have left them -/
  | stuck (mem : MemSys)
deriving DecidableEq, Repr

/-- The result of an operation that may stop. -/
abbrev Res (α : Type) := Except Stop α

/-- The outcome that a result stands for: a stuck agent is no stop of the device, which goes on with that agent marked as
`mark` says (R81, R541). -/
def conclude (mark : MemSys → State) : Res State → Host.Outcome State Fault Refusal
  | .ok s => .next s
  | .error (.fault f) => .fault f
  | .error (.refuse r) => .refused r
  | .error (.stuck mem) => .next (mark mem)

/-- The PE is stuck (R81). -/
def State.peStuck (s : State) (mem : MemSys) : State := { s with mem := mem, pe := { s.pe with stuck := true } }

/-- The work distributor's request to the CO finds no answer: the CO is stuck, and so is the distributor, which waits for it (R81,
R198; log 33). -/
def State.distStuck (s : State) (mem : MemSys) : State :=
  { s with mem := mem, co := { s.co with stuck := true }, pe := { s.pe with distStuck := true } }

/-- Every processor of group k is stuck: they have one program counter (R22, R81). -/
def State.groupStuck (s : State) (k : Nat) (mem : MemSys) : State :=
  { s with mem := mem, groups := s.groups.modify k fun g => { g with lanes := g.lanes.map fun l => { l with stuck := true } } }

/-- Processor n of group k has no answer from the CO yet (R334). -/
def State.atRequest (s : State) (k n : Nat) : Bool :=
  match s.groups[k]? with
  | none => false
  | some g =>
    match g.lanes[n]? with
    | none => false
    | some l => l.outbox.isNone

/-- Processor n of group k is stuck (R81): at a byte of its results, or at its request, which leaves the CO stuck that it waits for
(R258; log 33). -/
def State.laneStuck (s : State) (k n : Nat) (mem : MemSys) : State :=
  { s with
    mem := mem
    co := { s.co with stuck := s.co.stuck || s.atRequest k n }
    groups := s.groups.modify k fun g => { g with lanes := g.lanes.modify n fun l => { l with stuck := true } } }

/-- The processors of the group whose turn it is are stuck. -/
def State.turnStuck (s : State) (mem : MemSys) : State :=
  match s.turn with
  | .group k => s.groupStuck k mem
  | _ => s

/-- Stop with a fault unless the condition holds. -/
def require (c : Bool) (f : Fault) : Res Unit := if c then .ok () else .error (.fault f)

/-- Stop with a refusal unless the condition holds. -/
def accept (c : Bool) (r : Refusal) : Res Unit := if c then .ok () else .error (.refuse r)

/-! ## Main memory -/

/-- What an address that memory does not list reads as (DESIGN CHOICE, log 3). -/
def Memory.unlisted : Byte := 0#8

/-- The byte at an address. -/
def Memory.get (m : Memory) (a : Nat) : Byte := (tabFind m a).getD Memory.unlisted

/-- Store a byte, keeping the canonical form: an entry that would equal an unlisted address is removed. -/
def Memory.set (m : Memory) (a : Nat) (b : Byte) : Memory :=
  if b = Memory.unlisted then tabDel m a else tabPut m a b

/-- The canonical form of memory. -/
def Memory.wf (m : Memory) : Bool := bytesWf m && m.all fun c => decide (c.2 ≠ Memory.unlisted)

/-- `NPROC` (R14): one or more. -/
def Platform.nproc (p : Platform) : Nat := p.moreProcs + 1

/-- What `MemMap` says of a 32-bit address (R71, R80); none for an unmapped one. -/
def Platform.kind (p : Platform) (a : Nat) : Option MemKind :=
  if a < 2 ^ 32 then (p.memMap.find? fun r => decide (r.base ≤ a) && decide (a < r.base + r.size)).map Region.kind else none

/-- The address is mapped (R81). -/
def Platform.mapped (p : Platform) (a : Nat) : Bool := (p.kind a).isSome

/-- The little-endian word at an address (R82, R106). -/
def Memory.word (m : Memory) (a : Nat) : Word :=
  wordOfBytes (m.get (a % 2 ^ 32)) (m.get ((a + 1) % 2 ^ 32)) (m.get ((a + 2) % 2 ^ 32)) (m.get ((a + 3) % 2 ^ 32))

/-- The four addresses of a word. -/
def wordAddrs (a : Nat) : List Nat := [a % 2 ^ 32, (a + 1) % 2 ^ 32, (a + 2) % 2 ^ 32, (a + 3) % 2 ^ 32]

/-! ## Address translation -/

/-- log2 of the bytes per element of a data format; none for a reserved format (R88). -/
def formatLog (f : BitVec 3) : Option Nat :=
  match f.toNat with
  | 0 => some 1
  | 1 => some 2
  | 2 => some 2
  | 3 => some 3
  | 4 => some 4
  | _ => none

/-- The number of channels of a data format (R88). -/
def formatChannels (f : BitVec 3) : Nat :=
  match f.toNat with
  | 0 => 1
  | 1 => 4
  | 2 => 1
  | 3 => 2
  | 4 => 4
  | _ => 0

/-- `McAddrLinear` (R86) for elements of `2^k` bytes; the 27-bit sum wraps (D12). -/
def linearAddr (base pitch k x y : Nat) : Nat :=
  let s := 5 - k
  (y * (pitch / 2 ^ s) + x / 2 ^ s + base / 2 ^ 5) % 2 ^ 27 * 2 ^ 5 + x % 2 ^ s * 2 ^ k

/-- Bit n of a number. -/
def bitOf (v n : Nat) : Nat := v / 2 ^ n % 2

/-- The number with the given bits, most significant first. -/
def natOfBits (bs : List Nat) : Nat := bs.foldl (fun acc b => acc * 2 + b) 0

/-- The low eleven bits of a tiled address, the columns `addr[10:9]` to `addr[4:0]` of the row of R87 for `2^k` bytes. -/
def tileBits (k x y : Nat) : List Nat :=
  let xb := bitOf x
  let yb := bitOf y
  let xor2 := fun a b : Nat => (a + b) % 2
  match k with
  | 0 => [xor2 (yb 4) (xb 6), xor2 (xb 5) (yb 5), xor2 (yb 3) (xb 5), xor2 (xb 4) (yb 4), yb 2, xb 3, yb 1, yb 0, xb 2, xb 1,
          xb 0]
  | 1 => [xor2 (yb 4) (xb 5), xor2 (xb 4) (yb 5), xor2 (yb 3) (xb 4), xor2 (xb 3) (yb 4), yb 2, xb 2, yb 1, yb 0, xb 1, xb 0,
          0]
  | 2 => [xor2 (yb 3) (xb 5), xor2 (xb 4) (yb 4), xor2 (yb 2) (xb 4), xor2 (xb 3) (yb 3), yb 1, xb 2, yb 0, xb 1, xb 0, 0, 0]
  | 3 => [xor2 (yb 3) (xb 4), xor2 (xb 3) (yb 4), xor2 (yb 2) (xb 3), xor2 (xb 2) (yb 3), yb 1, xb 1, yb 0, xb 0, 0, 0, 0]
  | _ => [xor2 (yb 2) (xb 4), xor2 (xb 3) (yb 3), xor2 (yb 1) (xb 3), xor2 (xb 2) (yb 2), yb 0, xb 1, xb 0, 0, 0, 0, 0]

/-- Rows of elements in a tile, log2 (R87). -/
def tileRowsLog : Nat → Nat
  | 0 => 5
  | 1 => 5
  | 2 => 4
  | 3 => 4
  | _ => 3

/-- Columns of elements in a tile, log2 (R87). -/
def tileColsLog : Nat → Nat
  | 0 => 6
  | 1 => 5
  | 2 => 5
  | 3 => 4
  | _ => 4

/-- The tiled address (R87) for elements of `2^k` bytes; the 21-bit sum wraps (D12). -/
def tiledAddr (base pitch k x y : Nat) : Nat :=
  (y / 2 ^ tileRowsLog k * (pitch / 2 ^ tileColsLog k) + x / 2 ^ tileColsLog k + base / 2 ^ 11) % 2 ^ 21 * 2 ^ 11
    + natOfBits (tileBits k x y)

/-- The superfine bit of a tiling; it matters for inputs only (R91). -/
def Tiling.superfine : Tiling → Bool
  | .linear | .tiled => false
  | .linear2x2 | .tiled2x2 => true

/-- Tiled or linear, the superfine bit apart (R86, R87, R91). -/
def Tiling.isTiled : Tiling → Bool
  | .linear | .linear2x2 => false
  | .tiled | .tiled2x2 => true

/-- The address of element (x, y) of `2^k` bytes under a descriptor. -/
def Desc.address (d : Desc) (k x y : Nat) : Nat :=
  if d.tiling.isTiled then tiledAddr d.base.toNat d.pitch.toNat k x y else linearAddr d.base.toNat d.pitch.toNat k x y

/-- A row lies below the height, where the client has one (R92). -/
def inHeight : Option Nat → Nat → Bool
  | none, _ => true
  | some h, y => decide (y < h)

/-- The byte addresses of element (x, y) through a descriptor, with the checks of R84, R88 and, where the client has a
height, R92. -/
def elementAddrs (d : Desc) (height : Option Nat) (x y : Nat) : Res (List Nat) :=
  match formatLog d.format with
  | none => .error (.fault .reservedFormat)
  | some k =>
    if decide (x < 4096) && decide (y < 4096) && inHeight height y then
      .ok ((List.range (2 ^ k)).map fun n => (d.address k x y + n) % 2 ^ 32)
    else .error (.fault .indexRange)

/-! ## Caches -/

/-- A read through a read cache (R95): the byte that it holds, else the byte of memory, which the cache then holds. -/
def ReadCache.read (ram : Memory) (c : ReadCache) (a : Nat) : Byte × ReadCache :=
  match tabFind c.bytes a with
  | some b => (b, c)
  | none => (ram.get a, { bytes := tabPut c.bytes a (ram.get a) })

/-- Reads at several addresses, in order. -/
def ReadCache.readAll (ram : Memory) (c : ReadCache) : List Nat → List Byte × ReadCache
  | [] => ([], c)
  | a :: rest =>
    let (b, c1) := c.read ram a
    let (bs, c2) := ReadCache.readAll ram c1 rest
    (b :: bs, c2)

/-- An emptied read cache (R100, R230). -/
def ReadCache.empty : ReadCache := { bytes := [] }

/-- A CO read of one byte (R101): the newest write if it is still in the cache, else as a read cache. -/
def CondCache.read (ram : Memory) (c : CondCache) (a : Nat) : Byte × CondCache :=
  match tabFind c.dirty a with
  | some b => (b, c)
  | none =>
    let (b, clean) := c.clean.read ram a
    (b, { c with clean := clean })

/-- CO reads at several addresses, in order. -/
def CondCache.readAll (ram : Memory) (c : CondCache) : List Nat → List Byte × CondCache
  | [] => ([], c)
  | a :: rest =>
    let (b, c1) := c.read ram a
    let (bs, c2) := CondCache.readAll ram c1 rest
    (b :: bs, c2)

/-- Put bytes into a write cache, marked dirty; a later write to the same address replaces an earlier one (R97). -/
def putBytes (t : List Host.Cell) (ws : List Host.Cell) : List Host.Cell :=
  ws.foldl (fun acc w => tabPut acc w.1 w.2) t

/-- The read-only clients of the MC, each with a read cache (R83, R95). -/
inductive ReadClient where
  | inst | constf | consti | constb | inp
deriving DecidableEq, Repr

/-- The cache of a read-only client. -/
def MemSys.cache (m : MemSys) : ReadClient → ReadCache
  | .inst => m.inst
  | .constf => m.constf
  | .consti => m.consti
  | .constb => m.constb
  | .inp => m.inp

/-- Replace the cache of a read-only client. -/
def MemSys.setCache (m : MemSys) (k : ReadClient) (c : ReadCache) : MemSys :=
  match k with
  | .inst => { m with inst := c }
  | .constf => { m with constf := c }
  | .consti => { m with consti := c }
  | .constb => { m with constb := c }
  | .inp => { m with inp := c }

/-- A client's reads at several addresses; at an unmapped one the agent is stuck (R81). -/
def readBytes (p : Platform) (mem : MemSys) (k : ReadClient) (as : List Nat) : Res (List Byte × MemSys) :=
  if as.all p.mapped then
    let (bs, c) := (mem.cache k).readAll mem.ram as
    .ok (bs, mem.setCache k c)
  else .error (.stuck mem)

/-- `McRead` of a read-only client (R95): the bytes of one element. -/
def readElement (p : Platform) (mem : MemSys) (k : ReadClient) (d : Desc) (height : Option Nat) (x y : Nat) :
    Res (List Byte × MemSys) :=
  match elementAddrs d height x y with
  | .error e => .error e
  | .ok as => readBytes p mem k as

/-! ## Element content (R94) -/

/-- Channel c of an element whose bytes are given, as the processor receives it. Which byte of a UINT8_4 element is channel ck is
not stated: byte k, as the channels of the FLOAT32 formats are ordered (DEDUCED, unsafe; log 17). -/
def channelOf (fmt : BitVec 3) (bs : List Byte) (draw : Nat) (c : Chan) : Word :=
  let at' := fun n => bs.getD n 0#8
  if c.idx < formatChannels fmt then
    match fmt.toNat with
    | 0 => Config.uintDecode 0 ((at' 0).toNat + (at' 1).toNat * 2 ^ 8)
    | 1 => Config.uintDecode 1 (at' c.idx).toNat
    | _ => wordOfBytes (at' (4 * c.idx)) (at' (4 * c.idx + 1)) (at' (4 * c.idx + 2)) (at' (4 * c.idx + 3))
  else Config.missingChannel fmt.toNat c.idx draw

/-- The four channels of an element. -/
def decodeElement (fmt : BitVec 3) (bs : List Byte) (draw : Nat) : Quad Word :=
  ⟨channelOf fmt bs draw .r, channelOf fmt bs draw .g, channelOf fmt bs draw .b, channelOf fmt bs draw .a⟩

/-- The bytes that a channel is stored as. -/
def encodeChannel (fmt : BitVec 3) (w : Word) : List Byte :=
  match fmt.toNat with
  | 0 => [BitVec.ofNat 8 (Config.uintEncode 0 w).toNat, BitVec.ofNat 8 ((Config.uintEncode 0 w).toNat / 2 ^ 8)]
  | 1 => [BitVec.ofNat 8 (Config.uintEncode 1 w).toNat]
  | _ => bytesOfWord w

/-- Pair each byte of a channel with its address: channel c of an element lies at c times the channel's size. -/
def channelCells (as : List Nat) (fmt : BitVec 3) (c : Chan) (w : Word) : List Host.Cell :=
  let bs := encodeChannel fmt w
  (as.drop (c.idx * bs.length)).zip bs

/-- The cells that a masked output write puts into the output write cache (R97, R98). -/
def outputCells (as : List Nat) (fmt : BitVec 3) (mask : BitVec 4) (data : Quad Word) : List Host.Cell :=
  [Chan.r, .g, .b, .a].flatMap fun c =>
    if c.idx < formatChannels fmt && mask.getLsbD c.idx then channelCells as fmt c (data.get c) else []

/-- `McWrite` of a program output (R97): the cells that it puts into the output write cache. -/
def outputWrite (d : TallDesc) (mask : BitVec 4) (i j : BitVec 12) (data : Quad Word) : Res (List Host.Cell) :=
  (elementAddrs d.desc (some d.height.toNat) i.toNat j.toNat).map fun as => outputCells as d.desc.format mask data

/-- `McRead` of an input (R95), superfine inputs included (R91). -/
def readInput (p : Platform) (draw : Nat) (mem : MemSys) (d : TallDesc) (x y : Nat) : Res (Quad Word × MemSys) :=
  let one := fun (m : MemSys) (x y : Nat) => readElement p m .inp d.desc (some d.height.toNat) x y
  if d.desc.tiling.superfine then
    match formatLog d.desc.format with
    | none => .error (.fault .reservedFormat)
    | some _ =>
      if formatChannels d.desc.format ≠ 1 then .error (.fault .superfineMultiChannel)
      else do
        let (b0, m0) ← one mem (x + 1) y
        let (b1, m1) ← one m0 x (y + 1)
        let (b2, m2) ← one m1 (x + 1) (y + 1)
        let (b3, m3) ← one m2 x y
        let ch := fun bs => channelOf d.desc.format bs draw .r
        return (⟨ch b0, ch b1, ch b2, ch b3⟩, m3)
  else do
    let (bs, m) ← one mem x y
    return (decodeElement d.desc.format bs draw, m)

/-- An uncached read of an input (R362): memory directly, the cache neither consulted nor filled. -/
def readInputUncached (p : Platform) (draw : Nat) (mem : MemSys) (d : TallDesc) (x y : Nat) : Res (Quad Word) :=
  match readInput p draw { mem with inp := ReadCache.empty } d x y with
  | .ok r => .ok r.1
  | .error (.stuck _) => .error (.stuck mem)
  | .error e => .error e

/-- `ConstF` (R104): float constant c through the float constant cache. -/
def readConstf (p : Platform) (draw : Nat) (mem : MemSys) (d : Desc) (c : Nat) : Res (Quad Word × MemSys) :=
  (readElement p mem .constf d none c 0).map fun r => (decodeElement d.format r.1 draw, r.2)

/-- Integer constant c (R104, R408): iteration count, aL initial value, aL increment. -/
def readConsti (p : Platform) (mem : MemSys) (d : Desc) (c : Nat) : Res ((Nat × Int × Int) × MemSys) :=
  (readElement p mem .consti d none c 0).map fun r => (Config.intConstDecode r.1, r.2)

/-- Boolean constant c (R104, R385). -/
def readConstb (p : Platform) (mem : MemSys) (d : Desc) (c : Nat) : Res (Bool × MemSys) :=
  (readElement p mem .constb d none c 0).map fun r => (Config.boolConstDecode r.1, r.2)

/-! ## The CO -/

/-- The clients of the CO (R250). -/
inductive CoClient where
  | pe | dpp
deriving DecidableEq, Repr

/-- `CondEnc` (R256): how a conditional value is stored. -/
def condEnc (fmt : BitVec 3) (v : Word) : List Byte :=
  if fmt = 2#3 then bytesOfWord v
  else
    match formatLog fmt with
    | none => []
    | some k => (List.range (2 ^ k)).map (Config.condEncByte fmt.toNat v)

/-- A NaN pattern (R440). -/
def isNanBits (w : Word) : Bool := w.toNat / 2 ^ 23 % 256 == 255 && w.toNat % 2 ^ 23 != 0

/-- The word of a stored element: its first four bytes, which are all that FLOAT32_1 has (log 16). -/
def wordOf (b : List Byte) : Word := wordOfBytes (b.getD 0 0#8) (b.getD 1 0#8) (b.getD 2 0#8) (b.getD 3 0#8)

/-- A zero of either sign. -/
def isZeroBits (w : Word) : Bool := w &&& 0x7FFFFFFF#32 == 0#32

/-- Test 3 of `CondCmp` (R256): true when b is the encoding of v, except possibly for a NaN pattern. Under FLOAT32_1 it is
false otherwise, as for the words 5 and 6 of R262 (b), but for two zeros of different sign (DEDUCED, log 16); under another format it
is then free. -/
def condEq (fmt : BitVec 3) (v : Word) (b : List Byte) : Bool :=
  if b = condEnc fmt v then !isNanBits v || Config.condEqual fmt.toNat v b
  else if fmt = 2#3 && !(isZeroBits v && isZeroBits (wordOf b)) then false
  else Config.condEqual fmt.toNat v b

/-- The order counts as total on v and b where neither is a NaN pattern (R256). R256 does not say which values of a format other than
FLOAT32_1 have a total order: there the first four bytes of b stand for its word (DESIGN CHOICE, unsafe; log 16). -/
def condOrdered (v : Word) (b : List Byte) : Bool := !isNanBits v && !isNanBits (wordOf b)

/-- `CondCmp` (R256) for the tests 1 to 6. -/
def condCmp (fmt test : BitVec 3) (v : Word) (b : List Byte) : Bool :=
  let less := Config.condLess fmt.toNat v b
  let equal := condEq fmt v b
  match test.toNat with
  | 1 => less
  | 2 => less || equal
  | 3 => equal
  | 4 => if condOrdered v b then !less else Config.condUnordered 4 fmt.toNat v b
  | 5 => if condOrdered v b then !(less || equal) else Config.condUnordered 5 fmt.toNat v b
  | 6 => !equal
  | _ => false

/-- The comparison half of `CoTest` (R254): the test, with the read it makes. -/
def coCompare (p : Platform) (mem : MemSys) (env : Snapshot) (i j : BitVec 12) (v : Word) : Res (Bool × MemSys) :=
  match env.condTest.toNat with
  | 0 => .ok (false, mem)
  | 7 => .ok (true, mem)
  | _ =>
    match elementAddrs env.descs.condOut.desc (some env.descs.condOut.height.toNat) i.toNat j.toNat with
    | .error e => .error e
    | .ok as =>
      if as.all p.mapped then
        let (bs, c) := mem.cond.readAll mem.ram as
        .ok (condCmp env.descs.condOut.desc.format env.condTest v bs, { mem with cond := c })
      else .error (.stuck mem)

/-- `McWriteCond` (R256). -/
def writeCond (p : Platform) (mem : MemSys) (env : Snapshot) (i j : BitVec 12) (v : Word) : Res MemSys :=
  match elementAddrs env.descs.condOut.desc (some env.descs.condOut.height.toNat) i.toNat j.toNat with
  | .error e => .error e
  | .ok as =>
    if as.all p.mapped then
      .ok { mem with cond := { mem.cond with dirty := putBytes mem.cond.dirty (as.zip (condEnc env.descs.condOut.desc.format v)) } }
    else .error (.stuck mem)

/-- `CoTest` (R254), one atomic step of the CO: the client that is not selected passes with no memory access. A CO that is stuck
answers no request (R81; log 33). -/
def coTest (p : Platform) (coStuck : Bool) (mem : MemSys) (env : Snapshot) (client : CoClient) (i j : BitVec 12) (v : Word) :
    Res (Bool × MemSys) :=
  if coStuck then .error (.stuck mem)
  else if decide (client = .pe) ≠ env.condLoc then .ok (true, mem)
  else do
    let (pass, mem1) ← coCompare p mem env i j v
    if pass && env.condOutMask then
      let mem2 ← writeCond p mem1 env i j v
      return (true, mem2)
    else return (pass, mem1)

/-! ## Programs -/

/-- The start slot (R489). -/
def Program.startSlot (p : Program) : Nat := p.usCodeAddr.toNat % 2 ^ 16

/-- The end slot (R489, R334). -/
def Program.endSlot (p : Program) : Nat := p.usCodeAddr.toNat / 2 ^ 16

/-- Full flow-control mode (R381, R489). -/
def Program.fullMode (p : Program) : Bool := p.usFcCtrl.getLsbD 31

/-- The program exports its conditional value (R259, R489). -/
def Program.exportsCond (p : Program) : Bool := p.fgDepthSrc.getLsbD 0

/-- The largest value of a branch counter (R381, R400). -/
def Program.branchMax (p : Program) : Nat := if p.fullMode then 31 else 3

/-! ## Writes to main memory -/

/-- The number of a tiling. -/
def Tiling.code : Tiling → Nat
  | .linear => 0
  | .tiled => 1
  | .linear2x2 => 2
  | .tiled2x2 => 3

/-- Where the 24 bytes of slot s of the text lie (`LoadText`, R105): an open parameter (log 5), which does not see the superfine bit, since
the instruction client is no input (R91). -/
def textAddrs (d : Desc) (s : Nat) : List Nat :=
  (List.range 24).map fun n =>
    Config.textAddr d.base.toNat d.pitch.toNat d.tiling.isTiled d.format.toNat s n % 2 ^ 32

/-- The address holds text of a running program (R105; log 23). -/
def Snapshot.holdsText (e : Snapshot) (a : Nat) : Bool :=
  (List.range e.prog.instrCnt.toNat).any fun s => (textAddrs e.descs.inst s).contains a

/-- The addresses of constant c under a constant descriptor; none when a request would fault. -/
def constAddrs (d : Desc) (c : Nat) : List Nat :=
  match elementAddrs d none c 0 with
  | .ok as => as
  | .error _ => []

/-- `JUMP_FUNC` depends on an input: flipping bit `bit` of the index changes some entry (R389). -/
def funcDepends (f : BitVec 8) (bit : Nat) : Bool :=
  (List.range 8).any fun k => f.getLsbD k != f.getLsbD (k ^^^ 2 ^ bit)

/-- The boolean constants that the text's flow control reads (R203, R385). -/
def boolsUsed (layout : InstLayout) (text : List Slot) : List Nat :=
  text.filterMap fun s =>
    match layout.decode s with
    | .ok i =>
      match i.fc? with
      | some (_, f) => if funcDepends f.jumpFunc 0 then some f.boolAddr.toNat else none
      | none => none
    | .error _ => none

/-- The address holds one of the first `n` constants under a descriptor. -/
def Desc.holdsConst (d : Desc) (n a : Nat) : Bool := (List.range n).any fun c => (constAddrs d c).contains a

/-- The address lies under a constant descriptor that a command has set (R104): 256 float, 32 integer and 32 boolean constants
(R67 to R69; log 23). -/
def State.underConst (s : State) (a : Nat) : Bool :=
  (s.setItems.contains .constf && s.mc.descs.constf.holdsConst 256 a) ||
  (s.setItems.contains .consti && s.mc.descs.consti.holdsConst 32 a) ||
  (s.setItems.contains .constb && s.mc.descs.constb.holdsConst 32 a)

/-- Write one byte of main memory: stuck where nothing is mapped (R81); a fault where, while a processor is busy, it changes memory
under a constant descriptor or the text of the running program (R104, R105). A buffer that is submitted and not consumed must not change
(R106, D11), and BufferChanged is the host's (R527): the device itself may change one, and the PE reads the new words (DESIGN CHOICE,
unsafe; log 46). -/
def ramWrite (s : State) (a : Nat) (b : Byte) : Res State :=
  if !s.platform.mapped a then .error (.stuck s.mem)
  else if s.mem.ram.get a ≠ b && !s.groups.isEmpty && s.underConst a then .error (.fault .constChanged)
  else if s.mem.ram.get a ≠ b && s.groups.any (fun g => g.env.holdsText a) then .error (.fault .textChanged)
  else .ok { s with mem := { s.mem with ram := s.mem.ram.set a b } }

/-- Write several bytes of main memory, in order. A flush or an invalidation gives the dirty bytes by rising address, and where the PE is
stuck at one of them the cache keeps them all, those already in memory too; R236, R238 and R239 name no order (DESIGN CHOICE, unsafe;
log 33). -/
def ramWriteAll (s : State) : List Host.Cell → Res State
  | [] => .ok s
  | c :: rest =>
    match ramWrite s c.1 c.2 with
    | .error e => .error e
    | .ok s1 => ramWriteAll s1 rest

/-! ## The PE -/

/-- No processor is busy and no launch is pending (R135, R199). -/
def State.idle (s : State) : Bool := s.pe.launches.isEmpty && s.groups.isEmpty

/-- A command that is not pipelined needs an idle device (R135, D8). -/
def requireIdle (s : State) : Res Unit := require s.idle .notIdle

/-- Reserved bits of a command's parameters are zero (R139). -/
def requireReserved (i : Instr) : Res Unit := require i.commandWellFormed .reservedBits

/-- The command read position moves past a command of `n` words; with the last word the buffer is consumed (R25, R181). -/
def Pe.advance (pe : Pe) (n : Nat) : Pe :=
  match pe.cur with
  | none => pe
  | some c =>
    if c.remaining ≤ n then { pe with cur := none, consumed := pe.consumed ++ [c.sub.id] }
    else { pe with cur := some { c with pos := c.pos + BitVec.ofNat 32 (4 * n), remaining := c.remaining - n } }

/-- The number of words of a command: its opcode and its parameters (R132). -/
def commandLen (i : Instr) : Nat := (encode i).length

/-- The command has been processed: the read position moves on. -/
def State.retireCommand (s : State) (i : Instr) : State := { s with pe := s.pe.advance (commandLen i) }

/-- Note that a command has set an item (R203). -/
def State.markSet (s : State) (k : Item) : State :=
  { s with setItems := if s.setItems.contains k then s.setItems else s.setItems ++ [k] }

/-! ## Groups and processors -/

/-- The group that is to execute, and its index (R21, R22). -/
def State.current (s : State) : Res (Nat × Group) :=
  match s.turn with
  | .group k =>
    match s.groups[k]? with
    | some g => if g.halted then .error (.refuse .noGroup) else .ok (k, g)
    | none => .error (.refuse .noGroup)
  | _ => .error (.refuse .noGroup)

/-- Put a group back. -/
def State.setGroup (s : State) (k : Nat) (g : Group) : State := { s with groups := s.groups.set k g }

/-- The number of draws that one processor's instruction may take. -/
def drawsPerLane : Nat := 32

/-- Move the draw counter past what an instruction of a group took. -/
def State.spend (s : State) (g : Group) : State := { s with draws := s.draws + drawsPerLane * g.lanes.length }

/-- The key of channel c of register n. -/
def regKey (n : Nat) (c : Chan) : Nat := 4 * n + c.idx

/-- Read a temporary: a channel that this execution has not written holds a free value (R48; log 2). -/
def Lane.temp (l : Lane) (n : Nat) (c : Chan) : Word :=
  (tabFind l.temps (regKey n c)).getD (Config.initTemp l.seed l.i l.j n c.idx)

/-- Write a channel of a temporary (R47). -/
def Lane.setTemp (l : Lane) (n : Nat) (c : Chan) (w : Word) : Lane := { l with temps := tabPut l.temps (regKey n c) w }

/-- Write a channel of an output register (R53). -/
def Lane.setOut (l : Lane) (t : Nat) (c : Chan) (w : Word) : Lane := { l with outs := tabPut l.outs (regKey t c) w }

/-- What an output register sends when the program terminates (R53, R334): a channel never written is drawn. -/
def Lane.outValue (l : Lane) (draw t : Nat) : Quad Word :=
  let ch := fun c : Chan => (tabFind l.outs (regKey t c)).getD (Config.unwrittenOut t c.idx draw)
  ⟨ch .r, ch .g, ch .b, ch .a⟩

/-- Write a predicate bit (R51). -/
def Lane.setPred (l : Lane) (c : Chan) (b : Bool) : Lane := { l with pred := l.pred.set c b, predSet := l.predSet.set c true }

/-- Active and not loop-inactive (R55, R404). -/
def Lane.enabled (l : Lane) : Bool := l.active && l.loopOff.isNone

/-- `lane_on` (R319). -/
def Lane.on (l : Lane) (writeInactive : Bool) : Bool := l.enabled || writeInactive

/-- The state of a processor when it starts a program (R75): what has no stated value is free (log 2). -/
def Lane.start (draw proc : Nat) (i j : BitVec 12) (v : Word) : Lane :=
  { proc := proc, seed := draw, i := i, j := j, vIn := v, temps := []
    pred := ⟨Config.freeBool draw, Config.freeBool (draw + 1), Config.freeBool (draw + 2), Config.freeBool (draw + 3)⟩
    predSet := Quad.all false, ar := Config.freeBool (draw + 4), arSet := false, outs := []
    wout := Config.freeWord draw, woutSet := false, active := true, bcnt := 0, loopOff := none, covered := true
    semHeld := false, texPending := [], semCover := [], outbox := none, stuck := false }

/-- Some processor is busy with this number (R31). -/
def State.busy (s : State) (q : Nat) : Bool := s.groups.any fun g => g.lanes.any fun l => l.proc == q

/-- The loop variable: that of the innermost LOOP frame (R409). -/
def Group.aL (g : Group) : Option Int := (g.loopStack.find? fun f => f.kind == .loop).map Frame.aL

/-- A register number with aL added where the instruction asks for it (R272, R321). -/
def Group.relative (g : Group) (n : Nat) (rel : Bool) : Res Int :=
  if rel then
    match g.aL with
    | some a => .ok ((n : Int) + a)
    | none => .error (.fault .alInvalid)
  else .ok (n : Int)

/-- The number of a temporary: at most 127 and at most US_PIXSIZE (R272). -/
def Group.tempIndex (g : Group) (n : Nat) (rel : Bool) : Res Nat :=
  match g.relative n rel with
  | .error e => .error e
  | .ok i => if 0 ≤ i && i ≤ 127 && i ≤ (g.env.prog.usPixsize.toNat : Int) then .ok i.toNat else .error (.fault .registerRange)

/-- The number of a float constant: at most 255 (R272). -/
def Group.constIndex (g : Group) (n : Nat) (rel : Bool) : Res Nat :=
  match g.relative n rel with
  | .error e => .error e
  | .ok i => if 0 ≤ i && i ≤ 255 then .ok i.toNat else .error (.fault .registerRange)

/-- The group stands at the end address (R334). -/
def Group.atEnd (g : Group) : Bool := g.pc == g.env.prog.endSlot

/-- Add to a list of distinct things what is not there yet, once. -/
def addNew {α : Type} [DecidableEq α] (xs ys : List α) : List α :=
  ys.foldl (fun acc y => if acc.contains y then acc else acc ++ [y]) xs

/-- The erratum of R594: the wait follows a flow-control instruction that did not wait, with the semaphore held. -/
def Group.erratum (g : Group) : Bool :=
  match g.prev with
  | .fc false => g.lanes.any Lane.semHeld
  | _ => false

/-- `SemWait` on one processor (R367): the covered lookups have arrived. -/
def Lane.semWait (l : Lane) : Lane :=
  if l.semHeld then
    { l with texPending := l.texPending.filter (fun k => !l.semCover.contains k), semCover := [], semHeld := false }
  else l

/-- `TEX_SEM_WAIT` of an instruction of the group (R367, R594). -/
def Group.semWait (g : Group) (wait : Bool) : Res Group :=
  if wait then
    if g.erratum then .error (.fault .semErratum) else .ok { g with lanes := g.lanes.map Lane.semWait }
  else .ok g

/-- `SemAcquire` on one processor (R368): this lookup and all prior ones. -/
def Lane.semAcquire (l : Lane) : Lane := { l with semHeld := true, semCover := l.texPending }

end Sys2Proof.Machine
end

