-- ==== Sys2Proof/Machine/Flags.lean ====
section
/-! DEFINITION. The one-bit results: predicate bits and the ALU result (43_dpp_alu.md rules R326, R330), predicate selects
(R318, 45_dpp_fc.md rule R386) and the jump function (R389). -/

namespace Sys2Proof.Machine

/-- `PredOp` (R326, R330) on the special values of R450. -/
def predOp : CmpOp → Word → Bool
  | .equal, x => fEq0 x
  | .less, x => fLt0 x
  | .greaterEqual, x => fGe0 x
  | .notEqual, x => fNe0 x

/-- The predicate test that `TARGET` stands for on an ALU instruction (R152); the UMRT targets do not occur there. -/
def Target.test : Target → CmpOp
  | .t0 => .equal
  | .t1 => .less
  | .t2 => .greaterEqual
  | .t3 => .notEqual
  | _ => .equal

/-- The output register that `TARGET` stands for on an OUTPUT instruction (R322). -/
def Target.register : Target → Nat
  | .t0 => 0
  | .t1 => 1
  | .t2 => 2
  | .t3 => 3
  | _ => 0

/-- `PredEn` (R318) for channel `ch`. -/
def predEn (l : Lane) (sel : PredSel) (inv : Bool) (ch : Chan) : Bool :=
  match sel with
  | .none => true
  | .rgba => l.pred.get ch != inv
  | .rrrr => l.pred.r != inv
  | .gggg => l.pred.g != inv
  | .bbbb => l.pred.b != inv
  | .aaaa => l.pred.a != inv

/-- The predicate bits that a select reads for the given channels (R318, R588). -/
def predUses (sel : PredSel) (chans : List Chan) : List AluItem :=
  match sel with
  | .none => []
  | .rgba => chans.map AluItem.pred
  | .rrrr => [.pred .r]
  | .gggg => [.pred .g]
  | .bbbb => [.pred .b]
  | .aaaa => [.pred .a]

/-- The bit of a three-bit write mask for a channel; channel A is not in it. -/
def maskBit (m : BitVec 3) (ch : Chan) : Bool := decide (ch.idx < 3) && m.getLsbD ch.idx

/-- `RGB_WMASK` and `ALPHA_WMASK` as one mask. -/
def wmaskBit (rgb : BitVec 3) (alpha : Bool) (ch : Chan) : Bool :=
  match ch with
  | .a => alpha
  | _ => maskBit rgb ch

/-- The four channels in order. -/
def allChans : List Chan := [.r, .g, .b, .a]

/-- What a processor wants of a flow-control instruction (R386, R388, R389): bit `alu * 4 + pred * 2 + bool` of
`JUMP_FUNC`, an input it does not depend on taken as 0. -/
def jumpWant (f : FcInst) (boolean : Bool) (l : Lane) : Bool :=
  let a := funcDepends f.jumpFunc 2 && l.ar
  let p := funcDepends f.jumpFunc 1 && predEn l f.predSel f.predInv .r
  let b := funcDepends f.jumpFunc 0 && boolean
  f.jumpFunc.getLsbD (a.toNat * 4 + p.toNat * 2 + b.toNat)

end Sys2Proof.Machine
end

