-- ==== Sys2Proof/Machine/Operands.lean ====
section
/-! DEFINITION. Every operand form of an ALU or OUTPUT instruction (43_dpp_alu.md rules R272 to R281): source addresses,
the six sources, presubtract, select, swizzle, input modifier; and which channels an instruction reads (R272, R590). -/

namespace Sys2Proof.Machine

/-- A three-lane value. -/
structure Vec3 where
  r : Word
  g : Word
  b : Word
deriving DecidableEq, Repr

/-- A lane of a three-lane value; the alpha channel is none of them and reads as blue. -/
def Vec3.get (v : Vec3) : Chan → Word
  | .r => v.r
  | .g => v.g
  | _ => v.b

/-- What a source address names once aL is added (R272). -/
inductive Place where
  | temp (n : Nat)
  | const (c : Nat)
  | inline (w : Word)
deriving DecidableEq, Repr

/-- A source that is ready to be read by each processor: a temporary, or a value that all share. -/
inductive Source where
  | temp (n : Nat)
  | value (q : Quad Word)
deriving DecidableEq, Repr

/-- One of the six sources of an instruction (R272). -/
inductive Port where
  | rgb0 | rgb1 | rgb2 | alpha0 | alpha1 | alpha2
deriving DecidableEq, Repr

/-- A thing for each of the six sources. -/
structure Six (α : Type) where
  rgb0 : α
  rgb1 : α
  rgb2 : α
  alpha0 : α
  alpha1 : α
  alpha2 : α
deriving DecidableEq, Repr

def Six.get {α : Type} (s : Six α) : Port → α
  | .rgb0 => s.rgb0
  | .rgb1 => s.rgb1
  | .rgb2 => s.rgb2
  | .alpha0 => s.alpha0
  | .alpha1 => s.alpha1
  | .alpha2 => s.alpha2

/-- The source addresses of an instruction (R150). -/
def aluAddrs (f : AluInst) : Six SrcAddr :=
  { rgb0 := f.rgbAddr.s0, rgb1 := f.rgbAddr.s1, rgb2 := f.rgbAddr.s2
    alpha0 := f.alphaAddr.s0, alpha1 := f.alphaAddr.s1, alpha2 := f.alphaAddr.s2 }

/-! ## Which channels an instruction reads -/

/-- What one component of an operand selects: a source and a swizzle. -/
abbrev Read := SrcSel × Swz

def RgbOperand.reads (o : RgbOperand) : List Read := [(o.sel, o.red), (o.sel, o.green), (o.sel, o.blue)]

def AlphaOperand.reads (o : AlphaOperand) : List Read := [(o.sel, o.swz)]

/-- The components that an RGB operation reads (R284 to R293), DP4's alpha components included (R281). Of the operands of D2A they are
A.r, A.g, B.r, B.g and C.b only (R292), so that an operand which selects srcp with none of them uses no presubtract, where R276 and R590
speak of an operand that selects it (DESIGN CHOICE, unsafe; log 37). -/
def rgbReads (op : RgbOp) (f : AluInst) : List Read :=
  match op with
  | .mad | .cnd | .cmp => RgbOperand.reads f.rgbA ++ RgbOperand.reads f.rgbB ++ RgbOperand.reads f.rgbC
  | .min | .max | .dp3 => RgbOperand.reads f.rgbA ++ RgbOperand.reads f.rgbB
  | .frc => RgbOperand.reads f.rgbA
  | .dp4 =>
    RgbOperand.reads f.rgbA ++ RgbOperand.reads f.rgbB ++ AlphaOperand.reads f.alphaA ++ AlphaOperand.reads f.alphaB
  | .d2a => [(f.rgbA.sel, f.rgbA.red), (f.rgbA.sel, f.rgbA.green), (f.rgbB.sel, f.rgbB.red), (f.rgbB.sel, f.rgbB.green),
      (f.rgbC.sel, f.rgbC.blue)]
  | .sop => []

/-- The components that an alpha operation reads (R296 to R308). -/
def alphaReads (op : AlphaOp) (f : AluInst) : List Read :=
  match op with
  | .mad | .cnd | .cmp => AlphaOperand.reads f.alphaA ++ AlphaOperand.reads f.alphaB ++ AlphaOperand.reads f.alphaC
  | .min | .max => AlphaOperand.reads f.alphaA ++ AlphaOperand.reads f.alphaB
  | .frc | .ex2 | .ln2 | .rcp | .rsq | .sin | .cos => AlphaOperand.reads f.alphaA
  | .dp => []

/-- Everything that an instruction reads. -/
def aluReads (rop : RgbOp) (aop : AlphaOp) (f : AluInst) : List Read := rgbReads rop f ++ alphaReads aop f

/-- The channel that a swizzle selects; none for a constant (R279). -/
def swzChan : Swz → Option Chan
  | .r => some .r
  | .g => some .g
  | .b => some .b
  | .a => some .a
  | .zero | .half | .one => none

/-- A presubtract operation reads source 1 as well (R276). -/
def srcpUsesOne : SrcpOp → Bool
  | .bias | .inv => false
  | .sub | .add => true

/-- The channels that the presubtracts used by some reads read (R276, R590). Whether an operand that selects srcp but only constants
or only the other unit's channels uses a unit's presubtract is not stated: it does not (DESIGN CHOICE, unsafe; log 37). -/
def presubChannels (f : AluInst) (reads : List Read) : List (Port × Chan) :=
  (if reads.any fun x => x.1 == .srcp && (x.2 == .r || x.2 == .g || x.2 == .b) then
    [(.rgb0, .r), (.rgb0, .g), (.rgb0, .b)] ++
    (if srcpUsesOne f.rgbAddr.srcp then [(.rgb1, .r), (.rgb1, .g), (.rgb1, .b)] else [])
  else []) ++
  (if reads.any fun x => x.1 == .srcp && x.2 == .a then
    [(.alpha0, .a)] ++ (if srcpUsesOne f.alphaAddr.srcp then [(.alpha1, .a)] else [])
  else [])

/-- The channel that one component reads from src0, src1 or src2: RGB channels from the RGB address, alpha from the alpha
address (R275). -/
def directChannel (x : Read) : List (Port × Chan) :=
  match swzChan x.2 with
  | none => []
  | some c =>
    match x.1, decide (c = .a) with
    | .src0, false => [(.rgb0, c)]
    | .src1, false => [(.rgb1, c)]
    | .src2, false => [(.rgb2, c)]
    | .src0, true => [(.alpha0, c)]
    | .src1, true => [(.alpha1, c)]
    | .src2, true => [(.alpha2, c)]
    | .srcp, _ => []

/-- The channels that an instruction actually uses (R272). -/
def usedChannels (rop : RgbOp) (aop : AlphaOp) (f : AluInst) : List (Port × Chan) :=
  (aluReads rop aop f).flatMap directChannel ++ presubChannels f (aluReads rop aop f)

/-- The channels of one source that are used. -/
def portChannels (used : List (Port × Chan)) (p : Port) : List Chan := (used.filter fun u => u.1 == p).map Prod.snd

/-! ## Addresses and fetching (R272 to R274) -/

/-- Resolve one source address. -/
def resolvePlace (g : Group) (s : SrcAddr) : Res Place :=
  if !s.const && s.addr.getLsbD 7 then
    if s.rel then .error (.fault .invalidEncoding) else .ok (.inline (inlineConst (s.addr.toNat % 2 ^ 7)))
  else if s.const then (g.constIndex s.addr.toNat s.rel).map Place.const
  else (g.tempIndex (s.addr.toNat % 2 ^ 7) s.rel).map Place.temp

/-- An enabled processor uses a channel of temporary `n` that a lookup has yet to write (R366; log 22). -/
def readHazard (lanes : List Lane) (inactive : Bool) (n : Nat) (chans : List Chan) : Bool :=
  lanes.any fun l => l.on inactive && chans.any fun c => l.texPending.contains (regKey n c)

/-- Make one source ready, the channels `chans` of it being used. A constant is read through the MC whether or not a channel of it is
used (R272); one that is used must be in the program's note (R497), which for a relative address is known only here. -/
def fetchPlace (p : Platform) (draw : Nat) (g : Group) (inactive : Bool) (chans : List Chan) (pl : Place) (mem : MemSys) :
    Res (Source × MemSys) :=
  match pl with
  | .temp n => if readHazard g.lanes inactive n chans then .error (.fault .texHazard) else .ok (.temp n, mem)
  | .inline w => .ok (.value (Quad.all w), mem)
  | .const c =>
    if !chans.isEmpty && !g.env.prog.floatConsts.contains c then .error (.refuse .badProgram)
    else (readConstf p draw mem g.env.descs.constf c).map fun r => (.value r.1, r.2)

/-- `Fetch` of one source (R272): its address first, then what it names. -/
def fetchPort (p : Platform) (draw : Nat) (g : Group) (inactive : Bool) (used : List (Port × Chan)) (a : Six SrcAddr) (q : Port)
    (mem : MemSys) : Res (Source × MemSys) := do
  let pl ← resolvePlace g (a.get q)
  fetchPlace p draw g inactive (portChannels used q) pl mem

/-- Step 2 of R271: the six sources, one after the other, so that the first one that cannot be fetched stops the instruction (R541).
Which of the six is first is the order in which R271 names them (DEDUCED, unsafe; log 22). -/
def fetchSix (p : Platform) (draw : Nat) (g : Group) (inactive : Bool) (used : List (Port × Chan)) (a : Six SrcAddr) (mem : MemSys) :
    Res (Six Source × MemSys) := do
  let (rgb0, m) ← fetchPort p draw g inactive used a .rgb0 mem
  let (rgb1, m) ← fetchPort p draw g inactive used a .rgb1 m
  let (rgb2, m) ← fetchPort p draw g inactive used a .rgb2 m
  let (alpha0, m) ← fetchPort p draw g inactive used a .alpha0 m
  let (alpha1, m) ← fetchPort p draw g inactive used a .alpha1 m
  let (alpha2, m) ← fetchPort p draw g inactive used a .alpha2 m
  return ({ rgb0, rgb1, rgb2, alpha0, alpha1, alpha2 }, m)

/-! ## Values -/

/-- A channel of a source, as one processor sees it. -/
def Source.read (s : Source) (l : Lane) (c : Chan) : Word :=
  match s with
  | .temp n => l.temp n c
  | .value q => q.get c

/-- A source vector: RGB from the RGB address, alpha from the alpha address (R275). -/
def srcVec (rgb alpha : Source) (l : Lane) : Quad Word := ⟨rgb.read l .r, rgb.read l .g, rgb.read l .b, alpha.read l .a⟩

/-- src0, src1, src2 and the presubtract result (R275, R276). -/
structure Vectors where
  s0 : Quad Word
  s1 : Quad Word
  s2 : Quad Word
  sp : Quad Word
deriving DecidableEq, Repr

/-- The four vectors that operands select from; the presubtract takes the draws 0 to 3. -/
def vectors (fa : FArith) (draw : Nat) (f : AluInst) (src : Six Source) (l : Lane) : Vectors :=
  let s0 := srcVec src.rgb0 src.alpha0 l
  let s1 := srcVec src.rgb1 src.alpha1 l
  { s0 := s0, s1 := s1, s2 := srcVec src.rgb2 src.alpha2 l
    sp := ⟨presub fa draw f.rgbAddr.srcp s0.r s1.r, presub fa (draw + 1) f.rgbAddr.srcp s0.g s1.g,
      presub fa (draw + 2) f.rgbAddr.srcp s0.b s1.b, presub fa (draw + 3) f.alphaAddr.srcp s0.a s1.a⟩ }

/-- `V(sel)` (R278). -/
def Vectors.sel (v : Vectors) : SrcSel → Quad Word
  | .src0 => v.s0
  | .src1 => v.s1
  | .src2 => v.s2
  | .srcp => v.sp

/-- `Swz` (R279). -/
def swizzle (q : Quad Word) : Swz → Word
  | .r => q.r
  | .g => q.g
  | .b => q.b
  | .a => q.a
  | .zero => 0#32
  | .half => halfBits
  | .one => oneBits

/-- The input modifier acts on the sign bit (R280). -/
def applyIMod : IMod → Word → Word
  | .off, w => w
  | .neg, w => w ^^^ 0x80000000#32
  | .abs, w => w &&& 0x7FFFFFFF#32
  | .nab, w => w ||| 0x80000000#32

/-- An operand of the RGB unit (R279, R280). -/
def rgbOperand (v : Vectors) (o : RgbOperand) : Vec3 :=
  ⟨applyIMod o.mod (swizzle (v.sel o.sel) o.red), applyIMod o.mod (swizzle (v.sel o.sel) o.green),
   applyIMod o.mod (swizzle (v.sel o.sel) o.blue)⟩

/-- An operand of the alpha unit (R279, R280). -/
def alphaOperand (v : Vectors) (o : AlphaOperand) : Word := applyIMod o.mod (swizzle (v.sel o.sel) o.swz)

/-- The operands of both units. -/
structure Opnds where
  rgbA : Vec3
  rgbB : Vec3
  rgbC : Vec3
  alphaA : Word
  alphaB : Word
  alphaC : Word
deriving DecidableEq, Repr

def operands (v : Vectors) (f : AluInst) : Opnds :=
  { rgbA := rgbOperand v f.rgbA, rgbB := rgbOperand v f.rgbB, rgbC := rgbOperand v f.rgbC
    alphaA := alphaOperand v f.alphaA, alphaB := alphaOperand v f.alphaB, alphaC := alphaOperand v f.alphaC }

end Sys2Proof.Machine
end

