-- ==== Sys2Proof/Machine/Alu.lean ====
section
/-! DEFINITION. One ALU or OUTPUT instruction of a group (43_dpp_alu.md rule R271): the operations of both units (R284 to
R308), the output modifier and clamp (R312 to R314), the writes (R318 to R330) and the end of the program (R334). -/

namespace Sys2Proof.Machine

/-! ## Operations -/

/-- A result before the output modifier: an extended value, or the 32 bits of a selected operand or of a transcendental
result (R445, R453, R454). -/
inductive Raw where
  | ext (v : Ext)
  | bits (w : Word)
deriving DecidableEq, Repr

/-- MIN (R285, R297). -/
def selectMin (a b : Word) : Word := if fLt a b then a else b

/-- MAX (R286, R298). -/
def selectMax (a b : Word) : Word := if fGt a b then a else b

/-- The choice of CND and CMP (R287, R288): with NaN in A or B and C not NaN it is the formula's or B, as a draw. -/
def selectThird (draw : Nat) (test : Bool) (a b c : Word) : Word :=
  if !isNaN c && (isNaN a || isNaN b) && Config.freeBool draw then b else if test then a else b

/-- CND (R287, R299). -/
def selectCnd (draw : Nat) (a b c : Word) : Word := selectThird draw (fGtHalf c) a b c

/-- CMP (R288, R300). -/
def selectCmp (draw : Nat) (a b c : Word) : Word := selectThird draw (fGe0 c) a b c

/-- The scalar of a dot product (R290 to R292); any other operation has none. -/
def dotOf (op : RgbOp) (o : Opnds) : Ext :=
  match op with
  | .dp3 => dotSum [prodBits o.rgbA.r o.rgbB.r, prodBits o.rgbA.g o.rgbB.g, prodBits o.rgbA.b o.rgbB.b]
  | .dp4 =>
    dotSum [prodBits o.rgbA.r o.rgbB.r, prodBits o.rgbA.g o.rgbB.g, prodBits o.rgbA.b o.rgbB.b, prodBits o.alphaA o.alphaB]
  | .d2a => dotSum [prodBits o.rgbA.r o.rgbB.r, prodBits o.rgbA.g o.rgbB.g, .ofBits o.rgbC.b]
  | _ => .nan

/-- The transcendental result (R303 to R308); any other operation has none. -/
def transOf (fa : FArith) (draw : Nat) (op : AlphaOp) (a : Word) : Word :=
  match op with
  | .ex2 => ex2 fa draw a
  | .ln2 => ln2 fa draw a
  | .rcp => rcp fa draw a
  | .rsq => rsq fa draw a
  | .sin => sinTurns fa draw a
  | .cos => cosTurns fa draw a
  | _ => stdNaN

/-- The RGB operation on one lane (R284 to R293). The lanes take the draws 4 to 6, the transcendental the draw 7. -/
def rgbRaw (fa : FArith) (draw : Nat) (rop : RgbOp) (aop : AlphaOp) (o : Opnds) (ch : Chan) : Raw :=
  let a := o.rgbA.get ch
  let b := o.rgbB.get ch
  let c := o.rgbC.get ch
  match rop with
  | .mad => .ext (mad a b c)
  | .min => .bits (selectMin a b)
  | .max => .bits (selectMax a b)
  | .cnd => .bits (selectCnd (draw + 4 + ch.idx) a b c)
  | .cmp => .bits (selectCmp (draw + 4 + ch.idx) a b c)
  | .frc => .ext (frc (draw + 4 + ch.idx) a)
  | .dp3 => .ext (dotOf .dp3 o)
  | .dp4 => .ext (dotOf .dp4 o)
  | .d2a => .ext (dotOf .d2a o)
  | .sop => .bits (transOf fa (draw + 7) aop o.alphaA)

/-- The alpha operation (R296 to R308). -/
def alphaRaw (fa : FArith) (draw : Nat) (rop : RgbOp) (aop : AlphaOp) (o : Opnds) : Raw :=
  match aop with
  | .mad => .ext (mad o.alphaA o.alphaB o.alphaC)
  | .min => .bits (selectMin o.alphaA o.alphaB)
  | .max => .bits (selectMax o.alphaA o.alphaB)
  | .cnd => .bits (selectCnd (draw + 7) o.alphaA o.alphaB o.alphaC)
  | .cmp => .bits (selectCmp (draw + 7) o.alphaA o.alphaB o.alphaC)
  | .frc => .ext (frc (draw + 7) o.alphaA)
  | .dp => .ext (dotOf rop o)
  | .ex2 => .bits (transOf fa (draw + 7) .ex2 o.alphaA)
  | .ln2 => .bits (transOf fa (draw + 7) .ln2 o.alphaA)
  | .rcp => .bits (transOf fa (draw + 7) .rcp o.alphaA)
  | .rsq => .bits (transOf fa (draw + 7) .rsq o.alphaA)
  | .sin => .bits (transOf fa (draw + 7) .sin o.alphaA)
  | .cos => .bits (transOf fa (draw + 7) .cos o.alphaA)

/-! ## Output modifier and clamp -/

/-- The value that `Finish` is given (R456). -/
def Raw.value : Raw → Ext
  | .ext v => v
  | .bits w => .ofBits w

/-- The output modifier (R312), OMOD_DISABLED passing the 32 bits on (R313, R458). -/
def finishRaw (fa : FArith) (draw : Nat) (om : OMod) (r : Raw) : Word :=
  match om, r with
  | .disabled, .bits w => w
  | .disabled, .ext v => finish fa draw .u1 v
  | om, r => finish fa draw om r.value

/-- Output modifier, then clamp (R271 step 6). The modifiers take the draws 8 to 11, the clamps 12 to 15. -/
def settle (fa : FArith) (draw : Nat) (om : OMod) (clamp : Bool) (ch : Chan) (r : Raw) : Word :=
  let x := finishRaw fa (draw + 8 + ch.idx) om r
  if clamp then clampBits (draw + 12 + ch.idx) x else x

/-- The four results of an instruction. -/
abbrev AluResult := Quad Word

/-- Steps 3 to 6 of R271 on one processor. -/
def aluResult (fa : FArith) (draw : Nat) (rop : RgbOp) (aop : AlphaOp) (f : AluInst) (src : Six Source) (l : Lane) :
    AluResult :=
  let o := operands (vectors fa draw f src l) f
  let rgb := fun ch => settle fa draw f.rgbOmod f.rgbClamp ch (rgbRaw fa draw rop aop o ch)
  ⟨rgb .r, rgb .g, rgb .b, settle fa draw f.alphaOmod f.alphaClamp .a (alphaRaw fa draw rop aop o)⟩

/-! ## Writes -/

/-- `en_rgb`, `en_a` (R318). -/
def aluEnable (f : AluInst) (l : Lane) (ch : Chan) : Bool :=
  match ch with
  | .a => predEn l f.alphaPredSel f.alphaPredInv .a
  | ch => predEn l f.rgbPredSel f.rgbPredInv ch

/-- The write mask of an instruction (R320). -/
def aluWmaskBit (f : AluInst) (ch : Chan) : Bool := wmaskBit f.rgbWmask f.alphaWmask ch

/-- The output or predicate mask of an instruction (R322, R326). -/
def aluOmaskBit (f : AluInst) (ch : Chan) : Bool := wmaskBit f.rgbOmask f.alphaOmask ch

/-- The destination register of a channel: RGB and alpha have one each (R152, R321). -/
def aluDst (dr da : Nat) (ch : Chan) : Nat :=
  match ch with
  | .a => da
  | _ => dr

/-- The target of a channel (R322). -/
def aluTarget (f : AluInst) (ch : Chan) : Target :=
  match ch with
  | .a => f.alphaTarget
  | _ => f.rgbTarget

/-- Temporaries (R320): masked and predicated by the predicate bits before the instruction. -/
def writeTemps (f : AluInst) (en : Chan → Bool) (dr da : Nat) (res : AluResult) (l : Lane) : Lane :=
  allChans.foldl (fun acc ch => if aluWmaskBit f ch && en ch then acc.setTemp (aluDst dr da ch) ch (res.get ch) else acc) l

/-- Output registers, on an OUTPUT instruction (R322). -/
def writeOuts (f : AluInst) (en : Chan → Bool) (res : AluResult) (l : Lane) : Lane :=
  if f.isOutput then
    allChans.foldl
      (fun acc ch => if aluOmaskBit f ch && en ch then acc.setOut (Target.register (aluTarget f ch)) ch (res.get ch) else acc) l
  else l

/-- Predicate bits, on an ALU instruction, not predicated (R326, R327). -/
def writePreds (f : AluInst) (res : AluResult) (l : Lane) : Lane :=
  if f.isOutput then l
  else
    allChans.foldl
      (fun acc ch => if aluOmaskBit f ch then acc.setPred ch (predOp (Target.test (aluTarget f ch)) (res.get ch)) else acc) l

/-- The W output (R324). -/
def writeW (f : AluInst) (en : Chan → Bool) (res : AluResult) (l : Lane) : Lane :=
  if f.wOmask && en .a then { l with wout := res.a, woutSet := true } else l

/-- The ALU result, not predicated (R330). -/
def writeAr (f : AluInst) (res : AluResult) (l : Lane) : Lane :=
  if f.aluWmask then
    { l with ar := predOp f.resultOp (match f.resultSel with | .red => res.r | .alpha => res.a), arSet := true }
  else l

/-- All writes of an instruction on one processor, together (R271 step 7). -/
def aluWrite (f : AluInst) (dr da : Nat) (res : AluResult) (l : Lane) : Lane :=
  let en := aluEnable f l
  writeAr f res (writeW f en res (writePreds f res (writeOuts f en res (writeTemps f en dr da res l))))

/-- One instruction on one processor: nothing is written where it is not enabled (R319). -/
def aluLane (fa : FArith) (draw : Nat) (rop : RgbOp) (aop : AlphaOp) (f : AluInst) (src : Six Source) (dr da : Nat)
    (l : Lane) : Lane :=
  if l.on f.writeInactive then aluWrite f dr da (aluResult fa draw rop aop f src l) l else l

/-! ## Hazards -/

/-- The temporary channels that some of the sources' channels are. -/
def tempKeys (src : Six Source) (chans : List (Port × Chan)) : List Nat :=
  chans.filterMap fun u =>
    match src.get u.1 with
    | .temp n => some (regKey n u.2)
    | .value _ => none

/-- The temporary channels that the destination addresses and the static write masks name (R588, R590). -/
def aluDsts (f : AluInst) (dr da : Nat) : List Nat :=
  (allChans.filter (aluWmaskBit f)).map fun ch => regKey (aluDst dr da ch) ch

/-- `alu_pending` gains these items (R588). -/
def aluItems (f : AluInst) (dr da : Nat) : List AluItem :=
  (aluDsts f dr da).map AluItem.temp ++
  (if f.isOutput then [] else (allChans.filter (aluOmaskBit f)).map AluItem.pred) ++
  (if f.aluWmask then [.ar] else [])

/-- A presubtract source was written by the previous instruction, which lacks NOP (R590). -/
def nopHazard (g : Group) (rop : RgbOp) (aop : AlphaOp) (f : AluInst) (src : Six Source) : Bool :=
  match g.prev with
  | .alu false dsts => (tempKeys src (presubChannels f (aluReads rop aop f))).any dsts.contains
  | _ => false

/-- An enabled processor writes a channel that a lookup has yet to write (R366; log 22). -/
def aluWriteHazard (f : AluInst) (dr da : Nat) (l : Lane) : Bool :=
  l.on f.writeInactive &&
    allChans.any fun ch => aluWmaskBit f ch && aluEnable f l ch && l.texPending.contains (regKey (aluDst dr da ch) ch)

/-! ## The instruction -/

/-- What the fields alone rule out, and `LAST` away from the end (R156, R293, R302, R313, R323, R335). None of these rules says at
which step of R271 its check is made, D31 only that it is made when the instruction executes: the model makes them all before step 1,
in this order (DESIGN CHOICE, unsafe; log 45). aL added to an inline constant is found in step 2, by `resolvePlace` (R272). -/
def aluStatic (g : Group) (rop : RgbOp) (aop : AlphaOp) (f : AluInst) : Res Unit := do
  require (aluCombinationOk rop aop f) .invalidEncoding
  if f.isOutput then accept (f.rgbTarget.encodable && f.alphaTarget.encodable) .umrtUnsupported
  else require (f.rgbTarget.encodable && f.alphaTarget.encodable) .invalidEncoding
  accept (!f.last || g.atEnd) .lastUnsupported

/-- The group after an instruction whose processors are `lanes`: the scoreboard, and the end of the program (R334). -/
def aluFinish (g : Group) (f : AluInst) (dr da : Nat) (lanes : List Lane) : Res Group :=
  let g1 := { g with
    lanes := lanes, aluPending := addNew g.aluPending (aluItems f dr da), prev := .alu f.nop (aluDsts f dr da), started := true }
  if g.atEnd then
    if f.isOutput && f.semWait then .ok { g1 with halted := true } else .error (.fault .badLastInstruction)
  else .ok { g1 with pc := g.pc + 1 }

/-- `ExecAlu` on the group that is to execute, in the order of R271: the fields, the wait, the six sources, the presubtract, the
destinations, the end. The first step that something is wrong in stops the instruction (R541). -/
def runAlu (fa : FArith) (rop : RgbOp) (aop : AlphaOp) (f : AluInst) (s : State) : Res State := do
  let (k, g0) ← s.current
  aluStatic g0 rop aop f
  let g ← g0.semWait f.semWait
  let (src, mem) ← fetchSix s.platform s.draws g f.writeInactive (usedChannels rop aop f) (aluAddrs f) s.mem
  require (!nopHazard g rop aop f src) .nopHazard
  let dr ← g.tempIndex f.rgbDst.toNat f.rgbDstRel
  let da ← g.tempIndex f.alphaDst.toNat f.alphaDstRel
  require (!g.lanes.any (aluWriteHazard f dr da)) .texHazard
  let lanes := g.lanes.mapIdx fun n l => aluLane fa (s.draws + drawsPerLane * n) rop aop f src dr da l
  let g1 ← aluFinish g f dr da lanes
  return ({ s with mem := mem }.setGroup k g1).spend g

/-- The outcome of an ALU or OUTPUT instruction under the open arithmetic. -/
def execAlu (rop : RgbOp) (aop : AlphaOp) (f : AluInst) (s : State) : Host.Outcome State Fault Refusal :=
  conclude s.turnStuck (runAlu Config.fArith rop aop f s)

end Sys2Proof.Machine
end

