-- ==== Sys2Proof/Machine/AlphaOps.lean ====
section
/-! DEFINITION. The meanings of the thirteen alpha rows (43_dpp_alu.md rules R296 to R308): a slot named by its alpha operation, with
the RGB operation it is paired with (R270). -/

namespace Sys2Proof.Machine

/-- `OP_ALPHA_MAD` (R296). -/
def execOpAlphaMad (rgb : RgbOp) (f : AluInst) (s : State) : Host.Outcome State Fault Refusal := execAlu rgb .mad f s

/-- `OP_ALPHA_MIN` (R297). -/
def execOpAlphaMin (rgb : RgbOp) (f : AluInst) (s : State) : Host.Outcome State Fault Refusal := execAlu rgb .min f s

/-- `OP_ALPHA_MAX` (R298). -/
def execOpAlphaMax (rgb : RgbOp) (f : AluInst) (s : State) : Host.Outcome State Fault Refusal := execAlu rgb .max f s

/-- `OP_ALPHA_CND` (R299). -/
def execOpAlphaCnd (rgb : RgbOp) (f : AluInst) (s : State) : Host.Outcome State Fault Refusal := execAlu rgb .cnd f s

/-- `OP_ALPHA_CMP` (R300). -/
def execOpAlphaCmp (rgb : RgbOp) (f : AluInst) (s : State) : Host.Outcome State Fault Refusal := execAlu rgb .cmp f s

/-- `OP_ALPHA_FRC` (R301). -/
def execOpAlphaFrc (rgb : RgbOp) (f : AluInst) (s : State) : Host.Outcome State Fault Refusal := execAlu rgb .frc f s

/-- `OP_ALPHA_DP` (R302). -/
def execOpAlphaDp (rgb : RgbOp) (f : AluInst) (s : State) : Host.Outcome State Fault Refusal := execAlu rgb .dp f s

/-- `OP_ALPHA_EX2` (R303). -/
def execOpAlphaEx2 (rgb : RgbOp) (f : AluInst) (s : State) : Host.Outcome State Fault Refusal := execAlu rgb .ex2 f s

/-- `OP_ALPHA_LN2` (R304). -/
def execOpAlphaLn2 (rgb : RgbOp) (f : AluInst) (s : State) : Host.Outcome State Fault Refusal := execAlu rgb .ln2 f s

/-- `OP_ALPHA_RCP` (R305). -/
def execOpAlphaRcp (rgb : RgbOp) (f : AluInst) (s : State) : Host.Outcome State Fault Refusal := execAlu rgb .rcp f s

/-- `OP_ALPHA_RSQ` (R306). -/
def execOpAlphaRsq (rgb : RgbOp) (f : AluInst) (s : State) : Host.Outcome State Fault Refusal := execAlu rgb .rsq f s

/-- `OP_ALPHA_SIN` (R307). -/
def execOpAlphaSin (rgb : RgbOp) (f : AluInst) (s : State) : Host.Outcome State Fault Refusal := execAlu rgb .sin f s

/-- `OP_ALPHA_COS` (R308). -/
def execOpAlphaCos (rgb : RgbOp) (f : AluInst) (s : State) : Host.Outcome State Fault Refusal := execAlu rgb .cos f s

end Sys2Proof.Machine
end

