-- ==== Sys2Proof/Machine/CoCommands.lean ====
section
/-! DEFINITION. The commands of the CO (42_commands_co.md): the condition and the conditional location. -/

namespace Sys2Proof.Machine

/-- `set_cond_test` (R251). -/
def execSetCondTest (condition : Word) (s : State) : Host.Outcome State Fault Refusal :=
  conclude s.peStuck do
    requireReserved (.setCondTest condition)
    return ({ s with co := { s.co with test := fieldBits condition 0 3 } }.markSet .condTest).retireCommand
      (.setCondTest condition)

/-- `set_cond_loc` (R252). -/
def execSetCondLoc (loc : Word) (s : State) : Host.Outcome State Fault Refusal :=
  conclude s.peStuck do
    requireReserved (.setCondLoc loc)
    return ({ s with co := { s.co with loc := loc.getLsbD 0 } }.markSet .condLoc).retireCommand (.setCondLoc loc)

end Sys2Proof.Machine
end

