-- ==== Sys2Proof/Machine/Tex.lean ====
section
/-! DEFINITION. Texture instructions (44_dpp_tex.md rules R350 to R368): coordinates, `TexIndex`, lookups, kill, and the
texture semaphore. -/

namespace Sys2Proof.Machine

/-! ## Coordinates and TexIndex -/

/-- The four coordinates of a lookup (R352). -/
structure Coord where
  s : Word
  t : Word
  r : Word
  q : Word
deriving DecidableEq, Repr

/-- A coordinate as the texture unit accepts it (R357 (c), R363): NaN becomes +Inf, a denormal a zero of its sign. -/
def conditionCoord (w : Word) : Word := if isNaN w then infBits false else flushDenormal w

/-- The coordinates that an instruction selects (R352). -/
def texCoord (f : TexInst) (src : Nat) (l : Lane) : Coord :=
  let at' := fun c : Chan => conditionCoord (l.temp src c)
  ⟨at' f.swzS, at' f.swzT, at' f.swzR, at' f.swzQ⟩

/-- The integer that a coordinate is, when it is one from 0 to 4095 (R357 (a)); -0 is the integer 0. -/
def coordInt (w : Word) : Option Nat :=
  match Ext.ofBits w with
  | .zero _ => some 0
  | .real m e =>
    match integer? m e with
    | some n => if 0 ≤ n && n ≤ 4095 then some n.toNat else none
    | none => none
  | _ => none

/-- `TexIndex` (R357): pinned for UNSCALED integer coordinates and for projection by q = 1, else the parameter, applied to
the coordinates that the operation reads (R352): s and t, and q when it projects. -/
def texIndex (d : TallDesc) (unscaled proj : Bool) (c : Coord) : Nat × Nat :=
  let proj' := proj && c.q != oneBits
  let q' := if proj' then c.q else oneBits
  let open' := Config.texIndex d.desc.base.toNat d.desc.pitch.toNat
    d.desc.tiling.code d.desc.format.toNat d.height.toNat unscaled proj' c.s c.t 0#32 q'
  if unscaled && !proj' then
    match coordInt c.s, coordInt c.t with
    | some x, some y => (x, y)
    | _, _ => open'
  else open'

/-- A channel of an element as it arrives in the register (R363): denormals flushed, NaN some NaN (log 29). -/
def arrive (draw : Nat) (w : Word) : Word :=
  if isNaN w then (if isNaN (Config.freeWord draw) then Config.freeWord draw else stdNaN) else flushDenormal w

/-! ## Participation, masks, hazards -/

/-- The processor takes part (R355). -/
def texTakesPart (f : TexInst) (l : Lane) : Bool := l.on f.writeInactive && (l.covered || !f.ignoreUncovered)

/-- The masked and predicated channels (R353, R360). -/
def texEnable (f : TexInst) (l : Lane) (ch : Chan) : Bool :=
  wmaskBit f.rgbWmask f.alphaWmask ch &&
  match ch with
  | .a => predEn l f.alphaPredSel f.alphaPredInv .a
  | ch => predEn l f.rgbPredSel f.rgbPredInv ch

/-- The source channels that an operation reads (R352, R360). -/
def texReads (op : TexOp) (f : TexInst) : List Chan :=
  match op with
  | .nop => []
  | .lookup | .lookupUncached => [f.swzS, f.swzT]
  | .lookupProj => [f.swzS, f.swzT, f.swzQ]
  | .killLt0 => allChans.filter (wmaskBit f.rgbWmask f.alphaWmask)

/-- `Uses` of a texture instruction (R588): for every operation the channels that its four source swizzles select and the predicate
bits that it selects, and beside them the channels that it reads, which for a kill are those of its write mask (R360, R585). That a
swizzle counts whether or not its operation reads the coordinate, and that a kill's mask counts too, is the model's reading (DEDUCED,
safe; log 38). -/
def texUses (op : TexOp) (f : TexInst) (src : Option Nat) : List AluItem :=
  (match src with
    | none => []
    | some n => ([f.swzS, f.swzT, f.swzR, f.swzQ] ++ texReads op f).map fun c => AluItem.temp (regKey n c)) ++
    predUses f.rgbPredSel [.r, .g, .b] ++ predUses f.alphaPredSel [.a]

/-- The channels that an operation reads on one processor: a kill examines only the enabled channels (R360). -/
def texReadsOn (op : TexOp) (f : TexInst) (l : Lane) : List Chan :=
  match op with
  | .killLt0 => allChans.filter (texEnable f l)
  | op => texReads op f

/-- The channels that an operation writes on one processor (R353). -/
def texWritesOn (op : TexOp) (f : TexInst) (l : Lane) : List Chan :=
  match op with
  | .nop | .killLt0 => []
  | _ => allChans.filter (texEnable f l)

/-- The processor reads a channel that a lookup has yet to write (R366; log 22). -/
def texReadHazard (op : TexOp) (f : TexInst) (src : Nat) (l : Lane) : Bool :=
  texTakesPart f l && (texReadsOn op f l).any fun c => l.texPending.contains (regKey src c)

/-- The processor writes a channel that a lookup has yet to write (R366; log 22). -/
def texWriteHazard (op : TexOp) (f : TexInst) (dst : Nat) (l : Lane) : Bool :=
  texTakesPart f l && (texWritesOn op f l).any fun c => l.texPending.contains (regKey dst c)

/-! ## The operations on one processor -/

/-- The destination swizzle: destination channel ch receives result channel DSWZ_ch (R353). -/
def texDswz (f : TexInst) (ch : Chan) : Chan :=
  match ch with
  | .r => f.dswzR
  | .g => f.dswzG
  | .b => f.dswzB
  | .a => f.dswzA

/-- Write the result of a lookup, and note the lookup as pending (R353, R366). -/
def texWrite (f : TexInst) (dst : Nat) (res : Quad Word) (l : Lane) : Lane :=
  let chans := allChans.filter (texEnable f l)
  let l1 := chans.foldl (fun acc ch => acc.setTemp dst ch (res.get (texDswz f ch))) l
  { l1 with texPending := addNew l.texPending (chans.map (regKey dst)) }

/-- The four channels of an element as they arrive; they take the draws from `draw` on. -/
def arriveAll (draw : Nat) (q : Quad Word) : Quad Word :=
  ⟨arrive draw q.r, arrive (draw + 1) q.g, arrive (draw + 2) q.b, arrive (draw + 3) q.a⟩

/-- A lookup on one processor (R359, R361, R362). -/
def texLookupLane (p : Platform) (draw : Nat) (d : TallDesc) (proj uncached : Bool) (f : TexInst) (src dst : Nat) (l : Lane)
    (mem : MemSys) : Res (Lane × MemSys) :=
  let xy := texIndex d f.unscaled proj (texCoord f src l)
  if uncached then
    (readInputUncached p draw mem d xy.1 xy.2).map fun q => (texWrite f dst (arriveAll draw q) l, mem)
  else (readInput p draw mem d xy.1 xy.2).map fun r => (texWrite f dst (arriveAll draw r.1) l, r.2)

/-- A kill on one processor (R360): the swizzles are ignored. -/
def texKillLane (f : TexInst) (src : Nat) (l : Lane) : Lane :=
  if (allChans.filter (texEnable f l)).any fun c => fLt0 (l.temp src c) then { l with covered := false } else l

/-- One operation on one processor. -/
def texLane (p : Platform) (draw : Nat) (d : TallDesc) (op : TexOp) (f : TexInst) (src dst : Nat) (l : Lane) (mem : MemSys) :
    Res (Lane × MemSys) :=
  if texTakesPart f l then
    match op with
    | .nop => .ok (l, mem)
    | .lookup => texLookupLane p draw d false false f src dst l mem
    | .lookupProj => texLookupLane p draw d true false f src dst l mem
    | .lookupUncached => texLookupLane p draw d false true f src dst l mem
    | .killLt0 => .ok (texKillLane f src l, mem)
  else .ok (l, mem)

/-- One operation on the processors of a group, one after another in the order of the group. R350 gives them none: where a lookup meets
something wrong on several of them, a fault on one and an unmapped address on another, the first decides (DESIGN CHOICE, unsafe;
log 45). -/
def texLanes (p : Platform) (draw : Nat) (d : TallDesc) (op : TexOp) (f : TexInst) (src dst : Nat) :
    List Lane → MemSys → Res (List Lane × MemSys)
  | [], mem => .ok ([], mem)
  | l :: rest, mem => do
    let (l1, m1) ← texLane p draw d op f src dst l mem
    let (ls, m2) ← texLanes p (draw + drawsPerLane) d op f src dst rest m1
    return (l1 :: ls, m2)

/-! ## The instruction -/

/-- The register that a source address names before its number is checked, as step 1 of R350 needs it; none below zero or without aL
(R588; log 38). -/
def texNamed (g : Group) (f : TexInst) : Option Nat :=
  match g.relative f.srcAddr.toNat f.srcRel with
  | .ok i => if 0 ≤ i then some i.toNat else none
  | .error _ => none

/-- The register numbers of an operation (R351): the source and the destination of a lookup, the source of a KILL, none of a NOP
(R358). A KILL writes nothing to its destination (R360), and whether a destination address outside the range still stops it is not
stated, R351 giving both addresses their faults without naming the operation: it is not checked (DEDUCED, unsafe; log 43). -/
def texPlaces (g : Group) (op : TexOp) (f : TexInst) : Res (Nat × Nat) :=
  match op with
  | .nop => .ok (0, 0)
  | .killLt0 => (g.tempIndex f.srcAddr.toNat f.srcRel).map fun n => (n, 0)
  | _ => do
    let src ← g.tempIndex f.srcAddr.toNat f.srcRel
    let dst ← g.tempIndex f.dstAddr.toNat f.dstRel
    return (src, dst)

/-- `ALU_WAIT` (R588): wait for the pending results, or fault when one is used. -/
def Group.aluWait (g : Group) (wait : Bool) (uses : List AluItem) : Res Group :=
  if wait then .ok { g with aluPending := [] }
  else if uses.any g.aluPending.contains then .error (.fault .aluHazard)
  else .ok g

/-- `SemAcquire` on the processors of a group (R368). -/
def semAcquireAll (acquire : Bool) (ls : List Lane) : List Lane := if acquire then ls.map Lane.semAcquire else ls

/-- `ExecTex` on the group that is to execute, in the order of R350: the two waits, then the operation, whose reads come before its
writes (log 22), then the semaphore, which an instruction that does not wait may not acquire (R156, R369, checked where R368 asks for a
free semaphore; log 45). At the end address it stops once it is done (R334). The first step that something is wrong in stops the
instruction (R541). -/
def runTex (op : TexOp) (f : TexInst) (s : State) : Res State := do
  let (k, g0) ← s.current
  let g1 ← g0.aluWait f.aluWait (texUses op f (texNamed g0 f))
  let g ← g1.semWait f.semWait
  let (src, dst) ← texPlaces g op f
  require (!g.lanes.any (texReadHazard op f src)) .texHazard
  let (lanes, mem) ← texLanes s.platform s.draws (g.env.descs.inp.get ⟨f.texId.toNat, f.texId.isLt⟩) op f src dst g.lanes s.mem
  require (!g.lanes.any (texWriteHazard op f dst)) .texHazard
  require f.wellFormed .invalidEncoding
  require (!g.atEnd) .badLastInstruction
  let g2 := { g with lanes := semAcquireAll f.semAcquire lanes, prev := .tex, started := true, pc := g.pc + 1 }
  return ({ s with mem := mem }.setGroup k g2).spend g

/-- `TEX_INST_NOP` (R358). -/
def execTexNop (f : TexInst) (s : State) : Host.Outcome State Fault Refusal := conclude s.turnStuck (runTex .nop f s)

/-- `TEX_INST_LOOKUP` (R359). -/
def execTexLookup (f : TexInst) (s : State) : Host.Outcome State Fault Refusal := conclude s.turnStuck (runTex .lookup f s)

/-- `TEX_INST_KILL_LT_0` (R360). -/
def execTexKillLt0 (f : TexInst) (s : State) : Host.Outcome State Fault Refusal := conclude s.turnStuck (runTex .killLt0 f s)

/-- `TEX_INST_LOOKUP_PROJ` (R361). -/
def execTexLookupProj (f : TexInst) (s : State) : Host.Outcome State Fault Refusal := conclude s.turnStuck (runTex .lookupProj f s)

/-- `TEX_INST_LOOKUP_UNCACHED` (R362). -/
def execTexLookupUncached (f : TexInst) (s : State) : Host.Outcome State Fault Refusal := conclude s.turnStuck (runTex .lookupUncached f s)

end Sys2Proof.Machine
end

