-- ==== Sys2Proof/Machine/Fc.lean ====
section
/-! DEFINITION. Flow-control instructions (45_dpp_fc.md rules R380 to R418): the vote, the branch counters, the loop stack,
the address stack. The steps are numbered as in R382. -/

namespace Sys2Proof.Machine

/-- A processor during a flow-control instruction: what it wants (R389), whether B_ELSE deactivated it (R396), and whether it is one
of the voters of step 5 (R387), which the steps after it ask. -/
structure Voter where
  lane : Lane
  want : Bool
  byElse : Bool
  voter : Bool
deriving DecidableEq, Repr

/-! ## Loop-inactive processors (R404) -/

/-- Step 2: ENDLOOP and ENDREP re-enable the processors that CONTINUE disabled in the top frame. -/
def Lane.endContinue (depth : Nat) (l : Lane) : Lane :=
  if l.loopOff = some (.cont, depth) then { l with loopOff := none } else l

/-- A popped frame re-enables every processor disabled in it. -/
def Lane.popFrame (depth : Nat) (l : Lane) : Lane :=
  match l.loopOff with
  | some (_, d) => if d = depth then { l with loopOff := none } else l
  | none => l

/-! ## Vote -/

/-- Step 4 on one processor (R396). -/
def Voter.flip (v : Voter) : Voter :=
  if v.lane.loopOff.isSome then v
  else if v.lane.active then { v with lane := { v.lane with active := false, bcnt := 0 }, want := true, byElse := true }
  else if v.lane.bcnt = 0 then { v with lane := { v.lane with active := true } }
  else v

/-- `IGNORE_UNCOVERED` excludes the processor from the decision (R387). -/
def Voter.excluded (f : FcInst) (v : Voter) : Bool := f.ignoreUncovered && !v.lane.covered

/-- The processor votes (R387), as it stands after B_ELSE. -/
def Voter.votes (f : FcInst) (v : Voter) : Bool :=
  (v.lane.enabled || v.byElse) && !v.excluded f

/-- Step 5: note who votes. -/
def Voter.register (f : FcInst) (v : Voter) : Voter := { v with voter := v.votes f }

/-- `Vote` (R390). -/
def vote (f : FcInst) (vs : List Voter) : Bool :=
  let voters := vs.filter Voter.voter
  if f.jumpAny then voters.any Voter.want else voters.all Voter.want

/-- `Inhibits` (R418) for a BREAK or a CONTINUE. A processor whose active bit is clear and that a BREAK or CONTINUE has disabled as
well falls under two clauses that disagree: it inhibits (DESIGN CHOICE, unsafe; log 39). -/
def Voter.inhibits (mode : BreakInhibit) (f : FcInst) (isBreak : Bool) (v : Voter) : Bool :=
  (!v.lane.active &&
    match mode with
    | .all => true
    | .inner => decide (v.lane.bcnt < f.bPopCnt.toNat)) ||
  (isBreak &&
    match v.lane.loopOff with
    | some (.cont, _) => true
    | _ => false)

/-- Voters that want to leave become loop-inactive (R415, R417). -/
def Voter.leave (kind : OffKind) (depth : Nat) (v : Voter) : Voter :=
  if v.voter && v.want then { v with lane := { v.lane with loopOff := some (kind, depth) } } else v

/-! ## Branch counters (R397, R398, R400) -/

/-- `Incr` on one processor; loop-inactive ones are left alone (R404), and so are those that IGNORE_UNCOVERED excludes, inactive ones
included (R387, D43; log 40). -/
def Voter.incr (f : FcInst) (max : Nat) (jump : Bool) (v : Voter) : Res Voter :=
  if v.lane.loopOff.isSome || v.excluded f then .ok v
  else if !v.lane.active then
    if v.lane.bcnt + 1 ≤ max then .ok { v with lane := { v.lane with bcnt := v.lane.bcnt + 1 } }
    else .error (.fault .branchCounterOverflow)
  else if v.voter && v.want != jump then .ok { v with lane := { v.lane with active := false, bcnt := 0 } }
  else .ok v

/-- `Decr` on one processor. -/
def Voter.decr (n : Nat) (v : Voter) : Voter :=
  if v.lane.loopOff.isSome || v.lane.active then v
  else if v.lane.bcnt < n then { v with lane := { v.lane with active := true, bcnt := 0 } }
  else { v with lane := { v.lane with bcnt := v.lane.bcnt - n } }

/-- `Incr` on every processor. -/
def incrAll (f : FcInst) (max : Nat) (jump : Bool) : List Voter → Res (List Voter)
  | [] => .ok []
  | v :: rest =>
    match v.incr f max jump, incrAll f max jump rest with
    | .ok v1, .ok vs => .ok (v1 :: vs)
    | .error e, _ => .error e
    | _, .error e => .error e

/-- Step 9: the branch operation (R399). -/
def branchOp (g : Group) (f : FcInst) (jump : Bool) (vs : List Voter) : Res (List Voter) :=
  match (if jump then f.bOp1 else f.bOp0) with
  | .none => .ok vs
  | .incr => incrAll f g.env.prog.branchMax jump vs
  | .decr => .ok (vs.map (Voter.decr f.bPopCnt.toNat))

/-! ## Loop stack (R405, R411 to R417) -/

/-- The top frame, of the required kind where one is required; the loop stack exists in full mode only (R62). -/
def topFrame (g : Group) (kind : Option FrameKind) : Res Frame :=
  if g.env.prog.fullMode then
    match g.loopStack with
    | [] => .error (.fault .stackFault)
    | fr :: _ => if kind = none ∨ kind = some fr.kind then .ok fr else .error (.fault .stackFault)
  else .error (.fault .stackFault)

/-- Push a frame: at most four, full mode only (R405). -/
def pushFrame (g : Group) (fr : Frame) : Res (List Frame) :=
  if g.env.prog.fullMode && decide (g.loopStack.length < 4) then .ok (fr :: g.loopStack) else .error (.fault .stackFault)

/-- The result of steps 6 and 7: the decision, the loop stack, the processors, memory after constant reads. -/
structure LoopResult where
  jump : Bool
  stack : List Frame
  voters : List Voter
  mem : MemSys
deriving DecidableEq, Repr

/-- LOOP and REP (R411, R413). -/
def beginLoop (p : Platform) (g : Group) (kind : FrameKind) (f : FcInst) (vs : List Voter) (mem : MemSys) :
    Res LoopResult := do
  let (c, mem1) ← readConsti p mem g.env.descs.consti f.intAddr.toNat
  let jump := c.1 == 0 || vote f vs
  if jump then return { jump := true, stack := g.loopStack, voters := vs, mem := mem1 }
  else
    let stack ← pushFrame g { kind := kind, count := c.1, aL := match kind with | .loop => c.2.1 | .rep => 0 }
    return { jump := false, stack := stack, voters := vs, mem := mem1 }

/-- ENDLOOP and ENDREP (R412, R414). The frame is required in step 6, as the template of R410 to R417 places it, not above step 2, where the
pseudocode of R412 has that line (DESIGN CHOICE, unsafe; log 45). -/
def endLoop (p : Platform) (g : Group) (kind : FrameKind) (f : FcInst) (vs : List Voter) (mem : MemSys) :
    Res LoopResult := do
  let fr ← topFrame g (some kind)
  let rem := fr.count - 1
  let jump := rem != 0 && vote f vs
  if jump then
    match kind with
    | .loop =>
      let (c, mem1) ← readConsti p mem g.env.descs.consti f.intAddr.toNat
      return { jump := true, stack := { fr with count := rem, aL := fr.aL + c.2.2 } :: g.loopStack.tail, voters := vs, mem := mem1 }
    | .rep => return { jump := true, stack := { fr with count := rem } :: g.loopStack.tail, voters := vs, mem := mem }
  else
    return { jump := false, stack := g.loopStack.tail
             voters := vs.map fun v => { v with lane := v.lane.popFrame g.loopStack.length }, mem := mem }

/-- BREAKLOOP and BREAKREP (R415, R416). -/
def breakLoop (g : Group) (kind : FrameKind) (f : FcInst) (vs : List Voter) (mem : MemSys) : Res LoopResult := do
  let _ ← topFrame g (some kind)
  let jump := vote f vs && !vs.any (Voter.inhibits g.env.prog.breakInhibit f true)
  if jump then
    return { jump := true, stack := g.loopStack.tail
             voters := vs.map fun v => { v with lane := v.lane.popFrame g.loopStack.length }, mem := mem }
  else
    return { jump := false, stack := g.loopStack, voters := vs.map (Voter.leave .brk g.loopStack.length), mem := mem }

/-- CONTINUE (R417). -/
def continueLoop (g : Group) (f : FcInst) (vs : List Voter) (mem : MemSys) : Res LoopResult := do
  let _ ← topFrame g none
  let jump := vote f vs && !vs.any (Voter.inhibits g.env.prog.breakInhibit f false)
  if jump then return { jump := true, stack := g.loopStack, voters := vs, mem := mem }
  else
    return { jump := false, stack := g.loopStack, voters := vs.map (Voter.leave .cont g.loopStack.length), mem := mem }

/-- Steps 6 and 7 of each operation. -/
def fcLoop (p : Platform) (g : Group) (op : FcOp) (f : FcInst) (vs : List Voter) (mem : MemSys) :
    Res LoopResult :=
  match op with
  | .jump => .ok { jump := vote f vs, stack := g.loopStack, voters := vs, mem := mem }
  | .loop => beginLoop p g .loop f vs mem
  | .rep => beginLoop p g .rep f vs mem
  | .endloop => endLoop p g .loop f vs mem
  | .endrep => endLoop p g .rep f vs mem
  | .breakloop => breakLoop g .loop f vs mem
  | .breakrep => breakLoop g .rep f vs mem
  | .cont => continueLoop g f vs mem

/-! ## Address stack and target (R392, R393) -/

/-- Step 8: the address stack and the next pc. -/
def fcTarget (g : Group) (f : FcInst) (jump : Bool) : Res (Nat × List Nat) :=
  if jump then
    let direct := if f.jumpGlobal then f.jumpAddr.toNat else f.jumpAddr.toNat + g.env.prog.offsetAddr
    match f.aOp with
    | .none => .ok (direct, g.addrStack)
    | .push =>
      if g.env.prog.fullMode && decide (g.addrStack.length < 4) then .ok (direct, (g.pc + 1) :: g.addrStack)
      else .error (.fault .stackFault)
    | .pop =>
      match g.addrStack with
      | [] => .error (.fault .stackFault)
      | t :: rest => if g.env.prog.fullMode then .ok (t, rest) else .error (.fault .stackFault)
  else .ok (g.pc + 1, g.addrStack)

/-! ## The instruction -/

/-- `Uses` of a flow-control instruction (R588). A per-channel select, which step 3 then rejects (R386), selects the bits that it selects
for an RGB unit (R318). -/
def fcUses (f : FcInst) : List AluItem :=
  (if funcDepends f.jumpFunc 1 then predUses f.predSel [.r, .g, .b] else []) ++ (if funcDepends f.jumpFunc 2 then [.ar] else [])

/-- Step 3's boolean: read only where the jump function depends on it (R385). -/
def fcBoolean (p : Platform) (d : Desc) (f : FcInst) (mem : MemSys) : Res (Bool × MemSys) :=
  if funcDepends f.jumpFunc 0 then readConstb p mem d f.boolAddr.toNat else .ok (false, mem)

/-- Step 2: ENDLOOP and ENDREP look at the frame before the vote. -/
def fcReenable (op : FcOp) (depth : Nat) (ls : List Lane) : List Lane :=
  match op with
  | .endloop | .endrep => ls.map (Lane.endContinue depth)
  | _ => ls

/-- Steps 3 to 5: what each processor wants, B_ELSE, and who votes. -/
def fcVoters (f : FcInst) (boolean : Bool) (ls : List Lane) : List Voter :=
  let vs := ls.map fun l => { lane := l, want := jumpWant f boolean l, byElse := false, voter := false }
  (if f.bElse then vs.map Voter.flip else vs).map (Voter.register f)

/-- Step 10: AR holds no value any more, so it is free (R388, log 21). -/
def Lane.dropAr (draw : Nat) (l : Lane) : Lane := { l with ar := Config.freeBool draw, arSet := false }

/-- `ExecFc` (R382) on the group that is to execute. Step 3 reads the boolean first (R385) and then rejects a per-channel predicate select
(R386; log 45 for that order). At the end address the instruction stops once it is done (R334). The first step that something is
wrong in stops the instruction (R541). -/
def runFc (op : FcOp) (f : FcInst) (s : State) : Res State := do
  let (k, g0) ← s.current
  let g1 ← g0.aluWait f.aluWait (fcUses f)
  let g ← g1.semWait f.semWait
  let (boolean, mem0) ← fcBoolean s.platform g.env.descs.constb f s.mem
  require f.wellFormed .invalidEncoding
  let vs := fcVoters f boolean (fcReenable op g.loopStack.length g.lanes)
  let r ← fcLoop s.platform g op f vs mem0
  let (pc, addrs) ← fcTarget g f r.jump
  let vs1 ← branchOp g f r.jump r.voters
  require (!g.atEnd) .badLastInstruction
  let lanes := vs1.mapIdx fun n v => v.lane.dropAr (s.draws + drawsPerLane * n)
  let g2 := { g with
    lanes := lanes, loopStack := r.stack, addrStack := addrs, pc := pc, prev := .fc f.semWait, started := true }
  return ({ s with mem := r.mem }.setGroup k g2).spend g

/-- `FC_OP_JUMP` (R410). -/
def execFcJump (f : FcInst) (s : State) : Host.Outcome State Fault Refusal := conclude s.turnStuck (runFc .jump f s)

/-- `FC_OP_LOOP` (R411). -/
def execFcLoop (f : FcInst) (s : State) : Host.Outcome State Fault Refusal := conclude s.turnStuck (runFc .loop f s)

/-- `FC_OP_ENDLOOP` (R412). -/
def execFcEndloop (f : FcInst) (s : State) : Host.Outcome State Fault Refusal := conclude s.turnStuck (runFc .endloop f s)

/-- `FC_OP_REP` (R413). -/
def execFcRep (f : FcInst) (s : State) : Host.Outcome State Fault Refusal := conclude s.turnStuck (runFc .rep f s)

/-- `FC_OP_ENDREP` (R414). -/
def execFcEndrep (f : FcInst) (s : State) : Host.Outcome State Fault Refusal := conclude s.turnStuck (runFc .endrep f s)

/-- `FC_OP_BREAKLOOP` (R415). -/
def execFcBreakloop (f : FcInst) (s : State) : Host.Outcome State Fault Refusal := conclude s.turnStuck (runFc .breakloop f s)

/-- `FC_OP_BREAKREP` (R416). -/
def execFcBreakrep (f : FcInst) (s : State) : Host.Outcome State Fault Refusal := conclude s.turnStuck (runFc .breakrep f s)

/-- `FC_OP_CONTINUE` (R417). -/
def execFcContinue (f : FcInst) (s : State) : Host.Outcome State Fault Refusal := conclude s.turnStuck (runFc .cont f s)

end Sys2Proof.Machine
end

