-- ==== Sys2Proof/Machine/McCommands.lean ====
section
/-! DEFINITION. The commands of the MC (41_commands_mc.md): descriptors, caches, masks. Checks and the read position are as
for the commands of the PE. -/

namespace Sys2Proof.Machine

/-! ## Format commands -/

/-- The tiling field (R35). -/
def Tiling.ofCode : Nat → Tiling
  | 0 => .linear
  | 1 => .tiled
  | 2 => .linear2x2
  | _ => .tiled2x2

/-- `Desc` of R210. -/
def Desc.ofParams (pb pf : Word) : Desc :=
  { base := pb &&& 0xFFFFF800#32, pitch := BitVec.ofNat 13 (pf &&& 0x1FFC#32).toNat, tiling := Tiling.ofCode (field pf 16 2)
    format := fieldBits pf 24 3 }

/-- A descriptor with a height (R138, R216). -/
def TallDesc.ofParams (pb pf ph : Word) : TallDesc := { desc := Desc.ofParams pb pf, height := fieldBits ph 0 13 }

/-- Replace the descriptors. -/
def State.withDescs (s : State) (d : Descs) : State := { s with mc := { s.mc with descs := d } }

/-- The checks of a format command (R139, R211). -/
def requireFormat (i : Instr) (s : State) : Res Unit := do
  requireReserved i
  requireIdle s

/-- `set_inst_fmt` (R214). -/
def execSetInstFmt (base format : Word) (s : State) : Host.Outcome State Fault Refusal :=
  conclude s.peStuck do
    requireFormat (.setInstFmt base format) s
    return ((s.withDescs { s.mc.descs with inst := Desc.ofParams base format }).markSet .inst).retireCommand
      (.setInstFmt base format)

/-- `set_inp_fmt` (R216): one of the sixteen inputs. -/
def execSetInpFmt (index base format height : Word) (s : State) : Host.Outcome State Fault Refusal :=
  conclude s.peStuck do
    requireFormat (.setInpFmt index base format height) s
    let k := fieldBits index 0 4
    return ((s.withDescs { s.mc.descs with inp := s.mc.descs.inp.set k.toNat (TallDesc.ofParams base format height) k.isLt }
      ).markSet (.inp k)).retireCommand (.setInpFmt index base format height)

/-- `set_out_fmt` (R218): one of the four outputs. -/
def execSetOutFmt (index base format height : Word) (s : State) : Host.Outcome State Fault Refusal :=
  conclude s.peStuck do
    requireFormat (.setOutFmt index base format height) s
    let k := fieldBits index 0 2
    return ((s.withDescs { s.mc.descs with out := s.mc.descs.out.set k.toNat (TallDesc.ofParams base format height) k.isLt }
      ).markSet (.out k)).retireCommand (.setOutFmt index base format height)

/-- `set_cond_out_fmt` (R220). -/
def execSetCondOutFmt (base format height : Word) (s : State) : Host.Outcome State Fault Refusal :=
  conclude s.peStuck do
    requireFormat (.setCondOutFmt base format height) s
    return ((s.withDescs { s.mc.descs with condOut := TallDesc.ofParams base format height }).markSet .condOut).retireCommand
      (.setCondOutFmt base format height)

/-- `set_constf_fmt` (R222). -/
def execSetConstfFmt (base format : Word) (s : State) : Host.Outcome State Fault Refusal :=
  conclude s.peStuck do
    requireFormat (.setConstfFmt base format) s
    return ((s.withDescs { s.mc.descs with constf := Desc.ofParams base format }).markSet .constf).retireCommand
      (.setConstfFmt base format)

/-- `set_consti_fmt` (R223). -/
def execSetConstiFmt (base format : Word) (s : State) : Host.Outcome State Fault Refusal :=
  conclude s.peStuck do
    requireFormat (.setConstiFmt base format) s
    return ((s.withDescs { s.mc.descs with consti := Desc.ofParams base format }).markSet .consti).retireCommand
      (.setConstiFmt base format)

/-- `set_constb_fmt` (R224). -/
def execSetConstbFmt (base format : Word) (s : State) : Host.Outcome State Fault Refusal :=
  conclude s.peStuck do
    requireFormat (.setConstbFmt base format) s
    return ((s.withDescs { s.mc.descs with constb := Desc.ofParams base format }).markSet .constb).retireCommand
      (.setConstbFmt base format)

/-! ## Cache commands -/

/-- Replace the memory system. -/
def State.withMem (s : State) (m : MemSys) : State := { s with mem := m }

/-- `inv_inst_cache` (R232). -/
def execInvInstCache (reserved : Word) (s : State) : Host.Outcome State Fault Refusal :=
  conclude s.peStuck do
    requireReserved (.invInstCache reserved)
    return (s.withMem { s.mem with inst := ReadCache.empty }).retireCommand (.invInstCache reserved)

/-- `inv_constf_cache` (R233). -/
def execInvConstfCache (reserved : Word) (s : State) : Host.Outcome State Fault Refusal :=
  conclude s.peStuck do
    requireReserved (.invConstfCache reserved)
    return (s.withMem { s.mem with constf := ReadCache.empty }).retireCommand (.invConstfCache reserved)

/-- `inv_consti_cache` (R234). -/
def execInvConstiCache (reserved : Word) (s : State) : Host.Outcome State Fault Refusal :=
  conclude s.peStuck do
    requireReserved (.invConstiCache reserved)
    return (s.withMem { s.mem with consti := ReadCache.empty }).retireCommand (.invConstiCache reserved)

/-- `inv_constb_cache` (R235). -/
def execInvConstbCache (reserved : Word) (s : State) : Host.Outcome State Fault Refusal :=
  conclude s.peStuck do
    requireReserved (.invConstbCache reserved)
    return (s.withMem { s.mem with constb := ReadCache.empty }).retireCommand (.invConstbCache reserved)

/-- The dirty bytes that an invalidation writes back; each is written or dropped, as a draw (R100, R236). -/
def survivors (draw : Nat) (dirty : List Host.Cell) : List Host.Cell :=
  (dirty.zipIdx.filter fun c => Config.freeBool (draw + c.2)).map Prod.fst

/-- `inv_cond_out_cache` (R236): the clean entries are dropped. -/
def execInvCondOutCache (reserved : Word) (s : State) : Host.Outcome State Fault Refusal :=
  conclude s.peStuck do
    requireReserved (.invCondOutCache reserved)
    let s1 ← ramWriteAll s (survivors s.draws s.mem.cond.dirty)
    let s2 := s1.withMem { s1.mem with cond := { clean := ReadCache.empty, dirty := [] } }
    return { s2 with draws := s2.draws + s.mem.cond.dirty.length }.retireCommand (.invCondOutCache reserved)

/-- `inv_inp_cache` (R237): the one cache of all inputs. -/
def execInvInpCache (reserved : Word) (s : State) : Host.Outcome State Fault Refusal :=
  conclude s.peStuck do
    requireReserved (.invInpCache reserved)
    return (s.withMem { s.mem with inp := ReadCache.empty }).retireCommand (.invInpCache reserved)

/-- `flush_out_cache` (R238): every dirty byte is written to memory, and the cache is emptied. -/
def execFlushOutCache (reserved : Word) (s : State) : Host.Outcome State Fault Refusal :=
  conclude s.peStuck do
    requireReserved (.flushOutCache reserved)
    let s1 ← ramWriteAll s s.mem.out
    return (s1.withMem { s1.mem with out := [] }).retireCommand (.flushOutCache reserved)

/-- `flush_cond_out_cache` (R239): every dirty byte is written to memory and marked clean. -/
def execFlushCondOutCache (reserved : Word) (s : State) : Host.Outcome State Fault Refusal :=
  conclude s.peStuck do
    requireReserved (.flushCondOutCache reserved)
    let s1 ← ramWriteAll s s.mem.cond.dirty
    let c := s1.mem.cond
    let clean : ReadCache := { bytes := putBytes c.clean.bytes c.dirty }
    return (s1.withMem { s1.mem with cond := { clean := clean, dirty := [] } }).retireCommand (.flushCondOutCache reserved)

/-! ## Mask commands -/

/-- `set_out_mask` (R242). -/
def execSetOutMask (mask : Word) (s : State) : Host.Outcome State Fault Refusal :=
  conclude s.peStuck do
    requireReserved (.setOutMask mask)
    return ({ s with mc := { s.mc with outMask := fieldBits mask 0 4 } }.markSet .outMask).retireCommand (.setOutMask mask)

/-- `set_cond_out_mask` (R243). -/
def execSetCondOutMask (mask : Word) (s : State) : Host.Outcome State Fault Refusal :=
  conclude s.peStuck do
    requireReserved (.setCondOutMask mask)
    return ({ s with mc := { s.mc with condOutMask := mask.getLsbD 0 } }.markSet .condOutMask).retireCommand
      (.setCondOutMask mask)

end Sys2Proof.Machine
end

