-- ==== Sys2Proof/Machine/PeCommands.lean ====
section
/-! DEFINITION. The commands of the PE (40_commands_pe.md): performance counters, conditional value, domain, launch, wait.
A command's reserved bits are checked first (30_encoding.md rule R139), then, where it is not pipelined, that the device
is idle (R135); last the read position moves past it (R25). -/

namespace Sys2Proof.Machine

/-- Replace the performance counter state. -/
def State.withPerf (s : State) (p : Perf) : State := { s with pe := { s.pe with perf := p } }

/-- `init_perf_counters` (R184): the enable bit only. -/
def execInitPerfCounters (flags : Word) (s : State) : Host.Outcome State Fault Refusal :=
  conclude s.peStuck do
    requireReserved (.initPerfCounters flags)
    return ((s.withPerf { s.pe.perf with enabled := flags.getLsbD 0 }).markSet .perfEnabled).retireCommand
      (.initPerfCounters flags)

/-- `start_perf_counters` (R72, R185): the counters are reset and run; no effect when they are disabled. -/
def execStartPerfCounters (reserved : Word) (s : State) : Host.Outcome State Fault Refusal :=
  conclude s.peStuck do
    requireReserved (.startPerfCounters reserved)
    return (if s.pe.perf.enabled then s.withPerf { s.pe.perf with total := 0#32, active := 0#32, running := true }
      else s).retireCommand (.startPerfCounters reserved)

/-- `stop_perf_counters` (R186): the counters keep their values. -/
def execStopPerfCounters (reserved : Word) (s : State) : Host.Outcome State Fault Refusal :=
  conclude s.peStuck do
    requireReserved (.stopPerfCounters reserved)
    return (if s.pe.perf.enabled then s.withPerf { s.pe.perf with running := false } else s).retireCommand
      (.stopPerfCounters reserved)

/-- The address that `read_perf_counters` writes to (R136, R187). -/
def perfAddress (p : Word) : Nat := (p &&& 0xFFFFF800#32).toNat

/-- The bytes that `read_perf_counters` stores (R107, R187): total clocks, then active clocks. -/
def perfCells (a : Nat) (p : Perf) : List Host.Cell :=
  (wordAddrs a).zip (bytesOfWord p.total) ++ (wordAddrs (a + 4)).zip (bytesOfWord p.active)

/-- `read_perf_counters` (R187): no effect when the counters are disabled. -/
def execReadPerfCounters (base : Word) (s : State) : Host.Outcome State Fault Refusal :=
  conclude s.peStuck do
    requireReserved (.readPerfCounters base)
    requireIdle s
    let s1 ← if s.pe.perf.enabled then ramWriteAll s (perfCells (perfAddress base) s.pe.perf) else .ok s
    return s1.retireCommand (.readPerfCounters base)

/-- `set_cond_val` (R190). -/
def execSetCondVal (val : Word) (s : State) : Host.Outcome State Fault Refusal :=
  conclude s.peStuck do
    requireReserved (.setCondVal val)
    return ({ s with pe := { s.pe with condVal := val } }.markSet .condVal).retireCommand (.setCondVal val)

/-- `set_domain` (R192). -/
def execSetDomain (i0 j0 i1 j1 : Word) (s : State) : Host.Outcome State Fault Refusal :=
  conclude s.peStuck do
    requireReserved (.setDomain i0 j0 i1 j1)
    let d : Domain := { i0 := i0.setWidth 12, j0 := j0.setWidth 12, i1 := i1.setWidth 12, j1 := j1.setWidth 12 }
    return ({ s with pe := { s.pe with domain := d } }.markSet .domain).retireCommand (.setDomain i0 j0 i1 j1)

/-! ## Launch -/

/-- The index pairs of a domain (R192), empty when i0 > i1 or j0 > j1. -/
def Domain.pairs (d : Domain) : List (BitVec 12 × BitVec 12) :=
  (List.range (d.j1.toNat + 1 - d.j0.toNat)).flatMap fun y =>
    (List.range (d.i1.toNat + 1 - d.i0.toNat)).map fun x =>
      (BitVec.ofNat 12 (d.i0.toNat + x), BitVec.ofNat 12 (d.j0.toNat + y))

/-- The words of slots from `n` slots' bytes. -/
def slotsOfBytes : Nat → List Byte → List Slot
  | 0, _ => []
  | n + 1, bs =>
    match slotOfWords (wordsOfBytes (bs.take 24)) with
    | some s => s :: slotsOfBytes n (bs.drop 24)
    | none => []

/-- `LoadText` (R105): the program's slots through the instruction cache (R95), as they are when the launch starts (log 5). -/
def loadText (p : Platform) (mem : MemSys) (d : Desc) (count : Nat) : Res (List Slot × MemSys) :=
  match formatLog d.format with
  | none => .error (.fault .reservedFormat)
  | some _ =>
    (readBytes p mem .inst ((List.range count).flatMap (textAddrs d))).map fun r => (slotsOfBytes count r.1, r.2)

/-- The float constants that an instruction names without relative addressing (R497). -/
def namedConsts (rop : RgbOp) (aop : AlphaOp) (f : AluInst) : List Nat :=
  [Port.rgb0, .rgb1, .rgb2, .alpha0, .alpha1, .alpha2].filterMap fun p =>
    let a := (aluAddrs f).get p
    if a.const && !a.rel && !(portChannels (usedChannels rop aop f) p).isEmpty then some a.addr.toNat else none

/-- The outputs that an OUTPUT instruction names (R497). Whether a unit with an empty output mask names the output of its TARGET field is
not stated: it does not (DESIGN CHOICE, unsafe; log 34). -/
def namedOutputs (f : AluInst) : List Nat :=
  if f.isOutput then
    (if f.rgbOmask != 0#3 then [Target.register f.rgbTarget] else []) ++
    (if f.alphaOmask then [Target.register f.alphaTarget] else [])
  else []

/-- One slot uses only what the notes list (R497; a constant with a relative address is checked when it is fetched) and has LAST only
at the end (R335). A slot that does not decode stops the program when it is executed, not here (log 34). -/
def slotAgrees (layout : InstLayout) (p : Program) (n : Nat) (s : Slot) : Res Unit :=
  match layout.decode s with
  | .error _ => .ok ()
  | .ok i =>
    match i.alu?, i.tex?, i.fc? with
    | some (rop, aop, f), _, _ => do
      accept ((namedConsts rop aop f).all p.floatConsts.contains) .badProgram
      accept ((namedOutputs f).all p.outputs.contains) .badProgram
      accept (!f.last || n == p.endSlot) .lastUnsupported
    | _, some (op, f), _ =>
      accept (op == .nop || op == .killLt0 || p.inputs.contains f.texId.toNat) .badProgram
    | _, _, some (op, f) =>
      accept (!(op == .loop || op == .rep || op == .endloop) || p.intConsts.contains f.intAddr.toNat) .badProgram
    | _, _, _ => .ok ()

/-- Every slot of the text agrees with the notes. -/
def textAgrees (layout : InstLayout) (p : Program) : Nat → List Slot → Res Unit
  | _, [] => .ok ()
  | n, s :: rest =>
    match slotAgrees layout p n s with
    | .error e => .error e
    | .ok _ => textAgrees layout p (n + 1) rest

/-- The header fields are consistent (R490, R493), and the notes list indices of their ranges only (R491, R492, R494, R495). What an index
out of range does is not stated: the program is refused (DESIGN CHOICE, safe; log 34). -/
def Program.consistent (p : Program) : Bool :=
  decide (1 ≤ p.instrCnt.toNat) && decide (p.instrCnt.toNat ≤ 512) &&
  decide (p.usCodeRange.toNat = (p.instrCnt.toNat - 1) * 2 ^ 16) && decide (p.startSlot ≤ p.endSlot) &&
  decide (p.endSlot < p.instrCnt.toNat) && decide (p.usPixsize.toNat ≤ 127) && p.condOutput == p.exportsCond &&
  p.inputs.all (fun n => decide (n < 16)) && p.outputs.all (fun n => decide (n < 4)) &&
  p.floatConsts.all (fun n => decide (n < 256)) && p.intConsts.all (fun n => decide (n < 32))

/-- Only described bits of the header words are set (R488). -/
def Program.headerBitsOk (p : Program) : Bool :=
  onlyBits 1#32 p.fgDepthSrc && onlyBits 1#32 p.usConfig && onlyBits 0x80000000#32 p.usFcCtrl

/-- A program that the model accepts, its text apart (R323, R335, R488, R490). -/
def Program.admission (p : Program) : Res Unit := do
  accept p.headerBitsOk .reservedHeaderBits
  accept p.consistent .badProgram
  accept (!p.usConfig.getLsbD 0) .umrtUnsupported
  accept (!p.earlyExit) .lastUnsupported

/-- The launch snapshot (R30). -/
def State.snapshot (s : State) (p : Program) (text : List Slot) : Snapshot :=
  { condVal := s.pe.condVal, condTest := s.co.test, condLoc := s.co.loc, condOutMask := s.mc.condOutMask
    outMask := s.mc.outMask, descs := s.mc.descs, prog := p, text := text }

/-- Append a launch; one with nothing to do is finished at once (R196, R29). -/
def State.addLaunch (s : State) (l : Launch) : State :=
  if l.todo.isEmpty then s else { s with pe := { s.pe with launches := s.pe.launches ++ [l] } }

/-- `start_program` (R196): the work is done by the distributor. -/
def execStartProgram (reserved : Word) (s : State) : Host.Outcome State Fault Refusal :=
  conclude s.peStuck do
    requireReserved (.startProgram reserved)
    match s.program with
    | none => .error (.fault .unsetState)
    | some p =>
      p.admission
      let (text, mem) ← loadText s.platform s.mem s.mc.descs.inst p.instrCnt.toNat
      textAgrees s.platform.layout p 0 text
      return ({ s with mem := mem }.addLaunch { env := s.snapshot p text, todo := s.pe.domain.pairs }).retireCommand
        (.startProgram reserved)

/-- `wait_for_idle` (R199): until every launch is finished and every processor idle, the PE reads no further command; a step
in which it still waits changes nothing. -/
def execWaitForIdle (reserved : Word) (s : State) : Host.Outcome State Fault Refusal :=
  conclude s.peStuck do
    requireReserved (.waitForIdle reserved)
    return if s.idle then s.retireCommand (.waitForIdle reserved) else s

end Sys2Proof.Machine
end

