-- ==== Sys2Proof/Machine/RgbOps.lean ====
section
/-! DEFINITION. The meanings of the ten RGB rows (43_dpp_alu.md rules R284 to R293): a slot named by its RGB operation, with the alpha
operation it is paired with (R270). -/

namespace Sys2Proof.Machine

/-- `OP_RGB_MAD` (R284). -/
def execOpRgbMad (alpha : AlphaOp) (f : AluInst) (s : State) : Host.Outcome State Fault Refusal := execAlu .mad alpha f s

/-- `OP_RGB_MIN` (R285). -/
def execOpRgbMin (alpha : AlphaOp) (f : AluInst) (s : State) : Host.Outcome State Fault Refusal := execAlu .min alpha f s

/-- `OP_RGB_MAX` (R286). -/
def execOpRgbMax (alpha : AlphaOp) (f : AluInst) (s : State) : Host.Outcome State Fault Refusal := execAlu .max alpha f s

/-- `OP_RGB_CND` (R287). -/
def execOpRgbCnd (alpha : AlphaOp) (f : AluInst) (s : State) : Host.Outcome State Fault Refusal := execAlu .cnd alpha f s

/-- `OP_RGB_CMP` (R288). -/
def execOpRgbCmp (alpha : AlphaOp) (f : AluInst) (s : State) : Host.Outcome State Fault Refusal := execAlu .cmp alpha f s

/-- `OP_RGB_FRC` (R289). -/
def execOpRgbFrc (alpha : AlphaOp) (f : AluInst) (s : State) : Host.Outcome State Fault Refusal := execAlu .frc alpha f s

/-- `OP_RGB_DP3` (R290). -/
def execOpRgbDp3 (alpha : AlphaOp) (f : AluInst) (s : State) : Host.Outcome State Fault Refusal := execAlu .dp3 alpha f s

/-- `OP_RGB_DP4` (R291). -/
def execOpRgbDp4 (alpha : AlphaOp) (f : AluInst) (s : State) : Host.Outcome State Fault Refusal := execAlu .dp4 alpha f s

/-- `OP_RGB_D2A` (R292). -/
def execOpRgbD2a (alpha : AlphaOp) (f : AluInst) (s : State) : Host.Outcome State Fault Refusal := execAlu .d2a alpha f s

/-- `OP_RGB_SOP` (R293). -/
def execOpRgbSop (alpha : AlphaOp) (f : AluInst) (s : State) : Host.Outcome State Fault Refusal := execAlu .sop alpha f s

end Sys2Proof.Machine
end

