-- ==== Sys2Proof/Machine/Dispatch.lean ====
section
/-! DEFINITION. Which meaning each instruction has. -/

namespace Sys2Proof.Machine

def exec (i : Instr) (s : State) : Host.Outcome State Fault Refusal :=
  match i with
  | .initPerfCounters flags => Sys2Proof.Machine.execInitPerfCounters flags s
  | .startPerfCounters p => Sys2Proof.Machine.execStartPerfCounters p s
  | .stopPerfCounters p => Sys2Proof.Machine.execStopPerfCounters p s
  | .readPerfCounters base => Sys2Proof.Machine.execReadPerfCounters base s
  | .setCondVal val => Sys2Proof.Machine.execSetCondVal val s
  | .setDomain i0 j0 i1 j1 => Sys2Proof.Machine.execSetDomain i0 j0 i1 j1 s
  | .startProgram p => Sys2Proof.Machine.execStartProgram p s
  | .waitForIdle p => Sys2Proof.Machine.execWaitForIdle p s
  | .setInstFmt base format => Sys2Proof.Machine.execSetInstFmt base format s
  | .setInpFmt index base format height => Sys2Proof.Machine.execSetInpFmt index base format height s
  | .setOutFmt index base format height => Sys2Proof.Machine.execSetOutFmt index base format height s
  | .setCondOutFmt base format height => Sys2Proof.Machine.execSetCondOutFmt base format height s
  | .setConstfFmt base format => Sys2Proof.Machine.execSetConstfFmt base format s
  | .setConstiFmt base format => Sys2Proof.Machine.execSetConstiFmt base format s
  | .setConstbFmt base format => Sys2Proof.Machine.execSetConstbFmt base format s
  | .invInstCache p => Sys2Proof.Machine.execInvInstCache p s
  | .invConstfCache p => Sys2Proof.Machine.execInvConstfCache p s
  | .invConstiCache p => Sys2Proof.Machine.execInvConstiCache p s
  | .invConstbCache p => Sys2Proof.Machine.execInvConstbCache p s
  | .invCondOutCache p => Sys2Proof.Machine.execInvCondOutCache p s
  | .invInpCache p => Sys2Proof.Machine.execInvInpCache p s
  | .flushOutCache p => Sys2Proof.Machine.execFlushOutCache p s
  | .flushCondOutCache p => Sys2Proof.Machine.execFlushCondOutCache p s
  | .setOutMask mask => Sys2Proof.Machine.execSetOutMask mask s
  | .setCondOutMask mask => Sys2Proof.Machine.execSetCondOutMask mask s
  | .setCondTest condition => Sys2Proof.Machine.execSetCondTest condition s
  | .setCondLoc loc => Sys2Proof.Machine.execSetCondLoc loc s
  | .opRgbMad alpha f => Sys2Proof.Machine.execOpRgbMad alpha f s
  | .opRgbMin alpha f => Sys2Proof.Machine.execOpRgbMin alpha f s
  | .opRgbMax alpha f => Sys2Proof.Machine.execOpRgbMax alpha f s
  | .opRgbCnd alpha f => Sys2Proof.Machine.execOpRgbCnd alpha f s
  | .opRgbCmp alpha f => Sys2Proof.Machine.execOpRgbCmp alpha f s
  | .opRgbFrc alpha f => Sys2Proof.Machine.execOpRgbFrc alpha f s
  | .opRgbDp3 alpha f => Sys2Proof.Machine.execOpRgbDp3 alpha f s
  | .opRgbDp4 alpha f => Sys2Proof.Machine.execOpRgbDp4 alpha f s
  | .opRgbD2a alpha f => Sys2Proof.Machine.execOpRgbD2a alpha f s
  | .opRgbSop alpha f => Sys2Proof.Machine.execOpRgbSop alpha f s
  | .opAlphaMad rgb f => Sys2Proof.Machine.execOpAlphaMad rgb f s
  | .opAlphaMin rgb f => Sys2Proof.Machine.execOpAlphaMin rgb f s
  | .opAlphaMax rgb f => Sys2Proof.Machine.execOpAlphaMax rgb f s
  | .opAlphaCnd rgb f => Sys2Proof.Machine.execOpAlphaCnd rgb f s
  | .opAlphaCmp rgb f => Sys2Proof.Machine.execOpAlphaCmp rgb f s
  | .opAlphaFrc rgb f => Sys2Proof.Machine.execOpAlphaFrc rgb f s
  | .opAlphaDp rgb f => Sys2Proof.Machine.execOpAlphaDp rgb f s
  | .opAlphaEx2 rgb f => Sys2Proof.Machine.execOpAlphaEx2 rgb f s
  | .opAlphaLn2 rgb f => Sys2Proof.Machine.execOpAlphaLn2 rgb f s
  | .opAlphaRcp rgb f => Sys2Proof.Machine.execOpAlphaRcp rgb f s
  | .opAlphaRsq rgb f => Sys2Proof.Machine.execOpAlphaRsq rgb f s
  | .opAlphaSin rgb f => Sys2Proof.Machine.execOpAlphaSin rgb f s
  | .opAlphaCos rgb f => Sys2Proof.Machine.execOpAlphaCos rgb f s
  | .texNop f => Sys2Proof.Machine.execTexNop f s
  | .texLookup f => Sys2Proof.Machine.execTexLookup f s
  | .texKillLt0 f => Sys2Proof.Machine.execTexKillLt0 f s
  | .texLookupProj f => Sys2Proof.Machine.execTexLookupProj f s
  | .texLookupUncached f => Sys2Proof.Machine.execTexLookupUncached f s
  | .fcJump f => Sys2Proof.Machine.execFcJump f s
  | .fcLoop f => Sys2Proof.Machine.execFcLoop f s
  | .fcEndloop f => Sys2Proof.Machine.execFcEndloop f s
  | .fcRep f => Sys2Proof.Machine.execFcRep f s
  | .fcEndrep f => Sys2Proof.Machine.execFcEndrep f s
  | .fcBreakloop f => Sys2Proof.Machine.execFcBreakloop f s
  | .fcBreakrep f => Sys2Proof.Machine.execFcBreakrep f s
  | .fcContinue f => Sys2Proof.Machine.execFcContinue f s

end Sys2Proof.Machine
end

