-- ==== Sys2Proof/Machine/Agents.lean ====
section
/-! DEFINITION. One step of each agent (10_state.md rule R20): the PE, a group of processors, a processor that has halted,
the work distributor, the MC's own evictions, the clock of the performance counters. Where the agent whose turn it is can
do nothing, an agent that is stuck among them (R81), the step changes nothing but the turn (log 8). -/

namespace Sys2Proof.Machine

/-! ## The PE -/

/-- The words of the current buffer from the read position on, at most `n` (R25, R106). -/
def bufferWords (ram : Memory) (pos : Word) : Nat → List Word
  | 0 => []
  | n + 1 => ram.word pos.toNat :: bufferWords ram (pos + 4#32) n

/-- The byte addresses of `n` words from a position. -/
def bufferAddrs (pos : Word) (n : Nat) : List Nat := (List.range n).flatMap fun k => wordAddrs ((pos + BitVec.ofNat 32 (4 * k)).toNat)

/-- A decoder's error as a stop of the PE (R131, D5, D11). -/
def peError : DecodeError → Stop
  | .badCommand w => .fault (.badCommand w)
  | .truncated => .fault .truncatedCommand
  | .invalidEncoding => .fault .invalidEncoding

/-- The command at the read position: at most five of the words that remain (R131). The PE is stuck at a word in unmapped memory
(R81); only a mapped opcode is looked at. -/
def fetchCommand (s : State) (c : Current) : Res Instr :=
  let n := min 5 c.remaining
  if (bufferAddrs c.pos (min 1 n)).all s.platform.mapped then
    match decodeCommand (bufferWords s.mem.ram c.pos n) with
    | .error e => .error (peError e)
    | .ok i => if (bufferAddrs c.pos (commandLen i)).all s.platform.mapped then .ok i else .error (.stuck s.mem)
  else .error (.stuck s.mem)

/-- The next submitted buffer becomes current (R181, R524); an empty one is consumed at once. -/
def nextBuffer (pe : Pe) : Pe :=
  match pe.queue with
  | [] => pe
  | sub :: rest =>
    if sub.size = 0#32 then { pe with queue := rest, consumed := pe.consumed ++ [sub.id] }
    else { pe with queue := rest, cur := some { sub := sub, pos := sub.addr, remaining := sub.size.toNat } }

/-- The PE reads and executes one command (R180), or takes up the next buffer. -/
def peStep (s : State) : Host.Outcome State Fault Refusal :=
  if s.pe.stuck then .next s
  else
    match s.pe.cur with
    | none => .next { s with pe := nextBuffer s.pe }
    | some c =>
      match fetchCommand s c with
      | .error e => conclude s.peStuck (.error e)
      | .ok i => exec i s

/-! ## A group of processors -/

/-- The pc is that of a slot to fetch: inside the program (R548), and not past the end address on a device where a jump over it stops.
R50 and R334 call such a jump `PcOutOfRange` and R548 allows it: each device follows one of the two (log 36). The start slot is not past
the end slot (R490), and at the end slot the group halts, so that only a jump leads past it. -/
def Group.pcInRange (p : Platform) (g : Group) : Bool :=
  decide (g.pc < g.env.prog.instrCnt.toNat) && (p.endJump == .runs || decide (g.pc ≤ g.env.prog.endSlot))

/-- The instruction at a group's pc: `PcOutOfRange` outside the program (R50, R334, R548; log 36), `InvalidEncoding` for an unused field
code. D31 has such a code stop the instruction when it is executed and names no step: the model finds it here, at the fetch, before the
waits, hazards and the end-address check of R271, R350 and R382 (DESIGN CHOICE, unsafe; log 45). -/
def fetchSlot (p : Platform) (g : Group) : Res Instr :=
  if g.pcInRange p then
    match g.env.text[g.pc]? with
    | none => .error (.fault .pcOutOfRange)
    | some slot =>
      match p.layout.decode slot with
      | .error _ => .error (.fault .invalidEncoding)
      | .ok i => .ok i
  else .error (.fault .pcOutOfRange)

/-- A group executes one instruction (R21); with a stuck processor it does not move (R81). -/
def groupStep (s : State) (k : Nat) : Host.Outcome State Fault Refusal :=
  match s.groups[k]? with
  | none => .next s
  | some g =>
    if g.halted || g.lanes.any Lane.stuck then .next s
    else
      match fetchSlot s.platform g with
      | .error e => conclude s.turnStuck (.error e)
      | .ok i => exec i s

/-! ## A processor that has halted (R334) -/

/-- The conditional value that a processor sends (R259). -/
def sentValue (p : Program) (l : Lane) : Word := if p.exportsCond then l.wout else l.vIn

/-- The cells that an execution writes to its outputs: exactly the outputs in the note (R334, D24). -/
def outputWrites (draw : Nat) (env : Snapshot) (l : Lane) : List Nat → Res (List Host.Cell)
  | [] => .ok []
  | k :: rest =>
    match env.descs.out[k]? with
    | none => .error (.fault .indexRange)
    | some d => do
      let cells ← outputWrite d env.outMask l.i l.j (l.outValue draw k)
      let more ← outputWrites draw env l rest
      return cells ++ more

/-- The request to the CO of a processor that has halted, and what it will write to its outputs, each output once however often the
note lists it (R108); a killed one makes no request and no write (R334, D26). -/
def requestResults (p : Platform) (coStuck : Bool) (draw : Nat) (env : Snapshot) (l : Lane) (mem : MemSys) :
    Res (List Host.Cell × MemSys) :=
  if l.covered then do
    let (pass, mem1) ← coTest p coStuck mem env .dpp l.i l.j (sentValue env.prog l)
    if pass then
      let cells ← outputWrites draw env l (addNew [] env.prog.outputs)
      return (cells, mem1)
    else return ([], mem1)
  else .ok ([], mem)

/-- Remove a processor from a group, and the group once it has none left. -/
def dropLane (gs : List Group) (k n : Nat) : List Group :=
  match gs[k]? with
  | none => gs
  | some g =>
    let lanes := g.lanes.eraseIdx n
    if lanes.isEmpty then gs.eraseIdx k else gs.set k { g with lanes := lanes }

/-- Replace what processor n of group k has yet to write. -/
def setOutbox (gs : List Group) (k n : Nat) (cells : List Host.Cell) : List Group :=
  gs.modify k fun g => { g with lanes := g.lanes.modify n fun l => { l with outbox := some cells } }

/-- One step of a processor that has halted, with nothing requested yet, bytes to write, or none left: the request to the CO; one
byte into the output write cache, so that the bytes of two processors may mix (R97, R109); idle (R200). Log 10, log 35. -/
def laneRetire (s : State) (k n : Nat) (g : Group) (l : Lane) : Res State :=
  match l.outbox with
  | none =>
    (requestResults s.platform s.co.stuck s.draws g.env l s.mem).map fun r =>
      { s with mem := r.2, groups := setOutbox s.groups k n r.1, draws := s.draws + 4 }
  | some (c :: rest) =>
    if s.platform.mapped c.1 then
      .ok { s with mem := { s.mem with out := tabPut s.mem.out c.1 c.2 }, groups := setOutbox s.groups k n rest }
    else .error (.stuck s.mem)
  | some [] => .ok { s with groups := dropLane s.groups k n }

/-- Processor `n` of the halted group `k` moves. -/
def retireStep (s : State) (k n : Nat) : Res State :=
  match s.groups[k]? with
  | none => .ok s
  | some g =>
    if g.halted then
      match g.lanes[n]? with
      | none => .ok { s with groups := if g.lanes.isEmpty then s.groups.eraseIdx k else s.groups }
      | some l => if l.stuck then .ok s else laneRetire s k n g l
    else .ok s

/-! ## The work distributor (R197, R198) -/

/-- Take a pair out of a launch; the launch is dropped once it has none left. -/
def dropPair (ls : List Launch) (a b : Nat) : List Launch :=
  match ls[a]? with
  | none => ls
  | some l =>
    let todo := l.todo.eraseIdx b
    if todo.isEmpty then ls.eraseIdx a else ls.set a { l with todo := todo }

/-- A group of one processor at the program's start: the pc is reset to the start slot (R72, R75). -/
def Group.start (env : Snapshot) (l : Lane) : Group :=
  { env := env, pc := env.prog.startSlot, loopStack := [], addrStack := [], aluPending := [], prev := .none
    started := false, halted := false, lanes := [l] }

/-- A processor may join a group that has not started and runs the same launch snapshot (R22, log 9). -/
def joinable (gs : List Group) (env : Snapshot) : Option Nat → Bool
  | none => true
  | some k =>
    match gs[k]? with
    | none => false
    | some g => !g.started && !g.halted && decide (g.env = env)

/-- Put a processor into a group. -/
def placeLane (gs : List Group) (env : Snapshot) (l : Lane) : Option Nat → List Group
  | none => gs ++ [Group.start env l]
  | some k =>
    match gs[k]? with
    | none => gs
    | some g => gs.set k { g with lanes := g.lanes ++ [l] }

/-- The distributor's conditional test of a pair: with the conditional location at the DPP it makes no request, so that a CO that is stuck
does not hold it up (R197); at the PE the CO answers (R198, R254). -/
def distTest (s : State) (env : Snapshot) (i j : BitVec 12) : Res (Bool × MemSys) :=
  if env.condLoc then coTest s.platform s.co.stuck s.mem env .pe i j env.condVal else .ok (true, s.mem)

/-- The distributor hands pair `b` of launch `a` to the idle processor `proc`; with the conditional location at the PE the
pair is skipped when the test fails (R198). -/
def distStep (s : State) (a b proc : Nat) (join : Option Nat) : Res State :=
  match s.pe.launches[a]? with
  | none => .ok s
  | some la =>
    match la.todo[b]? with
    | none => .ok { s with pe := { s.pe with launches := if la.todo.isEmpty then s.pe.launches.eraseIdx a else s.pe.launches } }
    | some (i, j) =>
      if !s.pe.distStuck && decide (proc < s.platform.nproc) && !s.busy proc && joinable s.groups la.env join then do
        let (pass, mem) ← distTest s la.env i j
        let s1 := { s with mem := mem, pe := { s.pe with launches := dropPair s.pe.launches a b }, draws := s.draws + 8 }
        return if pass then
          { s1 with groups := placeLane s.groups la.env (Lane.start (s.draws + 1) proc i j la.env.condVal) join }
        else s1
      else .ok s

/-! ## The MC on its own (R95, R97, D14) -/

/-- Drop a byte of a read cache. -/
def ReadCache.drop (c : ReadCache) (a : Nat) : ReadCache := { bytes := tabDel c.bytes a }

/-- Hold a byte in a read cache. -/
def ReadCache.keep (c : ReadCache) (a : Nat) (b : Byte) : ReadCache := { bytes := tabPut c.bytes a b }

/-- The MC drops one byte of a cache; a dirty byte goes to memory (R97, D14). The output write cache then drops it (R97). Whether the
conditional output cache keeps what it has written back on its own as a clean byte is not stated: it does, in the place of an older clean
one, and may drop it in a later move (DESIGN CHOICE, unsafe; log 44). -/
def evictStep (s : State) (c : CacheId) (a : Nat) : Res State :=
  match c with
  | .inst => .ok { s with mem := { s.mem with inst := s.mem.inst.drop a } }
  | .constf => .ok { s with mem := { s.mem with constf := s.mem.constf.drop a } }
  | .consti => .ok { s with mem := { s.mem with consti := s.mem.consti.drop a } }
  | .constb => .ok { s with mem := { s.mem with constb := s.mem.constb.drop a } }
  | .inp => .ok { s with mem := { s.mem with inp := s.mem.inp.drop a } }
  | .out =>
    match tabFind s.mem.out a with
    | none => .ok s
    | some b => (ramWrite s a b).map fun s1 => { s1 with mem := { s1.mem with out := tabDel s1.mem.out a } }
  | .cond =>
    match tabFind s.mem.cond.dirty a with
    | none => .ok { s with mem := { s.mem with cond := { s.mem.cond with clean := s.mem.cond.clean.drop a } } }
    | some b => (ramWrite s a b).map fun s1 =>
        { s1 with mem := { s1.mem with cond := { clean := s1.mem.cond.clean.keep a b, dirty := tabDel s1.mem.cond.dirty a } } }

/-! ## The clock (R188) -/

/-- Add clocks to a counter; past 2^32 its value is free (D38). -/
def countUp (draw : Nat) (w : Word) (n : Nat) : Word :=
  if w.toNat + n < 2 ^ 32 then BitVec.ofNat 32 (w.toNat + n) else Config.freeWord draw

/-- `total` clocks pass, in at most `active` of which a processor is busy (R188, log 20). -/
def clockStep (s : State) (total active : Nat) : State :=
  let p := s.pe.perf
  if p.running then
    let act := if s.groups.isEmpty then 0 else min total active
    { s with pe := { s.pe with perf := { p with
        total := countUp s.draws p.total total, active := countUp (s.draws + 1) p.active act } } }
  else s

end Sys2Proof.Machine
end

