-- ==== Sys2Proof/Machine/Step.lean ====
section
/-! DEFINITION. One step of the device: the agent whose turn it is moves, then the next turn is drawn (10_state.md rules R20,
R21; log 8). And the placing of one instruction where the next step fetches it (log 24). -/

namespace Sys2Proof.Machine

/-- The move of the agent whose turn it is. A byte that the MC could not write, its address being unmapped, stays in its cache
(log 33). -/
def agentStep (s : State) : Host.Outcome State Fault Refusal :=
  match s.turn with
  | .pe => peStep s
  | .group k => groupStep s k
  | .retire k n => conclude (s.laneStuck k n) (retireStep s k n)
  | .dist a b proc join => conclude s.distStuck (distStep s a b proc join)
  | .evict c a => conclude (fun _ => s) (evictStep s c a)
  | .clock total active => .next (clockStep s total active)

/-- The next turn is a free value. -/
def State.nextTurn (s : State) : State := { s with turn := Config.turn s.draws, draws := s.draws + 1 }

/-- One step of the device. -/
def step (s : State) : Host.Outcome State Fault Refusal :=
  match agentStep s with
  | .next t => .next t.nextTurn
  | .fault f => .fault f
  | .refused r => .refused r

/-! ## Placing one instruction -/

/-- Store words in memory, little-endian, from an address on. -/
def placeWords (m : Memory) (a : Nat) (ws : List Word) : Memory :=
  (((List.range (4 * ws.length)).map fun n => (a + n) % 2 ^ 32).zip (bytesOfWords ws)).foldl (fun acc c => acc.set c.1 c.2) m

/-- A current buffer at the read position, of `n` words (R25). -/
def placedBuffer (pe : Pe) (n : Nat) : Current :=
  match pe.cur with
  | some c => { c with remaining := n }
  | none => { sub := { id := 1#32, addr := 0#32, size := BitVec.ofNat 32 n }, pos := 0#32, remaining := n }

/-- The program that a single DPP instruction is placed into: full flow control, two slots, the second its end, its notes listing
every input, output and constant (R497). -/
def placedProgram : Program :=
  { fgDepthSrc := 0#32, usConfig := 0#32, usPixsize := 127#32, usFcCtrl := 0x80000000#32, usCodeAddr := 0x00010000#32
    usCodeRange := 0x00010000#32, instrCnt := 2#32, inputs := List.range 16, outputs := List.range 4, condOutput := false
    floatConsts := List.range 256, intConsts := List.range 32, earlyExit := false, offsetAddr := 0, breakInhibit := .all }

/-- A group of one processor that is about to execute a slot. -/
def placedGroup (s : State) (slot : Slot) : Group :=
  Group.start (s.snapshot placedProgram [slot, ⟨0#32, 0#32, 0#32, 0#32, 0#32, 0#32⟩])
    (Lane.start s.draws 0 0#12 0#12 s.pe.condVal)

/-- The state with an instruction stored where the next step fetches it: a command at the command read position, a DPP slot
as the text of a group whose turn it is, its words read under K1 as the opcode table numbers them (log 24). -/
def State.withFetchWord (s : State) (nbits w : Nat) : State :=
  let ws := wordsOfBytes (tableBytes (w % 2 ^ nbits))
  match ws with
  | [] => s
  | w0 :: _ =>
    match commandParams w0 with
    | some n =>
      let c := placedBuffer s.pe (1 + n)
      { s with
        turn := .pe
        mem := { s.mem with ram := placeWords s.mem.ram c.pos.toNat (ws.take (1 + n)) }
        pe := { s.pe with cur := some c, stuck := false } }
    | none =>
      match slotOfWords ws with
      | some slot => { s with
          turn := .group 0, platform := { s.platform with layout := .k1 }, groups := placedGroup s slot :: s.groups }
      | none => s

end Sys2Proof.Machine
end

