-- ==== Sys2Proof/Machine/HostCalls.lean ====
section
/-! DEFINITION. The moves of the host (49_host_interface.md): the four library functions and access to remote memory. They
happen between the steps of the device and are no part of `step` (log 25). -/

namespace Sys2Proof.Machine

/-- `amOpenManagedConnection` (R521): NULL where the environment lets the call fail (R543), else the device in its reset state, on
a platform and with a content of memory and caches that the environment gives (R41, R80, R117). -/
def amOpenManagedConnection (fails : Bool) (p : Platform) (mem : MemSys) : Option State :=
  if fails then none else some { State.reset with platform := p, mem := mem }

/-- Nothing is outstanding: every submitted buffer consumed, every processor idle (R522). -/
def State.drained (s : State) : Bool := s.pe.cur.isNone && s.pe.queue.isEmpty && s.idle

/-- `amCloseManagedConnection` (R522). -/
def amCloseManagedConnection (s : State) : Res State := do
  accept s.pe.isOpen .badHandle
  accept s.drained .badHandle
  return { s with pe := { s.pe with isOpen := false } }

/-- The words parse as a whole number of commands (R525): a word that is no opcode where one is due is `BadSubmission`, a command cut by
the end of the buffer `TruncatedCommand`. The number counts the parameters still due. -/
def wholeCommands : Nat → List Word → Res Unit
  | 0, [] => .ok ()
  | _ + 1, [] => .error (.refuse .truncatedCommand)
  | n + 1, _ :: rest => wholeCommands n rest
  | 0, w :: rest =>
    match commandParams w with
    | some n => wholeCommands n rest
    | none => .error (.refuse .badSubmission)

/-- The words of a buffer. -/
def wordsAt (ram : Memory) (addr : Nat) : Nat → List Word
  | 0 => []
  | n + 1 => ram.word addr :: wordsAt ram (addr + 4) n

/-- `amSubmitCommandBuffer` (R523 to R526): it may fail and answer zero, else it answers an identifier that is new and not
zero. What happens once every identifier has been given is not stated: the call answers zero then. Whether a buffer may
lie in local memory is not stated: any mapped address will do (both DESIGN CHOICE, unsafe; log 26). -/
def amSubmitCommandBuffer (s : State) (addr size : Word) : Res (Word × State) := do
  accept s.pe.isOpen .badHandle
  accept (addr.toNat % 4 == 0) .badSubmission
  accept (decide (addr.toNat + 4 * size.toNat ≤ 2 ^ 32)) .badSubmission
  accept ((List.range (4 * size.toNat)).all fun n => s.platform.mapped (addr.toNat + n)) .badSubmission
  wholeCommands 0 (wordsAt s.mem.ram addr.toNat size.toNat)
  let id := Config.freeWord s.draws
  let t := { s with draws := s.draws + 1 }
  if Config.freeBool s.draws || id == 0#32 || s.pe.issued.contains id then return (0#32, t)
  else
    return (id, { t with
      pe := { t.pe with issued := t.pe.issued ++ [id], queue := t.pe.queue ++ [{ id := id, addr := addr, size := size }] } })

/-- `amCommandBufferConsumed` (R528). -/
def amCommandBufferConsumed (s : State) (buf : Word) : Res Bool := do
  accept s.pe.isOpen .badHandle
  accept (s.pe.issued.contains buf) .badSubmission
  return s.pe.consumed.contains buf

/-- The address lies in a submitted buffer. -/
def Submission.holds (b : Submission) (a : Nat) : Bool :=
  decide (b.addr.toNat ≤ a) && decide (a < b.addr.toNat + 4 * b.size.toNat)

/-- The address lies in a buffer that is not consumed yet (R527). -/
def State.inBuffer (s : State) (a : Nat) : Bool :=
  s.pe.queue.any (fun b => b.holds a) ||
  match s.pe.cur with
  | some c => c.sub.holds a
  | none => false

/-- The host reads a byte of remote memory (R81, R530). How the host's address for it relates to the MC's is not stated (R80, R530, N1):
it is the MC's address (DESIGN CHOICE, unsafe; log 47). -/
def hostRead (s : State) (a : Nat) : Res Byte := do
  accept (s.platform.kind a == some .remote) .hostAccess
  return s.mem.ram.get a

/-- The host writes a byte of remote memory, named by the MC's address (R81, R527, R530; log 47): no cache is told (R96). -/
def hostWrite (s : State) (a : Nat) (b : Byte) : Res State := do
  accept (s.platform.kind a == some .remote) .hostAccess
  accept (!(s.inBuffer a && s.mem.ram.get a != b)) .bufferChanged
  ramWrite s a b

end Sys2Proof.Machine
end

