-- ==== Sys2Proof/Machine/Loader.lean ====
section
/-! DEFINITION. The program loader (48_abi_elf.md): what an ELF object must say, and the program it becomes. How an object
reaches the device is not stated (R498); `loadProgram` is applied between the steps of the device (log 24). -/

namespace Sys2Proof.Machine

/-- The fields of the ELF header that are specific to the DPP (R482). -/
structure ElfHeader where
  eiClass : Nat
  eiData : Nat
  eiOsabi : Nat
  eiAbiversion : Nat
  eType : Nat
  eMachine : Nat
  eEntry : Nat
  eFlags : Nat
deriving DecidableEq, Repr

/-- The assigned values (R482). -/
def ElfHeader.required : ElfHeader :=
  { eiClass := 1, eiData := 1, eiOsabi := 98, eiAbiversion := 1, eType := 2, eMachine := 122, eEntry := 0, eFlags := 1 }

/-! ## Sections and segments (R483, R484) -/

/-- The types of section that the rules name. -/
inductive SectionType where
  | progbits | note | other
deriving DecidableEq, Repr

/-- A section: its name, type, the flags SHF_ALLOC and SHF_EXECINSTR, where its bytes stand in the file, and the bytes. -/
structure ElfSection where
  name : List Byte
  type : SectionType
  alloc : Bool
  execInstr : Bool
  offset : Nat
  bytes : List Byte
deriving DecidableEq, Repr

/-- The types of program header element that the rules name. -/
inductive SegmentType where
  | load | note | other
deriving DecidableEq, Repr

/-- A program header element: its type and the part of the file that it describes. -/
structure ElfSegment where
  type : SegmentType
  offset : Nat
  size : Nat
deriving DecidableEq, Repr

/-- An object file as far as R482 to R484 look at it; how its bytes are laid out is ELF's own matter (log 41). -/
structure ElfObject where
  header : ElfHeader
  sections : List ElfSection
  segments : List ElfSegment
deriving DecidableEq, Repr

/-- ".text". -/
def textName : List Byte := [0x2E#8, 0x74#8, 0x65#8, 0x78#8, 0x74#8]

/-- A section with a program header element of this type: one that describes all its bytes. -/
def ElfObject.covered (o : ElfObject) (t : SegmentType) (x : ElfSection) : Bool :=
  o.segments.any fun g =>
    g.type == t && decide (g.offset ≤ x.offset) && decide (x.offset + x.bytes.length ≤ g.offset + g.size)

/-- The single .text section, SHT_PROGBITS, SHF_ALLOC and SHF_EXECINSTR, with a PT_LOAD element (R483). -/
def ElfObject.textOk (o : ElfObject) : Bool :=
  match o.sections.filter fun x => x.name == textName with
  | [x] => x.type == .progbits && x.alloc && x.execInstr && o.covered .load x
  | _ => false

/-- The sections of type SHT_NOTE. -/
def ElfObject.noteSections (o : ElfObject) : List ElfSection := o.sections.filter fun x => x.type == .note

/-- One or more sections of type SHT_NOTE, each with a PT_NOTE element (R484). -/
def ElfObject.notesOk (o : ElfObject) : Bool := !o.noteSections.isEmpty && o.noteSections.all (o.covered .note)

/-! ## Notes (R485 to R496) -/

/-- A note (R485). -/
structure Note where
  namesz : Word
  descsz : Word
  type : Word
  name : List Byte
  desc : List Byte
deriving DecidableEq, Repr

/-- ELF_NOTE_ATI: "ATI DPP" and a zero byte (R485). -/
def noteName : List Byte := [0x41#8, 0x54#8, 0x49#8, 0x20#8, 0x44#8, 0x50#8, 0x50#8, 0x00#8]

/-- The size of a note's description: that of `dpp_proginfo` (R486), a whole number of words (R491, R492, R494, R495), one word
(R493, R496). -/
def Note.sizeOk (n : Note) : Bool :=
  match n.type.toNat with
  | 1 => n.descsz == 112#32
  | 2 | 3 | 5 | 6 => n.descsz.toNat % 4 == 0
  | 4 | 7 => n.descsz == 4#32
  | _ => true

/-- The container of every note (R485). -/
def Note.ok (n : Note) : Bool :=
  n.namesz == 8#32 && n.name == noteName && n.desc.length == n.descsz.toNat && n.sizeOk

/-- The notes of a note section, at most `fuel` of them (R485). -/
def parseNotes : Nat → List Byte → Option (List Note)
  | _, [] => some []
  | 0, _ => none
  | fuel + 1, bs =>
    match wordsOfBytes (bs.take 12) with
    | [namesz, descsz, type] =>
      let rest := bs.drop 12
      let name := rest.take namesz.toNat
      let desc := (rest.drop namesz.toNat).take descsz.toNat
      let n : Note := { namesz, descsz, type, name, desc }
      if n.ok then (parseNotes fuel ((rest.drop namesz.toNat).drop descsz.toNat)).map (n :: ·) else none
    | _ => none

/-- The notes of several sections. -/
def parseSections : List ElfSection → Option (List Note)
  | [] => some []
  | x :: rest =>
    match parseNotes x.bytes.length x.bytes, parseSections rest with
    | some ns, some ms => some (ns ++ ms)
    | _, _ => none

/-- The first note of a type; what a second one of the same type means is not stated, and it is passed over (DESIGN CHOICE, unsafe;
log 42). -/
def findNote (ns : List Note) (type : Nat) : Option Note := ns.find? fun n => n.type.toNat == type

/-- A list of indices (R491, R492, R494, R495); without the note the list is empty. -/
def noteIndices (ns : List Note) (type : Nat) : List Nat :=
  match findNote ns type with
  | some n => (wordsOfBytes n.desc).map BitVec.toNat
  | none => []

/-- A flag (R493, R496): 1 or 0; without the note it is 0. What another word means is not stated: the program is refused (DESIGN CHOICE,
safe; log 42). -/
def noteFlag (ns : List Note) (type : Nat) : Option Bool :=
  match findNote ns type with
  | some n =>
    match wordsOfBytes n.desc with
    | [w] => if w = 1#32 then some true else if w = 0#32 then some false else none
    | _ => none
  | none => some false

/-- The reserved words of `dpp_proginfo` are as tabulated (R488, R490). -/
def progInfoReserved (ws : List Word) : Bool :=
  ws.length == 28 && ws.getD 0 0#32 == 1#32 && ws.getD 7 0#32 == 0xC0#32 && ws.getD 8 0#32 == 0x20000#32 &&
  (List.range 18).all fun n => ws.getD (9 + n) 0#32 == 0#32

/-- The program of an object: its Program Information note (R486, R488) and the other notes (R491 to R496). What a note of another type
than 1 to 7 means is not stated, and it is passed over (DESIGN CHOICE, unsafe; log 42). -/
def programOf (ns : List Note) (offsetAddr : Nat) (inhibit : BreakInhibit) : Res Program :=
  match findNote ns 1, noteFlag ns 4, noteFlag ns 7 with
  | some info, some cond, some early =>
    let ws := wordsOfBytes info.desc
    if progInfoReserved ws then
      .ok { fgDepthSrc := ws.getD 1 0#32, usConfig := ws.getD 2 0#32, usPixsize := ws.getD 3 0#32, usFcCtrl := ws.getD 4 0#32
            usCodeAddr := ws.getD 5 0#32, usCodeRange := ws.getD 6 0#32, instrCnt := ws.getD 27 0#32
            inputs := noteIndices ns 2, outputs := noteIndices ns 3, condOutput := cond, floatConsts := noteIndices ns 5
            intConsts := noteIndices ns 6, earlyExit := early, offsetAddr := offsetAddr, breakInhibit := inhibit }
    else .error (.refuse .badProgram)
  | _, _, _ => .error (.refuse .badProgram)

/-- Load a program (R480 to R498): the header, the sections and the notes are checked, and the program becomes the loaded one. -/
def loadProgram (s : State) (o : ElfObject) (offsetAddr : Nat) (inhibit : BreakInhibit) : Res State := do
  accept (o.header == ElfHeader.required && o.textOk && o.notesOk) .badProgram
  match parseSections o.noteSections with
  | none => .error (.refuse .badProgram)
  | some ns =>
    let p ← programOf ns offsetAddr inhibit
    p.admission
    return { s with program := some p }

end Sys2Proof.Machine
end

