-- ==== Sys2Proof/Safety.lean ====
section
/-! DEFINITION. What counts as a well-kept state and as a launch or read that the spec allows, in the terms that claims
use. -/

namespace Sys2Proof.Machine

/-! ## Well-kept states -/

/-- The memory and every cache are in canonical form. -/
def MemSys.wf (m : MemSys) : Bool :=
  m.ram.wf && bytesWf m.inst.bytes && bytesWf m.constf.bytes && bytesWf m.consti.bytes && bytesWf m.constb.bytes &&
  bytesWf m.inp.bytes && bytesWf m.out && bytesWf m.cond.clean.bytes && bytesWf m.cond.dirty

/-- The low 11 bits of a base and the low two of a pitch are zero (R34, R90). -/
def Desc.wf (d : Desc) : Bool := d.base.toNat % 2 ^ 11 == 0 && d.pitch.toNat % 4 == 0

/-- All 25 descriptors (R34). -/
def Descs.wf (d : Descs) : Bool :=
  d.inst.wf && d.constf.wf && d.consti.wf && d.constb.wf && d.condOut.desc.wf && d.inp.toList.all (fun t => t.desc.wf) &&
  d.out.toList.all fun t => t.desc.wf

/-- The stacks and branch counters of a group are within their limits (R58, R61, R62, R381, R401). -/
def Group.wf (g : Group) : Bool :=
  decide (g.loopStack.length ≤ 4) && decide (g.addrStack.length ≤ 4) &&
  (g.env.prog.fullMode || (g.loopStack.isEmpty && g.addrStack.isEmpty)) &&
  g.lanes.all fun l => decide (l.bcnt ≤ g.env.prog.branchMax)

/-- The register tables of a processor are in canonical form and name existing registers (R47, R53). -/
def Lane.wf (l : Lane) : Bool :=
  tabSorted l.temps && l.temps.all (fun c => decide (c.1 < 4 * 128)) && tabSorted l.outs &&
  l.outs.all (fun c => decide (c.1 < 4 * 4))

/-! ## What the spec asks of a launch and of reads (R203, R546, R547; log 1, log 2) -/

/-- The items that a launch needs (R203). -/
def neededItems (s : State) (p : Program) (text : List Slot) : List Item :=
  [.domain, .condVal, .condTest, .condLoc, .condOutMask, .outMask, .inst] ++
  p.inputs.map (fun k => Item.inp (BitVec.ofNat 4 k)) ++ p.outputs.map (fun k => Item.out (BitVec.ofNat 2 k)) ++
  (if p.floatConsts.isEmpty then [] else [.constf]) ++ (if p.intConsts.isEmpty then [] else [.consti]) ++
  (if (boolsUsed s.platform.layout text).isEmpty then [] else [.constb]) ++
  (if (decide (1 ≤ s.co.test.toNat) && decide (s.co.test.toNat ≤ 6)) || (s.mc.condOutMask && decide (s.co.test.toNat ≠ 0))
    then [.condOut] else [])

/-- Every item that a launch of the loaded program needs has been set by its command (R203): then no launch value is one
that the model named at reset. -/
def launchItemsSet (s : State) (p : Program) (text : List Slot) : Bool :=
  (neededItems s p text).all s.setItems.contains

/-- The performance commands have what they need (R546). -/
def perfItemsSet (s : State) : Bool := s.setItems.contains .perfEnabled

/-- The processor has written every channel that an ALU or OUTPUT instruction uses of its temporaries (R272, R547). -/
def aluReadsWritten (rop : RgbOp) (aop : AlphaOp) (f : AluInst) (src : Six Source) (l : Lane) : Bool :=
  (tempKeys src (usedChannels rop aop f)).all fun k => (tabFind l.temps k).isSome

/-- The processor has written every predicate bit in a list of uses, and AR where the list has it (R51, R52, R547). -/
def flagsWritten (uses : List AluItem) (l : Lane) : Bool :=
  uses.all fun u =>
    match u with
    | .temp k => (tabFind l.temps k).isSome
    | .pred c => l.predSet.get c
    | .ar => l.arSet

/-- The conditional value that is sent has been written (R259, R547). -/
def sentValueWritten (p : Program) (l : Lane) : Bool := !p.exportsCond || l.woutSet

/-! ## The terms of claims about a next state -/

/-- The instruction answers a next state, and that state has the property. -/
def Completes (i : Instr) (s : State) (P : State → Prop) : Prop := ∃ t, exec i s = .next t ∧ P t

/-- A command's own note that it has set item k, beside those already set (R203; log 1). -/
def setsItem (k : Item) (s t : State) : Prop := ∀ x, x ∈ t.setItems ↔ x = k ∨ x ∈ s.setItems

/-- A parameter of one bit, its reserved bits zero (R138). -/
def bitParam (b : Bool) : Word := (BitVec.ofBool b).setWidth 32

/-- The descriptor that a base and a format parameter stand for (R210). -/
def Desc.holds (d : Desc) (pb pf : Word) : Prop :=
  d.base = pb &&& 0xFFFFF800#32 ∧ d.pitch = (pf &&& 0x1FFC#32).setWidth 13 ∧ d.format = pf.extractLsb' 24 3 ∧
  d.tiling =
    match (pf.extractLsb' 16 2).toNat with
    | 0 => .linear
    | 1 => .tiled
    | 2 => .linear2x2
    | _ => .tiled2x2

/-- A byte may be written to memory at this address: it is mapped (R81) and, while a processor is busy, lies under no constant
descriptor and holds no text of a running program (R104, R105). -/
def writable (s : State) (a : Nat) : Prop :=
  s.platform.mapped a = true ∧ ∀ g ∈ s.groups, s.underConst a = false ∧ g.env.holdsText a = false

/-- The real number that a finite pattern stands for, a denormal counting as zero (R440, R442). -/
def floatValue (w : Word) : ℚ :=
  if expField w = 0 then 0
  else (if signBit w then -1 else 1) * ((2 ^ 23 + manField w : Nat) : ℚ) * 2 ^ ((expField w : Int) - 150)

/-- The real number that a finite intermediate result stands for (R445). -/
def Ext.number : Ext → ℚ
  | .real m e => (m : ℚ) * 2 ^ e
  | _ => 0

/-- An intermediate result as R445 has them: a real number is not zero. -/
def Ext.ok : Ext → Prop
  | .real m _ => m ≠ 0
  | _ => True

/-- What a read of one byte through a read cache sees (R95, R96): the byte that the cache holds, else that of memory. -/
def seen (c : ReadCache) (ram : Memory) (a : Nat) : Byte := (tabFind c.bytes a).getD (ram.get a)

/-- The second cache holds what the first one does and beside it only bytes of memory (R95). -/
def ReadCache.filled (c c' : ReadCache) (ram : Memory) : Prop :=
  ∀ a, tabFind c'.bytes a = tabFind c.bytes a ∨ (tabFind c.bytes a = none ∧ tabFind c'.bytes a = some (ram.get a))

/-- What a read of one byte by the CO sees (R101): the newest write still in the cache, else the clean byte that it holds, else that of
memory. -/
def CondCache.seen (c : CondCache) (ram : Memory) (a : Nat) : Byte := (tabFind c.dirty a).getD (Machine.seen c.clean ram a)

/-- The second conditional cache holds what the first one does and beside it only clean bytes of memory (R101). -/
def CondCache.filled (c c' : CondCache) (ram : Memory) : Prop := c'.dirty = c.dirty ∧ c.clean.filled c'.clean ram

/-- The element (x, y) of an input, superfine inputs included (R91, R92, R94), where a byte of memory is seen as `byte`; `draw` is the
draw of the channels that the format lacks. -/
def inputHolds (d : TallDesc) (byte : Nat → Byte) (x y draw : Nat) (q : Quad Word) : Prop :=
  let element := fun (x y : Nat) (bs : List Byte) =>
    ∃ as, elementAddrs d.desc (some d.height.toNat) x y = .ok as ∧ bs = as.map byte
  if d.desc.tiling.superfine = true then
    ∃ b0 b1 b2 b3, element (x + 1) y b0 ∧ element x (y + 1) b1 ∧ element (x + 1) (y + 1) b2 ∧ element x y b3 ∧
      q = ⟨channelOf d.desc.format b0 draw .r, channelOf d.desc.format b1 draw .r, channelOf d.desc.format b2 draw .r,
        channelOf d.desc.format b3 draw .r⟩
  else ∃ bs, element x y bs ∧ q = decodeElement d.desc.format bs draw

/-- What the channels of a source address hold on a processor (R272, R274): a temporary, an inline constant in every channel, or a
float constant as the constant cache and memory give it (R95, R104). -/
def portHolds (s : State) (env : Snapshot) (l : Lane) (pl : Place) (v : Chan → Word) : Prop :=
  match pl with
  | .temp m => ∀ ch, v ch = l.temp m ch
  | .inline w => ∀ ch, v ch = w
  | .const k => ∃ as draw, elementAddrs env.descs.constf none k 0 = .ok as ∧
      ∀ ch, v ch = channelOf env.descs.constf.format (as.map (seen s.mem.constf s.mem.ram)) draw ch

/-- The exact presubtract of one channel (R276, R448): 1 - 2 * src0, src1 - src0, src1 + src0, 1 - src0. -/
def presubValue (op : SrcpOp) (x0 x1 : Word) : Ext :=
  match op with
  | .bias => addExt (.ofBits oneBits) (mulExt (.real (-2) 0) (.ofBits x0))
  | .sub => addExt (.ofBits x1) (negExt (.ofBits x0))
  | .add => addExt (.ofBits x1) (.ofBits x0)
  | .inv => addExt (.ofBits oneBits) (negExt (.ofBits x0))

/-- Every byte of main memory reads as before. -/
def sameRam (s t : State) : Prop := ∀ a, t.mem.ram.get a = s.mem.ram.get a

/-- The control state of the PE, the CO and the MC, the loaded program and the platform are unchanged. -/
def deviceKept (s t : State) : Prop :=
  t.platform = s.platform ∧ t.mc = s.mc ∧ t.co = s.co ∧ t.pe = s.pe ∧ t.program = s.program ∧ t.setItems = s.setItems

/-- The two write caches are unchanged. -/
def writeCachesKept (s t : State) : Prop := t.mem.out = s.mem.out ∧ t.mem.cond = s.mem.cond

/-- The groups other than number k are unchanged. -/
def othersKept (s t : State) (k : Nat) : Prop :=
  t.groups.length = s.groups.length ∧ ∀ j, j ≠ k → t.groups[j]? = s.groups[j]?

/-- The processors of a group once an instruction with this TEX_SEM_WAIT bit has made its wait (R367). -/
def waited (g : Group) (wait : Bool) : List Lane := if wait then g.lanes.map Lane.semWait else g.lanes

/-- Processor n of group k is this one. -/
def laneAt (t : State) (k n : Nat) (l : Lane) : Prop := ∃ g, t.groups[k]? = some g ∧ g.lanes[n]? = some l

/-- The number of the first draw of processor n in an instruction executed in this state. -/
def laneDraw (s : State) (n : Nat) : Nat := s.draws + drawsPerLane * n

/-- An ALU or OUTPUT instruction whose group is to move, with valid fields (R156, R313) and LAST only at the end address (R335): it
comes to its semaphore wait. -/
structure AluChecked (s : State) (rop : RgbOp) (aop : AlphaOp) (f : AluInst) where
  k : Nat
  g : Group
  turn : s.turn = .group k
  group : s.groups[k]? = some g
  running : g.halted = false
  combination : aluCombinationOk rop aop f = true
  targets : f.rgbTarget.encodable = true ∧ f.alphaTarget.encodable = true
  last : f.last = true → g.atEnd = true

/-- Such an instruction with no wait that the erratum forbids (R594): it comes to fetch its sources. -/
structure AluFields (s : State) (rop : RgbOp) (aop : AlphaOp) (f : AluInst) extends AluChecked s rop aop f where
  erratum : f.semWait = true → g.erratum = false

/-- The group of such an instruction after its wait (R367). -/
def AluFields.ready {s : State} {rop : RgbOp} {aop : AlphaOp} {f : AluInst} (c : AluFields s rop aop f) : Group :=
  { c.g with lanes := waited c.g f.semWait }

/-- Source q of such an instruction can be fetched, whatever the caches hold (R272). -/
def AluFields.fetches {s : State} {rop : RgbOp} {aop : AlphaOp} {f : AluInst} (c : AluFields s rop aop f) (q : Port) : Prop :=
  ∀ mem, ∃ r, fetchPort s.platform s.draws c.ready f.writeInactive (usedChannels rop aop f) (aluAddrs f) q mem = .ok r

/-- Source q is the one that such an instruction comes to: those before it, in the order of R271, can be fetched. -/
def AluFields.reaches {s : State} {rop : RgbOp} {aop : AlphaOp} {f : AluInst} (c : AluFields s rop aop f) (q : Port) : Prop :=
  ∃ earlier later : List Port, [.rgb0, .rgb1, .rgb2, .alpha0, .alpha1, .alpha2] = earlier ++ q :: later ∧ ∀ p ∈ earlier, c.fetches p

/-- Such an instruction whose six source addresses name `pl` (R272) and whose six sources can be fetched: no channel of them that it
uses waits for a lookup (R366), its constants can be read (R104) and are in the program's note where they are used (R497). -/
structure AluFetched (s : State) (rop : RgbOp) (aop : AlphaOp) (f : AluInst) extends AluFields s rop aop f where
  pl : Six Place
  src : Six Source
  mem : MemSys
  places : ∀ q, resolvePlace g ((aluAddrs f).get q) = .ok (pl.get q)
  fetched : fetchSix s.platform s.draws { g with lanes := waited g f.semWait } f.writeInactive (usedChannels rop aop f) (aluAddrs f)
    s.mem = .ok (src, mem)

/-- Such an instruction that no presubtract stops (R590) and whose destinations are in range (R321). -/
structure AluPlaced (s : State) (rop : RgbOp) (aop : AlphaOp) (f : AluInst) extends AluFetched s rop aop f where
  dr : Nat
  da : Nat
  nop : nopHazard g rop aop f src = false
  rgbDst : g.tempIndex f.rgbDst.toNat f.rgbDstRel = .ok dr
  alphaDst : g.tempIndex f.alphaDst.toNat f.alphaDstRel = .ok da

/-- Such an instruction that writes no channel that a lookup has yet to write (R366). -/
structure AluReady (s : State) (rop : RgbOp) (aop : AlphaOp) (f : AluInst) extends AluPlaced s rop aop f where
  lookups : ∀ l ∈ waited g f.semWait, aluWriteHazard f dr da l = false

/-- Such an instruction that is an OUTPUT with TEX_SEM_WAIT where it stands at the end address (R334): its group can execute
it in this state. -/
structure AluCase (s : State) (rop : RgbOp) (aop : AlphaOp) (f : AluInst) extends AluReady s rop aop f where
  ending : g.atEnd = true → f.isOutput = true ∧ f.semWait = true

/-- The operands of both units on processor n, whose state is l (R275 to R281). -/
def AluCase.opnds {s : State} {rop : RgbOp} {aop : AlphaOp} {f : AluInst} (c : AluCase s rop aop f) (n : Nat) (l : Lane) :
    Opnds := operands (vectors Config.fArith (laneDraw s n) f c.src l) f

/-- The four results of both units on processor n, whose state is l (R271 steps 3 to 6). -/
def AluCase.result {s : State} {rop : RgbOp} {aop : AlphaOp} {f : AluInst} (c : AluCase s rop aop f) (n : Nat) (l : Lane) :
    AluResult := aluResult Config.fArith (laneDraw s n) rop aop f c.src l

/-- Processor n of the case is l, and the instruction's writes take place on it (R319). -/
def AluCase.acts {s : State} {rop : RgbOp} {aop : AlphaOp} {f : AluInst} (c : AluCase s rop aop f) (n : Nat) (l : Lane) :
    Prop := (waited c.g f.semWait)[n]? = some l ∧ l.on f.writeInactive = true

/-- The RGB unit writes channel ch of its destination on l. -/
def rgbWritten (f : AluInst) (l : Lane) (ch : Chan) : Prop := ch ≠ .a ∧ aluWmaskBit f ch = true ∧ aluEnable f l ch = true

/-- The alpha unit writes its destination on l. -/
def alphaWritten (f : AluInst) (l : Lane) : Prop := f.alphaWmask = true ∧ aluEnable f l .a = true

/-- A result, its output modifier made, under the unit's clamp flag (R314). -/
def clamped (draw : Nat) (clamp : Bool) (w : Word) : Word := if clamp = true then clampBits draw w else w

/-- A 32-bit value under an output modifier: OMOD_DISABLED passes it on bit for bit, any other finishes it (R312, R313). -/
def modified (draw : Nat) (om : OMod) (w : Word) : Word :=
  if om = .disabled then w else finish Config.fArith draw om (.ofBits w)

/-- The table of special values of the transcendental operations (R454). -/
def transTable : AlphaOp → Ext → Option Word
  | .ex2, .zero _ => some oneBits
  | .ex2, .inf n => some (if n then zeroBits false else infBits false)
  | .ln2, .zero _ => some (infBits true)
  | .ln2, .inf n => some (if n then stdNaN else infBits false)
  | .rcp, .zero n => some (infBits n)
  | .rcp, .inf n => some (zeroBits n)
  | .rsq, .zero _ => some (infBits false)
  | .rsq, .inf n => some (if n then stdNaN else zeroBits false)
  | .sin, .zero n => some (zeroBits n)
  | .cos, .zero _ => some oneBits
  | .sin, .inf _ => some stdNaN
  | .cos, .inf _ => some stdNaN
  | .ex2, .nan => some stdNaN
  | .ln2, .nan => some stdNaN
  | .rcp, .nan => some stdNaN
  | .rsq, .nan => some stdNaN
  | .sin, .nan => some stdNaN
  | .cos, .nan => some stdNaN
  | _, _ => none

/-- A texture instruction that its group comes to execute up to its semaphore in this state: no synchronisation rule broken (R366, R588,
R594), its registers in range (R351), and every lookup it makes answered. -/
structure TexReady (s : State) (op : TexOp) (f : TexInst) where
  k : Nat
  g : Group
  src : Nat
  dst : Nat
  lanes : List Lane
  mem : MemSys
  turn : s.turn = .group k
  group : s.groups[k]? = some g
  running : g.halted = false
  results : f.aluWait = true ∨ ∀ u ∈ texUses op f (texNamed g f), u ∉ g.aluPending
  erratum : f.semWait = true → g.erratum = false
  places : texPlaces g op f = .ok (src, dst)
  lookups : ∀ l ∈ waited g f.semWait, texReadHazard op f src l = false ∧ texWriteHazard op f dst l = false
  reads : texLanes s.platform s.draws (g.env.descs.inp.get ⟨f.texId.toNat, f.texId.isLt⟩) op f src dst (waited g f.semWait) s.mem =
    .ok (lanes, mem)

/-- Such an instruction that acquires the semaphore only if it waits for it (R369) and does not stand at the end address (R350): its
group can execute it in this state. -/
structure TexCase (s : State) (op : TexOp) (f : TexInst) extends TexReady s op f where
  fields : f.semAcquire = true → f.semWait = true
  notEnd : g.atEnd = false

/-- A flow-control instruction that its group comes to execute in this state: no synchronisation rule broken (R588, R594). -/
structure FcFields (s : State) (f : FcInst) where
  k : Nat
  g : Group
  turn : s.turn = .group k
  group : s.groups[k]? = some g
  running : g.halted = false
  results : f.aluWait = true ∨ ∀ u ∈ fcUses f, u ∉ g.aluPending
  erratum : f.semWait = true → g.erratum = false

/-- Such an instruction whose boolean can be read where it depends on it (R385) and whose predicate select is none or a replicate one
(R386): it comes to the vote. -/
structure FcPlaced (s : State) (f : FcInst) extends FcFields s f where
  boolean : Bool
  mem : MemSys
  bool : fcBoolean s.platform g.env.descs.constb f s.mem = .ok (boolean, mem)
  fields : f.predSel ≠ .rgba

/-- Such an instruction that does not stand at the end address (R334): its group can execute it, the stacks and branch counters and
the integer constant apart. -/
structure FcCase (s : State) (f : FcInst) extends FcPlaced s f where
  notEnd : g.atEnd = false

/-- The processors with what they want, after the re-enabling of ENDLOOP and ENDREP, after B_ELSE, and with who votes (R382 steps 2
to 5). -/
def FcPlaced.voters {s : State} {f : FcInst} (c : FcPlaced s f) (op : FcOp) : List Voter :=
  fcVoters f c.boolean (fcReenable op c.g.loopStack.length (waited c.g f.semWait))

/-- The address stack has room for what the instruction does to it when it jumps (R62, R393). -/
def FcPlaced.addressRoom {s : State} {f : FcInst} (c : FcPlaced s f) : Prop :=
  (f.aOp = .push → c.g.env.prog.fullMode = true ∧ c.g.addrStack.length < 4) ∧
  (f.aOp = .pop → c.g.env.prog.fullMode = true ∧ c.g.addrStack ≠ [])

/-- No inactive processor that takes part in the decision stands at the limit of the branch counter (R387, R400). -/
def FcPlaced.countersRoom {s : State} {f : FcInst} (c : FcPlaced s f) : Prop :=
  ∀ l ∈ c.g.lanes, l.active = false → (f.ignoreUncovered = true → l.covered = true) → l.bcnt < c.g.env.prog.branchMax

/-- Room for what the instruction does when its decision is `jump` (R62, R393, R399, R400). -/
def FcPlaced.room {s : State} {f : FcInst} (c : FcPlaced s f) (jump : Prop) : Prop :=
  (jump → c.addressRoom ∧ (f.bOp1 = .incr → c.countersRoom)) ∧ (¬ jump → f.bOp0 = .incr → c.countersRoom)

/-- The decision of the vote (R390). -/
def decides (f : FcInst) (vs : List Voter) : Prop :=
  if f.jumpAny = true then ∃ v ∈ vs, v.votes f = true ∧ v.want = true else ∀ v ∈ vs, v.votes f = true → v.want = true

/-- A processor that keeps a BREAK or a CONTINUE from jumping (R418; log 39 for one that falls under both clauses). -/
def FcPlaced.blocks {s : State} {f : FcInst} (c : FcPlaced s f) (op : FcOp) (v : Voter) : Prop :=
  (v.lane.active = false ∧ (c.g.env.prog.breakInhibit = .all ∨ v.lane.bcnt < f.bPopCnt.toNat)) ∨
  (op ≠ .cont ∧ ∃ depth, v.lane.loopOff = some (.cont, depth))

/-- The instruction comes to its address-stack operation with the decision `jump`: its loop stack and integer constant allow its
operation, and the vote decides so (R390, R391, R405, R411 to R417). -/
def FcPlaced.decided {s : State} {f : FcInst} (c : FcPlaced s f) (op : FcOp) (jump : Prop) : Prop :=
  let vs := c.voters op
  let integer : Nat → Prop := fun count =>
    ∃ a0 d mem, readConsti s.platform c.mem c.g.env.descs.consti f.intAddr.toNat = .ok ((count, a0, d), mem)
  let frame : Frame → Prop := fun fr => c.g.env.prog.fullMode = true ∧ ∃ rest, c.g.loopStack = fr :: rest
  match op with
  | .jump => jump ↔ decides f vs
  | .loop | .rep => ∃ count, integer count ∧ (jump ↔ count = 0 ∨ decides f vs) ∧
      (¬ jump → c.g.env.prog.fullMode = true ∧ c.g.loopStack.length < 4)
  | .endloop => ∃ fr, frame fr ∧ fr.kind = .loop ∧ (jump ↔ fr.count - 1 ≠ 0 ∧ decides f vs) ∧ (jump → ∃ count, integer count)
  | .endrep => ∃ fr, frame fr ∧ fr.kind = .rep ∧ (jump ↔ fr.count - 1 ≠ 0 ∧ decides f vs)
  | .breakloop => ∃ fr, frame fr ∧ fr.kind = .loop ∧ (jump ↔ decides f vs ∧ ∀ v ∈ vs, ¬ c.blocks op v)
  | .breakrep => ∃ fr, frame fr ∧ fr.kind = .rep ∧ (jump ↔ decides f vs ∧ ∀ v ∈ vs, ¬ c.blocks op v)
  | .cont => ∃ fr, frame fr ∧ (jump ↔ decides f vs ∧ ∀ v ∈ vs, ¬ c.blocks op v)

/-- Where a flow-control instruction goes, what becomes of the address stack (R392, R393), and what the group notes of it: the record
of the previous instruction (R594) and, after an ALU_WAIT, no pending ALU result (R588). -/
def FcPlaced.goes {s : State} {f : FcInst} (c : FcPlaced s f) (jump : Prop) (g' : Group) : Prop :=
  (jump → (f.aOp = .pop → ∃ rest, c.g.addrStack = g'.pc :: rest ∧ g'.addrStack = rest) ∧
    (f.aOp ≠ .pop → g'.pc = if f.jumpGlobal = true then f.jumpAddr.toNat else f.jumpAddr.toNat + c.g.env.prog.offsetAddr) ∧
    (f.aOp = .push → g'.addrStack = (c.g.pc + 1) :: c.g.addrStack) ∧ (f.aOp = .none → g'.addrStack = c.g.addrStack)) ∧
  (¬ jump → g'.pc = c.g.pc + 1 ∧ g'.addrStack = c.g.addrStack) ∧
  g'.prev = .fc f.semWait ∧ g'.aluPending = (if f.aluWait = true then [] else c.g.aluPending)

/-- The loop-inactive state once a frame at this depth is popped (R404). -/
def popped (depth : Nat) : Option (OffKind × Nat) → Option (OffKind × Nat)
  | some (k, d) => if d = depth then none else some (k, d)
  | none => none

/-- The loop-inactive state that step 7 of R382 leaves: a popped frame re-enables the processors that it disabled, and the voters that
want to leave a loop that goes on are disabled (R404, R412 to R417). -/
def FcPlaced.offAfter {s : State} {f : FcInst} (c : FcPlaced s f) (op : FcOp) (jump : Bool) (v : Voter) : Option (OffKind × Nat) :=
  let leaves : OffKind → Option (OffKind × Nat) := fun kind =>
    if v.votes f = true ∧ v.want = true then some (kind, c.g.loopStack.length) else v.lane.loopOff
  match op, jump with
  | .endloop, false | .endrep, false | .breakloop, true | .breakrep, true => popped c.g.loopStack.length v.lane.loopOff
  | .breakloop, false | .breakrep, false => leaves .brk
  | .cont, false => leaves .cont
  | _, _ => v.lane.loopOff

/-- Processor `l` is what a flow-control instruction with this decision makes of `v`, whose loop-inactive state step 7 leaves as
`off`: its branch operation is B_OP1 on a jump and B_OP0 else, and leaves a loop-inactive processor alone, INCR one that
IGNORE_UNCOVERED excludes as well (R382 step 9, R387, R397 to R399, R404; log 40). -/
def branched (f : FcInst) (jump : Prop) (v : Voter) (off : Option (OffKind × Nat)) (l : Lane) : Prop :=
  l.loopOff = off ∧
  (off.isSome = true → l.active = v.lane.active ∧ l.bcnt = v.lane.bcnt) ∧
  (off = none → ∀ b : BOp, (jump → b = f.bOp1) → (¬ jump → b = f.bOp0) →
    (b = .none → l.active = v.lane.active ∧ l.bcnt = v.lane.bcnt) ∧
    (b = .incr →
      (f.ignoreUncovered = true ∧ v.lane.covered = false → l.active = v.lane.active ∧ l.bcnt = v.lane.bcnt) ∧
      (v.lane.active = false → (f.ignoreUncovered = true → v.lane.covered = true) → l.active = false ∧ l.bcnt = v.lane.bcnt + 1) ∧
      (v.lane.active = true → v.votes f = true → ¬ (v.want = true ↔ jump) → l.active = false ∧ l.bcnt = 0) ∧
      (v.lane.active = true → v.votes f = false ∨ (v.want = true ↔ jump) → l.active = true ∧ l.bcnt = v.lane.bcnt)) ∧
    (b = .decr → (v.lane.active = true → l.active = true ∧ l.bcnt = v.lane.bcnt) ∧
      (v.lane.active = false → v.lane.bcnt < f.bPopCnt.toNat → l.active = true ∧ l.bcnt = 0) ∧
      (v.lane.active = false → f.bPopCnt.toNat ≤ v.lane.bcnt → l.active = false ∧ l.bcnt = v.lane.bcnt - f.bPopCnt.toNat)))

/-! ## Fair runs (R606, D38; log 8) -/

/-- An endless run of the device, the host making no move. -/
def IsRun (r : Nat → State) : Prop := ∀ n, step (r n) = .next (r (n + 1))

/-- The agents that fairness is about: the PE, processor q, the work distributor (R20). -/
inductive Agent where
  | pe
  | proc (q : Nat)
  | dist
deriving DecidableEq, Repr

/-- The agent has something to do and is not stuck (R81): a buffer to read, a program to run or to end, a pair to hand out to an idle
processor. -/
def Agent.enabled (s : State) : Agent → Prop
  | .pe => s.pe.stuck = false ∧ (s.pe.cur ≠ none ∨ s.pe.queue ≠ [])
  | .proc q => ∃ g ∈ s.groups, ∃ l ∈ g.lanes, l.proc = q ∧ l.stuck = false ∧ (g.halted = true ∨ g.lanes.all (fun l => !l.stuck) = true)
  | .dist => s.pe.distStuck = false ∧ s.pe.launches ≠ [] ∧ ∃ q < s.platform.nproc, s.busy q = false

/-- It is the agent's turn, with a choice that it can carry out. -/
def Agent.moves (s : State) : Agent → Prop
  | .pe => s.turn = .pe
  | .proc q => ∃ k g, s.groups[k]? = some g ∧
      if g.halted = true then ∃ n l, s.turn = .retire k n ∧ g.lanes[n]? = some l ∧ l.proc = q
      else s.turn = .group k ∧ ∃ l ∈ g.lanes, l.proc = q
  | .dist => ∃ a b q join la, s.turn = .dist a b q join ∧ s.pe.launches[a]? = some la ∧ b < la.todo.length ∧
      q < s.platform.nproc ∧ s.busy q = false ∧ joinable s.groups la.env join = true

/-- A fair run: no agent stays enabled for ever without moving. -/
def FairRun (r : Nat → State) : Prop :=
  IsRun r ∧ ∀ (a : Agent) (n : Nat), a.enabled (r n) → ∃ m, n ≤ m ∧ (a.moves (r m) ∨ ¬ a.enabled (r m))

end Sys2Proof.Machine
end

