-- ==== Sys2Proof/Certificates/Slice0/Obligations.lean ====
section
/-! DEFINITION. The statements for the provers: first the encodings and the step, then the commands, the ALU, texture and
flow-control instructions, the arithmetic, the memory controller and the agents, last the invariants of every step. -/

open Sys2Proof Sys2Proof.Machine

/-! ## Encodings and the step -/

/-- Decoding the words of a well-formed instruction gives it back, whatever words follow, and so does decoding their bytes
in memory order (R82, R132, R165 to R172; the DPP layout is PRESUMED, log 4, log 6, log 7). -/
def Obligations.EncodedInstructionDecodesBack : Prop :=
  ∀ i : Instr, i.wellFormed = true → ∀ rest : List Word,
    decodeWords (encode i ++ rest) = .ok i ∧ decodeBytes (bytesOfWords (encode i ++ rest)) = .ok i

/-- A few words of each family, read from the tables of R132 and, for the slots, from the layout of R165 to R172 (PRESUMED, log 4),
decode to what they stand for: three commands, the OUTPUT slot of the spec's program P1, an ALU, a texture and a flow-control slot of
P2 and P3. -/
def Obligations.SampleWordsDecode : Prop :=
  decodeWords [0xC0030700#32, 0#32, 0#32, 0x3F#32, 0x1F#32] = .ok (.setDomain 0#32 0#32 0x3F#32 0x1F#32) ∧
  decodeWords [0xC0030C00#32, 1#32, 0x00200000#32, 0x04000040#32, 0x20#32] =
    .ok (.setOutFmt 1#32 0x00200000#32 0x04000040#32 0x20#32) ∧
  decodeWords [0xC0001B00#32, 1#32] = .ok (.setCondTest 1#32) ∧
  (let src := fun n : BitVec 8 => { addr := n, const := true, rel := false : SrcAddr }
   let addrs : AddrWord := { s0 := src 0#8, s1 := src 1#8, s2 := src 2#8, srcp := .bias }
   let rgb := fun k : SrcSel => { sel := k, red := .r, green := .g, blue := .b, mod := .off : RgbOperand }
   let alpha := fun k : SrcSel => { sel := k, swz := .a, mod := .off : AlphaOperand }
   decodeSlot ⟨0x00078005#32, 0x10240500#32, 0x10240500#32, 0x00442220#32, 0x0068C000#32, 0x1C222000#32⟩ =
    .ok (.opRgbMad .mad
      { isOutput := true, semWait := true, rgbPredSel := .none, rgbPredInv := false, alphaPredSel := .none, alphaPredInv := false
        writeInactive := false, last := false, nop := false, rgbWmask := 0#3, alphaWmask := false, rgbOmask := 7#3
        alphaOmask := true, rgbClamp := false, alphaClamp := false, resultSel := .red, resultOp := .equal, rgbAddr := addrs
        alphaAddr := addrs, rgbA := rgb .src0, rgbB := rgb .src1, rgbC := rgb .src2, alphaA := alpha .src0, alphaB := alpha .src1
        alphaC := alpha .src2, rgbOmod := .u1, alphaOmod := .u1, rgbDst := 0#7, rgbDstRel := false, alphaDst := 0#7
        alphaDstRel := false, rgbTarget := .t0, alphaTarget := .t0, wOmask := false, aluWmask := false })) ∧
  (let zero : SrcAddr := { addr := 0#8, const := false, rel := false }
   let addrs : AddrWord := { s0 := zero, s1 := zero, s2 := zero, srcp := .bias }
   let one : RgbOperand := { sel := .src0, red := .one, green := .one, blue := .one, mod := .off }
   let nought : AlphaOperand := { sel := .src0, swz := .zero, mod := .off }
   decodeSlot ⟨0x00008000#32, 0#32, 0#32, 0x20DB0000#32, 0x00810000#32, 0x20ED8000#32⟩ =
    .ok (.opRgbMad .mad
      { isOutput := false, semWait := false, rgbPredSel := .none, rgbPredInv := false, alphaPredSel := .none, alphaPredInv := false
        writeInactive := false, last := false, nop := false, rgbWmask := 0#3, alphaWmask := false, rgbOmask := 1#3
        alphaOmask := false, rgbClamp := false, alphaClamp := false, resultSel := .red, resultOp := .equal, rgbAddr := addrs
        alphaAddr := addrs, rgbA := { sel := .src0, red := .r, green := .r, blue := .r, mod := .off }, rgbB := one
        rgbC := { one with mod := .neg }, alphaA := nought, alphaB := nought, alphaC := nought, rgbOmod := .u1, alphaOmod := .u1
        rgbDst := 0#7, rgbDstRel := false, alphaDst := 0#7, alphaDstRel := false, rgbTarget := .t1, alphaTarget := .t0
        wOmask := false, aluWmask := false })) ∧
  decodeSlot ⟨0x00007807#32, 0x0A400000#32, 0xE401E400#32, 0#32, 0#32, 0#32⟩ =
    .ok (.texLookup
      { semWait := true, rgbPredSel := .none, rgbPredInv := false, alphaPredSel := .none, alphaPredInv := false
        writeInactive := false, aluWait := false, rgbWmask := 7#3, alphaWmask := true, texId := 0#4, semAcquire := true
        ignoreUncovered := false, unscaled := true, srcAddr := 0#7, srcRel := false, swzS := .r, swzT := .g, swzR := .b
        swzQ := .a, dstAddr := 1#7, dstRel := false, dswzR := .r, dswzG := .g, dswzB := .b, dswzA := .a, dxdy := 0#32 }) ∧
  decodeSlot ⟨0x00000412#32, 0#32, 0x0A003300#32, 0x80040000#32, 0#32, 0#32⟩ =
    .ok (.fcJump
      { semWait := false, predSel := .rrrr, predInv := false, aluWait := true, jumpFunc := 0x33#8, jumpAny := false
        aOp := .none, bOp0 := .incr, bOp1 := .incr, bPopCnt := 0#5, bElse := false, ignoreUncovered := false
        boolAddr := 0#5, intAddr := 0#5, jumpAddr := 4#9, jumpGlobal := true })

/-- What stops a fetch, where the agent is not stuck and the opcode lies in mapped memory. At a word that is none of the 27 opcodes
the PE stops with BadCommand, at a command whose parameters run past the end of the buffer with TruncatedCommand (R131). A running
group whose pc lies beyond the program stops with PcOutOfRange (R548), and so does one that a jump has led past the end address, on
a device that follows R50 and R334 there (log 36). It stops at a slot that the device's layout gives no instruction with
InvalidEncoding, before anything else of it (R148; log 4, log 45); under K1 at a slot with an unused code: an operation, predicate
select or swizzle of an ALU or OUTPUT slot, an operation or predicate select of a texture slot, a predicate select, address
operation or branch operation of a flow-control slot (R152 to R154, R156; K1 is PRESUMED, log 4, log 6). -/
def Obligations.FetchFaults : Prop :=
  (∀ (s : State) (c : Current), s.turn = .pe → s.pe.stuck = false → s.pe.cur = some c → 1 ≤ c.remaining →
    (∀ a ∈ wordAddrs c.pos.toNat, s.platform.mapped a = true) →
    (s.mem.ram.word c.pos.toNat ∉
        [0xC0010200#32, 0xC0000300#32, 0xC0000400#32, 0xC0010500#32, 0xC0000600#32, 0xC0030700#32, 0xC0000800#32,
         0xC0000900#32, 0xC0010A00#32, 0xC0030B00#32, 0xC0030C00#32, 0xC0020D00#32, 0xC0010E00#32, 0xC0010F00#32,
         0xC0011000#32, 0xC0001100#32, 0xC0001200#32, 0xC0001300#32, 0xC0001400#32, 0xC0001500#32, 0xC0001600#32,
         0xC0001700#32, 0xC0001800#32, 0xC0001900#32, 0xC0001A00#32, 0xC0001B00#32, 0xC0001C00#32] →
      step s = .fault (.badCommand (s.mem.ram.word c.pos.toNat))) ∧
    (∀ n, commandParams (s.mem.ram.word c.pos.toNat) = some n → c.remaining < 1 + n → step s = .fault .truncatedCommand)) ∧
  ∀ (s : State) (k : Nat) (g : Group), s.turn = .group k → s.groups[k]? = some g → g.halted = false →
    (∀ l ∈ g.lanes, l.stuck = false) →
    (g.env.prog.instrCnt.toNat ≤ g.pc ∨ (s.platform.endJump = .stops ∧ g.env.prog.endSlot < g.pc) →
      step s = .fault .pcOutOfRange) ∧
    ∀ slot, g.pc < g.env.prog.instrCnt.toNat → s.platform.endJump = .runs ∨ g.pc ≤ g.env.prog.endSlot →
      g.env.text[g.pc]? = some slot →
      (∀ e, s.platform.layout.decode slot = .error e → step s = .fault .invalidEncoding) ∧
      (s.platform.layout = .k1 →
        (field slot.w0 0 2 < 2 →
          (field slot.w4 0 4 ∈ [4, 14, 15] ∨ field slot.w5 0 4 ∈ [6, 11, 12, 13, 14, 15] ∨ field slot.w0 3 3 ∈ [6, 7] ∨
            field slot.w0 25 3 ∈ [6, 7] ∨ (∃ lo ∈ [2, 5, 8, 15, 18, 21], field slot.w3 lo 3 = 7) ∨
            (∃ lo ∈ [14, 21], field slot.w4 lo 3 = 7) ∨ ∃ lo ∈ [14, 17, 20, 27], field slot.w5 lo 3 = 7) →
          step s = .fault .invalidEncoding) ∧
        (field slot.w0 0 2 = 3 →
          field slot.w1 22 3 ∈ [4, 5, 6] ∨ field slot.w0 3 3 ∈ [6, 7] ∨ field slot.w0 25 3 ∈ [6, 7] →
          step s = .fault .invalidEncoding) ∧
        (field slot.w0 0 2 = 2 →
          field slot.w0 3 3 ∈ [6, 7] ∨ field slot.w2 6 2 = 3 ∨ field slot.w2 24 2 = 3 ∨ field slot.w2 26 2 = 3 →
          step s = .fault .invalidEncoding))

/-- A step runs the decoded instruction: at the turn of a PE that is not stuck the command that the words at the read position
decode to (R131, R180), at the turn of a running group without a stuck processor the instruction that the slot at its pc decodes to
(R21, R81). The layout is the device's (R148, log 4). The pc may be any slot inside the program, one past the halt address after a
jump over it as well where the device follows R548 there, and none past it where it follows R50 and R334 (log 36). Around it the
step only draws the next turn (log 8). A PE without a current buffer makes the next submitted one current, from its first word on,
an empty one being consumed at once (R181, R524); with no buffer submitted, or where it is stuck, nothing changes but the turn
(R81). -/
def Obligations.StepRunsDecodedInstruction : Prop :=
  (∀ s : State, s.turn = .pe →
    let next : Pe → Prop := fun pe => step s = .next { s with pe := pe, turn := Config.turn s.draws, draws := s.draws + 1 }
    (s.pe.stuck = true ∨ (s.pe.cur = none ∧ s.pe.queue = []) → next s.pe) ∧
    ∀ sub rest, s.pe.stuck = false → s.pe.cur = none → s.pe.queue = sub :: rest →
      (sub.size = 0#32 → next { s.pe with queue := rest, consumed := s.pe.consumed ++ [sub.id] }) ∧
      (sub.size ≠ 0#32 →
        next { s.pe with queue := rest, cur := some { sub := sub, pos := sub.addr, remaining := sub.size.toNat } })) ∧
  ∀ (s : State) (i : Instr),
    ((s.turn = .pe ∧ s.pe.stuck = false ∧ ∃ c, s.pe.cur = some c ∧ decodeCommand (bufferWords s.mem.ram c.pos (min 5 c.remaining)) = .ok i ∧
        (bufferAddrs c.pos (encode i).length).all s.platform.mapped = true) ∨
      ∃ (k : Nat) (g : Group) (slot : Slot), s.turn = .group k ∧ s.groups[k]? = some g ∧ g.halted = false ∧
        (∀ l ∈ g.lanes, l.stuck = false) ∧ g.pc < g.env.prog.instrCnt.toNat ∧
        (s.platform.endJump = .runs ∨ g.pc ≤ g.env.prog.endSlot) ∧ g.env.text[g.pc]? = some slot ∧
        s.platform.layout.decode slot = .ok i) →
    step s =
      match exec i s with
      | .next t => .next { t with turn := Config.turn t.draws, draws := t.draws + 1 }
      | .fault e => .fault e
      | .refused r => .refused r

/-! ## The commands of the PE -/

/-- No command touches a processor, a launch already made, the loaded program or the queue of buffers (R30, R46, R181), and
a command that is done moves the read position past its words, or consumes the buffer with its last word (R25, R181); a PE that it
leaves stuck keeps the read position (R81). -/
def Obligations.CommandsKeepTheArray : Prop :=
  ∀ (i : Instr) (s t : State), (encodeCommand i).isSome = true → exec i s = .next t →
    t.groups = s.groups ∧ t.program = s.program ∧ t.platform = s.platform ∧ t.turn = s.turn ∧
    s.pe.launches <+: t.pe.launches ∧ t.pe.queue = s.pe.queue ∧ t.pe.issued = s.pe.issued ∧ t.pe.isOpen = s.pe.isOpen ∧
    t.pe.distStuck = s.pe.distStuck ∧ t.co.stuck = s.co.stuck ∧
    (s.pe.stuck = false → t.pe.stuck = true → t.pe.cur = s.pe.cur ∧ t.pe.consumed = s.pe.consumed) ∧
    (t.pe.stuck = false → (∀ p, i ≠ .waitForIdle p) ∨ s.idle = true →
      ∀ c, s.pe.cur = some c →
        ((encode i).length < c.remaining →
          t.pe.cur = some { c with
            pos := c.pos + BitVec.ofNat 32 (4 * (encode i).length), remaining := c.remaining - (encode i).length } ∧
          t.pe.consumed = s.pe.consumed) ∧
        (c.remaining ≤ (encode i).length → t.pe.cur = none ∧ t.pe.consumed = s.pe.consumed ++ [c.sub.id]))

/-- A command with a reserved bit of a parameter set stops with ReservedBits: beyond bit 0 of a flag, an index of 4 bits for an input and of
2 for an output, 3 bits of the conditional test, 4 of the output mask, 12 of each bound of the domain, 13 of a height, in a format
parameter any bit outside pitch, tiling and format, and any bit at all of a reserved parameter (R137, R138, R139). The eight commands that
are not pipelined stop with NotIdle while a processor is busy or a launch is pending (R135). -/
def Obligations.CommandChecksFault : Prop :=
  (∀ (s : State) (p a q h i0 j0 i1 j1 : Word),
    let stops : Instr → Prop := fun i => exec i s = .fault .reservedBits
    let beyond : Word → Word → Prop := fun used w => w &&& ~~~used ≠ 0#32
    (beyond 0x1#32 p → stops (.initPerfCounters p) ∧ stops (.setCondOutMask p) ∧ stops (.setCondLoc p)) ∧
    (beyond 0x7#32 p → stops (.setCondTest p)) ∧ (beyond 0xF#32 p → stops (.setOutMask p)) ∧
    (beyond 0xFFF#32 i0 ∨ beyond 0xFFF#32 j0 ∨ beyond 0xFFF#32 i1 ∨ beyond 0xFFF#32 j1 → stops (.setDomain i0 j0 i1 j1)) ∧
    (beyond 0x07031FFC#32 q →
      stops (.setInstFmt a q) ∧ stops (.setConstfFmt a q) ∧ stops (.setConstiFmt a q) ∧ stops (.setConstbFmt a q)) ∧
    (beyond 0xF#32 p ∨ beyond 0x07031FFC#32 q ∨ beyond 0x1FFF#32 h → stops (.setInpFmt p a q h)) ∧
    (beyond 0x3#32 p ∨ beyond 0x07031FFC#32 q ∨ beyond 0x1FFF#32 h → stops (.setOutFmt p a q h)) ∧
    (beyond 0x07031FFC#32 q ∨ beyond 0x1FFF#32 h → stops (.setCondOutFmt a q h)) ∧
    (beyond 0#32 p →
      stops (.startPerfCounters p) ∧ stops (.stopPerfCounters p) ∧ stops (.startProgram p) ∧ stops (.waitForIdle p) ∧
      stops (.invInstCache p) ∧ stops (.invConstfCache p) ∧ stops (.invConstiCache p) ∧ stops (.invConstbCache p) ∧
      stops (.invCondOutCache p) ∧ stops (.invInpCache p) ∧ stops (.flushOutCache p) ∧ stops (.flushCondOutCache p))) ∧
  ∀ s : State, s.groups ≠ [] ∨ s.pe.launches ≠ [] → ∀ p : Word, exec (.readPerfCounters p) s = .fault .notIdle ∧
    ∀ q : Word, onlyBits 0x07031FFC#32 q = true →
      exec (.setInstFmt p q) s = .fault .notIdle ∧ exec (.setConstfFmt p q) s = .fault .notIdle ∧
      exec (.setConstiFmt p q) s = .fault .notIdle ∧ exec (.setConstbFmt p q) s = .fault .notIdle ∧
      ∀ h : BitVec 13, exec (.setCondOutFmt p q (h.setWidth 32)) s = .fault .notIdle ∧
        (∀ k : BitVec 4, exec (.setInpFmt (k.setWidth 32) p q (h.setWidth 32)) s = .fault .notIdle) ∧
        ∀ k : BitVec 2, exec (.setOutFmt (k.setWidth 32) p q (h.setWidth 32)) s = .fault .notIdle

/-- set_cond_val and set_domain set their item, move the read position and change nothing else (R190, R192). -/
def Obligations.CondValAndDomainSet : Prop :=
  ∀ s : State,
    (∀ v : Word, Completes (.setCondVal v) s fun t =>
      t = { s with pe := { s.pe.advance 2 with condVal := v }, setItems := t.setItems } ∧ setsItem .condVal s t) ∧
    ∀ i0 j0 i1 j1 : BitVec 12,
      Completes (.setDomain (i0.setWidth 32) (j0.setWidth 32) (i1.setWidth 32) (j1.setWidth 32)) s fun t =>
        t = { s with pe := { s.pe.advance 5 with domain := ⟨i0, j0, i1, j1⟩ }, setItems := t.setItems } ∧
        setsItem .domain s t

/-- set_out_mask, set_cond_out_mask, set_cond_test and set_cond_loc set their register, move the read position and change
nothing else (R242, R243, R251, R252). -/
def Obligations.MasksAndConditionSet : Prop :=
  ∀ s : State,
    (∀ m : BitVec 4, Completes (.setOutMask (m.setWidth 32)) s fun t =>
      t = { s with mc := { s.mc with outMask := m }, pe := s.pe.advance 2, setItems := t.setItems } ∧
      setsItem .outMask s t) ∧
    (∀ b : Bool, Completes (.setCondOutMask (bitParam b)) s fun t =>
      t = { s with mc := { s.mc with condOutMask := b }, pe := s.pe.advance 2, setItems := t.setItems } ∧
      setsItem .condOutMask s t) ∧
    (∀ c : BitVec 3, Completes (.setCondTest (c.setWidth 32)) s fun t =>
      t = { s with co := { s.co with test := c }, pe := s.pe.advance 2, setItems := t.setItems } ∧
      setsItem .condTest s t) ∧
    ∀ b : Bool, Completes (.setCondLoc (bitParam b)) s fun t =>
      t = { s with co := { s.co with loc := b }, pe := s.pe.advance 2, setItems := t.setItems } ∧ setsItem .condLoc s t

/-- On an idle device set_inst_fmt and the three constant format commands replace their whole descriptor and nothing else
(R210, R211, R214, R222, R223, R224). -/
def Obligations.PlainFormatsSet : Prop :=
  ∀ (s : State) (pb pf : Word), s.idle = true → onlyBits formatBits pf = true → ∃ d : Desc, d.holds pb pf ∧
    (Completes (.setInstFmt pb pf) s fun t =>
      t = { s with mc.descs.inst := d, pe := s.pe.advance 3, setItems := t.setItems } ∧ setsItem .inst s t) ∧
    (Completes (.setConstfFmt pb pf) s fun t =>
      t = { s with mc.descs.constf := d, pe := s.pe.advance 3, setItems := t.setItems } ∧ setsItem .constf s t) ∧
    (Completes (.setConstiFmt pb pf) s fun t =>
      t = { s with mc.descs.consti := d, pe := s.pe.advance 3, setItems := t.setItems } ∧ setsItem .consti s t) ∧
    (Completes (.setConstbFmt pb pf) s fun t =>
      t = { s with mc.descs.constb := d, pe := s.pe.advance 3, setItems := t.setItems } ∧ setsItem .constb s t)

/-- On an idle device set_inp_fmt and set_out_fmt replace the descriptor with their index, leaving the others, and
set_cond_out_fmt that of the conditional output; nothing else changes (R210, R211, R216, R218, R220). -/
def Obligations.TallFormatsSet : Prop :=
  ∀ (s : State) (pb pf : Word) (h : BitVec 13), s.idle = true → onlyBits formatBits pf = true →
    ∃ d : TallDesc, d.desc.holds pb pf ∧ d.height = h ∧
      (∀ k : BitVec 4, Completes (.setInpFmt (k.setWidth 32) pb pf (h.setWidth 32)) s fun t =>
        t = { s with mc.descs.inp := t.mc.descs.inp, pe := s.pe.advance 5, setItems := t.setItems } ∧
        (∀ n : Fin 16, t.mc.descs.inp.get n = if n.val = k.toNat then d else s.mc.descs.inp.get n) ∧
        setsItem (.inp k) s t) ∧
      (∀ k : BitVec 2, Completes (.setOutFmt (k.setWidth 32) pb pf (h.setWidth 32)) s fun t =>
        t = { s with mc.descs.out := t.mc.descs.out, pe := s.pe.advance 5, setItems := t.setItems } ∧
        (∀ n : Fin 4, t.mc.descs.out.get n = if n.val = k.toNat then d else s.mc.descs.out.get n) ∧
        setsItem (.out k) s t) ∧
      Completes (.setCondOutFmt pb pf (h.setWidth 32)) s fun t =>
        t = { s with mc.descs.condOut := d, pe := s.pe.advance 4, setItems := t.setItems } ∧ setsItem .condOut s t

/-- init_perf_counters sets the enable bit only; start_perf_counters zeroes and starts enabled counters, stop_perf_counters
stops them with their values kept, and neither has an effect on disabled ones (R184, R185, R186; log 1 for counters whose
enable bit no command has set). When clocks pass, running counters grow: the total by all of them, the active one by no more than
those in which a processor was busy, which are none without a busy processor; past 2^32 the value is free (R188; log 20). -/
def Obligations.PerfCountersControlled : Prop :=
  ∀ s : State,
    (∀ b : Bool, Completes (.initPerfCounters (bitParam b)) s fun t =>
      t = { s with pe := { s.pe.advance 2 with perf := { s.pe.perf with enabled := b } }, setItems := t.setItems } ∧
      setsItem .perfEnabled s t) ∧
    (Completes (.startPerfCounters 0#32) s fun t =>
      t = { s with pe := { s.pe.advance 2 with perf :=
        if s.pe.perf.enabled = true then { enabled := true, running := true, total := 0#32, active := 0#32 }
        else s.pe.perf } }) ∧
    (Completes (.stopPerfCounters 0#32) s fun t =>
      t = { s with pe := { s.pe.advance 2 with perf :=
        if s.pe.perf.enabled = true then { s.pe.perf with running := false } else s.pe.perf } }) ∧
    ∀ total active : Nat, s.turn = .clock total active → ∃ t, step s = .next t ∧
      t = { s with pe := { s.pe with perf := { s.pe.perf with total := t.pe.perf.total, active := t.pe.perf.active } }
                   turn := t.turn, draws := t.draws } ∧
      (s.pe.perf.running = false → t.pe = s.pe) ∧
      (s.pe.perf.running = true →
        (s.pe.perf.total.toNat + total < 2 ^ 32 → t.pe.perf.total.toNat = s.pe.perf.total.toNat + total) ∧
        (s.groups = [] → t.pe.perf.active = s.pe.perf.active) ∧
        (s.groups ≠ [] → s.pe.perf.active.toNat + min total active < 2 ^ 32 →
          t.pe.perf.active.toNat = s.pe.perf.active.toNat + min total active))

/-- On an idle device read_perf_counters stores the total clocks at the 2K-aligned address and the active clocks four bytes
on, changing no other byte; with the counters disabled it only moves the read position (R107, R136, R187; log 1 for counters whose
enable bit no command has set, log 20 for its one parameter word). Where one of the eight bytes is not mapped the PE is stuck at the
command and nothing else happens but the writes before (R81; log 33). -/
def Obligations.PerfCountersRead : Prop :=
  ∀ (s : State) (p : Word), s.idle = true → s.mem.ram.wf = true →
    (s.pe.perf.enabled = false → exec (.readPerfCounters p) s = .next { s with pe := s.pe.advance 2 }) ∧
    (s.pe.perf.enabled = true →
      (∀ n < 8, s.platform.mapped ((p &&& 0xFFFFF800#32).toNat + n) = true) →
      Completes (.readPerfCounters p) s fun t =>
        t = { s with pe := s.pe.advance 2, mem := { s.mem with ram := t.mem.ram } } ∧
        t.mem.ram.word (p &&& 0xFFFFF800#32).toNat = s.pe.perf.total ∧
        t.mem.ram.word ((p &&& 0xFFFFF800#32).toNat + 4) = s.pe.perf.active ∧
        ∀ a, (∀ n < 8, a ≠ (p &&& 0xFFFFF800#32).toNat + n) → t.mem.ram.get a = s.mem.ram.get a) ∧
    (s.pe.perf.enabled = true →
      (∃ n < 8, s.platform.mapped ((p &&& 0xFFFFF800#32).toNat + n) = false) →
      ∃ t, exec (.readPerfCounters p) s = .next t ∧
        t = { s with pe := { s.pe with stuck := true }, mem := { s.mem with ram := t.mem.ram } } ∧
        ∀ a, (∀ n < 8, a ≠ (p &&& 0xFFFFF800#32).toNat + n) → t.mem.ram.get a = s.mem.ram.get a)

/-- start_program with an admissible program appends one launch with the values of this moment and every index pair of the
domain once; with no pair in the domain it appends none; with no program loaded it stops with UnsetState (R30, R192, R196,
R203), and a program that is not admissible is refused (R323, R335, R488, R490; that these checks are made again here is log 30, log 31 and
log 34). Only the instruction cache and the read position change beside. That a launch completes where an item that it needs was
never set is log 1, how the text lies in memory log 5. -/
def Obligations.StartProgramLaunches : Prop :=
  ∀ s : State,
    (s.program = none → exec (.startProgram 0#32) s = .fault .unsetState) ∧
    (∀ p : Program, s.program = some p →
      onlyBits 1#32 p.fgDepthSrc = false ∨ onlyBits 1#32 p.usConfig = false ∨ onlyBits 0x80000000#32 p.usFcCtrl = false ∨
        p.consistent = false ∨ p.usConfig = 1#32 ∨ p.earlyExit = true →
      ∃ r, exec (.startProgram 0#32) s = .refused r) ∧
    ∀ (p : Program) (text : List Slot) (mem : MemSys), s.program = some p → p.admission = .ok () →
      loadText s.platform s.mem s.mc.descs.inst p.instrCnt.toNat = .ok (text, mem) → textAgrees s.platform.layout p 0 text = .ok () →
      Completes (.startProgram 0#32) s fun t =>
        t = { s with pe := { s.pe.advance 2 with launches := t.pe.launches }, mem := { s.mem with inst := t.mem.inst } } ∧
        sameRam s t ∧
        ∃ todo : List (BitVec 12 × BitVec 12), todo.Nodup ∧
          (∀ i j, (i, j) ∈ todo ↔
            s.pe.domain.i0 ≤ i ∧ i ≤ s.pe.domain.i1 ∧ s.pe.domain.j0 ≤ j ∧ j ≤ s.pe.domain.j1) ∧
          (todo = [] → t.pe.launches = s.pe.launches) ∧
          (todo ≠ [] → t.pe.launches = s.pe.launches ++
            [{ env := { condVal := s.pe.condVal, condTest := s.co.test, condLoc := s.co.loc
                        condOutMask := s.mc.condOutMask, outMask := s.mc.outMask, descs := s.mc.descs, prog := p
                        text := text }
               todo := todo }])

/-- wait_for_idle is over once no launch is pending and no processor busy; until then the PE does not pass it, and nothing
changes (R199). -/
def Obligations.WaitForIdleBlocks : Prop :=
  ∀ s : State,
    (s.pe.launches = [] ∧ s.groups = [] → exec (.waitForIdle 0#32) s = .next { s with pe := s.pe.advance 2 }) ∧
    (s.pe.launches ≠ [] ∨ s.groups ≠ [] → exec (.waitForIdle 0#32) s = .next s)

/-! ## The cache commands of the MC -/

/-- The six invalidate commands, in their encodings. Each of the five of a read cache empties that cache and no other;
inv_cond_out_cache empties the conditional output cache, each dirty byte being written to memory or dropped, and no other byte
of memory changes (R232 to R237). -/
def Obligations.InvalidateEmptiesTheCache : Prop :=
  (encode (.invInstCache 0#32) = [0xC0001100#32, 0#32] ∧ encode (.invConstfCache 0#32) = [0xC0001200#32, 0#32] ∧
    encode (.invConstiCache 0#32) = [0xC0001300#32, 0#32] ∧ encode (.invConstbCache 0#32) = [0xC0001400#32, 0#32] ∧
    encode (.invCondOutCache 0#32) = [0xC0001500#32, 0#32] ∧ encode (.invInpCache 0#32) = [0xC0001600#32, 0#32]) ∧
  ∀ s : State,
    exec (.invInstCache 0#32) s = .next { s with pe := s.pe.advance 2, mem.inst := ⟨[]⟩ } ∧
    exec (.invConstfCache 0#32) s = .next { s with pe := s.pe.advance 2, mem.constf := ⟨[]⟩ } ∧
    exec (.invConstiCache 0#32) s = .next { s with pe := s.pe.advance 2, mem.consti := ⟨[]⟩ } ∧
    exec (.invConstbCache 0#32) s = .next { s with pe := s.pe.advance 2, mem.constb := ⟨[]⟩ } ∧
    exec (.invInpCache 0#32) s = .next { s with pe := s.pe.advance 2, mem.inp := ⟨[]⟩ } ∧
    (s.mem.ram.wf = true → (∀ c ∈ s.mem.cond.dirty, writable s c.1) →
      Completes (.invCondOutCache 0#32) s fun t =>
        t = { s with pe := s.pe.advance 2, draws := t.draws
                     mem := { s.mem with ram := t.mem.ram, cond := { clean := ⟨[]⟩, dirty := [] } } } ∧
        ∀ a, t.mem.ram.get a = s.mem.ram.get a ∨ (a, t.mem.ram.get a) ∈ s.mem.cond.dirty)

/-- The two flush commands, in their encodings: flush_out_cache writes every dirty byte of the output write cache to memory and
empties the cache; flush_cond_out_cache writes every dirty byte of the conditional output cache to memory and marks it clean
(R238, R239). -/
def Obligations.FlushWritesDirtyBytes : Prop :=
  (encode (.flushOutCache 0#32) = [0xC0001700#32, 0#32] ∧
  ∀ s : State, s.mem.wf = true → (∀ c ∈ s.mem.out, writable s c.1) →
    Completes (.flushOutCache 0#32) s fun t =>
      t = { s with pe := s.pe.advance 2, mem := { s.mem with ram := t.mem.ram, out := [] } } ∧
      ∀ a, t.mem.ram.get a = (tabFind s.mem.out a).getD (s.mem.ram.get a)) ∧
  encode (.flushCondOutCache 0#32) = [0xC0001800#32, 0#32] ∧
  ∀ s : State, s.mem.wf = true → (∀ c ∈ s.mem.cond.dirty, writable s c.1) →
    Completes (.flushCondOutCache 0#32) s fun t =>
      t = { s with pe := s.pe.advance 2
                   mem := { s.mem with
                     ram := t.mem.ram
                     cond := { clean := t.mem.cond.clean, dirty := [] } } } ∧
      (∀ a, t.mem.ram.get a = (tabFind s.mem.cond.dirty a).getD (s.mem.ram.get a)) ∧
      ∀ a, tabFind t.mem.cond.clean.bytes a =
        match tabFind s.mem.cond.dirty a with
        | some b => some b
        | none => tabFind s.mem.cond.clean.bytes a

/-! ## ALU and OUTPUT instructions -/

/-- Each of the 23 ALU rows, where its group can execute it, answers a next state in which the pc has moved on by one, or the group
has halted if it stood at the end address (R271, R334); beside its group, only the float constant cache may have gained bytes, those
of memory (R95), and the model's draw counter moved. Main memory, the other groups, both stacks and the launch values are unchanged
(R30, R46). The channels that its destinations and write masks name, the predicate bits of an ALU instruction's mask and, with ALU_WMASK,
the ALU result join the pending ALU results (R588), and the group keeps the NOP flag and those channels as those of the instruction before
the next (R590). That it completes where a temporary or predicate bit that it reads was never written is log 2, that the instruction at
the end address only halts and its results are sent in later steps log 10. -/
def Obligations.AluInstructionCompletes : Prop :=
  ∀ (i : Instr) (rop : RgbOp) (aop : AlphaOp) (f : AluInst) (s : State), i.alu? = some (rop, aop, f) →
    ∀ c : AluCase s rop aop f, Completes i s fun t =>
      t = { s with mem.constf := t.mem.constf, groups := t.groups, draws := t.draws } ∧ sameRam s t ∧ othersKept s t c.k ∧
      s.mem.constf.filled t.mem.constf s.mem.ram ∧
      ∃ g, t.groups[c.k]? = some g ∧ g.env = c.g.env ∧ g.loopStack = c.g.loopStack ∧ g.addrStack = c.g.addrStack ∧
        g.lanes.length = c.g.lanes.length ∧ g.halted = c.g.atEnd ∧ (c.g.atEnd = false → g.pc = c.g.pc + 1) ∧
        ∃ dsts : List Nat, g.prev = .alu f.nop dsts ∧
          (∀ x, x ∈ dsts ↔ (∃ ch, ch ≠ .a ∧ f.rgbWmask.getLsbD ch.idx = true ∧ x = regKey c.dr ch) ∨
            (f.alphaWmask = true ∧ x = regKey c.da .a)) ∧
          ∀ u, u ∈ g.aluPending ↔ u ∈ c.g.aluPending ∨ (∃ x ∈ dsts, u = .temp x) ∨
            (f.isOutput = false ∧ ∃ ch, u = .pred ch ∧ (if ch = .a then f.alphaOmask else f.rgbOmask.getLsbD ch.idx) = true) ∨
            (f.aluWmask = true ∧ u = .ar)

/-- What an ALU or OUTPUT instruction leaves unchanged on each processor: everything where the processor is not active or is
loop-inactive and the instruction is not WRITE_INACTIVE (R319); else every temporary channel but those of the write masks (R320, R321), the
outputs unless it is an OUTPUT (R322), the predicate bits unless it is an ALU instruction (R326), W and the ALU result unless
their mask is set (R324, R330), and always the index pair, the active bit, branch counter, loop-inactive state, covered flag
and semaphore (log 2 for a temporary or predicate bit that it reads and that was never written). -/
def Obligations.AluInstructionFrame : Prop :=
  ∀ (i : Instr) (rop : RgbOp) (aop : AlphaOp) (f : AluInst) (s : State), i.alu? = some (rop, aop, f) →
    ∀ (c : AluCase s rop aop f) (n : Nat) (l : Lane), (waited c.g f.semWait)[n]? = some l → Completes i s fun t =>
      ∃ l', laneAt t c.k n l' ∧
        (f.writeInactive = false → l.active = false ∨ l.loopOff ≠ none → l' = l) ∧
        l' = { l with temps := l'.temps, outs := l'.outs, pred := l'.pred, predSet := l'.predSet
                      wout := l'.wout, woutSet := l'.woutSet, ar := l'.ar, arSet := l'.arSet } ∧
        (∀ m ch, (wmaskBit f.rgbWmask f.alphaWmask ch = false ∨ m ≠ (if ch = .a then c.da else c.dr)) →
          l'.temp m ch = l.temp m ch) ∧
        (f.isOutput = false → l'.outs = l.outs) ∧ (f.isOutput = true → l'.pred = l.pred ∧ l'.predSet = l.predSet) ∧
        (f.wOmask = false → l'.wout = l.wout ∧ l'.woutSet = l.woutSet) ∧
        (f.aluWmask = false → l'.ar = l.ar ∧ l'.arSet = l.arSet)

/-- The temporaries: on a processor that is active and not loop-inactive, and on every one under WRITE_INACTIVE (R319), channel R, G or
B of the RGB destination, and A of the alpha destination, receive the result where the write mask and the predicate allow it: no
predication, the channel's own bit or one bit for all channels, inverted where the unit's flag says so, as the bits are before the
instruction (R318, R320, R321, R327; log 2 for a temporary or predicate bit that it reads and that was never written). -/
def Obligations.AluTemporariesWritten : Prop :=
  ∀ (i : Instr) (rop : RgbOp) (aop : AlphaOp) (f : AluInst) (s : State), i.alu? = some (rop, aop, f) →
    ∀ (c : AluCase s rop aop f) (n : Nat) (l : Lane), (waited c.g f.semWait)[n]? = some l →
      (l.active = true ∧ l.loopOff = none) ∨ f.writeInactive = true →
      let allowed : PredSel → Bool → Chan → Prop := fun sel inverted ch =>
        match sel with
        | .none => True
        | .rgba => l.pred.get ch = !inverted
        | .rrrr => l.pred.r = !inverted
        | .gggg => l.pred.g = !inverted
        | .bbbb => l.pred.b = !inverted
        | .aaaa => l.pred.a = !inverted
      Completes i s fun t => ∃ l', laneAt t c.k n l' ∧
        (∀ ch, ch ≠ .a →
          (f.rgbWmask.getLsbD ch.idx = true → allowed f.rgbPredSel f.rgbPredInv ch → l'.temp c.dr ch = (c.result n l).get ch) ∧
          (f.rgbWmask.getLsbD ch.idx = false ∨ ¬ allowed f.rgbPredSel f.rgbPredInv ch → l'.temp c.dr ch = l.temp c.dr ch)) ∧
        (f.alphaWmask = true → allowed f.alphaPredSel f.alphaPredInv .a → l'.temp c.da .a = (c.result n l).a) ∧
        (f.alphaWmask = false ∨ ¬ allowed f.alphaPredSel f.alphaPredInv .a → l'.temp c.da .a = l.temp c.da .a)

/-- The other writes: an OUTPUT instruction writes the target's masked and predicated channels (R322), an ALU instruction
its masked predicate bits, unpredicated, by the test that its target stands for: EQUAL, LESS, GREATER_EQUAL, NOT_EQUAL to zero (R326,
R327), W receives the alpha result where masked and predicated (R324), and the ALU result bit the test of the selected channel,
unpredicated (R330; log 2 for a temporary or predicate bit that the instruction reads and that was never written). -/
def Obligations.AluFlagsAndOutputsWritten : Prop :=
  let holds : CmpOp → Word → Bool := fun op w =>
    match op with
    | .equal => fEq0 w
    | .less => fLt0 w
    | .greaterEqual => fGe0 w
    | .notEqual => fNe0 w
  let test : Target → CmpOp := fun t =>
    match t with
    | .t1 => .less
    | .t2 => .greaterEqual
    | .t3 => .notEqual
    | _ => .equal
  let register : Target → Nat := fun t =>
    match t with
    | .t1 => 1
    | .t2 => 2
    | .t3 => 3
    | _ => 0
  ∀ (i : Instr) (rop : RgbOp) (aop : AlphaOp) (f : AluInst) (s : State), i.alu? = some (rop, aop, f) →
    ∀ (c : AluCase s rop aop f) (n : Nat) (l : Lane), c.acts n l → Completes i s fun t =>
      ∃ l', laneAt t c.k n l' ∧
        (∀ ch, ch ≠ .a → ∀ m, tabFind l'.outs (regKey m ch) =
          if f.isOutput = true ∧ f.rgbOmask.getLsbD ch.idx = true ∧ predEn l f.rgbPredSel f.rgbPredInv ch = true ∧
              m = register f.rgbTarget then some ((c.result n l).get ch)
          else tabFind l.outs (regKey m ch)) ∧
        (∀ m, tabFind l'.outs (regKey m .a) =
          if f.isOutput = true ∧ f.alphaOmask = true ∧ predEn l f.alphaPredSel f.alphaPredInv .a = true ∧
              m = register f.alphaTarget then some (c.result n l).a
          else tabFind l.outs (regKey m .a)) ∧
        (∀ ch, ch ≠ .a → l'.pred.get ch =
          if f.isOutput = false ∧ f.rgbOmask.getLsbD ch.idx = true then holds (test f.rgbTarget) ((c.result n l).get ch)
          else l.pred.get ch) ∧
        l'.pred.a =
          (if f.isOutput = false ∧ f.alphaOmask = true then holds (test f.alphaTarget) (c.result n l).a else l.pred.a) ∧
        l'.wout =
          (if f.wOmask = true ∧ predEn l f.alphaPredSel f.alphaPredInv .a = true then (c.result n l).a else l.wout) ∧
        l'.ar =
          if f.aluWmask = true then
            holds f.resultOp (match f.resultSel with | .red => (c.result n l).r | .alpha => (c.result n l).a)
          else l.ar

/-- MAD of either unit writes A * B + C, finished under its output modifier and clamped where its clamp flag is set (R284, R296,
R312, R314, R447, R456; log 2 for an operand or predicate bit that was never written). -/
def Obligations.MadResult : Prop :=
  ∀ (i : Instr) (f : AluInst) (s : State) (n : Nat) (l : Lane),
    (∀ (aop : AlphaOp) (c : AluCase s .mad aop f) (ch : Chan), i.alu? = some (.mad, aop, f) → c.acts n l →
      rgbWritten f l ch → Completes i s fun t => ∃ l' draw draw', laneAt t c.k n l' ∧
        l'.temp c.dr ch = clamped draw' f.rgbClamp (finish Config.fArith draw f.rgbOmod
          (mad ((c.opnds n l).rgbA.get ch) ((c.opnds n l).rgbB.get ch) ((c.opnds n l).rgbC.get ch)))) ∧
    ∀ (rop : RgbOp) (c : AluCase s rop .mad f), i.alu? = some (rop, .mad, f) → c.acts n l → alphaWritten f l →
      Completes i s fun t => ∃ l' draw draw', laneAt t c.k n l' ∧
        l'.temp c.da .a = clamped draw' f.alphaClamp (finish Config.fArith draw f.alphaOmod
          (mad (c.opnds n l).alphaA (c.opnds n l).alphaB (c.opnds n l).alphaC))

/-- MIN and MAX of either unit write the first operand where it is the smaller (greater), else the second, bit for bit under
OMOD_DISABLED and finished under any other modifier, clamped where the clamp flag is set (R285, R286, R297, R298, R313, R314, R453;
log 2 for an operand or predicate bit that was never written). -/
def Obligations.MinMaxResult : Prop :=
  ∀ (i : Instr) (f : AluInst) (s : State) (n : Nat) (l : Lane),
    (∀ (aop : AlphaOp) (c : AluCase s .min aop f) (ch : Chan), i.alu? = some (.min, aop, f) → c.acts n l →
      rgbWritten f l ch → Completes i s fun t => ∃ l' draw draw', laneAt t c.k n l' ∧
        l'.temp c.dr ch = clamped draw' f.rgbClamp (modified draw f.rgbOmod
          (if fLt ((c.opnds n l).rgbA.get ch) ((c.opnds n l).rgbB.get ch) = true then
            (c.opnds n l).rgbA.get ch else (c.opnds n l).rgbB.get ch))) ∧
    (∀ (aop : AlphaOp) (c : AluCase s .max aop f) (ch : Chan), i.alu? = some (.max, aop, f) → c.acts n l →
      rgbWritten f l ch → Completes i s fun t => ∃ l' draw draw', laneAt t c.k n l' ∧
        l'.temp c.dr ch = clamped draw' f.rgbClamp (modified draw f.rgbOmod
          (if fGt ((c.opnds n l).rgbA.get ch) ((c.opnds n l).rgbB.get ch) = true then
            (c.opnds n l).rgbA.get ch else (c.opnds n l).rgbB.get ch))) ∧
    (∀ (rop : RgbOp) (c : AluCase s rop .min f), i.alu? = some (rop, .min, f) → c.acts n l → alphaWritten f l →
      Completes i s fun t => ∃ l' draw draw', laneAt t c.k n l' ∧
        l'.temp c.da .a = clamped draw' f.alphaClamp (modified draw f.alphaOmod
          (if fLt (c.opnds n l).alphaA (c.opnds n l).alphaB = true then (c.opnds n l).alphaA else (c.opnds n l).alphaB))) ∧
    ∀ (rop : RgbOp) (c : AluCase s rop .max f), i.alu? = some (rop, .max, f) → c.acts n l → alphaWritten f l →
      Completes i s fun t => ∃ l' draw draw', laneAt t c.k n l' ∧
        l'.temp c.da .a = clamped draw' f.alphaClamp (modified draw f.alphaOmod
          (if fGt (c.opnds n l).alphaA (c.opnds n l).alphaB = true then (c.opnds n l).alphaA else (c.opnds n l).alphaB))

/-- CND and CMP of either unit write A where C > 0.5 (C >= 0), else B; with NaN in A or B and C not NaN they may also write B, under
the output modifier and the clamp flag (R287, R288, R299, R300, R313, R314, R453; the second reading is the spec's decision D36; log
2 for an operand or predicate bit that was never written). -/
def Obligations.CndCmpResult : Prop :=
  ∀ (i : Instr) (f : AluInst) (s : State) (n : Nat) (l : Lane),
    (∀ (rop : RgbOp) (aop : AlphaOp) (c : AluCase s rop aop f) (ch : Chan), rop = .cnd ∨ rop = .cmp →
      i.alu? = some (rop, aop, f) → c.acts n l → rgbWritten f l ch →
      Completes i s fun t => ∃ l' draw draw' w, laneAt t c.k n l' ∧
        l'.temp c.dr ch = clamped draw' f.rgbClamp (modified draw f.rgbOmod w) ∧
        (w = (if (if rop = .cnd then fGtHalf ((c.opnds n l).rgbC.get ch) else fGe0 ((c.opnds n l).rgbC.get ch)) = true then
            (c.opnds n l).rgbA.get ch else (c.opnds n l).rgbB.get ch) ∨
          (w = (c.opnds n l).rgbB.get ch ∧ isNaN ((c.opnds n l).rgbC.get ch) = false ∧
            (isNaN ((c.opnds n l).rgbA.get ch) = true ∨ isNaN ((c.opnds n l).rgbB.get ch) = true)))) ∧
    ∀ (rop : RgbOp) (aop : AlphaOp) (c : AluCase s rop aop f), aop = .cnd ∨ aop = .cmp →
      i.alu? = some (rop, aop, f) → c.acts n l → alphaWritten f l →
      Completes i s fun t => ∃ l' draw draw' w, laneAt t c.k n l' ∧
        l'.temp c.da .a = clamped draw' f.alphaClamp (modified draw f.alphaOmod w) ∧
        (w = (if (if aop = .cnd then fGtHalf (c.opnds n l).alphaC else fGe0 (c.opnds n l).alphaC) = true then
            (c.opnds n l).alphaA else (c.opnds n l).alphaB) ∨
          (w = (c.opnds n l).alphaB ∧ isNaN (c.opnds n l).alphaC = false ∧
            (isNaN (c.opnds n l).alphaA = true ∨ isNaN (c.opnds n l).alphaB = true)))

/-- FRC of either unit writes A - floor(A) of a finite operand, finished under its output modifier and clamped where its clamp flag is
set: for a zero or a denormal a zero of either sign, else a real number above 0 and below 1, or +0 for an integer (R289, R301, R312,
R314, R442, R452; log 2 for an operand or predicate bit that was never written). -/
def Obligations.FrcResult : Prop :=
  let frc : Word → Ext → Prop := fun a v =>
    v.number = Int.fract (floatValue a) ∧ (expField a = 0 → ∃ negative, v = .zero negative) ∧
    (expField a ≠ 0 → v = .zero false ∨ ∃ m e, v = .real m e ∧ 0 < m)
  ∀ (i : Instr) (f : AluInst) (s : State) (n : Nat) (l : Lane),
    (∀ (aop : AlphaOp) (c : AluCase s .frc aop f) (ch : Chan), i.alu? = some (.frc, aop, f) → c.acts n l →
      rgbWritten f l ch → expField ((c.opnds n l).rgbA.get ch) ≠ 255 →
      Completes i s fun t => ∃ l' draw draw' v, laneAt t c.k n l' ∧ frc ((c.opnds n l).rgbA.get ch) v ∧
        l'.temp c.dr ch = clamped draw' f.rgbClamp (finish Config.fArith draw f.rgbOmod v)) ∧
    ∀ (rop : RgbOp) (c : AluCase s rop .frc f), i.alu? = some (rop, .frc, f) → c.acts n l → alphaWritten f l →
      expField (c.opnds n l).alphaA ≠ 255 →
      Completes i s fun t => ∃ l' draw draw' v, laneAt t c.k n l' ∧ frc (c.opnds n l).alphaA v ∧
        l'.temp c.da .a = clamped draw' f.alphaClamp (finish Config.fArith draw f.alphaOmod v)

/-- DP3, DP4 and D2A write their scalar to the three RGB channels, DP4 taking its fourth products from the alpha operands, and
ALPHA_DP writes the same scalar to alpha under the alpha unit's own modifier and clamp flag (R281, R290, R291, R292, R302, R312,
R314; log 2 for an operand or predicate bit that was never written). The scalar: a NaN term or infinities of both signs give NaN,
one infinity gives itself; where two of the finite terms cancel exactly and every other one is smaller by a factor of 2^25 or more
it is +0, else the exact real sum, a sum of zero being -0 where every term is -0 and +0 else (R447, R449). -/
def Obligations.DotProductResult : Prop :=
  (∀ terms : List Ext, (∀ t ∈ terms, t.ok) →
    (.nan ∈ terms ∨ (.inf true ∈ terms ∧ .inf false ∈ terms) → dotSum terms = .nan) ∧
    (∀ x, .nan ∉ terms → .inf x ∈ terms → .inf (!x) ∉ terms → dotSum terms = .inf x) ∧
    (.nan ∉ terms → (∀ x, .inf x ∉ terms) →
      let cancels : Prop := ∃ (i j : Nat) (a b : Ext), i < j ∧ terms[i]? = some a ∧ terms[j]? = some b ∧ a.number ≠ 0 ∧
        a.number + b.number = 0 ∧
        ∀ (k : Nat) (c : Ext), k ≠ i → k ≠ j → terms[k]? = some c → |c.number| * 2 ^ 25 ≤ |a.number|
      (cancels → dotSum terms = .zero false) ∧
      (¬ cancels → (dotSum terms).number = (terms.map Ext.number).sum ∧ (dotSum terms).ok ∧ dotSum terms ≠ .nan ∧
        (∀ x, dotSum terms ≠ .inf x) ∧ ((∀ t ∈ terms, t = .zero true) → dotSum terms = .zero true) ∧
        ((∃ t ∈ terms, t ≠ .zero true) → (terms.map Ext.number).sum = 0 → dotSum terms = .zero false)))) ∧
  ∀ (i : Instr) (rop : RgbOp) (aop : AlphaOp) (f : AluInst) (s : State), i.alu? = some (rop, aop, f) →
    ∀ (c : AluCase s rop aop f) (n : Nat) (l : Lane), c.acts n l → ∀ terms : List Ext,
      (rop = .dp3 ∧ terms = [prodBits (c.opnds n l).rgbA.r (c.opnds n l).rgbB.r, prodBits (c.opnds n l).rgbA.g (c.opnds n l).rgbB.g,
          prodBits (c.opnds n l).rgbA.b (c.opnds n l).rgbB.b]) ∨
      (rop = .dp4 ∧ terms = [prodBits (c.opnds n l).rgbA.r (c.opnds n l).rgbB.r, prodBits (c.opnds n l).rgbA.g (c.opnds n l).rgbB.g,
          prodBits (c.opnds n l).rgbA.b (c.opnds n l).rgbB.b, prodBits (c.opnds n l).alphaA (c.opnds n l).alphaB]) ∨
      (rop = .d2a ∧ terms = [prodBits (c.opnds n l).rgbA.r (c.opnds n l).rgbB.r, prodBits (c.opnds n l).rgbA.g (c.opnds n l).rgbB.g,
          Ext.ofBits (c.opnds n l).rgbC.b]) →
      (∀ ch, rgbWritten f l ch → Completes i s fun t => ∃ l' draw draw', laneAt t c.k n l' ∧
        l'.temp c.dr ch = clamped draw' f.rgbClamp (finish Config.fArith draw f.rgbOmod (dotSum terms))) ∧
      (aop = .dp → alphaWritten f l → Completes i s fun t => ∃ l' draw draw', laneAt t c.k n l' ∧
        l'.temp c.da .a = clamped draw' f.alphaClamp (finish Config.fArith draw f.alphaOmod (dotSum terms)))

/-- EX2, LN2, RCP, RSQ, SIN and COS write one 32-bit result w to alpha under the alpha unit's modifier and clamp flag, and with
RGB_SOP the same result to the three RGB channels under the RGB unit's own (R293, R303 to R308, R314; log 2 for an operand or
predicate bit that was never written). For the special operands w is that of the table; EX2 of a number from 128 on is +Inf and
below -126 +0, between them a finite normal number; RCP of a number beyond 2^126 is a zero of its sign, of every other non-zero number, like
RSQ of every positive one, a finite normal number (R460); for every finite operand, a negative one of LN2 and RSQ apart, w is neither a
NaN nor a denormal (R454, R455; log 13). -/
def Obligations.TranscendentalResult : Prop :=
  ∀ (i : Instr) (rop : RgbOp) (aop : AlphaOp) (f : AluInst) (s : State), i.alu? = some (rop, aop, f) →
    aop.transcendental = true → ∀ (c : AluCase s rop aop f) (n : Nat) (l : Lane), c.acts n l → ∃ w : Word,
      (∀ v, transTable aop (Ext.ofBits (c.opnds n l).alphaA) = some v → w = v) ∧
      (expField (c.opnds n l).alphaA ≠ 255 →
        (aop = .ex2 → 128 ≤ floatValue (c.opnds n l).alphaA → w = 0x7F800000#32) ∧
        (aop = .ex2 → floatValue (c.opnds n l).alphaA < -126 → w = 0#32) ∧
        (aop = .ex2 → -126 ≤ floatValue (c.opnds n l).alphaA → floatValue (c.opnds n l).alphaA < 128 →
          expField w ≠ 0 ∧ expField w ≠ 255) ∧
        ((aop = .rcp ∧ floatValue (c.opnds n l).alphaA ≠ 0 ∧ |floatValue (c.opnds n l).alphaA| ≤ 2 ^ 126) ∨
            (aop = .rsq ∧ 0 < floatValue (c.opnds n l).alphaA) →
          expField w ≠ 0 ∧ expField w ≠ 255) ∧
        (aop = .rcp → 2 ^ 126 < |floatValue (c.opnds n l).alphaA| →
          w = if (c.opnds n l).alphaA.getLsbD 31 = true then 0x80000000#32 else 0#32) ∧
        ((aop = .ln2 ∨ aop = .rsq → 0 ≤ floatValue (c.opnds n l).alphaA) →
          isNaN w = false ∧ (expField w = 0 → manField w = 0))) ∧
      (alphaWritten f l → Completes i s fun t => ∃ l' draw draw', laneAt t c.k n l' ∧
        l'.temp c.da .a = clamped draw' f.alphaClamp (finish Config.fArith draw f.alphaOmod (Ext.ofBits w))) ∧
      (rop = .sop → ∀ ch, rgbWritten f l ch → Completes i s fun t => ∃ l' draw draw', laneAt t c.k n l' ∧
        l'.temp c.dr ch = clamped draw' f.rgbClamp (finish Config.fArith draw f.rgbOmod (Ext.ofBits w)))

/-- A MOV: MIN, MAX, CND or CMP with OMOD_DISABLED and the same source as A and B copies it bit for bit, a NaN payload or a
denormal included, whatever the third operand is (R313, R316, R458; log 2 for a source or predicate bit that was never
written). -/
def Obligations.MovIsBitExact : Prop :=
  ∀ (i : Instr) (rop : RgbOp) (aop : AlphaOp) (f : AluInst) (s : State), i.alu? = some (rop, aop, f) →
    ∀ (c : AluCase s rop aop f) (n : Nat) (l : Lane), c.acts n l →
      (rop.selects = true → f.rgbOmod = .disabled → f.rgbA = f.rgbB → ∀ ch, rgbWritten f l ch →
        Completes i s fun t => ∃ l', laneAt t c.k n l' ∧ l'.temp c.dr ch = (c.opnds n l).rgbA.get ch) ∧
      (aop.selects = true → f.alphaOmod = .disabled → f.alphaA = f.alphaB → alphaWritten f l →
        Completes i s fun t => ∃ l', laneAt t c.k n l' ∧ l'.temp c.da .a = (c.opnds n l).alphaA)

/-- Where operands come from. A source address names an inline constant, a float constant or a temporary, aL added where it asks for
it (R151, R272; log 4 for the split of an inline constant, log 2 for a temporary that was never written). src0, src1 and src2 take R, G
and B from the RGB address and A from the alpha address (R275); srcp is the presubtract of source 0 and 1 of each unit, finished (R276,
R448). Each component of an operand of either unit swizzles one of the four, or 0, 0.5 or 1 (R278, R279), and the input modifier acts
on the sign bit alone (R280). -/
def Obligations.OperandsComeFromSources : Prop :=
  ∀ (s : State) (rop : RgbOp) (aop : AlphaOp) (f : AluInst) (c : AluCase s rop aop f) (n : Nat) (l : Lane),
    (∀ (p : Port) (a : SrcAddr), (aluAddrs f).get p = a →
      (a.const = false → a.addr.getLsbD 7 = true → ∃ w, c.pl.get p = .inline w ∧
        let e := a.addr.toNat % 128 / 8
        let m := a.addr.toNat % 8
        floatValue w = if a.addr.toNat % 128 = 0 then 1 / 2 ^ 10 else if e = 0 then (m : ℚ) / 8 / 2 ^ 6
          else (1 + (m : ℚ) / 8) * 2 ^ ((e : Int) - 7)) ∧
      (a.const = false → a.addr.getLsbD 7 = false →
        ∃ k, c.pl.get p = .temp k ∧ c.g.relative a.addr.toNat a.rel = .ok k) ∧
      (a.const = true → ∃ k, c.pl.get p = .const k ∧ c.g.relative a.addr.toNat a.rel = .ok k)) ∧
    ∃ (v : Port → Chan → Word) (sp : Quad Word), (∀ p, portHolds s c.g.env l (c.pl.get p) (v p)) ∧
      (∀ ch, ch ≠ .a → ∃ draw,
        sp.get ch = finish Config.fArith draw .u1 (presubValue f.rgbAddr.srcp (v .rgb0 ch) (v .rgb1 ch))) ∧
      (∃ draw, sp.a = finish Config.fArith draw .u1 (presubValue f.alphaAddr.srcp (v .alpha0 .a) (v .alpha1 .a))) ∧
      let vector : SrcSel → Chan → Word := fun sel ch =>
        match sel with
        | .src0 => if ch = .a then v .alpha0 .a else v .rgb0 ch
        | .src1 => if ch = .a then v .alpha1 .a else v .rgb1 ch
        | .src2 => if ch = .a then v .alpha2 .a else v .rgb2 ch
        | .srcp => sp.get ch
      let read : SrcSel → Swz → Word := fun sel z =>
        match z with
        | .r => vector sel .r
        | .g => vector sel .g
        | .b => vector sel .b
        | .a => vector sel .a
        | .zero => 0#32
        | .half => 0x3F000000#32
        | .one => 0x3F800000#32
      let sign : IMod → Word → Word := fun m w =>
        match m with
        | .off => w
        | .neg => BitVec.ofBool (!w.getLsbD 31) ++ w.extractLsb' 0 31
        | .abs => 0#1 ++ w.extractLsb' 0 31
        | .nab => 1#1 ++ w.extractLsb' 0 31
      let rgb : RgbOperand → Vec3 := fun o =>
        ⟨sign o.mod (read o.sel o.red), sign o.mod (read o.sel o.green), sign o.mod (read o.sel o.blue)⟩
      let alpha : AlphaOperand → Word := fun o => sign o.mod (read o.sel o.swz)
      c.opnds n l =
        { rgbA := rgb f.rgbA, rgbB := rgb f.rgbB, rgbC := rgb f.rgbC
          alphaA := alpha f.alphaA, alphaB := alpha f.alphaB, alphaC := alpha f.alphaC }

/-- The combinations the manual calls invalid stop with InvalidEncoding: RGB_SOP without a transcendental (R293), ALPHA_DP
without a dot product (R302), OMOD_DISABLED with another operation than MIN, MAX, CND, CMP or with the unit's clamp (R313). With none of
them, an OUTPUT to a UMRT target is refused (R323), an ALU instruction with a target code that only such an output has stops with
InvalidEncoding (log 30), and LAST away from the end address is refused (R335; log 31). That all this is looked at before the semaphore
wait, so that it comes before every other fault, is the model's choice (log 45). Past these checks and the wait the first of the six sources
that adds aL to an inline constant stops the instruction with InvalidEncoding, the sources before it being fetched (R150, R272; log 22 for
their order). -/
def Obligations.InvalidAluFieldsFault : Prop :=
  (∀ (i : Instr) (rop : RgbOp) (aop : AlphaOp) (f : AluInst) (s : State) (k : Nat) (g : Group),
    i.alu? = some (rop, aop, f) → s.turn = .group k → s.groups[k]? = some g → g.halted = false →
    let invalid : Prop :=
      (rop = .sop ∧ aop.transcendental = false) ∨ (aop = .dp ∧ rop.dot = false) ∨
      (f.rgbOmod = .disabled ∧ (rop.selects = false ∨ f.rgbClamp = true)) ∨
      (f.alphaOmod = .disabled ∧ (aop.selects = false ∨ f.alphaClamp = true))
    (invalid → exec i s = .fault .invalidEncoding) ∧
    (¬ invalid → f.isOutput = true → f.rgbTarget.encodable = false ∨ f.alphaTarget.encodable = false →
      exec i s = .refused .umrtUnsupported) ∧
    (¬ invalid → f.isOutput = false → f.rgbTarget.encodable = false ∨ f.alphaTarget.encodable = false →
      exec i s = .fault .invalidEncoding) ∧
    (¬ invalid → f.rgbTarget.encodable = true → f.alphaTarget.encodable = true → f.last = true → g.atEnd = false →
      exec i s = .refused .lastUnsupported)) ∧
  ∀ (i : Instr) (rop : RgbOp) (aop : AlphaOp) (f : AluInst) (s : State), i.alu? = some (rop, aop, f) →
    ∀ (c : AluFields s rop aop f) (q : Port), c.reaches q →
      let a := (aluAddrs f).get q
      a.addr.getLsbD 7 = true → a.const = false → a.rel = true → exec i s = .fault .invalidEncoding

/-- The hazards, in the order of R271. A wait for a held semaphore directly after a flow-control instruction that did not wait stops the
instruction with SemErratum (R594). The first source of which an enabled processor reads a channel that a lookup has yet to write,
directly or through the presubtract, stops it with TexHazard (R276, R366); each operation reads the components of its operands that the
spec gives it, DP4 the alpha operands A and B as well, D2A two components of A and B and one of C, SOP and ALPHA_DP none of their own
(R272, R281, R292). With all sources fetched, a used presubtract of
either unit, with a source that the previous instruction, without NOP, names as a destination, stops it with NopHazard: source 0, and
source 1 where the presubtract is src1 - src0 or src1 + src0 (R276, R590; log 37 for when a presubtract is used). With its destinations
in range as well, an enabled processor that writes a channel that a lookup has yet to write stops it with TexHazard (R366; log 22). -/
def Obligations.AluHazardFaults : Prop :=
  ∀ (i : Instr) (rop : RgbOp) (aop : AlphaOp) (f : AluInst) (s : State), i.alu? = some (rop, aop, f) →
    let acting : Lane → Prop := fun l => (l.active = true ∧ l.loopOff = none) ∨ f.writeInactive = true
    let vector : RgbOperand → List (SrcSel × Swz) := fun o => [(o.sel, o.red), (o.sel, o.green), (o.sel, o.blue)]
    let scalar : AlphaOperand → SrcSel × Swz := fun o => (o.sel, o.swz)
    let components : List (SrcSel × Swz) :=
      (match rop with
        | .mad | .cnd | .cmp => vector f.rgbA ++ vector f.rgbB ++ vector f.rgbC
        | .min | .max | .dp3 => vector f.rgbA ++ vector f.rgbB
        | .frc => vector f.rgbA
        | .dp4 => vector f.rgbA ++ vector f.rgbB ++ [scalar f.alphaA, scalar f.alphaB]
        | .d2a => [(f.rgbA.sel, f.rgbA.red), (f.rgbA.sel, f.rgbA.green), (f.rgbB.sel, f.rgbB.red), (f.rgbB.sel, f.rgbB.green),
            (f.rgbC.sel, f.rgbC.blue)]
        | .sop => []) ++
      match aop with
      | .mad | .cnd | .cmp => [scalar f.alphaA, scalar f.alphaB, scalar f.alphaC]
      | .min | .max => [scalar f.alphaA, scalar f.alphaB]
      | .frc | .ex2 | .ln2 | .rcp | .rsq | .sin | .cos => [scalar f.alphaA]
      | .dp => []
    let swizzle : Chan → Swz := fun ch =>
      match ch with
      | .r => .r
      | .g => .g
      | .b => .b
      | .a => .a
    let reads : Port → Chan → Prop := fun q ch =>
      (∃ sel, (sel, swizzle ch) ∈ components ∧
        ((sel = .src0 ∧ q = if ch = .a then .alpha0 else .rgb0) ∨ (sel = .src1 ∧ q = if ch = .a then .alpha1 else .rgb1) ∨
          (sel = .src2 ∧ q = if ch = .a then .alpha2 else .rgb2))) ∨
      (ch ≠ .a ∧ (∃ ch', ch' ≠ .a ∧ (.srcp, swizzle ch') ∈ components) ∧
        (q = .rgb0 ∨ (q = .rgb1 ∧ (f.rgbAddr.srcp = .sub ∨ f.rgbAddr.srcp = .add)))) ∨
      (ch = .a ∧ (.srcp, .a) ∈ components ∧
        (q = .alpha0 ∨ (q = .alpha1 ∧ (f.alphaAddr.srcp = .sub ∨ f.alphaAddr.srcp = .add))))
    (∀ c : AluChecked s rop aop f, f.semWait = true → c.g.prev = .fc false → (∃ l ∈ c.g.lanes, l.semHeld = true) →
      exec i s = .fault .semErratum) ∧
    (∀ (c : AluFields s rop aop f) (q : Port) (m : Nat) (ch : Chan), c.reaches q →
      resolvePlace c.g ((aluAddrs f).get q) = .ok (.temp m) → reads q ch →
      (∃ l ∈ waited c.g f.semWait, acting l ∧ regKey m ch ∈ l.texPending) → exec i s = .fault .texHazard) ∧
    (∀ (c : AluFetched s rop aop f) (dsts : List Nat) (m : Nat), c.g.prev = .alu false dsts →
      (∀ ch ch' : Chan,
        c.pl.rgb0 = .temp m ∨ (c.pl.rgb1 = .temp m ∧ (f.rgbAddr.srcp = .sub ∨ f.rgbAddr.srcp = .add)) →
        ch' ≠ .a → (.srcp, swizzle ch') ∈ components → ch ≠ .a → regKey m ch ∈ dsts →
        exec i s = .fault .nopHazard) ∧
      (c.pl.alpha0 = .temp m ∨ (c.pl.alpha1 = .temp m ∧ (f.alphaAddr.srcp = .sub ∨ f.alphaAddr.srcp = .add)) →
        (.srcp, .a) ∈ components → regKey m .a ∈ dsts → exec i s = .fault .nopHazard)) ∧
    ∀ c : AluPlaced s rop aop f, ∀ l ∈ waited c.g f.semWait, acting l →
      (∃ ch, ch ≠ .a ∧ f.rgbWmask.getLsbD ch.idx = true ∧ predEn l f.rgbPredSel f.rgbPredInv ch = true ∧
        regKey c.dr ch ∈ l.texPending) ∨
      (f.alphaWmask = true ∧ predEn l f.alphaPredSel f.alphaPredInv .a = true ∧ regKey c.da .a ∈ l.texPending) →
      exec i s = .fault .texHazard

/-- At the end address an ALU instruction, or an OUTPUT without TEX_SEM_WAIT, stops with BadLastInstruction (R334, R596), and so
does a texture or flow-control instruction (R350, R382): each once its own steps are done and nothing was wrong in them (R334, R541). -/
def Obligations.BadLastInstructionFaults : Prop :=
  (∀ (i : Instr) (rop : RgbOp) (aop : AlphaOp) (f : AluInst) (s : State), i.alu? = some (rop, aop, f) →
    ∀ c : AluReady s rop aop f, c.g.atEnd = true → f.isOutput = false ∨ f.semWait = false →
      exec i s = .fault .badLastInstruction) ∧
  (∀ (i : Instr) (op : TexOp) (f : TexInst) (s : State), i.tex? = some (op, f) → ∀ c : TexReady s op f,
    (f.semAcquire = true → f.semWait = true) → c.g.atEnd = true → exec i s = .fault .badLastInstruction) ∧
  ∀ (i : Instr) (op : FcOp) (f : FcInst) (s : State), i.fc? = some (op, f) → ∀ (c : FcPlaced s f) (jump : Bool),
    c.decided op (jump = true) → c.room (jump = true) → c.g.atEnd = true → exec i s = .fault .badLastInstruction

/-- The loop variable that relative addressing adds is that of the topmost frame of kind LOOP, and without such a frame there
is none: ALInvalid (R409). -/
def Obligations.LoopVariableIsInnermostLoop : Prop :=
  ∀ g : Group,
    (∀ (inner outer : List Frame) (fr : Frame), g.loopStack = inner ++ fr :: outer → (∀ x ∈ inner, x.kind = .rep) →
      fr.kind = .loop → g.aL = some fr.aL ∧ ∀ n : Nat, g.relative n true = .ok (n + fr.aL)) ∧
    ((∀ x ∈ g.loopStack, x.kind = .rep) → g.aL = none ∧ ∀ n : Nat, g.relative n true = .error (.fault .alInvalid))

/-- The number of a temporary is in range up to 127 and up to US_PIXSIZE, that of a float constant up to 255, after aL is
added (R272). An ALU or OUTPUT instruction stops at the first source whose number lies outside its range with RegisterRange, and at one
that asks for aL outside any LOOP block with ALInvalid, the sources before it being fetched; with its sources fetched and no presubtract
in the way, so does a destination, RGB before alpha (R59, R272, R321). A texture instruction, past its waits, does so for the source of a
lookup or kill, then for the destination of a lookup (R351, R358; log 43 for that of a kill). -/
def Obligations.RegisterNumbersChecked : Prop :=
  (∀ (g : Group) (n : Nat) (rel : Bool) (x : Int), g.relative n rel = .ok x →
    (0 ≤ x ∧ x ≤ 127 ∧ x ≤ g.env.prog.usPixsize.toNat → g.tempIndex n rel = .ok x.toNat) ∧
    (x < 0 ∨ 127 < x ∨ (g.env.prog.usPixsize.toNat : Int) < x → g.tempIndex n rel = .error (.fault .registerRange)) ∧
    (0 ≤ x ∧ x ≤ 255 → g.constIndex n rel = .ok x.toNat) ∧
    (x < 0 ∨ 255 < x → g.constIndex n rel = .error (.fault .registerRange))) ∧
  let badTemp : Group → Nat → Bool → Prop := fun g n rel =>
    ∃ x, g.relative n rel = .ok x ∧ (x < 0 ∨ 127 < x ∨ (g.env.prog.usPixsize.toNat : Int) < x)
  (∀ (i : Instr) (rop : RgbOp) (aop : AlphaOp) (f : AluInst) (s : State), i.alu? = some (rop, aop, f) →
    (∀ (c : AluFields s rop aop f) (q : Port), c.reaches q →
      let a := (aluAddrs f).get q
      let constant : Prop := a.const = true
      let temporary : Prop := a.const = false ∧ a.addr.getLsbD 7 = false
      ((constant ∧ ∃ x, c.g.relative a.addr.toNat a.rel = .ok x ∧ (x < 0 ∨ 255 < x)) ∨
          (temporary ∧ badTemp c.g a.addr.toNat a.rel) →
        exec i s = .fault .registerRange) ∧
      (constant ∨ temporary → a.rel = true → c.g.aL = none → exec i s = .fault .alInvalid)) ∧
    ∀ c : AluFetched s rop aop f, nopHazard c.g rop aop f c.src = false →
      (badTemp c.g f.rgbDst.toNat f.rgbDstRel → exec i s = .fault .registerRange) ∧
      (f.rgbDstRel = true → c.g.aL = none → exec i s = .fault .alInvalid) ∧
      ∀ dr, c.g.tempIndex f.rgbDst.toNat f.rgbDstRel = .ok dr →
        (badTemp c.g f.alphaDst.toNat f.alphaDstRel → exec i s = .fault .registerRange) ∧
        (f.alphaDstRel = true → c.g.aL = none → exec i s = .fault .alInvalid)) ∧
  ∀ (s : State) (k : Nat) (g : Group), s.turn = .group k → s.groups[k]? = some g → g.halted = false →
    ∀ (i : Instr) (op : TexOp) (f : TexInst), i.tex? = some (op, f) → op ≠ .nop →
      f.aluWait = true ∨ (∀ u ∈ texUses op f (texNamed g f), u ∉ g.aluPending) → (f.semWait = true → g.erratum = false) →
      (badTemp g f.srcAddr.toNat f.srcRel → exec i s = .fault .registerRange) ∧
      (f.srcRel = true → g.aL = none → exec i s = .fault .alInvalid) ∧
      ∀ src, op ≠ .killLt0 → g.tempIndex f.srcAddr.toNat f.srcRel = .ok src →
        (badTemp g f.dstAddr.toNat f.dstRel → exec i s = .fault .registerRange) ∧
        (f.dstRel = true → g.aL = none → exec i s = .fault .alInvalid)

/-! ## Texture instructions -/

/-- TEX_INST_NOP completes, reads and writes no register and no memory, and makes only its waits: ALU_WAIT empties the pending
results, TEX_SEM_WAIT frees a held semaphore and ends the lookups it covers, TEX_SEM_ACQUIRE then takes it for every lookup
pending (R350, R358, R367, R368, R588; log 38 for what a NOP without ALU_WAIT uses of the pending results). -/
def Obligations.TexNopOnlySynchronises : Prop :=
  ∀ (f : TexInst) (s : State) (c : TexCase s .nop f), Completes (.texNop f) s fun t =>
    t = { s with groups := t.groups, draws := t.draws } ∧ othersKept s t c.k ∧
    ∃ g, t.groups[c.k]? = some g ∧ g.lanes.length = c.g.lanes.length ∧
      g = { c.g with lanes := g.lanes, pc := c.g.pc + 1, prev := .tex, started := true
                     aluPending := if f.aluWait = true then [] else c.g.aluPending } ∧
      ∀ (n : Nat) (l : Lane), c.g.lanes[n]? = some l →
        let l1 := if f.semWait = true ∧ l.semHeld = true then
            { l with texPending := l.texPending.filter fun x => !l.semCover.contains x, semHeld := false, semCover := [] }
          else l
        g.lanes[n]? = some (if f.semAcquire = true then { l1 with semHeld := true, semCover := l1.texPending } else l1)

/-- LOOKUP, LOOKUP_PROJ and LOOKUP_UNCACHED complete. A processor takes part that is active and not loop-inactive, or any one under
WRITE_INACTIVE, and under IGNORE_UNCOVERED only a covered one (R319, R355). It reads one element of the input at the index pair that
TexIndex gives for its coordinates, each the channel of the source that its swizzle selects (R352, R357). Each masked and predicated
channel of its destination receives the channel of the element that the destination swizzle selects, a NaN as some NaN, a denormal as a
zero of its sign (R353, R363; log 29), and is noted as pending (R366); every other register is unchanged, as is a processor that takes no
part and main memory (R361). The element is what the input cache holds of its bytes, and memory where the cache
holds none; the cache takes in nothing but bytes of memory (R91, R94, R95). The uncached lookup reads memory itself and leaves the
cache as it is (R362). Log 2 for a coordinate that was never written. -/
def Obligations.TexLookupCompletes : Prop :=
  ∀ (i : Instr) (op : TexOp) (f : TexInst) (s : State), i.tex? = some (op, f) →
    op = .lookup ∨ op = .lookupProj ∨ op = .lookupUncached → ∀ c : TexCase s op f, Completes i s fun t =>
      t = { s with mem.inp := t.mem.inp, groups := t.groups, draws := t.draws } ∧ sameRam s t ∧ othersKept s t c.k ∧
      s.mem.inp.filled t.mem.inp s.mem.ram ∧ (op = .lookupUncached → t.mem = s.mem) ∧
      ∃ g, t.groups[c.k]? = some g ∧ g.lanes.length = c.g.lanes.length ∧
        g = { c.g with lanes := g.lanes, pc := c.g.pc + 1, prev := .tex, started := true
                       aluPending := if f.aluWait = true then [] else c.g.aluPending } ∧
        ∀ (n : Nat) (l : Lane), (waited c.g f.semWait)[n]? = some l → ∃ l', g.lanes[n]? = some l' ∧
          l' = { l with temps := l'.temps, texPending := l'.texPending, semHeld := l'.semHeld, semCover := l'.semCover } ∧
          (if f.semAcquire = true then l'.semHeld = true ∧ l'.semCover = l'.texPending
            else l'.semHeld = l.semHeld ∧ l'.semCover = l.semCover) ∧
          let takesPart : Prop := ((l.active = true ∧ l.loopOff = none) ∨ f.writeInactive = true) ∧
            (f.ignoreUncovered = true → l.covered = true)
          let written : Chan → Prop := fun ch =>
            if ch = .a then f.alphaWmask = true ∧ predEn l f.alphaPredSel f.alphaPredInv .a = true
            else f.rgbWmask.getLsbD ch.idx = true ∧ predEn l f.rgbPredSel f.rgbPredInv ch = true
          (¬ takesPart → l'.temps = l.temps ∧ l'.texPending = l.texPending) ∧
          (∀ m ch, m ≠ c.dst ∨ ¬ written ch → l'.temp m ch = l.temp m ch) ∧
          (takesPart → ∃ (draw : Nat) (q res : Quad Word),
            let coordinate : Chan → Word := fun ch => conditionCoord (l.temp c.src ch)
            let d := c.g.env.descs.inp.get ⟨f.texId.toNat, f.texId.isLt⟩
            let xy := texIndex d f.unscaled (decide (op = .lookupProj))
              ⟨coordinate f.swzS, coordinate f.swzT, coordinate f.swzR, coordinate f.swzQ⟩
            inputHolds d (if op = .lookupUncached then s.mem.ram.get else seen s.mem.inp s.mem.ram) xy.1 xy.2 draw q ∧
            (∀ ch, (isNaN (q.get ch) = true → isNaN (res.get ch) = true) ∧
              (expField (q.get ch) = 0 → res.get ch = q.get ch &&& 0x80000000#32) ∧
              (isNaN (q.get ch) = false → expField (q.get ch) ≠ 0 → res.get ch = q.get ch)) ∧
            (written .r → l'.temp c.dst .r = res.get f.dswzR) ∧ (written .g → l'.temp c.dst .g = res.get f.dswzG) ∧
            (written .b → l'.temp c.dst .b = res.get f.dswzB) ∧ (written .a → l'.temp c.dst .a = res.get f.dswzA) ∧
            ∀ x, x ∈ l'.texPending ↔ x ∈ l.texPending ∨ ∃ ch, written ch ∧ x = regKey c.dst ch)

/-- TEX_INST_KILL_LT_0 completes and clears the covered flag of each processor that takes part and has an examined channel
below zero, ignoring the source swizzles; the flag is never set again, and no register and no memory changes (R360; log 2 for an
examined channel or a predicate bit that was never written, log 43 for its destination address). With TEX_SEM_ACQUIRE every processor
then holds the semaphore for every lookup pending, without it the semaphore stays as the wait has left it (R350, R367, R368). -/
def Obligations.TexKillUncovers : Prop :=
  ∀ (f : TexInst) (s : State) (c : TexCase s .killLt0 f), Completes (.texKillLt0 f) s fun t =>
    t = { s with groups := t.groups, draws := t.draws } ∧ othersKept s t c.k ∧
    ∃ g, t.groups[c.k]? = some g ∧ g.lanes.length = c.g.lanes.length ∧
      g = { c.g with lanes := g.lanes, pc := c.g.pc + 1, prev := .tex, started := true
                     aluPending := if f.aluWait = true then [] else c.g.aluPending } ∧
      ∀ (n : Nat) (l : Lane), (waited c.g f.semWait)[n]? = some l → ∃ l', g.lanes[n]? = some l' ∧
        l' = { l with covered := l'.covered, semHeld := l'.semHeld, semCover := l'.semCover } ∧
        (if f.semAcquire = true then l'.semHeld = true ∧ l'.semCover = l'.texPending
          else l'.semHeld = l.semHeld ∧ l'.semCover = l.semCover) ∧
        (l'.covered = true ↔ l.covered = true ∧ ¬ (texTakesPart f l = true ∧
          ((∃ ch, ch ≠ .a ∧ f.rgbWmask.getLsbD ch.idx = true ∧ predEn l f.rgbPredSel f.rgbPredInv ch = true ∧
              fLt0 (l.temp c.src ch) = true) ∨
           (f.alphaWmask = true ∧ predEn l f.alphaPredSel f.alphaPredInv .a = true ∧ fLt0 (l.temp c.src .a) = true))))

/-- A texture or flow-control instruction stops with AluHazard when it uses a pending result without ALU_WAIT (R588). A texture
instruction uses the channels of its source register that its four swizzles select and the predicate bits that its two selects select; that
this holds of every operation, a NOP included, and that a kill uses the channels of its mask as well, is the model's reading (log 38). A
flow-control instruction uses the predicate bits that it selects and the ALU result, each where JUMP_FUNC depends on it (R386, R388, R389).
Then it stops with SemErratum when it waits for a held semaphore directly after a flow-control instruction that did not (R594). Past these
waits and with its registers in range a texture instruction stops with TexHazard where a processor that takes part reads a channel that a
lookup has yet to write and, once its lookups are answered, where one writes such a channel (R366; log 22), and after that with
InvalidEncoding where it acquires the semaphore without waiting (R369; log 45). A lookup without such a read that some processor takes
part in stops with ReservedFormat under a format 5 to 7 (R88), with SuperfineMultiChannel where a superfine input has more than one
channel (R91), and, where no address is unmapped, with IndexRange at an index past 4095 or a row at or past the height, the neighbours of
a superfine element included (R84, R91, R92). A flow-control instruction whose predicate select is per channel stops with InvalidEncoding
once its boolean is read (R386; log 45). -/
def Obligations.TexAndFcHazardsFault : Prop :=
  let replicates : PredSel → Chan → Prop := fun sel ch =>
    (sel = .rrrr ∧ ch = .r) ∨ (sel = .gggg ∧ ch = .g) ∨ (sel = .bbbb ∧ ch = .b) ∨ (sel = .aaaa ∧ ch = .a)
  (∀ (i : Instr) (op : TexOp) (f : TexInst) (s : State), i.tex? = some (op, f) → ∀ _c : TexReady s op f,
    f.semAcquire = true → f.semWait = false → exec i s = .fault .invalidEncoding) ∧
  (∀ (i : Instr) (op : FcOp) (f : FcInst) (s : State), i.fc? = some (op, f) → ∀ c : FcFields s f,
    (∃ r, fcBoolean s.platform c.g.env.descs.constb f s.mem = .ok r) → f.predSel = .rgba → exec i s = .fault .invalidEncoding) ∧
  ∀ (s : State) (k : Nat) (g : Group), s.turn = .group k → s.groups[k]? = some g → g.halted = false →
    (∀ (i : Instr) (op : TexOp) (f : TexInst), i.tex? = some (op, f) →
      let uses : AluItem → Prop := fun u =>
        (∃ (m : Nat) (ch : Chan), u = .temp (regKey m ch) ∧ g.relative f.srcAddr.toNat f.srcRel = .ok m ∧
          (ch = f.swzS ∨ ch = f.swzT ∨ ch = f.swzR ∨ ch = f.swzQ ∨
            (op = .killLt0 ∧ ((ch ≠ .a ∧ f.rgbWmask.getLsbD ch.idx = true) ∨ (ch = .a ∧ f.alphaWmask = true))))) ∨
        ∃ ch : Chan, u = .pred ch ∧ ((ch ≠ .a ∧ f.rgbPredSel = .rgba) ∨ replicates f.rgbPredSel ch ∨
          (ch = .a ∧ f.alphaPredSel = .rgba) ∨ replicates f.alphaPredSel ch)
      (f.aluWait = false → ∀ u, uses u → u ∈ g.aluPending → exec i s = .fault .aluHazard) ∧
      (f.aluWait = true ∨ (∀ u, uses u → u ∉ g.aluPending) →
        (f.semWait = true → g.prev = .fc false → ∀ l ∈ g.lanes, l.semHeld = true → exec i s = .fault .semErratum) ∧
        ((f.semWait = true → g.erratum = false) → ∀ src dst, texPlaces g op f = .ok (src, dst) →
          let lookup : Prop := op = .lookup ∨ op = .lookupProj ∨ op = .lookupUncached
          let reads : Lane → Prop := fun l => texTakesPart f l = true ∧ ∃ ch, regKey src ch ∈ l.texPending ∧
            ((op = .killLt0 ∧ texEnable f l ch = true) ∨
              (lookup ∧ (ch = f.swzS ∨ ch = f.swzT ∨ (op = .lookupProj ∧ ch = f.swzQ))))
          let writes : Lane → Prop := fun l => texTakesPart f l = true ∧ ∃ ch, texEnable f l ch = true ∧ regKey dst ch ∈ l.texPending
          let d := g.env.descs.inp.get ⟨f.texId.toNat, f.texId.isLt⟩
          let superfine : Prop := d.desc.tiling = .linear2x2 ∨ d.desc.tiling = .tiled2x2
          let channels : Prop := d.desc.format = 1#3 ∨ d.desc.format = 3#3 ∨ d.desc.format = 4#3
          let outside : Lane → Prop := fun l =>
            let xy := texIndex d f.unscaled (decide (op = .lookupProj)) (texCoord f src l)
            4096 ≤ xy.1 ∨ 4096 ≤ xy.2 ∨ d.height.toNat ≤ xy.2 ∨
              (superfine ∧ (4096 ≤ xy.1 + 1 ∨ 4096 ≤ xy.2 + 1 ∨ d.height.toNat ≤ xy.2 + 1))
          ((∃ l ∈ waited g f.semWait, reads l) → exec i s = .fault .texHazard) ∧
          (lookup → (∀ l ∈ waited g f.semWait, ¬ reads l) →
            (∀ r, texLanes s.platform s.draws d op f src dst (waited g f.semWait) s.mem = .ok r →
              (∃ l ∈ waited g f.semWait, writes l) → exec i s = .fault .texHazard) ∧
            ∀ l ∈ waited g f.semWait, texTakesPart f l = true →
              (5 ≤ d.desc.format.toNat → exec i s = .fault .reservedFormat) ∧
              (superfine → channels → exec i s = .fault .superfineMultiChannel) ∧
              (d.desc.format.toNat < 5 → ¬ (superfine ∧ channels) → (∀ a < 2 ^ 32, s.platform.mapped a = true) → outside l →
                exec i s = .fault .indexRange))))) ∧
    ∀ (i : Instr) (op : FcOp) (f : FcInst), i.fc? = some (op, f) →
      let depends : Nat → Prop := fun bit => ∃ n < 8, f.jumpFunc.getLsbD n ≠ f.jumpFunc.getLsbD (n ^^^ 2 ^ bit)
      let uses : AluItem → Prop := fun u =>
        (depends 1 ∧ ∃ ch : Chan, u = .pred ch ∧ ((ch ≠ .a ∧ f.predSel = .rgba) ∨ replicates f.predSel ch)) ∨ (depends 2 ∧ u = .ar)
      (f.aluWait = false → ∀ u, uses u → u ∈ g.aluPending → exec i s = .fault .aluHazard) ∧
      (f.aluWait = true ∨ (∀ u, uses u → u ∉ g.aluPending) → f.semWait = true → g.prev = .fc false →
        ∀ l ∈ g.lanes, l.semHeld = true → exec i s = .fault .semErratum)

/-- TexIndex where the spec pins it: UNSCALED coordinates that are integers from 0 to 4095 are the index pair, projection by
q = 1 changes nothing, and a NaN coordinate counts as +Inf, a denormal as a zero of its sign (R357, R363). The integers include the
coordinate -0, and a negative denormal, as 0: that is log 15's reading (DEDUCED). -/
def Obligations.TexIndexPinned : Prop :=
  (∀ (d : TallDesc) (c : Coord) (x y : Nat), x ≤ 4095 → y ≤ 4095 → expField c.s ≠ 255 → expField c.t ≠ 255 →
    floatValue c.s = x → floatValue c.t = y → texIndex d true false c = (x, y)) ∧
  (∀ (d : TallDesc) (unscaled : Bool) (c : Coord), c.q = 0x3F800000#32 →
    texIndex d unscaled true c = texIndex d unscaled false c) ∧
  ∀ w : Word,
    (isNaN w = true → conditionCoord w = 0x7F800000#32) ∧
    (expField w = 0 → conditionCoord w = w &&& 0x80000000#32) ∧
    (expField w ≠ 0 → isNaN w = false → conditionCoord w = w)

/-! ## Flow-control instructions -/

/-- FC_OP_JUMP completes and goes where the vote decides, to the target or to the next instruction, with the address stack
pushed or popped only on a jump; it does not touch the loop stack (R382, R390, R392, R393, R410). The boolean
constant cache takes in nothing but bytes of memory (R95). What a processor wants of any
flow-control instruction is bit 4 * ALU result + 2 * predicate + boolean of JUMP_FUNC, an input that JUMP_FUNC does not depend on taken
as 0 (R386, R388, R389; log 2 for a predicate bit and log 2, log 21 for an ALU result without a value). -/
def Obligations.JumpFollowsTheVote : Prop :=
  (∀ (f : FcInst) (boolean : Bool) (l : Lane), f.predSel ≠ .rgba →
    let depends : Nat → Prop := fun bit => ∃ n < 8, f.jumpFunc.getLsbD n ≠ f.jumpFunc.getLsbD (n ^^^ 2 ^ bit)
    let predicate : Bool :=
      match f.predSel with
      | .none => true
      | .gggg => l.pred.g != f.predInv
      | .bbbb => l.pred.b != f.predInv
      | .aaaa => l.pred.a != f.predInv
      | _ => l.pred.r != f.predInv
    ∃ a p b : Bool, jumpWant f boolean l = f.jumpFunc.getLsbD (4 * a.toNat + 2 * p.toNat + b.toNat) ∧
      (depends 2 → a = l.ar) ∧ (¬ depends 2 → a = false) ∧ (depends 1 → p = predicate) ∧ (¬ depends 1 → p = false) ∧
      (depends 0 → b = boolean) ∧ (¬ depends 0 → b = false)) ∧
  ∀ (f : FcInst) (s : State) (c : FcCase s f), c.room (decides f (c.voters .jump)) → Completes (.fcJump f) s fun t =>
    t = { s with mem.constb := t.mem.constb, groups := t.groups, draws := t.draws } ∧ sameRam s t ∧ othersKept s t c.k ∧
    s.mem.constb.filled t.mem.constb s.mem.ram ∧
    ∃ g, t.groups[c.k]? = some g ∧ c.goes (decides f (c.voters .jump)) g ∧ g.loopStack = c.g.loopStack

/-- FC_OP_LOOP and FC_OP_REP complete: they jump without pushing where the iteration count is zero or the vote says so, else they
push a frame of their kind with the count and, for LOOP, the initial aL, which needs full mode and at most three frames (R405, R411,
R413); then each processor's counter follows B_OP1 on a jump and B_OP0 else (R397 to R399, R404; log 40 for INCR of an inactive
processor that IGNORE_UNCOVERED excludes; log 2 for a predicate bit and log 2, log 21 for an ALU result without a value). The
constant caches take in nothing but bytes of memory (R95). -/
def Obligations.LoopAndRepPush : Prop :=
  ∀ (i : Instr) (op : FcOp) (f : FcInst) (s : State), i.fc? = some (op, f) → op = .loop ∨ op = .rep →
    ∀ (c : FcCase s f) (count : Nat) (a0 d : Int) (mem : MemSys),
      readConsti s.platform c.mem c.g.env.descs.consti f.intAddr.toNat = .ok ((count, a0, d), mem) →
      let jump := count = 0 ∨ decides f (c.voters op)
      (¬ jump → c.g.env.prog.fullMode = true ∧ c.g.loopStack.length < 4) → c.room jump →
      Completes i s fun t =>
        t = { s with mem.constb := t.mem.constb, mem.consti := t.mem.consti, groups := t.groups, draws := t.draws } ∧
        sameRam s t ∧ othersKept s t c.k ∧
        s.mem.constb.filled t.mem.constb s.mem.ram ∧ s.mem.consti.filled t.mem.consti s.mem.ram ∧
        ∃ g, t.groups[c.k]? = some g ∧ c.goes jump g ∧ (jump → g.loopStack = c.g.loopStack) ∧
          (¬ jump → g.loopStack =
            (if op = .loop then { kind := .loop, count := count, aL := a0 } else { kind := .rep, count := count, aL := 0 }) ::
              c.g.loopStack) ∧
          ∀ (n : Nat) (v : Voter), (c.voters op)[n]? = some v → ∃ l, g.lanes[n]? = some l ∧ branched f jump v v.lane.loopOff l

/-- FC_OP_ENDLOOP and FC_OP_ENDREP complete with a top frame of their kind: at the last iteration, or where the vote fails,
they pop it and fall through, re-enabling the processors disabled in it; else they jump with one iteration less and, for
ENDLOOP, aL moved by the constant's increment, and only the processors that a CONTINUE disabled in the top frame are re-enabled
(R391, R404, R412, R414). Only an ENDLOOP that jumps reads its integer constant. Then each processor's counter follows B_OP1 on a jump
and B_OP0 else (R397 to R399; log 40 for INCR of an
inactive processor that IGNORE_UNCOVERED excludes; log 2 for a predicate bit and log 2, log 21 for an ALU result without a value).
The constant caches take in nothing but bytes of memory (R95). -/
def Obligations.EndLoopAndEndRepIterate : Prop :=
  ∀ (i : Instr) (op : FcOp) (kind : FrameKind) (f : FcInst) (s : State), i.fc? = some (op, f) →
    (op = .endloop ∧ kind = .loop) ∨ (op = .endrep ∧ kind = .rep) →
    ∀ (c : FcCase s f) (fr : Frame) (rest : List Frame) (count : Nat) (a0 d : Int) (mem : MemSys),
      c.g.env.prog.fullMode = true → c.g.loopStack = fr :: rest → fr.kind = kind →
      let jump := fr.count - 1 ≠ 0 ∧ decides f (c.voters op)
      (jump → kind = .loop →
        readConsti s.platform c.mem c.g.env.descs.consti f.intAddr.toNat = .ok ((count, a0, d), mem)) →
      c.room jump → Completes i s fun t =>
        t = { s with mem.constb := t.mem.constb, mem.consti := t.mem.consti, groups := t.groups, draws := t.draws } ∧
        sameRam s t ∧ othersKept s t c.k ∧
        s.mem.constb.filled t.mem.constb s.mem.ram ∧ s.mem.consti.filled t.mem.consti s.mem.ram ∧
        (kind = .rep ∨ ¬ jump → t.mem.consti = s.mem.consti) ∧
        ∃ g, t.groups[c.k]? = some g ∧ c.goes jump g ∧
          (jump → g.loopStack = { fr with count := fr.count - 1, aL := if kind = .loop then fr.aL + d else fr.aL } :: rest) ∧
          (¬ jump → g.loopStack = rest ∧ ∀ l ∈ g.lanes, ∀ o, l.loopOff ≠ some (o, c.g.loopStack.length)) ∧
          ∀ (n : Nat) (v : Voter) (l0 : Lane), (c.voters op)[n]? = some v → (waited c.g f.semWait)[n]? = some l0 →
            ∃ l, g.lanes[n]? = some l ∧
              (jump → branched f jump v (if l0.loopOff = some (.cont, c.g.loopStack.length) then none else l0.loopOff) l) ∧
              (¬ jump → branched f jump v (popped c.g.loopStack.length l0.loopOff) l)

/-- FC_OP_BREAKLOOP and FC_OP_BREAKREP complete with a top frame of their kind: where the vote decides so and no processor
inhibits it they jump and pop the frame, re-enabling the processors disabled in it; else they stay and the voters that want to
leave are disabled until the frame is popped (R391, R404, R415, R416, R418; log 39 for who inhibits). Then each processor's counter
follows B_OP1 on a jump and B_OP0 else (R397 to R399, R420; log 40 for INCR of an inactive processor that IGNORE_UNCOVERED excludes;
log 2 for a predicate bit and log 2, log 21 for an ALU result without a value). The boolean constant cache takes in nothing but bytes of
memory (R95). -/
def Obligations.BreakLeavesTheLoop : Prop :=
  ∀ (i : Instr) (op : FcOp) (kind : FrameKind) (f : FcInst) (s : State), i.fc? = some (op, f) →
    (op = .breakloop ∧ kind = .loop) ∨ (op = .breakrep ∧ kind = .rep) →
    ∀ (c : FcCase s f) (fr : Frame) (rest : List Frame),
      c.g.env.prog.fullMode = true → c.g.loopStack = fr :: rest → fr.kind = kind →
      let inhibits : Voter → Prop := fun v =>
        (v.lane.active = false ∧ (c.g.env.prog.breakInhibit = .all ∨ v.lane.bcnt < f.bPopCnt.toNat)) ∨
        ∃ depth, v.lane.loopOff = some (.cont, depth)
      let jump := decides f (c.voters op) ∧ ∀ v ∈ c.voters op, ¬ inhibits v
      c.room jump → Completes i s fun t =>
        t = { s with mem.constb := t.mem.constb, groups := t.groups, draws := t.draws } ∧ sameRam s t ∧ othersKept s t c.k ∧
        s.mem.constb.filled t.mem.constb s.mem.ram ∧
        ∃ g, t.groups[c.k]? = some g ∧ c.goes jump g ∧
          (jump → g.loopStack = rest ∧ ∀ l ∈ g.lanes, ∀ o, l.loopOff ≠ some (o, c.g.loopStack.length)) ∧
          (¬ jump → g.loopStack = c.g.loopStack) ∧
          ∀ (n : Nat) (v : Voter), (c.voters op)[n]? = some v → ∃ l, g.lanes[n]? = some l ∧
            (jump → branched f jump v (popped c.g.loopStack.length v.lane.loopOff) l) ∧
            (¬ jump → branched f jump v
              (if v.votes f = true ∧ v.want = true then some (.brk, c.g.loopStack.length) else v.lane.loopOff) l)

/-- FC_OP_CONTINUE completes with a frame on the loop stack: where the vote decides so and no processor with a clear active bit
inhibits it it jumps; else the voters that want to are disabled until the end of the loop; nothing is popped (R391, R404, R417,
R418; log 39 for who inhibits). Then each processor's counter follows B_OP1 on a jump and B_OP0 else (R397 to R399; log 40 for INCR
of an inactive processor that IGNORE_UNCOVERED excludes; log 2 for a predicate bit and log 2, log 21 for an ALU result without a
value). The boolean constant cache takes in nothing but bytes of memory (R95). -/
def Obligations.ContinueSkipsTheRest : Prop :=
  ∀ (f : FcInst) (s : State) (c : FcCase s f) (fr : Frame) (rest : List Frame),
    c.g.env.prog.fullMode = true → c.g.loopStack = fr :: rest →
    let inhibits : Voter → Prop := fun v =>
      v.lane.active = false ∧ (c.g.env.prog.breakInhibit = .all ∨ v.lane.bcnt < f.bPopCnt.toNat)
    let jump := decides f (c.voters .cont) ∧ ∀ v ∈ c.voters .cont, ¬ inhibits v
    c.room jump → Completes (.fcContinue f) s fun t =>
      t = { s with mem.constb := t.mem.constb, groups := t.groups, draws := t.draws } ∧ sameRam s t ∧ othersKept s t c.k ∧
      s.mem.constb.filled t.mem.constb s.mem.ram ∧
      ∃ g, t.groups[c.k]? = some g ∧ c.goes jump g ∧ g.loopStack = c.g.loopStack ∧
        ∀ (n : Nat) (v : Voter), (c.voters .cont)[n]? = some v → ∃ l, g.lanes[n]? = some l ∧
          (jump → branched f jump v v.lane.loopOff l) ∧
          (¬ jump → branched f jump v
            (if v.votes f = true ∧ v.want = true then some (.cont, c.g.loopStack.length) else v.lane.loopOff) l)

/-- INCR and DECR of a jump: B_OP1 applies where it jumps and B_OP0 where it stays. INCR raises the counter of each inactive
processor, leaves one that IGNORE_UNCOVERED excludes as it is (R387), and deactivates with counter 0 each voter that disagrees with the
decision; DECR lowers the counter of each inactive
processor by B_POP_CNT or reactivates it where that goes below zero; a loop-inactive processor is left alone (R397, R398, R399,
R404; log 40; log 2 for a predicate bit and log 2, log 21 for an ALU result without a value). -/
def Obligations.BranchCountersFollowTheDecision : Prop :=
  ∀ (f : FcInst) (s : State) (c : FcCase s f), c.room (decides f (c.voters .jump)) → ∀ (jump : Bool),
    (jump = true ↔ decides f (c.voters .jump)) → ∀ (n : Nat) (v : Voter), (c.voters .jump)[n]? = some v →
    Completes (.fcJump f) s fun t => ∃ l, laneAt t c.k n l ∧
      (v.lane.loopOff.isSome = true → l.active = v.lane.active ∧ l.bcnt = v.lane.bcnt) ∧
      (v.lane.loopOff = none →
        ((if jump = true then f.bOp1 else f.bOp0) = .none → l.active = v.lane.active ∧ l.bcnt = v.lane.bcnt) ∧
        ((if jump = true then f.bOp1 else f.bOp0) = .incr →
          (f.ignoreUncovered = true ∧ v.lane.covered = false → l.active = v.lane.active ∧ l.bcnt = v.lane.bcnt) ∧
          (v.lane.active = false → (f.ignoreUncovered = true → v.lane.covered = true) →
            l.active = false ∧ l.bcnt = v.lane.bcnt + 1) ∧
          (v.lane.active = true → v.votes f = true → v.want ≠ jump → l.active = false ∧ l.bcnt = 0) ∧
          (v.lane.active = true → v.votes f = false ∨ v.want = jump → l.active = true ∧ l.bcnt = v.lane.bcnt)) ∧
        ((if jump = true then f.bOp1 else f.bOp0) = .decr →
          (v.lane.active = false → v.lane.bcnt < f.bPopCnt.toNat → l.active = true ∧ l.bcnt = 0) ∧
          (v.lane.active = false → f.bPopCnt.toNat ≤ v.lane.bcnt →
            l.active = false ∧ l.bcnt = v.lane.bcnt - f.bPopCnt.toNat) ∧
          (v.lane.active = true → l.active = true ∧ l.bcnt = v.lane.bcnt)))

/-- B_ELSE: each processor that is not loop-inactive and is active becomes inactive with counter 0, wants to jump and votes;
each inactive one with counter 0 becomes active; all others, and every other field of the processor, stay, as all do without
B_ELSE (R396). With or without B_ELSE the processors vote that are active and not loop-inactive afterwards or that B_ELSE has
deactivated, under IGNORE_UNCOVERED the covered ones of them (R387). The vote under IGNORE_UNCOVERED is the spec's decision D43, that
loop-inactive processors are left alone its decision D48, and the counter 0 is what R396 itself marks as derived. -/
def Obligations.ElseFlipsTheInnermostBlock : Prop :=
  ∀ (f : FcInst) (boolean : Bool) (ls : List Lane) (n : Nat) (l : Lane), ls[n]? = some l →
    ∃ v, (fcVoters f boolean ls)[n]? = some v ∧ v.voter = v.votes f ∧
      (v.votes f = true ↔
        l.loopOff = none ∧ (l.active = true ∨ (f.bElse = true ∧ l.bcnt = 0)) ∧ (f.ignoreUncovered = true → l.covered = true)) ∧
      (f.bElse = false → v.lane = l ∧ v.want = jumpWant f boolean l) ∧
      (f.bElse = true →
        (l.loopOff = none → l.active = true → v.lane = { l with active := false, bcnt := 0 } ∧ v.want = true) ∧
        (l.loopOff = none → l.active = false → l.bcnt = 0 → v.lane = { l with active := true } ∧ v.want = jumpWant f boolean l) ∧
        (l.loopOff.isSome = true ∨ (l.active = false ∧ l.bcnt ≠ 0) → v.lane = l ∧ v.want = jumpWant f boolean l))

/-- What every flow-control instruction leaves unchanged: memory but for the integer and boolean constant caches, the device's
control state, the other groups, and of its processors everything but the active bit, branch counter, loop-inactive state,
semaphore and ALU result; the ALU result counts as not written afterwards (R382, R388; log 21). It becomes the previous instruction of its
group and, with ALU_WAIT, ends the pending ALU results (R588, R594). The two caches take in nothing but bytes of memory (R95). One whose
boolean, where JUMP_FUNC depends on it, or whose integer, for LOOP, REP and an ENDLOOP that jumps, has a byte at an unmapped address leaves
the group where it is, its processors stuck, and no group gets stuck without such an address (R81, R385, R408; log 33). -/
def Obligations.FlowControlFrame : Prop :=
  let unmapped : State → Desc → Nat → Prop := fun s d n => ∃ as, elementAddrs d none n 0 = .ok as ∧ ∃ a ∈ as, s.platform.mapped a = false
  let stuck : State → State → Nat → Group → Prop := fun s t k g =>
    t = { s with mem.constb := t.mem.constb, groups := t.groups } ∧ othersKept s t k ∧
    t.groups[k]? = some { g with lanes := g.lanes.map fun l => { l with stuck := true } }
  let usesBoolean : FcInst → Prop := fun f => ∃ n < 8, f.jumpFunc.getLsbD n ≠ f.jumpFunc.getLsbD (n ^^^ 1)
  let usesInteger : ∀ (s : State) (f : FcInst), FcPlaced s f → FcOp → Prop := fun _ f c op =>
    op = .loop ∨ op = .rep ∨ (op = .endloop ∧ c.g.env.prog.fullMode = true ∧ ∃ fr rest, c.g.loopStack = fr :: rest ∧
      fr.kind = .loop ∧ fr.count - 1 ≠ 0 ∧ decides f (c.voters op))
  (∀ (i : Instr) (op : FcOp) (f : FcInst) (s : State), i.fc? = some (op, f) →
    (∀ c : FcFields s f, usesBoolean f → unmapped s c.g.env.descs.constb f.boolAddr.toNat →
      ∃ t, exec i s = .next t ∧ t.mem = s.mem ∧ stuck s t c.k c.g) ∧
    ∀ c : FcPlaced s f, usesInteger s f c op → unmapped s c.g.env.descs.consti f.intAddr.toNat →
      ∃ t, exec i s = .next t ∧ t.mem = c.mem ∧ stuck s t c.k c.g) ∧
  ∀ (i : Instr) (op : FcOp) (f : FcInst) (s t : State), i.fc? = some (op, f) → exec i s = .next t →
    sameRam s t ∧ s.mem.constb.filled t.mem.constb s.mem.ram ∧ s.mem.consti.filled t.mem.consti s.mem.ram ∧
    ∃ k g g', s.turn = .group k ∧ s.groups[k]? = some g ∧ t.groups[k]? = some g' ∧ othersKept s t k ∧
      ((t = { s with mem.constb := t.mem.constb, mem.consti := t.mem.consti, groups := t.groups, draws := t.draws } ∧
        g'.env = g.env ∧ g'.halted = g.halted ∧ g'.lanes.length = g.lanes.length ∧ g'.prev = .fc f.semWait ∧
        g'.aluPending = (if f.aluWait = true then [] else g.aluPending) ∧
        ∀ (n : Nat) (l : Lane), (waited g f.semWait)[n]? = some l → ∃ l', g'.lanes[n]? = some l' ∧ l'.arSet = false ∧
          l' = { l with active := l'.active, bcnt := l'.bcnt, loopOff := l'.loopOff, ar := l'.ar, arSet := l'.arSet }) ∨
      (((usesBoolean f ∧ unmapped s g.env.descs.constb f.boolAddr.toNat) ∨
          ∃ c : FcPlaced s f, c.k = k ∧ c.g = g ∧ usesInteger s f c op ∧ unmapped s g.env.descs.consti f.intAddr.toNat) ∧
        stuck s t k g))

/-- The limits of the stacks and counters: a loop operation on a full or empty stack, with a top frame of the wrong kind or in
partial mode, and, in each of the eight operations, an address push or pop that a jump makes on a full or empty stack or in partial
mode, stop with StackFault (R62, R393, R405; log 45 for when ENDLOOP and ENDREP look for the frame); one of them whose branch
operation on its decision is INCR stops with BranchCounterOverflow where an inactive processor that its loop operation leaves in the
loop, and that IGNORE_UNCOVERED does not exclude, stands at the limit (R387, R399, R400, R404; log 40). For a BREAK or CONTINUE the
decision rests on who inhibits it (R418; log 39 for a processor that is both inactive and disabled by a CONTINUE or BREAK). -/
def Obligations.StackAndCounterLimits : Prop :=
  (∀ (i : Instr) (op : FcOp) (f : FcInst) (s : State) (c : FcPlaced s f), i.fc? = some (op, f) →
    (op ∈ [.endloop, .endrep, .breakloop, .breakrep, .cont] → c.g.env.prog.fullMode = false ∨ c.g.loopStack = [] →
      exec i s = .fault .stackFault) ∧
    (∀ fr rest, c.g.loopStack = fr :: rest →
      (op ∈ [.endloop, .breakloop] ∧ fr.kind = .rep) ∨ (op ∈ [.endrep, .breakrep] ∧ fr.kind = .loop) →
      exec i s = .fault .stackFault) ∧
    (op ∈ [.loop, .rep] → c.g.env.prog.fullMode = false ∨ 4 ≤ c.g.loopStack.length → ¬ decides f (c.voters op) →
      ∀ count a0 d mem, count ≠ 0 →
        readConsti s.platform c.mem c.g.env.descs.consti f.intAddr.toNat = .ok ((count, a0, d), mem) →
        exec i s = .fault .stackFault)) ∧
  ∀ (i : Instr) (op : FcOp) (f : FcInst) (s : State) (c : FcPlaced s f), i.fc? = some (op, f) →
    (c.decided op True →
      (f.aOp = .push → c.g.env.prog.fullMode = false ∨ 4 ≤ c.g.addrStack.length → exec i s = .fault .stackFault) ∧
      (f.aOp = .pop → c.g.env.prog.fullMode = false ∨ c.g.addrStack = [] → exec i s = .fault .stackFault)) ∧
    ∀ jump : Bool, c.decided op (jump = true) → (jump = true → c.addressRoom) →
      (if jump = true then f.bOp1 else f.bOp0) = .incr →
      (∃ v ∈ c.voters op, c.offAfter op jump v = none ∧ v.lane.active = false ∧ (f.ignoreUncovered = true → v.lane.covered = true) ∧
        c.g.env.prog.branchMax ≤ v.lane.bcnt) →
      exec i s = .fault .branchCounterOverflow

/-! ## Arithmetic -/

/-- Comparisons. The four tests against zero, on every pattern: the table's rows for the zeros, the infinities and NaN, a denormal
as a zero, the sign for a normal number. The ordered comparison: false when either is NaN, by the real numbers when both are
finite (so the zeros are equal), the infinities beyond every finite number; greater-than with the operands exchanged, and
against 0.5 for CND (R450). -/
def Obligations.ComparisonsFollowTheTable : Prop :=
  (∀ w : Word, fGtHalf w = fGt w 0x3F000000#32 ∧
    (isNaN w = true → fLt0 w = false ∧ fGe0 w = false ∧ fEq0 w = false ∧ fNe0 w = true) ∧
    (expField w = 0 → fLt0 w = false ∧ fGe0 w = true ∧ fEq0 w = true ∧ fNe0 w = false) ∧
    (isNaN w = false → expField w ≠ 0 → fLt0 w = w.getLsbD 31 ∧ fGe0 w = !w.getLsbD 31 ∧ fEq0 w = false ∧ fNe0 w = true)) ∧
  ∀ a b : Word, fGt a b = fLt b a ∧
    (isNaN a = true ∨ isNaN b = true → fLt a b = false) ∧
    (expField a ≠ 255 → expField b ≠ 255 → (fLt a b = true ↔ floatValue a < floatValue b)) ∧
    (isNaN a = false → isNaN b = false →
      (a = 0x7F800000#32 → fLt a b = false) ∧ (b = 0xFF800000#32 → fLt a b = false) ∧
      (a = 0xFF800000#32 → b ≠ 0xFF800000#32 → fLt a b = true) ∧ (b = 0x7F800000#32 → a ≠ 0x7F800000#32 → fLt a b = true))

/-- MAD is an addition after a multiplication. Multiplication: NaN, the infinities and the zeros as in the table, else the exact
real product (R446). Addition: NaN and the infinities as in the table, -0 only from two -0, +0 where two numbers cancel exactly,
else the exact real sum (R447). -/
def Obligations.MadArithmetic : Prop :=
  (∀ x y z : Word, mad x y z = addExt (mulExt (.ofBits x) (.ofBits y)) (.ofBits z)) ∧
  (∀ a b : Ext, a.ok → b.ok →
    (a = .nan ∨ b = .nan → mulExt a b = .nan) ∧
    (∀ x y, (a = .zero x ∧ b = .inf y) ∨ (a = .inf x ∧ b = .zero y) → mulExt a b = .nan) ∧
    (∀ x, (a = .inf x ∧ b ≠ .nan ∧ (∀ y, b ≠ .zero y) → mulExt a b = .inf (x != b.isNeg)) ∧
      (b = .inf x ∧ a ≠ .nan ∧ (∀ y, a ≠ .zero y) → mulExt a b = .inf (a.isNeg != x)) ∧
      (a = .zero x ∧ b ≠ .nan ∧ (∀ y, b ≠ .inf y) → mulExt a b = .zero (x != b.isNeg)) ∧
      (b = .zero x ∧ a ≠ .nan ∧ (∀ y, a ≠ .inf y) → mulExt a b = .zero (a.isNeg != x))) ∧
    ∀ m e m' e', a = .real m e → b = .real m' e' →
      ∃ m'' e'', mulExt a b = .real m'' e'' ∧ m'' ≠ 0 ∧ (mulExt a b).number = a.number * b.number) ∧
  ∀ p c : Ext, p.ok → c.ok →
    (p = .nan ∨ c = .nan → addExt p c = .nan) ∧
    (∀ x, p = .inf x → c = .inf (!x) → addExt p c = .nan) ∧
    (∀ x, (p = .inf x ∧ c ≠ .nan ∧ c ≠ .inf (!x)) ∨ (c = .inf x ∧ p ≠ .nan ∧ p ≠ .inf (!x)) → addExt p c = .inf x) ∧
    (∀ x y, p = .zero x → c = .zero y → addExt p c = .zero (x && y)) ∧
    ((∀ x, p ≠ .inf x ∧ c ≠ .inf x) → p ≠ .nan → c ≠ .nan → (∀ x y, ¬ (p = .zero x ∧ c = .zero y)) →
      (addExt p c).ok ∧ (addExt p c).number = p.number + c.number ∧ (p.number + c.number = 0 → addExt p c = .zero false) ∧
      (p.number + c.number ≠ 0 → ∃ m e, addExt p c = .real m e))

/-- Finishing under an enabled modifier: NaN becomes 0x7FFFFFFF, infinities and zeros pass, a real number scaled by the
modifier's factor to below 2^-126 becomes a zero of its sign, one scaled to between 2^-126 and the greatest finite number a finite normal
number, whatever it was before (R445, R460), and no number leaves as a NaN or as a denormal (R312, R456, R458; that no
rounding passes the greatest finite number into a NaN is log 13's reading, DEDUCED). Clamping: below zero a zero,
above one 1.0, in between unchanged; the sign of a zero result and the result for NaN are free (R314). -/
def Obligations.FinishAndClamp : Prop :=
  (∀ (draw : Nat) (om : OMod), om ≠ .disabled →
    finish Config.fArith draw om .nan = 0x7FFFFFFF#32 ∧
    (∀ x, finish Config.fArith draw om (.inf x) = if x = true then 0xFF800000#32 else 0x7F800000#32) ∧
    (∀ x, finish Config.fArith draw om (.zero x) = if x = true then 0x80000000#32 else 0#32) ∧
    ∀ m e : Int, m ≠ 0 →
      let factor : ℚ :=
        match om with
        | .u1 => 1
        | .u2 => 2
        | .u4 => 4
        | .u8 => 8
        | .d2 => 1 / 2
        | .d4 => 1 / 4
        | .d8 => 1 / 8
        | .disabled => 1
      (|(m : ℚ) * 2 ^ e * factor| < 2 ^ (-126 : Int) →
        finish Config.fArith draw om (.real m e) = if m < 0 then 0x80000000#32 else 0#32) ∧
      (2 ^ (-126 : Int) ≤ |(m : ℚ) * 2 ^ e * factor| → |(m : ℚ) * 2 ^ e * factor| ≤ (2 ^ 24 - 1) * 2 ^ 104 →
        expField (finish Config.fArith draw om (.real m e)) ≠ 0 ∧ expField (finish Config.fArith draw om (.real m e)) ≠ 255) ∧
      isNaN (finish Config.fArith draw om (.real m e)) = false ∧
      (expField (finish Config.fArith draw om (.real m e)) = 0 → manField (finish Config.fArith draw om (.real m e)) = 0)) ∧
  ∀ (draw : Nat) (w : Word), isNaN w = false →
    (fLt0 w = true ∨ fEq0 w = true → clampBits draw w = 0#32 ∨ clampBits draw w = 0x80000000#32) ∧
    (fLt 0x3F800000#32 w = true → clampBits draw w = 0x3F800000#32) ∧
    (fLt0 w = false → fEq0 w = false → fLt 0x3F800000#32 w = false → clampBits draw w = w)

/-! ## Memory, the conditional test and the agents -/

/-- Every element address is a multiple of the element's size (R93). The linear address is the base plus a row stride, the pitch
in bytes rounded down to a multiple of 32, plus the column's bytes, modulo 2^32 (R86). The tiled address counts tiles of 2^cols by
2^rows elements from the base in units of 2048 bytes, modulo 2^32, and takes its low eleven bits from the row of the table for the
element's size (R87). -/
def Obligations.ElementAddresses : Prop :=
  ∀ (d : Desc) (k x y : Nat), d.wf = true → formatLog d.format = some k → x < 4096 → y < 4096 →
    2 ^ k ∣ d.address k x y ∧ d.address k x y < 2 ^ 32 ∧
    (d.tiling = .linear ∨ d.tiling = .linear2x2 →
      d.address k x y = (d.base.toNat + y * (d.pitch.toNat * 2 ^ k / 32 * 32) + x * 2 ^ k) % 2 ^ 32) ∧
    (d.tiling = .tiled ∨ d.tiling = .tiled2x2 →
      let rows : Nat :=
        match k with
        | 0 => 5
        | 1 => 5
        | 2 => 4
        | 3 => 4
        | _ => 3
      let cols : Nat :=
        match k with
        | 0 => 6
        | 1 => 5
        | 2 => 5
        | 3 => 4
        | _ => 4
      let xb := x.testBit
      let yb := y.testBit
      let low : List Bool :=
        match k with
        | 0 => [yb 4 != xb 6, xb 5 != yb 5, yb 3 != xb 5, xb 4 != yb 4, yb 2, xb 3, yb 1, yb 0, xb 2, xb 1, xb 0]
        | 1 => [yb 4 != xb 5, xb 4 != yb 5, yb 3 != xb 4, xb 3 != yb 4, yb 2, xb 2, yb 1, yb 0, xb 1, xb 0, false]
        | 2 => [yb 3 != xb 5, xb 4 != yb 4, yb 2 != xb 4, xb 3 != yb 3, yb 1, xb 2, yb 0, xb 1, xb 0, false, false]
        | 3 => [yb 3 != xb 4, xb 3 != yb 4, yb 2 != xb 3, xb 2 != yb 3, yb 1, xb 1, yb 0, xb 0, false, false, false]
        | _ => [yb 2 != xb 4, xb 3 != yb 3, yb 1 != xb 3, xb 2 != yb 2, yb 0, xb 1, xb 0, false, false, false, false]
      d.address k x y / 2 ^ 11 =
        (y / 2 ^ rows * (d.pitch.toNat / 2 ^ cols) + x / 2 ^ cols + d.base.toNat / 2 ^ 11) % 2 ^ 21 ∧
      ∀ n b, low[n]? = some b → (d.address k x y).testBit (10 - n) = b)

/-- A float constant under a FLOAT32_4 LINEAR descriptor is the sixteen bytes at the base plus 16 times its number, channels
R, G, B, A in that order, each little-endian, where the emptied cache takes them from memory (R82, R94, R95, R104). An integer and a
boolean constant are decoded from all bytes of their element (number, 0) under any descriptor, as the client's cache holds them, and
memory where it holds none (R104, R385, R408; what a decoding gives is a free value, log 17). Only the client's cache changes, and it
takes in nothing but bytes of memory (R95). -/
def Obligations.FloatConstantsRead : Prop :=
  (∀ (p : Platform) (draw : Nat) (mem : MemSys) (d : Desc) (c : Nat), d.wf = true → d.format = 4#3 → d.tiling = .linear →
    c < 256 → mem.constf = ReadCache.empty → (∀ n < 16, p.mapped ((d.base.toNat + 16 * c + n) % 2 ^ 32) = true) →
    ∃ mem', readConstf p draw mem d c =
        .ok (⟨mem.ram.word (d.base.toNat + 16 * c), mem.ram.word (d.base.toNat + 16 * c + 4),
          mem.ram.word (d.base.toNat + 16 * c + 8), mem.ram.word (d.base.toNat + 16 * c + 12)⟩, mem') ∧
      mem' = { mem with constf := mem'.constf } ∧ mem.constf.filled mem'.constf mem.ram) ∧
  ∀ (p : Platform) (mem : MemSys) (d : Desc) (k c : Nat), formatLog d.format = some k → c < 32 →
    let as := (List.range (2 ^ k)).map fun n => (d.address k c 0 + n) % 2 ^ 32
    (∀ a ∈ as, p.mapped a = true) →
    (∃ mem', readConsti p mem d c = .ok (Config.intConstDecode (as.map (seen mem.consti mem.ram)), mem') ∧
      mem' = { mem with consti := mem'.consti } ∧ mem.consti.filled mem'.consti mem.ram) ∧
    ∃ mem', readConstb p mem d c = .ok (Config.boolConstDecode (as.map (seen mem.constb mem.ram)), mem') ∧
      mem' = { mem with constb := mem'.constb } ∧ mem.constb.filled mem'.constb mem.ram

/-- An output write puts the bytes of each channel that the format has and the mask enables into the output write cache, channel c0
lowest, and no other byte: under a FLOAT32 format the four of the value, little-endian, under UINT16_1 the two and under UINT8_4 the
one of what the device encodes it as (R82, R94, R97, R98; log 17 for that encoding and for the order of the channels of UINT8_4).
When the MC drops a byte of a read cache nothing else changes (R95); a dirty byte it writes to memory, and then drops that of an
output (R97) and keeps that of the conditional output as a clean one (R101; log 44); one whose address is not mapped stays where it
is (log 33). Where the byte would change memory under a descriptor of a constant that a command has set while a processor is busy,
the step stops with ConstChanged (R104), where it would change the text of a running program, with TextChanged (R105; the place of
the text is log 5's parameter, the extent of both checks log 23's). -/
def Obligations.OutputWritesAreMasked : Prop :=
  (∀ (d : TallDesc) (mask : BitVec 4) (i j : BitVec 12) (data : Quad Word) (k : Nat) (cells t : List Host.Cell),
    d.desc.wf = true → formatLog d.desc.format = some k →
    outputWrite d mask i j data = .ok cells →
    let size : Nat :=
      match d.desc.format.toNat with
      | 0 => 2
      | 1 => 1
      | _ => 4
    let stored : Word → Nat → Byte := fun w n =>
      match d.desc.format.toNat with
      | 0 => (Config.uintEncode 0 w).extractLsb' (8 * n) 8
      | 1 => (Config.uintEncode 1 w).extractLsb' 0 8
      | _ => byteOfWord w n
    ∀ a, tabFind (putBytes t cells) a =
      if d.desc.address k i.toNat j.toNat ≤ a ∧ a < d.desc.address k i.toNat j.toNat + 2 ^ k ∧
          mask.getLsbD ((a - d.desc.address k i.toNat j.toNat) / size) = true then
        some (stored (match (a - d.desc.address k i.toNat j.toNat) / size with
          | 0 => data.r
          | 1 => data.g
          | 2 => data.b
          | _ => data.a) ((a - d.desc.address k i.toNat j.toNat) % size))
      else tabFind t a) ∧
  ∀ (s : State) (a : Nat), s.mem.wf = true →
    let next : State → Prop := fun t => step s = .next { t with turn := Config.turn s.draws, draws := s.draws + 1 }
    let without : List Host.Cell → List Host.Cell → Prop := fun c c' =>
      ∀ b, tabFind c' b = if b = a then none else tabFind c b
    (∀ client : ReadClient,
      s.turn = .evict (match client with
        | .inst => .inst
        | .constf => .constf
        | .consti => .consti
        | .constb => .constb
        | .inp => .inp) a →
      ∃ c : ReadCache, without (s.mem.cache client).bytes c.bytes ∧ next { s with mem := s.mem.setCache client c }) ∧
    (s.turn = .evict .cond a → tabFind s.mem.cond.dirty a = none →
      ∃ c : ReadCache, without s.mem.cond.clean.bytes c.bytes ∧ next { s with mem.cond.clean := c }) ∧
    (s.turn = .evict .out a → tabFind s.mem.out a = none → next s) ∧
    ∀ b : Byte, (s.turn = .evict .out a ∧ tabFind s.mem.out a = some b) ∨
        (s.turn = .evict .cond a ∧ tabFind s.mem.cond.dirty a = some b) →
      (s.platform.mapped a = false → next s) ∧
      (writable s a → ∃ (ram : Memory) (out dirty : List Host.Cell) (clean : ReadCache),
        next { s with mem.ram := ram, mem.out := out, mem.cond := { clean := clean, dirty := dirty } } ∧
        (∀ x, ram.get x = if x = a then b else s.mem.ram.get x) ∧
        (s.turn = .evict .out a → without s.mem.out out ∧ clean = s.mem.cond.clean ∧ dirty = s.mem.cond.dirty) ∧
        (s.turn = .evict .cond a → without s.mem.cond.dirty dirty ∧ out = s.mem.out ∧
          ∀ x, tabFind clean.bytes x = if x = a then some b else tabFind s.mem.cond.clean.bytes x)) ∧
      (s.platform.mapped a = true → s.mem.ram.get a ≠ b → s.groups ≠ [] →
        let under : Prop := ∃ (d : Desc) (item : Item) (n c : Nat) (as : List Nat),
          (d, item, n) ∈ [(s.mc.descs.constf, Item.constf, 256), (s.mc.descs.consti, Item.consti, 32),
            (s.mc.descs.constb, Item.constb, 32)] ∧ item ∈ s.setItems ∧ c < n ∧ elementAddrs d none c 0 = .ok as ∧ a ∈ as
        (under → step s = .fault .constChanged) ∧
        (¬ under → ∀ g ∈ s.groups, ∀ slot < g.env.prog.instrCnt.toNat, ∀ byte < 24,
          a = Config.textAddr g.env.descs.inst.base.toNat g.env.descs.inst.pitch.toNat g.env.descs.inst.tiling.isTiled
            g.env.descs.inst.format.toNat slot byte % 2 ^ 32 →
          step s = .fault .textChanged))

/-- The conditional test: the client that is not selected passes with no memory access; test 0 fails and test 7 passes with no read;
a pass with the conditional output mask set writes the value at (i, j), and without it, or on a failure, nothing is written (R254).
A test that reads sees of each byte of the element the newest write still in the cache, else its clean byte, else memory, and the
cache takes in nothing but bytes of memory (R101); a row at or past the height stops a test that reads (R92). An access to an
unmapped byte finds no answer, and a CO that is stuck answers no request (R81, R254; log 33). Among the comparisons test 2 is 1 or
3, test 6 the opposite of 3, tests 4 and 5 of 1 and 2 where neither value is a NaN; test 3 holds of the encoding of any other value,
and under FLOAT32_1, which stores the four bytes of the value, of no other word, two zeros apart (R256, R262; log 16 for the zeros
and, under the other formats, for which bytes of the element tests 4 and 5 look at). -/
def Obligations.ConditionalTest : Prop :=
  (∀ (fmt : BitVec 3) (v : Word) (bs : List Byte),
    condCmp fmt 2#3 v bs = (condCmp fmt 1#3 v bs || condCmp fmt 3#3 v bs) ∧ condCmp fmt 6#3 v bs = !condCmp fmt 3#3 v bs ∧
    (isNaN v = false → isNaN (wordOf bs) = false →
      condCmp fmt 4#3 v bs = !condCmp fmt 1#3 v bs ∧ condCmp fmt 5#3 v bs = !condCmp fmt 2#3 v bs) ∧
    (isNaN v = false → condCmp fmt 3#3 v (condEnc fmt v) = true) ∧
    ∀ w : Word, w ≠ v → ¬ (w &&& 0x7FFFFFFF#32 = 0#32 ∧ v &&& 0x7FFFFFFF#32 = 0#32) →
      condCmp 2#3 3#3 v (bytesOfWord w) = false) ∧
  (∀ (p : Platform) (mem mem' : MemSys) (env : Snapshot) (i j : BitVec 12) (v : Word),
    env.descs.condOut.desc.wf = true → env.descs.condOut.desc.format = 2#3 → writeCond p mem env i j v = .ok mem' →
    mem' = { mem with cond.dirty := mem'.cond.dirty } ∧
    ∀ a, tabFind mem'.cond.dirty a =
      if env.descs.condOut.desc.address 2 i.toNat j.toNat ≤ a ∧ a < env.descs.condOut.desc.address 2 i.toNat j.toNat + 4 then
        some (byteOfWord v (a - env.descs.condOut.desc.address 2 i.toNat j.toNat))
      else tabFind mem.cond.dirty a) ∧
  ∀ (p : Platform) (mem : MemSys) (env : Snapshot) (client : CoClient) (i j : BitVec 12) (v : Word),
    coTest p true mem env client i j v = .error (.stuck mem) ∧
    ((client = .pe ∧ env.condLoc = false) ∨ (client = .dpp ∧ env.condLoc = true) →
      coTest p false mem env client i j v = .ok (true, mem)) ∧
    ((client = .pe ∧ env.condLoc = true) ∨ (client = .dpp ∧ env.condLoc = false) →
      (env.condTest = 0#3 → coTest p false mem env client i j v = .ok (false, mem)) ∧
      (env.condTest = 7#3 → env.condOutMask = false → coTest p false mem env client i j v = .ok (true, mem)) ∧
      (env.condTest = 7#3 → env.condOutMask = true → ∀ mem', writeCond p mem env i j v = .ok mem' →
        coTest p false mem env client i j v = .ok (true, mem')) ∧
      (env.condTest ≠ 0#3 → env.condTest ≠ 7#3 ∨ env.condOutMask = true →
        ∀ as, elementAddrs env.descs.condOut.desc (some env.descs.condOut.height.toNat) i.toNat j.toNat = .ok as →
          (∃ a ∈ as, p.mapped a = false) → coTest p false mem env client i j v = .error (.stuck mem)) ∧
      (env.condTest ≠ 0#3 → env.condTest ≠ 7#3 →
        (formatLog env.descs.condOut.desc.format ≠ none → env.descs.condOut.height.toNat ≤ j.toNat →
          coTest p false mem env client i j v = .error (.fault .indexRange)) ∧
        ∀ as, elementAddrs env.descs.condOut.desc (some env.descs.condOut.height.toNat) i.toNat j.toNat = .ok as →
          as.all p.mapped = true → ∃ cache : CondCache, mem.cond.filled cache mem.ram ∧
          let pass := condCmp env.descs.condOut.desc.format env.condTest v (as.map (mem.cond.seen mem.ram))
          (pass = false ∨ env.condOutMask = false →
            coTest p false mem env client i j v = .ok (pass, { mem with cond := cache })) ∧
          (pass = true → env.condOutMask = true → ∀ mem', writeCond p { mem with cond := cache } env i j v = .ok mem' →
            coTest p false mem env client i j v = .ok (true, mem'))))

/-- At its turn the distributor takes one pair of a launch, exactly that one, for an idle processor; a launch with no pair left is
dropped and every other one is kept, so that each pair is taken once (R75, R197). With the conditional location at the DPP it asks
nothing of the CO (R197). There, and where the PE's conditional test passes, the processor starts at the program's start slot,
enabled and covered, with empty stacks and nothing pending, as a group of its own or joined to one of the same launch that has not
started (R22, log 9); where it fails the pair is skipped (R198). Where the CO does not answer, the CO and the distributor are stuck,
and the pair is not taken (R81; log 33). -/
def Obligations.DistributorStartsProcessors : Prop :=
  ∀ (s : State) (a b proc : Nat) (join : Option Nat) (la : Launch) (i j : BitVec 12),
    s.turn = .dist a b proc join → s.pe.distStuck = false →
    s.pe.launches[a]? = some la → la.todo[b]? = some (i, j) → proc < s.platform.nproc → s.busy proc = false →
    (∀ k, join = some k → ∃ g, s.groups[k]? = some g ∧ g.started = false ∧ g.halted = false ∧ g.env = la.env) →
    let answer := coTest s.platform s.co.stuck s.mem la.env .pe i j la.env.condVal
    (∀ mem, la.env.condLoc = true → answer = .error (.stuck mem) →
      step s = .next { s with
        mem := mem, co := { s.co with stuck := true }, pe := { s.pe with distStuck := true }, turn := Config.turn s.draws
        draws := s.draws + 1 }) ∧
    ∀ pass mem, (la.env.condLoc = true → answer = .ok (pass, mem)) → (la.env.condLoc = false → pass = true ∧ mem = s.mem) →
    ∃ t, step s = .next t ∧
      t = { s with
        mem := mem, pe := { s.pe with launches := t.pe.launches }, groups := t.groups, turn := t.turn, draws := t.draws } ∧
      (la.todo.eraseIdx b = [] → t.pe.launches = s.pe.launches.eraseIdx a) ∧
      (la.todo.eraseIdx b ≠ [] → t.pe.launches = s.pe.launches.set a { la with todo := la.todo.eraseIdx b }) ∧
      (pass = false → t.groups = s.groups) ∧
      (pass = true → ∃ l : Lane,
        l.proc = proc ∧ l.i = i ∧ l.j = j ∧ l.vIn = la.env.condVal ∧ l.active = true ∧ l.loopOff = none ∧ l.bcnt = 0 ∧
        l.covered = true ∧ l.semHeld = false ∧ l.semCover = [] ∧ l.texPending = [] ∧ l.temps = [] ∧ l.outs = [] ∧
        l.outbox = none ∧ l.stuck = false ∧
        (join = none → t.groups = s.groups ++
          [{ env := la.env, pc := la.env.prog.startSlot, loopStack := [], addrStack := [], aluPending := [], prev := .none
             started := false, halted := false, lanes := [l] }]) ∧
        ∀ k g, join = some k → s.groups[k]? = some g → t.groups = s.groups.set k { g with lanes := g.lanes ++ [l] })

/-- A processor of a halted group sends its results in steps of its own (log 10), and only it and its caches change. First its
request: a killed one makes none and has nothing to write; a covered one sends W where the program exports it, else the value it was
started with, and where the conditional test passes it is to write every listed output, once (R108), each under the output mask with the
channels written to its output register, and where the test fails none (R200, R258, R259, R334; log 2 for a W never written). Where the CO
does not answer, the CO and the processor are stuck (R81; log 33). Then it writes
byte after byte into the output write cache, others between them if their turn comes (R97, R109, log 35), stuck at an unmapped address
(R81). With nothing left to write it is idle. -/
def Obligations.HaltedProcessorSendsResults : Prop :=
  ∀ (s : State) (k n : Nat) (g : Group) (l : Lane), s.turn = .retire k n → s.groups[k]? = some g → g.halted = true →
    g.lanes[n]? = some l → l.stuck = false →
    let goesOn : MemSys → Lane → Prop := fun mem l' => ∃ t, step s = .next t ∧
      t = { s with
        mem := mem, groups := s.groups.set k { g with lanes := g.lanes.set n l' }, turn := t.turn, draws := t.draws }
    (l.outbox = none → l.covered = false → goesOn s.mem { l with outbox := some [] }) ∧
    (l.outbox = none → l.covered = true → ∀ answer,
      coTest s.platform s.co.stuck s.mem g.env .dpp l.i l.j (if g.env.prog.fgDepthSrc.getLsbD 0 = true then l.wout else l.vIn) =
        answer →
      (∀ mem, answer = .error (.stuck mem) →
        step s = .next { s with
          mem := mem, co := { s.co with stuck := true }, groups := s.groups.set k { g with lanes := g.lanes.set n { l with stuck := true } }
          turn := Config.turn s.draws, draws := s.draws + 1 }) ∧
      ∀ pass mem, answer = .ok (pass, mem) →
      (pass = false → goesOn mem { l with outbox := some [] }) ∧
      (pass = true → ∀ (data : Nat → Quad Word) (cells : Nat → List Host.Cell),
        (∀ o, data o = l.outValue s.draws o) →
        (∀ o ∈ g.env.prog.outputs, ∃ d, g.env.descs.out[o]? = some d ∧
          outputWrite d g.env.outMask l.i l.j (data o) = .ok (cells o)) →
        (∃ os : List Nat, os.Nodup ∧ (∀ o, o ∈ os ↔ o ∈ g.env.prog.outputs) ∧ goesOn mem { l with outbox := some (os.flatMap cells) }) ∧
        ∀ o ch w, tabFind l.outs (regKey o ch) = some w → (data o).get ch = w)) ∧
    (∀ a b rest, l.outbox = some ((a, b) :: rest) →
      (s.platform.mapped a = true → goesOn { s.mem with out := tabPut s.mem.out a b } { l with outbox := some rest }) ∧
      (s.platform.mapped a = false → goesOn s.mem { l with stuck := true })) ∧
    (l.outbox = some [] → ∃ t, step s = .next t ∧
      t = { s with groups := t.groups, turn := t.turn, draws := t.draws } ∧
      (g.lanes.eraseIdx n = [] → t.groups = s.groups.eraseIdx k) ∧
      (g.lanes.eraseIdx n ≠ [] → t.groups = s.groups.set k { g with lanes := g.lanes.eraseIdx n }))

/-! ## Invariants -/

/-- Every step keeps the memory and all seven caches in canonical form (R71, R95, R97, R101; log 3). -/
def Obligations.StepKeepsMemoryCanonical : Prop :=
  ∀ s t : State, s.mem.wf = true → step s = .next t → t.mem.wf = true

/-- Every step keeps the stacks and branch counters of every group within their limits (R58, R61, R62, R381, R401). -/
def Obligations.StepKeepsGroupLimits : Prop :=
  ∀ s t : State, (∀ g ∈ s.groups, g.wf = true) → step s = .next t → ∀ g ∈ t.groups, g.wf = true

/-- Every step keeps each descriptor's base a multiple of 2048 and its pitch a multiple of 4, those of launches and of running
groups included (R34, R89, R90). -/
def Obligations.StepKeepsDescriptorsAligned : Prop :=
  ∀ s t : State,
    (s.mc.descs.wf = true ∧ (∀ l ∈ s.pe.launches, l.env.descs.wf = true) ∧ ∀ g ∈ s.groups, g.env.descs.wf = true) →
    step s = .next t →
    t.mc.descs.wf = true ∧ (∀ l ∈ t.pe.launches, l.env.descs.wf = true) ∧ ∀ g ∈ t.groups, g.env.descs.wf = true

/-- After reset no program is loaded, no buffer is current, no launch is pending and every processor is idle (R73), and the
three invariants hold; the values that the model named for what R73 leaves unspecified (log 1) are not stated. -/
def Obligations.ResetState : Prop :=
  State.reset.program = none ∧ State.reset.pe.cur = none ∧ State.reset.pe.queue = [] ∧ State.reset.pe.launches = [] ∧
  State.reset.groups = [] ∧ State.reset.mem.wf = true ∧ (∀ g ∈ State.reset.groups, g.wf = true) ∧
  State.reset.mc.descs.wf = true
end

