-- ==== Sys2Proof/Laws/State.lean ====
section
/-! SUPPORT. What each update of a record leaves in each field, true by unfolding, so that no later proof unfolds a record
update. -/

namespace Sys2Proof.Machine

/-! ## State.setGroup -/

@[simp] theorem State.setGroup_platform (s : State) (k : Nat) (g : Group) : (s.setGroup k g).platform = s.platform := rfl
@[simp] theorem State.setGroup_mem (s : State) (k : Nat) (g : Group) : (s.setGroup k g).mem = s.mem := rfl
@[simp] theorem State.setGroup_mc (s : State) (k : Nat) (g : Group) : (s.setGroup k g).mc = s.mc := rfl
@[simp] theorem State.setGroup_co (s : State) (k : Nat) (g : Group) : (s.setGroup k g).co = s.co := rfl
@[simp] theorem State.setGroup_pe (s : State) (k : Nat) (g : Group) : (s.setGroup k g).pe = s.pe := rfl
@[simp] theorem State.setGroup_program (s : State) (k : Nat) (g : Group) : (s.setGroup k g).program = s.program := rfl
@[simp] theorem State.setGroup_groups (s : State) (k : Nat) (g : Group) : (s.setGroup k g).groups = s.groups.set k g := rfl
@[simp] theorem State.setGroup_setItems (s : State) (k : Nat) (g : Group) : (s.setGroup k g).setItems = s.setItems := rfl
@[simp] theorem State.setGroup_turn (s : State) (k : Nat) (g : Group) : (s.setGroup k g).turn = s.turn := rfl
@[simp] theorem State.setGroup_draws (s : State) (k : Nat) (g : Group) : (s.setGroup k g).draws = s.draws := rfl

/-! ## State.spend -/

@[simp] theorem State.spend_platform (s : State) (g : Group) : (s.spend g).platform = s.platform := rfl
@[simp] theorem State.spend_mem (s : State) (g : Group) : (s.spend g).mem = s.mem := rfl
@[simp] theorem State.spend_mc (s : State) (g : Group) : (s.spend g).mc = s.mc := rfl
@[simp] theorem State.spend_co (s : State) (g : Group) : (s.spend g).co = s.co := rfl
@[simp] theorem State.spend_pe (s : State) (g : Group) : (s.spend g).pe = s.pe := rfl
@[simp] theorem State.spend_program (s : State) (g : Group) : (s.spend g).program = s.program := rfl
@[simp] theorem State.spend_groups (s : State) (g : Group) : (s.spend g).groups = s.groups := rfl
@[simp] theorem State.spend_setItems (s : State) (g : Group) : (s.spend g).setItems = s.setItems := rfl
@[simp] theorem State.spend_turn (s : State) (g : Group) : (s.spend g).turn = s.turn := rfl
@[simp] theorem State.spend_draws (s : State) (g : Group) : (s.spend g).draws = s.draws + drawsPerLane * g.lanes.length := rfl

/-! ## State.markSet -/

@[simp] theorem State.markSet_platform (s : State) (k : Item) : (s.markSet k).platform = s.platform := rfl
@[simp] theorem State.markSet_mem (s : State) (k : Item) : (s.markSet k).mem = s.mem := rfl
@[simp] theorem State.markSet_mc (s : State) (k : Item) : (s.markSet k).mc = s.mc := rfl
@[simp] theorem State.markSet_co (s : State) (k : Item) : (s.markSet k).co = s.co := rfl
@[simp] theorem State.markSet_pe (s : State) (k : Item) : (s.markSet k).pe = s.pe := rfl
@[simp] theorem State.markSet_program (s : State) (k : Item) : (s.markSet k).program = s.program := rfl
@[simp] theorem State.markSet_groups (s : State) (k : Item) : (s.markSet k).groups = s.groups := rfl
@[simp] theorem State.markSet_turn (s : State) (k : Item) : (s.markSet k).turn = s.turn := rfl
@[simp] theorem State.markSet_draws (s : State) (k : Item) : (s.markSet k).draws = s.draws := rfl

/-! ## State.retireCommand -/

@[simp] theorem State.retireCommand_platform (s : State) (i : Instr) : (s.retireCommand i).platform = s.platform := rfl
@[simp] theorem State.retireCommand_mem (s : State) (i : Instr) : (s.retireCommand i).mem = s.mem := rfl
@[simp] theorem State.retireCommand_mc (s : State) (i : Instr) : (s.retireCommand i).mc = s.mc := rfl
@[simp] theorem State.retireCommand_co (s : State) (i : Instr) : (s.retireCommand i).co = s.co := rfl
@[simp] theorem State.retireCommand_pe (s : State) (i : Instr) : (s.retireCommand i).pe = s.pe.advance (commandLen i) := rfl
@[simp] theorem State.retireCommand_program (s : State) (i : Instr) : (s.retireCommand i).program = s.program := rfl
@[simp] theorem State.retireCommand_groups (s : State) (i : Instr) : (s.retireCommand i).groups = s.groups := rfl
@[simp] theorem State.retireCommand_setItems (s : State) (i : Instr) : (s.retireCommand i).setItems = s.setItems := rfl
@[simp] theorem State.retireCommand_turn (s : State) (i : Instr) : (s.retireCommand i).turn = s.turn := rfl
@[simp] theorem State.retireCommand_draws (s : State) (i : Instr) : (s.retireCommand i).draws = s.draws := rfl

/-! ## State.withMem -/

@[simp] theorem State.withMem_platform (s : State) (m : MemSys) : (s.withMem m).platform = s.platform := rfl
@[simp] theorem State.withMem_mem (s : State) (m : MemSys) : (s.withMem m).mem = m := rfl
@[simp] theorem State.withMem_mc (s : State) (m : MemSys) : (s.withMem m).mc = s.mc := rfl
@[simp] theorem State.withMem_co (s : State) (m : MemSys) : (s.withMem m).co = s.co := rfl
@[simp] theorem State.withMem_pe (s : State) (m : MemSys) : (s.withMem m).pe = s.pe := rfl
@[simp] theorem State.withMem_program (s : State) (m : MemSys) : (s.withMem m).program = s.program := rfl
@[simp] theorem State.withMem_groups (s : State) (m : MemSys) : (s.withMem m).groups = s.groups := rfl
@[simp] theorem State.withMem_setItems (s : State) (m : MemSys) : (s.withMem m).setItems = s.setItems := rfl
@[simp] theorem State.withMem_turn (s : State) (m : MemSys) : (s.withMem m).turn = s.turn := rfl
@[simp] theorem State.withMem_draws (s : State) (m : MemSys) : (s.withMem m).draws = s.draws := rfl

/-! ## State.withDescs -/

@[simp] theorem State.withDescs_platform (s : State) (d : Descs) : (s.withDescs d).platform = s.platform := rfl
@[simp] theorem State.withDescs_mem (s : State) (d : Descs) : (s.withDescs d).mem = s.mem := rfl
@[simp] theorem State.withDescs_mc (s : State) (d : Descs) : (s.withDescs d).mc = { s.mc with descs := d } := rfl
@[simp] theorem State.withDescs_co (s : State) (d : Descs) : (s.withDescs d).co = s.co := rfl
@[simp] theorem State.withDescs_pe (s : State) (d : Descs) : (s.withDescs d).pe = s.pe := rfl
@[simp] theorem State.withDescs_program (s : State) (d : Descs) : (s.withDescs d).program = s.program := rfl
@[simp] theorem State.withDescs_groups (s : State) (d : Descs) : (s.withDescs d).groups = s.groups := rfl
@[simp] theorem State.withDescs_setItems (s : State) (d : Descs) : (s.withDescs d).setItems = s.setItems := rfl
@[simp] theorem State.withDescs_turn (s : State) (d : Descs) : (s.withDescs d).turn = s.turn := rfl
@[simp] theorem State.withDescs_draws (s : State) (d : Descs) : (s.withDescs d).draws = s.draws := rfl

/-! ## State.withPerf -/

@[simp] theorem State.withPerf_platform (s : State) (p : Perf) : (s.withPerf p).platform = s.platform := rfl
@[simp] theorem State.withPerf_mem (s : State) (p : Perf) : (s.withPerf p).mem = s.mem := rfl
@[simp] theorem State.withPerf_mc (s : State) (p : Perf) : (s.withPerf p).mc = s.mc := rfl
@[simp] theorem State.withPerf_co (s : State) (p : Perf) : (s.withPerf p).co = s.co := rfl
@[simp] theorem State.withPerf_pe (s : State) (p : Perf) : (s.withPerf p).pe = { s.pe with perf := p } := rfl
@[simp] theorem State.withPerf_program (s : State) (p : Perf) : (s.withPerf p).program = s.program := rfl
@[simp] theorem State.withPerf_groups (s : State) (p : Perf) : (s.withPerf p).groups = s.groups := rfl
@[simp] theorem State.withPerf_setItems (s : State) (p : Perf) : (s.withPerf p).setItems = s.setItems := rfl
@[simp] theorem State.withPerf_turn (s : State) (p : Perf) : (s.withPerf p).turn = s.turn := rfl
@[simp] theorem State.withPerf_draws (s : State) (p : Perf) : (s.withPerf p).draws = s.draws := rfl

/-! ## State.nextTurn -/

@[simp] theorem State.nextTurn_platform (s : State) : (s.nextTurn).platform = s.platform := rfl
@[simp] theorem State.nextTurn_mem (s : State) : (s.nextTurn).mem = s.mem := rfl
@[simp] theorem State.nextTurn_mc (s : State) : (s.nextTurn).mc = s.mc := rfl
@[simp] theorem State.nextTurn_co (s : State) : (s.nextTurn).co = s.co := rfl
@[simp] theorem State.nextTurn_pe (s : State) : (s.nextTurn).pe = s.pe := rfl
@[simp] theorem State.nextTurn_program (s : State) : (s.nextTurn).program = s.program := rfl
@[simp] theorem State.nextTurn_groups (s : State) : (s.nextTurn).groups = s.groups := rfl
@[simp] theorem State.nextTurn_setItems (s : State) : (s.nextTurn).setItems = s.setItems := rfl
@[simp] theorem State.nextTurn_turn (s : State) : (s.nextTurn).turn = Config.turn s.draws := rfl
@[simp] theorem State.nextTurn_draws (s : State) : (s.nextTurn).draws = s.draws + 1 := rfl

/-! ## Lane.setTemp -/

@[simp] theorem Lane.setTemp_proc (l : Lane) (n : Nat) (c : Chan) (w : Word) : (l.setTemp n c w).proc = l.proc := rfl
@[simp] theorem Lane.setTemp_i (l : Lane) (n : Nat) (c : Chan) (w : Word) : (l.setTemp n c w).i = l.i := rfl
@[simp] theorem Lane.setTemp_j (l : Lane) (n : Nat) (c : Chan) (w : Word) : (l.setTemp n c w).j = l.j := rfl
@[simp] theorem Lane.setTemp_vIn (l : Lane) (n : Nat) (c : Chan) (w : Word) : (l.setTemp n c w).vIn = l.vIn := rfl
@[simp] theorem Lane.setTemp_temps (l : Lane) (n : Nat) (c : Chan) (w : Word) : (l.setTemp n c w).temps = tabPut l.temps (regKey n c) w := rfl
@[simp] theorem Lane.setTemp_pred (l : Lane) (n : Nat) (c : Chan) (w : Word) : (l.setTemp n c w).pred = l.pred := rfl
@[simp] theorem Lane.setTemp_predSet (l : Lane) (n : Nat) (c : Chan) (w : Word) : (l.setTemp n c w).predSet = l.predSet := rfl
@[simp] theorem Lane.setTemp_ar (l : Lane) (n : Nat) (c : Chan) (w : Word) : (l.setTemp n c w).ar = l.ar := rfl
@[simp] theorem Lane.setTemp_arSet (l : Lane) (n : Nat) (c : Chan) (w : Word) : (l.setTemp n c w).arSet = l.arSet := rfl
@[simp] theorem Lane.setTemp_outs (l : Lane) (n : Nat) (c : Chan) (w : Word) : (l.setTemp n c w).outs = l.outs := rfl
@[simp] theorem Lane.setTemp_wout (l : Lane) (n : Nat) (c : Chan) (w : Word) : (l.setTemp n c w).wout = l.wout := rfl
@[simp] theorem Lane.setTemp_woutSet (l : Lane) (n : Nat) (c : Chan) (w : Word) : (l.setTemp n c w).woutSet = l.woutSet := rfl
@[simp] theorem Lane.setTemp_active (l : Lane) (n : Nat) (c : Chan) (w : Word) : (l.setTemp n c w).active = l.active := rfl
@[simp] theorem Lane.setTemp_bcnt (l : Lane) (n : Nat) (c : Chan) (w : Word) : (l.setTemp n c w).bcnt = l.bcnt := rfl
@[simp] theorem Lane.setTemp_loopOff (l : Lane) (n : Nat) (c : Chan) (w : Word) : (l.setTemp n c w).loopOff = l.loopOff := rfl
@[simp] theorem Lane.setTemp_covered (l : Lane) (n : Nat) (c : Chan) (w : Word) : (l.setTemp n c w).covered = l.covered := rfl
@[simp] theorem Lane.setTemp_semHeld (l : Lane) (n : Nat) (c : Chan) (w : Word) : (l.setTemp n c w).semHeld = l.semHeld := rfl
@[simp] theorem Lane.setTemp_texPending (l : Lane) (n : Nat) (c : Chan) (w : Word) : (l.setTemp n c w).texPending = l.texPending := rfl
@[simp] theorem Lane.setTemp_semCover (l : Lane) (n : Nat) (c : Chan) (w : Word) : (l.setTemp n c w).semCover = l.semCover := rfl
@[simp] theorem Lane.setTemp_seed (l : Lane) (n : Nat) (c : Chan) (w : Word) : (l.setTemp n c w).seed = l.seed := rfl
@[simp] theorem Lane.setTemp_outbox (l : Lane) (n : Nat) (c : Chan) (w : Word) : (l.setTemp n c w).outbox = l.outbox := rfl
@[simp] theorem Lane.setTemp_stuck (l : Lane) (n : Nat) (c : Chan) (w : Word) : (l.setTemp n c w).stuck = l.stuck := rfl

/-! ## Lane.setOut -/

@[simp] theorem Lane.setOut_proc (l : Lane) (n : Nat) (c : Chan) (w : Word) : (l.setOut n c w).proc = l.proc := rfl
@[simp] theorem Lane.setOut_i (l : Lane) (n : Nat) (c : Chan) (w : Word) : (l.setOut n c w).i = l.i := rfl
@[simp] theorem Lane.setOut_j (l : Lane) (n : Nat) (c : Chan) (w : Word) : (l.setOut n c w).j = l.j := rfl
@[simp] theorem Lane.setOut_vIn (l : Lane) (n : Nat) (c : Chan) (w : Word) : (l.setOut n c w).vIn = l.vIn := rfl
@[simp] theorem Lane.setOut_temps (l : Lane) (n : Nat) (c : Chan) (w : Word) : (l.setOut n c w).temps = l.temps := rfl
@[simp] theorem Lane.setOut_pred (l : Lane) (n : Nat) (c : Chan) (w : Word) : (l.setOut n c w).pred = l.pred := rfl
@[simp] theorem Lane.setOut_predSet (l : Lane) (n : Nat) (c : Chan) (w : Word) : (l.setOut n c w).predSet = l.predSet := rfl
@[simp] theorem Lane.setOut_ar (l : Lane) (n : Nat) (c : Chan) (w : Word) : (l.setOut n c w).ar = l.ar := rfl
@[simp] theorem Lane.setOut_arSet (l : Lane) (n : Nat) (c : Chan) (w : Word) : (l.setOut n c w).arSet = l.arSet := rfl
@[simp] theorem Lane.setOut_outs (l : Lane) (n : Nat) (c : Chan) (w : Word) : (l.setOut n c w).outs = tabPut l.outs (regKey n c) w := rfl
@[simp] theorem Lane.setOut_wout (l : Lane) (n : Nat) (c : Chan) (w : Word) : (l.setOut n c w).wout = l.wout := rfl
@[simp] theorem Lane.setOut_woutSet (l : Lane) (n : Nat) (c : Chan) (w : Word) : (l.setOut n c w).woutSet = l.woutSet := rfl
@[simp] theorem Lane.setOut_active (l : Lane) (n : Nat) (c : Chan) (w : Word) : (l.setOut n c w).active = l.active := rfl
@[simp] theorem Lane.setOut_bcnt (l : Lane) (n : Nat) (c : Chan) (w : Word) : (l.setOut n c w).bcnt = l.bcnt := rfl
@[simp] theorem Lane.setOut_loopOff (l : Lane) (n : Nat) (c : Chan) (w : Word) : (l.setOut n c w).loopOff = l.loopOff := rfl
@[simp] theorem Lane.setOut_covered (l : Lane) (n : Nat) (c : Chan) (w : Word) : (l.setOut n c w).covered = l.covered := rfl
@[simp] theorem Lane.setOut_semHeld (l : Lane) (n : Nat) (c : Chan) (w : Word) : (l.setOut n c w).semHeld = l.semHeld := rfl
@[simp] theorem Lane.setOut_texPending (l : Lane) (n : Nat) (c : Chan) (w : Word) : (l.setOut n c w).texPending = l.texPending := rfl
@[simp] theorem Lane.setOut_semCover (l : Lane) (n : Nat) (c : Chan) (w : Word) : (l.setOut n c w).semCover = l.semCover := rfl
@[simp] theorem Lane.setOut_seed (l : Lane) (n : Nat) (c : Chan) (w : Word) : (l.setOut n c w).seed = l.seed := rfl
@[simp] theorem Lane.setOut_outbox (l : Lane) (n : Nat) (c : Chan) (w : Word) : (l.setOut n c w).outbox = l.outbox := rfl
@[simp] theorem Lane.setOut_stuck (l : Lane) (n : Nat) (c : Chan) (w : Word) : (l.setOut n c w).stuck = l.stuck := rfl

/-! ## Lane.setPred -/

@[simp] theorem Lane.setPred_proc (l : Lane) (c : Chan) (b : Bool) : (l.setPred c b).proc = l.proc := rfl
@[simp] theorem Lane.setPred_i (l : Lane) (c : Chan) (b : Bool) : (l.setPred c b).i = l.i := rfl
@[simp] theorem Lane.setPred_j (l : Lane) (c : Chan) (b : Bool) : (l.setPred c b).j = l.j := rfl
@[simp] theorem Lane.setPred_vIn (l : Lane) (c : Chan) (b : Bool) : (l.setPred c b).vIn = l.vIn := rfl
@[simp] theorem Lane.setPred_temps (l : Lane) (c : Chan) (b : Bool) : (l.setPred c b).temps = l.temps := rfl
@[simp] theorem Lane.setPred_pred (l : Lane) (c : Chan) (b : Bool) : (l.setPred c b).pred = l.pred.set c b := rfl
@[simp] theorem Lane.setPred_predSet (l : Lane) (c : Chan) (b : Bool) : (l.setPred c b).predSet = l.predSet.set c true := rfl
@[simp] theorem Lane.setPred_ar (l : Lane) (c : Chan) (b : Bool) : (l.setPred c b).ar = l.ar := rfl
@[simp] theorem Lane.setPred_arSet (l : Lane) (c : Chan) (b : Bool) : (l.setPred c b).arSet = l.arSet := rfl
@[simp] theorem Lane.setPred_outs (l : Lane) (c : Chan) (b : Bool) : (l.setPred c b).outs = l.outs := rfl
@[simp] theorem Lane.setPred_wout (l : Lane) (c : Chan) (b : Bool) : (l.setPred c b).wout = l.wout := rfl
@[simp] theorem Lane.setPred_woutSet (l : Lane) (c : Chan) (b : Bool) : (l.setPred c b).woutSet = l.woutSet := rfl
@[simp] theorem Lane.setPred_active (l : Lane) (c : Chan) (b : Bool) : (l.setPred c b).active = l.active := rfl
@[simp] theorem Lane.setPred_bcnt (l : Lane) (c : Chan) (b : Bool) : (l.setPred c b).bcnt = l.bcnt := rfl
@[simp] theorem Lane.setPred_loopOff (l : Lane) (c : Chan) (b : Bool) : (l.setPred c b).loopOff = l.loopOff := rfl
@[simp] theorem Lane.setPred_covered (l : Lane) (c : Chan) (b : Bool) : (l.setPred c b).covered = l.covered := rfl
@[simp] theorem Lane.setPred_semHeld (l : Lane) (c : Chan) (b : Bool) : (l.setPred c b).semHeld = l.semHeld := rfl
@[simp] theorem Lane.setPred_texPending (l : Lane) (c : Chan) (b : Bool) : (l.setPred c b).texPending = l.texPending := rfl
@[simp] theorem Lane.setPred_semCover (l : Lane) (c : Chan) (b : Bool) : (l.setPred c b).semCover = l.semCover := rfl
@[simp] theorem Lane.setPred_seed (l : Lane) (c : Chan) (b : Bool) : (l.setPred c b).seed = l.seed := rfl
@[simp] theorem Lane.setPred_outbox (l : Lane) (c : Chan) (b : Bool) : (l.setPred c b).outbox = l.outbox := rfl
@[simp] theorem Lane.setPred_stuck (l : Lane) (c : Chan) (b : Bool) : (l.setPred c b).stuck = l.stuck := rfl

/-! ## Lane.semAcquire -/

@[simp] theorem Lane.semAcquire_proc (l : Lane) : (l.semAcquire).proc = l.proc := rfl
@[simp] theorem Lane.semAcquire_i (l : Lane) : (l.semAcquire).i = l.i := rfl
@[simp] theorem Lane.semAcquire_j (l : Lane) : (l.semAcquire).j = l.j := rfl
@[simp] theorem Lane.semAcquire_vIn (l : Lane) : (l.semAcquire).vIn = l.vIn := rfl
@[simp] theorem Lane.semAcquire_temps (l : Lane) : (l.semAcquire).temps = l.temps := rfl
@[simp] theorem Lane.semAcquire_pred (l : Lane) : (l.semAcquire).pred = l.pred := rfl
@[simp] theorem Lane.semAcquire_predSet (l : Lane) : (l.semAcquire).predSet = l.predSet := rfl
@[simp] theorem Lane.semAcquire_ar (l : Lane) : (l.semAcquire).ar = l.ar := rfl
@[simp] theorem Lane.semAcquire_arSet (l : Lane) : (l.semAcquire).arSet = l.arSet := rfl
@[simp] theorem Lane.semAcquire_outs (l : Lane) : (l.semAcquire).outs = l.outs := rfl
@[simp] theorem Lane.semAcquire_wout (l : Lane) : (l.semAcquire).wout = l.wout := rfl
@[simp] theorem Lane.semAcquire_woutSet (l : Lane) : (l.semAcquire).woutSet = l.woutSet := rfl
@[simp] theorem Lane.semAcquire_active (l : Lane) : (l.semAcquire).active = l.active := rfl
@[simp] theorem Lane.semAcquire_bcnt (l : Lane) : (l.semAcquire).bcnt = l.bcnt := rfl
@[simp] theorem Lane.semAcquire_loopOff (l : Lane) : (l.semAcquire).loopOff = l.loopOff := rfl
@[simp] theorem Lane.semAcquire_covered (l : Lane) : (l.semAcquire).covered = l.covered := rfl
@[simp] theorem Lane.semAcquire_semHeld (l : Lane) : (l.semAcquire).semHeld = true := rfl
@[simp] theorem Lane.semAcquire_texPending (l : Lane) : (l.semAcquire).texPending = l.texPending := rfl
@[simp] theorem Lane.semAcquire_semCover (l : Lane) : (l.semAcquire).semCover = l.texPending := rfl
@[simp] theorem Lane.semAcquire_seed (l : Lane) : (l.semAcquire).seed = l.seed := rfl
@[simp] theorem Lane.semAcquire_outbox (l : Lane) : (l.semAcquire).outbox = l.outbox := rfl
@[simp] theorem Lane.semAcquire_stuck (l : Lane) : (l.semAcquire).stuck = l.stuck := rfl

/-! ## Lane.dropAr -/

@[simp] theorem Lane.dropAr_proc (l : Lane) (draw : Nat) : (Lane.dropAr draw l).proc = l.proc := rfl
@[simp] theorem Lane.dropAr_i (l : Lane) (draw : Nat) : (Lane.dropAr draw l).i = l.i := rfl
@[simp] theorem Lane.dropAr_j (l : Lane) (draw : Nat) : (Lane.dropAr draw l).j = l.j := rfl
@[simp] theorem Lane.dropAr_vIn (l : Lane) (draw : Nat) : (Lane.dropAr draw l).vIn = l.vIn := rfl
@[simp] theorem Lane.dropAr_temps (l : Lane) (draw : Nat) : (Lane.dropAr draw l).temps = l.temps := rfl
@[simp] theorem Lane.dropAr_pred (l : Lane) (draw : Nat) : (Lane.dropAr draw l).pred = l.pred := rfl
@[simp] theorem Lane.dropAr_predSet (l : Lane) (draw : Nat) : (Lane.dropAr draw l).predSet = l.predSet := rfl
@[simp] theorem Lane.dropAr_ar (l : Lane) (draw : Nat) : (Lane.dropAr draw l).ar = Config.freeBool draw := rfl
@[simp] theorem Lane.dropAr_arSet (l : Lane) (draw : Nat) : (Lane.dropAr draw l).arSet = false := rfl
@[simp] theorem Lane.dropAr_outs (l : Lane) (draw : Nat) : (Lane.dropAr draw l).outs = l.outs := rfl
@[simp] theorem Lane.dropAr_wout (l : Lane) (draw : Nat) : (Lane.dropAr draw l).wout = l.wout := rfl
@[simp] theorem Lane.dropAr_woutSet (l : Lane) (draw : Nat) : (Lane.dropAr draw l).woutSet = l.woutSet := rfl
@[simp] theorem Lane.dropAr_active (l : Lane) (draw : Nat) : (Lane.dropAr draw l).active = l.active := rfl
@[simp] theorem Lane.dropAr_bcnt (l : Lane) (draw : Nat) : (Lane.dropAr draw l).bcnt = l.bcnt := rfl
@[simp] theorem Lane.dropAr_loopOff (l : Lane) (draw : Nat) : (Lane.dropAr draw l).loopOff = l.loopOff := rfl
@[simp] theorem Lane.dropAr_covered (l : Lane) (draw : Nat) : (Lane.dropAr draw l).covered = l.covered := rfl
@[simp] theorem Lane.dropAr_semHeld (l : Lane) (draw : Nat) : (Lane.dropAr draw l).semHeld = l.semHeld := rfl
@[simp] theorem Lane.dropAr_texPending (l : Lane) (draw : Nat) : (Lane.dropAr draw l).texPending = l.texPending := rfl
@[simp] theorem Lane.dropAr_semCover (l : Lane) (draw : Nat) : (Lane.dropAr draw l).semCover = l.semCover := rfl
@[simp] theorem Lane.dropAr_seed (l : Lane) (draw : Nat) : (Lane.dropAr draw l).seed = l.seed := rfl
@[simp] theorem Lane.dropAr_outbox (l : Lane) (draw : Nat) : (Lane.dropAr draw l).outbox = l.outbox := rfl
@[simp] theorem Lane.dropAr_stuck (l : Lane) (draw : Nat) : (Lane.dropAr draw l).stuck = l.stuck := rfl

/-! ## Group.start -/

@[simp] theorem Group.start_env (env : Snapshot) (l : Lane) : (Group.start env l).env = env := rfl
@[simp] theorem Group.start_pc (env : Snapshot) (l : Lane) : (Group.start env l).pc = env.prog.startSlot := rfl
@[simp] theorem Group.start_loopStack (env : Snapshot) (l : Lane) : (Group.start env l).loopStack = [] := rfl
@[simp] theorem Group.start_addrStack (env : Snapshot) (l : Lane) : (Group.start env l).addrStack = [] := rfl
@[simp] theorem Group.start_aluPending (env : Snapshot) (l : Lane) : (Group.start env l).aluPending = [] := rfl
@[simp] theorem Group.start_prev (env : Snapshot) (l : Lane) : (Group.start env l).prev = .none := rfl
@[simp] theorem Group.start_started (env : Snapshot) (l : Lane) : (Group.start env l).started = false := rfl
@[simp] theorem Group.start_halted (env : Snapshot) (l : Lane) : (Group.start env l).halted = false := rfl
@[simp] theorem Group.start_lanes (env : Snapshot) (l : Lane) : (Group.start env l).lanes = [l] := rfl

/-! ## A stuck agent -/

@[simp] theorem State.peStuck_platform (s : State) (m : MemSys) : (s.peStuck m).platform = s.platform := rfl
@[simp] theorem State.peStuck_mem (s : State) (m : MemSys) : (s.peStuck m).mem = m := rfl
@[simp] theorem State.peStuck_mc (s : State) (m : MemSys) : (s.peStuck m).mc = s.mc := rfl
@[simp] theorem State.peStuck_co (s : State) (m : MemSys) : (s.peStuck m).co = s.co := rfl
@[simp] theorem State.peStuck_pe (s : State) (m : MemSys) : (s.peStuck m).pe = { s.pe with stuck := true } := rfl
@[simp] theorem State.peStuck_program (s : State) (m : MemSys) : (s.peStuck m).program = s.program := rfl
@[simp] theorem State.peStuck_groups (s : State) (m : MemSys) : (s.peStuck m).groups = s.groups := rfl
@[simp] theorem State.peStuck_setItems (s : State) (m : MemSys) : (s.peStuck m).setItems = s.setItems := rfl
@[simp] theorem State.peStuck_turn (s : State) (m : MemSys) : (s.peStuck m).turn = s.turn := rfl
@[simp] theorem State.peStuck_draws (s : State) (m : MemSys) : (s.peStuck m).draws = s.draws := rfl

@[simp] theorem State.distStuck_platform (s : State) (m : MemSys) : (s.distStuck m).platform = s.platform := rfl
@[simp] theorem State.distStuck_mem (s : State) (m : MemSys) : (s.distStuck m).mem = m := rfl
@[simp] theorem State.distStuck_mc (s : State) (m : MemSys) : (s.distStuck m).mc = s.mc := rfl
@[simp] theorem State.distStuck_co (s : State) (m : MemSys) : (s.distStuck m).co = { s.co with stuck := true } := rfl
@[simp] theorem State.distStuck_pe (s : State) (m : MemSys) : (s.distStuck m).pe = { s.pe with distStuck := true } := rfl
@[simp] theorem State.distStuck_program (s : State) (m : MemSys) : (s.distStuck m).program = s.program := rfl
@[simp] theorem State.distStuck_groups (s : State) (m : MemSys) : (s.distStuck m).groups = s.groups := rfl
@[simp] theorem State.distStuck_setItems (s : State) (m : MemSys) : (s.distStuck m).setItems = s.setItems := rfl
@[simp] theorem State.distStuck_turn (s : State) (m : MemSys) : (s.distStuck m).turn = s.turn := rfl
@[simp] theorem State.distStuck_draws (s : State) (m : MemSys) : (s.distStuck m).draws = s.draws := rfl

@[simp] theorem State.groupStuck_platform (s : State) (k : Nat) (m : MemSys) : (s.groupStuck k m).platform = s.platform := rfl
@[simp] theorem State.groupStuck_mem (s : State) (k : Nat) (m : MemSys) : (s.groupStuck k m).mem = m := rfl
@[simp] theorem State.groupStuck_mc (s : State) (k : Nat) (m : MemSys) : (s.groupStuck k m).mc = s.mc := rfl
@[simp] theorem State.groupStuck_co (s : State) (k : Nat) (m : MemSys) : (s.groupStuck k m).co = s.co := rfl
@[simp] theorem State.groupStuck_pe (s : State) (k : Nat) (m : MemSys) : (s.groupStuck k m).pe = s.pe := rfl
@[simp] theorem State.groupStuck_program (s : State) (k : Nat) (m : MemSys) : (s.groupStuck k m).program = s.program := rfl
@[simp] theorem State.groupStuck_setItems (s : State) (k : Nat) (m : MemSys) : (s.groupStuck k m).setItems = s.setItems := rfl
@[simp] theorem State.groupStuck_turn (s : State) (k : Nat) (m : MemSys) : (s.groupStuck k m).turn = s.turn := rfl
@[simp] theorem State.groupStuck_draws (s : State) (k : Nat) (m : MemSys) : (s.groupStuck k m).draws = s.draws := rfl

@[simp] theorem State.laneStuck_platform (s : State) (k n : Nat) (m : MemSys) : (s.laneStuck k n m).platform = s.platform := rfl
@[simp] theorem State.laneStuck_mem (s : State) (k n : Nat) (m : MemSys) : (s.laneStuck k n m).mem = m := rfl
@[simp] theorem State.laneStuck_mc (s : State) (k n : Nat) (m : MemSys) : (s.laneStuck k n m).mc = s.mc := rfl
@[simp] theorem State.laneStuck_co (s : State) (k n : Nat) (m : MemSys) :
    (s.laneStuck k n m).co = { s.co with stuck := s.co.stuck || s.atRequest k n } := rfl
@[simp] theorem State.laneStuck_pe (s : State) (k n : Nat) (m : MemSys) : (s.laneStuck k n m).pe = s.pe := rfl
@[simp] theorem State.laneStuck_program (s : State) (k n : Nat) (m : MemSys) : (s.laneStuck k n m).program = s.program := rfl
@[simp] theorem State.laneStuck_setItems (s : State) (k n : Nat) (m : MemSys) : (s.laneStuck k n m).setItems = s.setItems := rfl
@[simp] theorem State.laneStuck_turn (s : State) (k n : Nat) (m : MemSys) : (s.laneStuck k n m).turn = s.turn := rfl
@[simp] theorem State.laneStuck_draws (s : State) (k n : Nat) (m : MemSys) : (s.laneStuck k n m).draws = s.draws := rfl

/-- The group that gets stuck is that whose turn it is. -/
theorem State.turnStuck_eq {s : State} {k : Nat} (h : s.turn = .group k) (m : MemSys) : s.turnStuck m = s.groupStuck k m := by
  simp [State.turnStuck, h]

/-! ## The caches of the read-only clients -/

@[simp] theorem MemSys.cache_setCache (m : MemSys) (k : ReadClient) (c : ReadCache) : (m.setCache k c).cache k = c := by cases k <;> rfl
@[simp] theorem MemSys.setCache_ram (m : MemSys) (k : ReadClient) (c : ReadCache) : (m.setCache k c).ram = m.ram := by cases k <;> rfl
@[simp] theorem MemSys.setCache_out (m : MemSys) (k : ReadClient) (c : ReadCache) : (m.setCache k c).out = m.out := by cases k <;> rfl
@[simp] theorem MemSys.setCache_cond (m : MemSys) (k : ReadClient) (c : ReadCache) : (m.setCache k c).cond = m.cond := by cases k <;> rfl
@[simp] theorem MemSys.setCache_setCache (m : MemSys) (k : ReadClient) (c c2 : ReadCache) : (m.setCache k c).setCache k c2 = m.setCache k c2 := by cases k <;> rfl

/-! ## Updates with a condition -/

@[simp] theorem State.addLaunch_groups (s : State) (l : Launch) : (s.addLaunch l).groups = s.groups := by
  unfold State.addLaunch; split <;> rfl
@[simp] theorem State.addLaunch_mem (s : State) (l : Launch) : (s.addLaunch l).mem = s.mem := by
  unfold State.addLaunch; split <;> rfl
@[simp] theorem State.addLaunch_mc (s : State) (l : Launch) : (s.addLaunch l).mc = s.mc := by
  unfold State.addLaunch; split <;> rfl
@[simp] theorem State.addLaunch_co (s : State) (l : Launch) : (s.addLaunch l).co = s.co := by
  unfold State.addLaunch; split <;> rfl
@[simp] theorem State.addLaunch_program (s : State) (l : Launch) : (s.addLaunch l).program = s.program := by
  unfold State.addLaunch; split <;> rfl
@[simp] theorem State.addLaunch_platform (s : State) (l : Launch) : (s.addLaunch l).platform = s.platform := by
  unfold State.addLaunch; split <;> rfl

/-- The wait for the semaphore touches only the semaphore's own fields (R367). -/
theorem Lane.semWait_eq (l : Lane) :
    l.semWait = { l with texPending := l.semWait.texPending, semCover := l.semWait.semCover, semHeld := l.semWait.semHeld } := by
  unfold Lane.semWait; split <;> rfl

@[simp] theorem Lane.semWait_temps (l : Lane) : l.semWait.temps = l.temps := by unfold Lane.semWait; split <;> rfl
@[simp] theorem Lane.semWait_pred (l : Lane) : l.semWait.pred = l.pred := by unfold Lane.semWait; split <;> rfl
@[simp] theorem Lane.semWait_outs (l : Lane) : l.semWait.outs = l.outs := by unfold Lane.semWait; split <;> rfl
@[simp] theorem Lane.semWait_active (l : Lane) : l.semWait.active = l.active := by unfold Lane.semWait; split <;> rfl
@[simp] theorem Lane.semWait_bcnt (l : Lane) : l.semWait.bcnt = l.bcnt := by unfold Lane.semWait; split <;> rfl
@[simp] theorem Lane.semWait_loopOff (l : Lane) : l.semWait.loopOff = l.loopOff := by unfold Lane.semWait; split <;> rfl
@[simp] theorem Lane.semWait_covered (l : Lane) : l.semWait.covered = l.covered := by unfold Lane.semWait; split <;> rfl
@[simp] theorem Lane.semWait_proc (l : Lane) : l.semWait.proc = l.proc := by unfold Lane.semWait; split <;> rfl
@[simp] theorem Lane.semWait_seed (l : Lane) : l.semWait.seed = l.seed := by unfold Lane.semWait; split <;> rfl
@[simp] theorem Lane.semWait_outbox (l : Lane) : l.semWait.outbox = l.outbox := by unfold Lane.semWait; split <;> rfl
@[simp] theorem Lane.semWait_stuck (l : Lane) : l.semWait.stuck = l.stuck := by unfold Lane.semWait; split <;> rfl
@[simp] theorem Lane.semWait_i (l : Lane) : l.semWait.i = l.i := by unfold Lane.semWait; split <;> rfl
@[simp] theorem Lane.semWait_j (l : Lane) : l.semWait.j = l.j := by unfold Lane.semWait; split <;> rfl
@[simp] theorem Lane.semWait_semHeld (l : Lane) : l.semWait.semHeld = false := by
  unfold Lane.semWait; split
  · rfl
  · rename_i h; simpa using h

end Sys2Proof.Machine
end

