-- ==== Sys2Proof/Laws/Ops.lean ====
section
/-! SUPPORT. For each shared operation, what it can do: the lemmas that proofs cite instead of unfolding it. -/

namespace Sys2Proof.Machine

/-! ## Results -/

@[simp] theorem conclude_ok (mark : MemSys → State) (t : State) : conclude mark (.ok t) = .next t := rfl

@[simp] theorem conclude_fault (mark : MemSys → State) (f : Fault) : conclude mark (.error (.fault f)) = .fault f := rfl

@[simp] theorem conclude_refuse (mark : MemSys → State) (f : Refusal) : conclude mark (.error (.refuse f)) = .refused f := rfl

@[simp] theorem conclude_stuck (mark : MemSys → State) (m : MemSys) : conclude mark (.error (.stuck m)) = .next (mark m) := rfl

/-- A next state is the result, or the state with the agent marked as stuck. -/
theorem conclude_eq_next {mark : MemSys → State} {r : Res State} {t : State} :
    conclude mark r = .next t ↔ r = .ok t ∨ ∃ m, r = .error (.stuck m) ∧ t = mark m := by
  rcases r with e | a
  · cases e <;> simp [eq_comm]
  · simp

@[simp] theorem conclude_eq_fault (mark : MemSys → State) (r : Res State) (f : Fault) :
    conclude mark r = .fault f ↔ r = .error (.fault f) := by
  rcases r with e | a
  · cases e <;> simp
  · simp

@[simp] theorem conclude_eq_refused (mark : MemSys → State) (r : Res State) (f : Refusal) :
    conclude mark r = .refused f ↔ r = .error (.refuse f) := by
  rcases r with e | a
  · cases e <;> simp
  · simp

@[simp] theorem require_eq_ok (c : Bool) (f : Fault) (u : Unit) : require c f = .ok u ↔ c = true := by
  unfold require; split <;> simp_all

@[simp] theorem accept_eq_ok (c : Bool) (r : Refusal) (u : Unit) : accept c r = .ok u ↔ c = true := by
  unfold accept; split <;> simp_all

/-- The value of a chain of results. -/
theorem bind_eq_ok {α β : Type} (x : Res α) (f : α → Res β) (b : β) :
    (x >>= f) = .ok b ↔ ∃ a, x = .ok a ∧ f a = .ok b := by
  rcases x with e | a <;> simp [bind, Except.bind]

/-- A chain is stuck where its first part is, or where the rest is. -/
theorem bind_eq_stuck {α β : Type} (x : Res α) (f : α → Res β) (m : MemSys) :
    (x >>= f) = .error (.stuck m) ↔ x = .error (.stuck m) ∨ ∃ a, x = .ok a ∧ f a = .error (.stuck m) := by
  rcases x with e | a <;> simp [bind, Except.bind]

/-- A chain whose first part has a value goes on with it. -/
@[simp] theorem ok_bind {α β : Type} (a : α) (f : α → Res β) : ((Except.ok a : Res α) >>= f) = f a := rfl

@[simp] theorem error_bind {α β : Type} (e : Stop) (f : α → Res β) : ((Except.error e : Res α) >>= f) = .error e := rfl

@[simp] theorem pure_ok {α : Type} (a : α) : (pure a : Res α) = .ok a := rfl

/-! ## Tables -/

@[simp] theorem tabFind_nil {α : Type} (k : Nat) : tabFind ([] : List (Nat × α)) k = none := rfl

/-- Reading a key after setting one. -/
theorem tabFind_tabPut {α : Type} (t : List (Nat × α)) (k k' : Nat) (v : α) :
    tabFind (tabPut t k v) k' = if k = k' then some v else tabFind t k' := by
  induction t with
  | nil => simp [tabPut, tabFind]
  | cons c rest ih =>
    obtain ⟨a, w⟩ := c
    unfold tabPut
    split
    · simp only [tabFind]
    · split
      · rename_i h; subst h; simp only [tabFind]; split <;> rfl
      · simp only [tabFind, ih]
        split
        · rename_i h1; subst h1; rename_i h2; rw [if_neg (fun h => h2 h.symm)]
        · rfl

/-- The order of a table as a pairwise statement. -/
theorem tabSorted_iff {α : Type} (t : List (Nat × α)) : tabSorted t = true ↔ t.Pairwise (fun a b => a.1 < b.1) := by
  induction t with
  | nil => simp [tabSorted]
  | cons c rest ih =>
    cases rest with
    | nil => simp [tabSorted]
    | cons d rest' =>
      obtain ⟨a, v⟩ := c
      obtain ⟨b, w⟩ := d
      simp only [tabSorted, Bool.and_eq_true, decide_eq_true_eq, ih]
      constructor
      · rintro ⟨h, hp⟩
        refine List.Pairwise.cons ?_ hp
        intro x hx
        rcases List.mem_cons.1 hx with rfl | hx
        · exact h
        · exact lt_trans h ((List.pairwise_cons.1 hp).1 x hx)
      · intro hp
        exact ⟨(List.pairwise_cons.1 hp).1 (b, w) (by simp), (List.pairwise_cons.1 hp).2⟩

/-- What lies in a table after a key is set. -/
theorem mem_tabPut {α : Type} {t : List (Nat × α)} {k : Nat} {v : α} {c : Nat × α} (h : c ∈ tabPut t k v) :
    c = (k, v) ∨ c ∈ t := by
  induction t with
  | nil => simpa [tabPut] using h
  | cons d rest ih =>
    obtain ⟨a, w⟩ := d
    unfold tabPut at h
    split at h
    · rcases List.mem_cons.1 h with h | h
      · exact .inl h
      · exact .inr h
    · split at h
      · rcases List.mem_cons.1 h with h | h
        · exact .inl h
        · exact .inr (List.mem_cons_of_mem _ h)
      · rcases List.mem_cons.1 h with h | h
        · exact .inr (h ▸ List.mem_cons_self)
        · exact (ih h).imp_right (List.mem_cons_of_mem _)

/-- What lies in a table after a key is removed lay there before. -/
theorem mem_tabDel {α : Type} {t : List (Nat × α)} {k : Nat} {c : Nat × α} (h : c ∈ tabDel t k) : c ∈ t := by
  induction t with
  | nil => simp [tabDel] at h
  | cons d rest ih =>
    obtain ⟨a, w⟩ := d
    unfold tabDel at h
    split at h
    · exact List.mem_cons_of_mem _ h
    · rcases List.mem_cons.1 h with h | h
      · exact h ▸ List.mem_cons_self
      · exact List.mem_cons_of_mem _ (ih h)

/-- Setting a key keeps the order. -/
theorem tabSorted_tabPut {α : Type} {t : List (Nat × α)} (k : Nat) (v : α) (h : tabSorted t = true) :
    tabSorted (tabPut t k v) = true := by
  rw [tabSorted_iff] at h ⊢
  induction t with
  | nil => simp [tabPut]
  | cons d rest ih =>
    obtain ⟨a, w⟩ := d
    obtain ⟨h1, h2⟩ := List.pairwise_cons.1 h
    unfold tabPut
    split
    · rename_i hk
      refine List.Pairwise.cons ?_ h
      intro x hx
      rcases List.mem_cons.1 hx with rfl | hx
      · exact hk
      · exact lt_trans hk (h1 x hx)
    · rename_i hk
      split
      · rename_i e; subst e; exact List.Pairwise.cons (fun x hx => h1 x hx) h2
      · rename_i hne
        refine List.Pairwise.cons ?_ (ih h2)
        intro x hx
        rcases mem_tabPut hx with rfl | hx
        · simp only; omega
        · exact h1 x hx

/-- Removing a key keeps the order. -/
theorem tabSorted_tabDel {α : Type} {t : List (Nat × α)} (k : Nat) (h : tabSorted t = true) :
    tabSorted (tabDel t k) = true := by
  rw [tabSorted_iff] at h ⊢
  induction t with
  | nil => simp [tabDel]
  | cons d rest ih =>
    obtain ⟨a, w⟩ := d
    obtain ⟨h1, h2⟩ := List.pairwise_cons.1 h
    unfold tabDel
    split
    · exact h2
    · exact List.Pairwise.cons (fun x hx => h1 x (mem_tabDel hx)) (ih h2)

/-- A key below every key of a table is not in it. -/
theorem tabFind_eq_none {α : Type} {t : List (Nat × α)} {k : Nat} (h : ∀ c ∈ t, c.1 ≠ k) : tabFind t k = none := by
  induction t with
  | nil => rfl
  | cons d rest ih =>
    obtain ⟨a, w⟩ := d
    have ha : a ≠ k := h (a, w) List.mem_cons_self
    simp only [tabFind, ha, if_false]
    exact ih fun c hc => h c (List.mem_cons_of_mem _ hc)

/-- Reading a key after removing one from an ordered table. -/
theorem tabFind_tabDel {α : Type} {t : List (Nat × α)} (k k' : Nat) (h : tabSorted t = true) :
    tabFind (tabDel t k) k' = if k = k' then none else tabFind t k' := by
  rw [tabSorted_iff] at h
  induction t with
  | nil => simp [tabDel]
  | cons d rest ih =>
    obtain ⟨a, w⟩ := d
    obtain ⟨h1, h2⟩ := List.pairwise_cons.1 h
    unfold tabDel
    split
    · rename_i e
      subst e
      split
      · rename_i e; subst e
        exact tabFind_eq_none fun c hc => Nat.ne_of_gt (h1 c hc)
      · rename_i hne; simp [tabFind, hne]
    · rename_i hne
      simp only [tabFind, ih h2]
      split
      · rename_i e; subst e
        rw [if_neg (fun h => hne h.symm)]
      · rfl

/-! ## Byte tables and memory -/

/-- Putting bytes into a table, read at one address: the last byte put there counts. -/
theorem tabFind_putBytes_cons (t : List Host.Cell) (c : Host.Cell) (ws : List Host.Cell) :
    putBytes t (c :: ws) = putBytes (tabPut t c.1 c.2) ws := rfl

theorem bytesWf_iff (t : List Host.Cell) : bytesWf t = true ↔ tabSorted t = true ∧ ∀ c ∈ t, c.1 < 2 ^ 32 := by
  simp only [bytesWf, Bool.and_eq_true, List.all_eq_true, decide_eq_true_eq]

theorem bytesWf_tabPut {t : List Host.Cell} {a : Nat} (b : Byte) (h : bytesWf t = true) (ha : a < 2 ^ 32) :
    bytesWf (tabPut t a b) = true := by
  rw [bytesWf_iff] at h ⊢
  refine ⟨tabSorted_tabPut a b h.1, fun c hc => ?_⟩
  rcases mem_tabPut hc with rfl | hc
  · exact ha
  · exact h.2 c hc

theorem bytesWf_tabDel {t : List Host.Cell} (a : Nat) (h : bytesWf t = true) : bytesWf (tabDel t a) = true := by
  rw [bytesWf_iff] at h ⊢
  exact ⟨tabSorted_tabDel a h.1, fun c hc => h.2 c (mem_tabDel hc)⟩

theorem bytesWf_putBytes {t ws : List Host.Cell} (h : bytesWf t = true) (hw : ∀ c ∈ ws, c.1 < 2 ^ 32) :
    bytesWf (putBytes t ws) = true := by
  induction ws generalizing t with
  | nil => exact h
  | cons c rest ih =>
    exact ih (bytesWf_tabPut c.2 h (hw c List.mem_cons_self)) fun d hd => hw d (List.mem_cons_of_mem _ hd)

/-- The content of a cache at reset is a byte table, whatever it is (R41). -/
theorem bytesWf_tableOf (cs : List (Word × Byte)) : bytesWf (tableOf cs) = true := by
  have h : ∀ (cs : List (Word × Byte)) (t : List Host.Cell), bytesWf t = true →
      bytesWf (cs.foldl (fun t c => tabPut t c.1.toNat c.2) t) = true := by
    intro cs
    induction cs with
    | nil => exact fun _ h => h
    | cons c rest ih => exact fun t h => ih _ (bytesWf_tabPut c.2 h c.1.isLt)
  exact h cs [] rfl

theorem Memory.wf_iff (m : Memory) : m.wf = true ↔ bytesWf m = true ∧ ∀ c ∈ m, c.2 ≠ Memory.unlisted := by
  simp only [Memory.wf, Bool.and_eq_true, List.all_eq_true, decide_eq_true_eq]

/-- A store keeps the canonical form. -/
theorem Memory.wf_set {m : Memory} {a : Nat} (b : Byte) (h : m.wf = true) (ha : a < 2 ^ 32) : (m.set a b).wf = true := by
  rw [Memory.wf_iff] at h ⊢
  unfold Memory.set
  split
  · exact ⟨bytesWf_tabDel a h.1, fun c hc => h.2 c (mem_tabDel hc)⟩
  · rename_i hb
    refine ⟨bytesWf_tabPut b h.1 ha, fun c hc => ?_⟩
    rcases mem_tabPut hc with rfl | hc
    · exact hb
    · exact h.2 c hc

/-- Reading a byte after a store. -/
theorem Memory.get_set {m : Memory} (a a' : Nat) (b : Byte) (h : tabSorted m = true) :
    (m.set a b).get a' = if a = a' then b else m.get a' := by
  unfold Memory.get Memory.set
  split
  · rename_i hb
    rw [tabFind_tabDel a a' h]
    split
    · simp [hb]
    · rfl
  · rw [tabFind_tabPut]
    split <;> rfl

/-! ## Main memory through the MC -/

/-- Only 32-bit addresses are mapped (R71). -/
theorem Platform.mapped_lt {p : Platform} {a : Nat} (h : p.mapped a = true) : a < 2 ^ 32 := by
  unfold Platform.mapped Platform.kind at h
  split at h
  · assumption
  · cases h

/-- All that a write of one byte can do when it is not stuck or refused. -/
theorem ramWrite_eq_ok {s t : State} {a : Nat} {b : Byte} (h : ramWrite s a b = .ok t) :
    s.platform.mapped a = true ∧ t = { s with mem := { s.mem with ram := s.mem.ram.set a b } } := by
  unfold ramWrite at h
  split at h
  · cases h
  · split at h
    · cases h
    · split at h
      · cases h
      · rename_i hm _ _
        refine ⟨by simpa using hm, ?_⟩
        simpa using h.symm

/-- A write of one byte goes through where the address may be written (R81, R104, R105). -/
theorem ramWrite_ok {s : State} {a : Nat} (b : Byte) (h : writable s a) :
    ramWrite s a b = .ok { s with mem := { s.mem with ram := s.mem.ram.set a b } } := by
  obtain ⟨h1, h2⟩ := h
  have ht : s.groups.any (fun g => g.env.holdsText a) = false := by
    rw [List.any_eq_false]; exact fun g hg => by simp [(h2 g hg).2]
  cases hg : s.groups with
  | nil => simp [ramWrite, h1, hg]
  | cons g rest =>
    have hc := (h2 g (by rw [hg]; exact List.mem_cons_self)).1
    rw [hg] at ht
    simp [ramWrite, h1, hg, hc, ht]

/-- Several writes change main memory only. -/
theorem ramWriteAll_eq_ok {cs : List Host.Cell} {s t : State} (h : ramWriteAll s cs = .ok t) :
    t = { s with mem := { s.mem with ram := cs.foldl (fun m c => m.set c.1 c.2) s.mem.ram } } := by
  induction cs generalizing s with
  | nil => simp [ramWriteAll] at h; simp [h]
  | cons c rest ih =>
    unfold ramWriteAll at h
    split at h
    · cases h
    · rename_i s1 hs
      obtain ⟨-, rfl⟩ := ramWrite_eq_ok hs
      rw [ih h]
      rfl

/-- Several writes go through where every address may be written. -/
theorem ramWriteAll_ok {cs : List Host.Cell} {s : State} (h : ∀ c ∈ cs, writable s c.1) :
    ramWriteAll s cs = .ok { s with mem := { s.mem with ram := cs.foldl (fun m c => m.set c.1 c.2) s.mem.ram } } := by
  induction cs generalizing s with
  | nil => simp [ramWriteAll]
  | cons c rest ih =>
    unfold ramWriteAll
    rw [ramWrite_ok c.2 (h c List.mem_cons_self)]
    exact ih (s := { s with mem := { s.mem with ram := s.mem.ram.set c.1 c.2 } }) fun d hd => h d (List.mem_cons_of_mem _ hd)

/-- Every address of an element is below 2^32. -/
theorem elementAddrs_lt {d : Desc} {h : Option Nat} {x y : Nat} {as : List Nat} (he : elementAddrs d h x y = .ok as) :
    ∀ a ∈ as, a < 2 ^ 32 := by
  unfold elementAddrs at he
  split at he
  · cases he
  · split at he
    · simp only [Except.ok.injEq] at he
      subst he
      intro a ha
      obtain ⟨n, -, rfl⟩ := List.mem_map.1 ha
      exact Nat.mod_lt _ (by decide)
    · cases he

/-! ## Caches -/

theorem ReadCache.read_wf {ram : Memory} {c : ReadCache} {a : Nat} (h : bytesWf c.bytes = true) (ha : a < 2 ^ 32) :
    bytesWf (c.read ram a).2.bytes = true := by
  unfold ReadCache.read
  split
  · exact h
  · exact bytesWf_tabPut _ h ha

theorem ReadCache.readAll_wf {ram : Memory} {as : List Nat} {c : ReadCache} (h : bytesWf c.bytes = true)
    (ha : ∀ a ∈ as, a < 2 ^ 32) : bytesWf (ReadCache.readAll ram c as).2.bytes = true := by
  induction as generalizing c with
  | nil => exact h
  | cons a rest ih =>
    simp only [ReadCache.readAll]
    exact ih (ReadCache.read_wf h (ha a List.mem_cons_self)) fun b hb => ha b (List.mem_cons_of_mem _ hb)

/-- A byte that the cache holds is what a read returns, whatever memory holds (R95, R96). -/
theorem ReadCache.read_hit {ram : Memory} {c : ReadCache} {a : Nat} {b : Byte} (h : tabFind c.bytes a = some b) :
    c.read ram a = (b, c) := by simp [ReadCache.read, h]

/-- A cache that lacks a byte takes it from memory (R95). -/
theorem ReadCache.read_miss {ram : Memory} {c : ReadCache} {a : Nat} (h : tabFind c.bytes a = none) :
    c.read ram a = (ram.get a, { bytes := tabPut c.bytes a (ram.get a) }) := by
  simp [ReadCache.read, h]

theorem ReadCache.filled_refl (c : ReadCache) (ram : Memory) : c.filled c ram := fun _ => .inl rfl

/-- A cache that was filled from memory shows the same bytes (R95). -/
theorem ReadCache.filled.seen_eq {c c' : ReadCache} {ram : Memory} (h : c.filled c' ram) : seen c' ram = seen c ram := by
  funext a
  unfold seen
  rcases h a with e | ⟨e1, e2⟩
  · rw [e]
  · rw [e1, e2]; rfl

theorem ReadCache.filled.trans {c c' c'' : ReadCache} {ram : Memory} (h : c.filled c' ram) (h' : c'.filled c'' ram) :
    c.filled c'' ram := by
  intro a
  rcases h a with e | ⟨e1, e2⟩ <;> rcases h' a with e' | ⟨e1', e2'⟩
  · exact .inl (e'.trans e)
  · exact .inr ⟨by rw [← e, e1'], e2'⟩
  · exact .inr ⟨e1, by rw [e', e2]⟩
  · rw [e2] at e1'; cases e1'

/-- What a read of one byte does: it shows the byte that is seen there and fills the cache from memory. -/
theorem ReadCache.read_spec (ram : Memory) (c : ReadCache) (a : Nat) :
    (c.read ram a).1 = seen c ram a ∧ c.filled (c.read ram a).2 ram := by
  unfold ReadCache.read
  split
  · rename_i b h
    exact ⟨by simp [seen, h], c.filled_refl ram⟩
  · rename_i h
    refine ⟨by simp [seen, h], fun x => ?_⟩
    rw [tabFind_tabPut]
    split
    · rename_i e; subst e; exact .inr ⟨h, rfl⟩
    · exact .inl rfl

/-- What reads of several bytes do. -/
theorem ReadCache.readAll_spec (ram : Memory) (as : List Nat) (c : ReadCache) :
    (c.readAll ram as).1 = as.map (seen c ram) ∧ c.filled (c.readAll ram as).2 ram := by
  induction as generalizing c with
  | nil => exact ⟨rfl, c.filled_refl ram⟩
  | cons a rest ih =>
    obtain ⟨h1, h2⟩ := c.read_spec ram a
    obtain ⟨h3, h4⟩ := ih (c.read ram a).2
    simp only [ReadCache.readAll]
    exact ⟨by rw [h1, h3, h2.seen_eq]; rfl, h2.trans h4⟩

/-- What reads of several bytes by the CO do (R101). -/
theorem CondCache.readAll_spec (ram : Memory) (as : List Nat) (c : CondCache) :
    (c.readAll ram as).1 = as.map (c.seen ram) ∧ c.filled (c.readAll ram as).2 ram := by
  induction as generalizing c with
  | nil => exact ⟨rfl, rfl, c.clean.filled_refl ram⟩
  | cons a rest ih =>
    have one : (c.read ram a).1 = c.seen ram a ∧ c.filled (c.read ram a).2 ram := by
      unfold CondCache.read CondCache.seen
      cases h : tabFind c.dirty a with
      | some b => exact ⟨rfl, rfl, c.clean.filled_refl ram⟩
      | none => exact ⟨(c.clean.read_spec ram a).1, rfl, (c.clean.read_spec ram a).2⟩
    obtain ⟨h1, h2, h3⟩ := one
    obtain ⟨h4, h5, h6⟩ := ih (c.read ram a).2
    have hs : CondCache.seen (c.read ram a).2 ram = c.seen ram := by
      funext x
      unfold CondCache.seen
      rw [h2, h3.seen_eq]
    simp only [CondCache.readAll]
    exact ⟨by rw [h1, h4, hs]; rfl, h5.trans h2, h3.trans h6⟩

/-- All that the read of one element can do: it shows the bytes seen at the element's addresses and fills one cache (R95). -/
theorem readElement_eq_ok {p : Platform} {mem mem' : MemSys} {k : ReadClient} {d : Desc} {h : Option Nat} {x y : Nat}
    {bs : List Byte} (hr : readElement p mem k d h x y = .ok (bs, mem')) :
    ∃ as c, elementAddrs d h x y = .ok as ∧ as.all p.mapped = true ∧ bs = as.map (seen (mem.cache k) mem.ram) ∧
      mem' = mem.setCache k c ∧ (mem.cache k).filled c mem.ram := by
  unfold readElement at hr
  split at hr
  · cases hr
  · rename_i as he
    unfold readBytes at hr
    split at hr
    · rename_i hm
      obtain ⟨h1, h2⟩ := (mem.cache k).readAll_spec mem.ram as
      simp only [Except.ok.injEq, Prod.mk.injEq] at hr
      exact ⟨as, _, he, hm, by rw [← hr.1, h1], hr.2.symm, h2⟩
    · cases hr

/-- Where an element's addresses exist and are mapped its read answers. -/
theorem readElement_ok {p : Platform} {mem : MemSys} {k : ReadClient} {d : Desc} {h : Option Nat} {x y : Nat} {as : List Nat}
    (he : elementAddrs d h x y = .ok as) (hm : as.all p.mapped = true) :
    ∃ c, readElement p mem k d h x y = .ok (as.map (seen (mem.cache k) mem.ram), mem.setCache k c) ∧
      (mem.cache k).filled c mem.ram := by
  obtain ⟨h1, h2⟩ := (mem.cache k).readAll_spec mem.ram as
  exact ⟨_, by simp only [readElement, he, readBytes, hm, if_true]; rw [h1], h2⟩

/-- A read that finds a byte of its element unmapped is stuck, and has changed no cache (R81). -/
theorem readElement_unmapped {p : Platform} {mem : MemSys} {k : ReadClient} {d : Desc} {h : Option Nat} {x y a : Nat}
    {as : List Nat} (he : elementAddrs d h x y = .ok as) (ha : a ∈ as) (hm : p.mapped a = false) :
    readElement p mem k d h x y = .error (.stuck mem) := by
  have hall : as.all p.mapped = false := by rw [List.all_eq_false]; exact ⟨a, ha, by simp [hm]⟩
  simp [readElement, readBytes, he, hall]

/-- Only an unmapped byte of its element makes a read stuck (R81). -/
theorem readElement_eq_stuck {p : Platform} {mem m : MemSys} {k : ReadClient} {d : Desc} {h : Option Nat} {x y : Nat}
    (hr : readElement p mem k d h x y = .error (.stuck m)) :
    m = mem ∧ ∃ as, elementAddrs d h x y = .ok as ∧ ∃ a ∈ as, p.mapped a = false := by
  unfold readElement at hr
  split at hr
  · rename_i e he
    simp only [Except.error.injEq] at hr
    subst hr
    exfalso
    revert he
    unfold elementAddrs
    split_ifs <;> simp <;> split <;> simp
  · rename_i as he
    unfold readBytes at hr
    split at hr
    · cases hr
    · rename_i hm
      simp only [Except.error.injEq, Stop.stuck.injEq] at hr
      simp only [Bool.not_eq_true, List.all_eq_false] at hm
      exact ⟨hr.symm, as, he, by simpa using hm⟩

/-- What the read of an input element shows, and what it does to the cache (R91, R94, R95). -/
theorem readInput_eq_ok {p : Platform} {draw : Nat} {mem mem' : MemSys} {d : TallDesc} {x y : Nat} {q : Quad Word}
    (h : readInput p draw mem d x y = .ok (q, mem')) :
    inputHolds d (seen mem.inp mem.ram) x y draw q ∧ ∃ c, mem' = { mem with inp := c } ∧ mem.inp.filled c mem.ram := by
  unfold readInput at h
  unfold inputHolds
  split at h
  · rename_i hs
    simp only [hs, if_true]
    split at h
    · cases h
    · split at h
      · cases h
      · simp only [bind_eq_ok, Prod.exists, pure_ok, Except.ok.injEq, Prod.mk.injEq] at h
        obtain ⟨b0, m0, h0, b1, m1, h1, b2, m2, h2, b3, m3, h3, rfl, rfl⟩ := h
        obtain ⟨a0, c0, e0, -, rfl, rfl, f0⟩ := readElement_eq_ok h0
        obtain ⟨a1, c1, e1, -, rfl, rfl, f1⟩ := readElement_eq_ok h1
        obtain ⟨a2, c2, e2, -, rfl, rfl, f2⟩ := readElement_eq_ok h2
        obtain ⟨a3, c3, e3, -, rfl, rfl, f3⟩ := readElement_eq_ok h3
        simp only [MemSys.cache, MemSys.setCache] at *
        have g1 := f0.trans f1
        have g2 := g1.trans f2
        refine ⟨⟨_, _, _, _, ⟨a0, e0, rfl⟩, ⟨a1, e1, rfl⟩, ⟨a2, e2, rfl⟩, ⟨a3, e3, rfl⟩, ?_⟩, c3, rfl, g2.trans f3⟩
        rw [f0.seen_eq, g1.seen_eq, g2.seen_eq]
  · rename_i hs
    simp only [hs, Bool.false_eq_true, if_false]
    simp only [bind_eq_ok, Prod.exists, pure_ok, Except.ok.injEq, Prod.mk.injEq] at h
    obtain ⟨b0, m0, h0, rfl, rfl⟩ := h
    obtain ⟨a0, c0, e0, -, rfl, rfl, f0⟩ := readElement_eq_ok h0
    exact ⟨⟨_, ⟨a0, e0, rfl⟩, rfl⟩, c0, rfl, f0⟩

/-- What an uncached read of an input element shows: memory itself (R362). -/
theorem readInputUncached_eq_ok {p : Platform} {draw : Nat} {mem : MemSys} {d : TallDesc} {x y : Nat} {q : Quad Word}
    (h : readInputUncached p draw mem d x y = .ok q) : inputHolds d mem.ram.get x y draw q := by
  unfold readInputUncached at h
  split at h
  · rename_i r hr
    obtain ⟨q', m⟩ := r
    simp only [Except.ok.injEq] at h
    subst h
    exact (readInput_eq_ok hr).1
  · cases h
  · cases h

/-- What the read of a float constant shows, and what it does to the cache (R95, R104). -/
theorem readConstf_eq_ok {p : Platform} {draw : Nat} {mem mem' : MemSys} {d : Desc} {c : Nat} {q : Quad Word}
    (h : readConstf p draw mem d c = .ok (q, mem')) :
    ∃ as k, elementAddrs d none c 0 = .ok as ∧ q = decodeElement d.format (as.map (seen mem.constf mem.ram)) draw ∧
      mem' = { mem with constf := k } ∧ mem.constf.filled k mem.ram := by
  unfold readConstf at h
  cases hr : readElement p mem .constf d none c 0 with
  | error e => rw [hr] at h; cases h
  | ok r =>
    obtain ⟨as, k, he, -, hb, hm, hf⟩ := readElement_eq_ok hr
    rw [hr] at h
    simp only [Except.map, Except.ok.injEq, Prod.mk.injEq] at h
    exact ⟨as, k, he, by rw [← h.1, hb]; rfl, by rw [← h.2, hm]; rfl, hf⟩

/-- The read of an integer constant fills its cache and touches nothing else (R95, R104). -/
theorem readConsti_eq_ok {p : Platform} {mem mem' : MemSys} {d : Desc} {c : Nat} {r : Nat × Int × Int}
    (h : readConsti p mem d c = .ok (r, mem')) : ∃ k, mem' = { mem with consti := k } ∧ mem.consti.filled k mem.ram := by
  unfold readConsti at h
  cases hr : readElement p mem .consti d none c 0 with
  | error e => rw [hr] at h; cases h
  | ok x =>
    obtain ⟨-, k, -, -, -, hm, hf⟩ := readElement_eq_ok hr
    rw [hr] at h
    simp only [Except.map, Except.ok.injEq, Prod.mk.injEq] at h
    exact ⟨k, by rw [← h.2, hm]; rfl, hf⟩

/-- The read of a boolean constant fills its cache and touches nothing else (R95, R104). -/
theorem readConstb_eq_ok {p : Platform} {mem mem' : MemSys} {d : Desc} {c : Nat} {r : Bool}
    (h : readConstb p mem d c = .ok (r, mem')) : ∃ k, mem' = { mem with constb := k } ∧ mem.constb.filled k mem.ram := by
  unfold readConstb at h
  cases hr : readElement p mem .constb d none c 0 with
  | error e => rw [hr] at h; cases h
  | ok x =>
    obtain ⟨-, k, -, -, -, hm, hf⟩ := readElement_eq_ok hr
    rw [hr] at h
    simp only [Except.map, Except.ok.injEq, Prod.mk.injEq] at h
    exact ⟨k, by rw [← h.2, hm]; rfl, hf⟩

/-! ## Groups -/

/-- The group that is to execute. -/
theorem State.current_eq_ok {s : State} {k : Nat} {g : Group} :
    s.current = .ok (k, g) ↔ s.turn = .group k ∧ s.groups[k]? = some g ∧ g.halted = false := by
  unfold State.current
  constructor
  · intro h
    split at h
    · rename_i k' ht
      split at h
      · rename_i g' hg
        split at h
        · cases h
        · rename_i hh
          simp only [Except.ok.injEq, Prod.mk.injEq] at h
          obtain ⟨rfl, rfl⟩ := h
          exact ⟨ht, hg, by simpa using hh⟩
      · cases h
    · cases h
  · rintro ⟨h1, h2, h3⟩
    simp [h1, h2, h3]

/-- Where the wait of an instruction can go. -/
theorem Group.semWait_eq_ok {g g' : Group} {wait : Bool} (h : g.semWait wait = .ok g') :
    g' = { g with lanes := if wait then g.lanes.map Lane.semWait else g.lanes } := by
  unfold Group.semWait at h
  split at h
  · split at h
    · cases h
    · simp_all
  · simp_all

theorem Group.semWait_ok {g : Group} {wait : Bool} (h : wait = true → g.erratum = false) :
    g.semWait wait = .ok { g with lanes := if wait then g.lanes.map Lane.semWait else g.lanes } := by
  unfold Group.semWait
  cases wait <;> simp_all

/-- What a set has after new members are added to it. -/
theorem mem_addNew {α : Type} [DecidableEq α] (xs ys : List α) (x : α) : x ∈ addNew xs ys ↔ x ∈ xs ∨ x ∈ ys := by
  unfold addNew
  induction ys generalizing xs with
  | nil => simp
  | cons y rest ih =>
    rw [List.foldl, ih]
    split_ifs with h <;> simp at h ⊢ <;> grind

/-- Adding members lists none twice. -/
theorem nodup_addNew {α : Type} [DecidableEq α] {xs : List α} (ys : List α) (h : xs.Nodup) : (addNew xs ys).Nodup := by
  unfold addNew
  induction ys generalizing xs with
  | nil => exact h
  | cons y rest ih =>
    rw [List.foldl]
    apply ih
    split_ifs with hy
    · exact h
    · simp at hy; rw [List.nodup_append]; grind

/-- A group after the two waits of a texture or flow-control instruction (R367, R588). -/
def waitedGroup (g : Group) (aluWait semWait : Bool) : Group :=
  { g with aluPending := if aluWait then [] else g.aluPending, lanes := waited g semWait }

/-- The wait for ALU results where it finds none that is used. -/
theorem Group.aluWait_ok {g : Group} {wait : Bool} {uses : List AluItem} (h : wait = true ∨ ∀ u ∈ uses, u ∉ g.aluPending) :
    g.aluWait wait uses = .ok { g with aluPending := if wait then [] else g.aluPending } := by
  unfold Group.aluWait
  rcases h with h | h
  · simp [h]
  · cases wait <;> simp_all

/-- Where `ALU_WAIT` can go. -/
theorem Group.aluWait_eq_ok {g g' : Group} {wait : Bool} {uses : List AluItem} (h : g.aluWait wait uses = .ok g') :
    g' = { g with aluPending := if wait then [] else g.aluPending } := by
  unfold Group.aluWait at h
  split at h
  · simp_all
  · split at h
    · cases h
    · simp_all

/-- Reading a temporary after writing one. -/
theorem Lane.temp_setTemp (l : Lane) (n n' : Nat) (c c' : Chan) (w : Word) :
    (l.setTemp n c w).temp n' c' = if n = n' ∧ c = c' then w else l.temp n' c' := by
  unfold Lane.temp
  rw [Lane.setTemp_temps, tabFind_tabPut]
  have hk : regKey n c = regKey n' c' ↔ n = n' ∧ c = c' := by
    unfold regKey
    constructor
    · intro h
      cases c <;> cases c' <;> simp_all [Chan.idx] <;> omega
    · rintro ⟨rfl, rfl⟩; rfl
  by_cases h : n = n' ∧ c = c'
  · rw [if_pos (hk.2 h), if_pos h]; rfl
  · rw [if_neg (fun e => h (hk.1 e)), if_neg h]; rfl

/-- What a launch leaves pending (R196). -/
theorem State.addLaunch_pe (s : State) (l : Launch) :
    (s.addLaunch l).pe = { s.pe with launches := if l.todo.isEmpty then s.pe.launches else s.pe.launches ++ [l] } := by
  unfold State.addLaunch; split <;> simp_all

/-- The read position within a buffer moves on (R25). -/
theorem Pe.advance_more {pe : Pe} {c : Current} {n : Nat} (h : pe.cur = some c) (hn : n < c.remaining) :
    pe.advance n = { pe with cur := some { c with pos := c.pos + BitVec.ofNat 32 (4 * n), remaining := c.remaining - n } } := by
  simp [Pe.advance, h, Nat.not_le.2 hn]

/-- With its last word a buffer is consumed (R181). -/
theorem Pe.advance_last {pe : Pe} {c : Current} {n : Nat} (h : pe.cur = some c) (hn : c.remaining ≤ n) :
    pe.advance n = { pe with cur := none, consumed := pe.consumed ++ [c.sub.id] } := by
  simp [Pe.advance, h, hn]

/-- The read position is all that advancing touches, with the list of consumed buffers. -/
theorem Pe.advance_eq (pe : Pe) (n : Nat) :
    pe.advance n = { pe with cur := (pe.advance n).cur, consumed := (pe.advance n).consumed } := by
  unfold Pe.advance
  split
  · rfl
  · split <;> rfl

/-! ## The fetch of a slot -/

theorem Group.pcInRange_iff {p : Platform} {g : Group} :
    g.pcInRange p = true ↔ g.pc < g.env.prog.instrCnt.toNat ∧ (p.endJump = .runs ∨ g.pc ≤ g.env.prog.endSlot) := by
  simp [Group.pcInRange]

/-- An instruction is fetched where the pc is in range and the slot there stands for it. -/
theorem fetchSlot_eq_ok {p : Platform} {g : Group} {i : Instr} :
    fetchSlot p g = .ok i ↔ ∃ w, g.pcInRange p = true ∧ g.env.text[g.pc]? = some w ∧ p.layout.decode w = .ok i := by
  unfold fetchSlot
  split
  · rename_i hp
    cases ht : g.env.text[g.pc]? with
    | none => simp
    | some w => cases hd : p.layout.decode w <;> simp [hp, hd]
  · rename_i hp
    simp [hp]

/-- A pc out of range stops the fetch (R50, R334, R548). -/
theorem fetchSlot_out {p : Platform} {g : Group} (h : g.pcInRange p = false) : fetchSlot p g = .error (.fault .pcOutOfRange) := by
  simp [fetchSlot, h]

/-- A slot that the layout gives no instruction stops the fetch. -/
theorem fetchSlot_invalid {p : Platform} {g : Group} {w : Slot} {e : DecodeError} (h : g.pcInRange p = true)
    (ht : g.env.text[g.pc]? = some w) (hd : p.layout.decode w = .error e) :
    fetchSlot p g = .error (.fault .invalidEncoding) := by
  simp [fetchSlot, h, ht, hd]

/-- For the text, tiling 2 acts as 0 and 3 as 1 (R91). -/
theorem textAddrs_tiling {d : Desc} {t : Tiling} (h : t.isTiled = d.tiling.isTiled) (n : Nat) :
    textAddrs { d with tiling := t } n = textAddrs d n := by
  simp [textAddrs, h]

end Sys2Proof.Machine
end

