-- ==== Sys2Proof/Laws/Alu.lean ====
section
/-! SUPPORT. What an ALU or OUTPUT instruction does: its next state where its group can execute it, and what each group of
its writes leaves on a processor. -/

namespace Sys2Proof.Machine

/-! ## The writes on one processor -/

theorem regKey_inj (n n' : Nat) (c c' : Chan) : regKey n c = regKey n' c' ↔ n = n' ∧ c = c' := by
  unfold regKey
  cases c <;> cases c' <;> simp [Chan.idx] <;> omega

/-- The value of an output register channel, where it was written. -/
theorem Lane.outs_setOut (l : Lane) (t t' : Nat) (c c' : Chan) (w : Word) :
    tabFind (l.setOut t c w).outs (regKey t' c') = if t = t' ∧ c = c' then some w else tabFind l.outs (regKey t' c') := by
  rw [Lane.setOut, tabFind_tabPut]
  simp [regKey_inj]

theorem Quad.get_set {α : Type} (q : Quad α) (c c' : Chan) (v : α) :
    (q.set c v).get c' = if c = c' then v else q.get c' := by
  cases c <;> cases c' <;> rfl

/-- The temporaries after an instruction's writes (R320). -/
theorem writeTemps_temp (f : AluInst) (en : Chan → Bool) (dr da : Nat) (res : AluResult) (l : Lane) (n : Nat) (ch : Chan) :
    (writeTemps f en dr da res l).temp n ch =
      if aluWmaskBit f ch = true ∧ en ch = true ∧ aluDst dr da ch = n then res.get ch else l.temp n ch := by
  simp only [writeTemps, allChans, List.foldl]
  cases ch <;> split_ifs <;> simp_all [Lane.temp_setTemp, aluDst]

/-- Writing temporaries touches nothing else. -/
theorem writeTemps_eq (f : AluInst) (en : Chan → Bool) (dr da : Nat) (res : AluResult) (l : Lane) :
    writeTemps f en dr da res l = { l with temps := (writeTemps f en dr da res l).temps } := by
  simp only [writeTemps, allChans, List.foldl]
  split_ifs <;> rfl

/-- The output registers after an instruction's writes (R322). -/
theorem writeOuts_outs (f : AluInst) (en : Chan → Bool) (res : AluResult) (l : Lane) (n : Nat) (ch : Chan) :
    tabFind (writeOuts f en res l).outs (regKey n ch) =
      if f.isOutput = true ∧ aluOmaskBit f ch = true ∧ en ch = true ∧ Target.register (aluTarget f ch) = n then
        some (res.get ch) else tabFind l.outs (regKey n ch) := by
  unfold writeOuts
  by_cases ho : f.isOutput = true
  · simp only [ho, if_true, allChans, List.foldl]
    cases ch <;> split_ifs <;> simp_all [tabFind_tabPut, regKey_inj, aluTarget]
  · simp [ho]

/-- Writing output registers touches nothing else. -/
theorem writeOuts_eq (f : AluInst) (en : Chan → Bool) (res : AluResult) (l : Lane) :
    writeOuts f en res l = { l with outs := (writeOuts f en res l).outs } := by
  simp only [writeOuts, allChans, List.foldl]
  split_ifs <;> rfl

/-- The predicate bits after an instruction's writes (R326). -/
theorem writePreds_pred (f : AluInst) (res : AluResult) (l : Lane) (ch : Chan) :
    (writePreds f res l).pred.get ch =
      if f.isOutput = false ∧ aluOmaskBit f ch = true then predOp (Target.test (aluTarget f ch)) (res.get ch)
      else l.pred.get ch := by
  unfold writePreds
  by_cases ho : f.isOutput = true
  · simp [ho]
  · simp only [ho, allChans, List.foldl]
    cases ch <;> split_ifs <;> simp_all [Lane.setPred, Quad.get_set]

/-- Writing predicate bits touches nothing else. -/
theorem writePreds_eq (f : AluInst) (res : AluResult) (l : Lane) :
    writePreds f res l = { l with pred := (writePreds f res l).pred, predSet := (writePreds f res l).predSet } := by
  simp only [writePreds, allChans, List.foldl]
  split_ifs <;> rfl

theorem writeW_eq (f : AluInst) (en : Chan → Bool) (res : AluResult) (l : Lane) :
    writeW f en res l = { l with wout := (writeW f en res l).wout, woutSet := (writeW f en res l).woutSet } := by
  unfold writeW; split_ifs <;> rfl

theorem writeAr_eq (f : AluInst) (res : AluResult) (l : Lane) :
    writeAr f res l = { l with ar := (writeAr f res l).ar, arSet := (writeAr f res l).arSet } := by
  unfold writeAr; split_ifs <;> rfl

/-- All writes of an instruction on one processor, field by field. -/
theorem aluWrite_eq (f : AluInst) (dr da : Nat) (res : AluResult) (l : Lane) :
    aluWrite f dr da res l =
      { l with
        temps := (writeTemps f (aluEnable f l) dr da res l).temps
        outs := (writeOuts f (aluEnable f l) res l).outs
        pred := (writePreds f res l).pred, predSet := (writePreds f res l).predSet
        wout := (writeW f (aluEnable f l) res l).wout, woutSet := (writeW f (aluEnable f l) res l).woutSet
        ar := (writeAr f res l).ar, arSet := (writeAr f res l).arSet } := by
  have hp : ∀ (l : Lane) (x : List (Nat × Word)) (y : List (Nat × Word)),
      writePreds f res { l with temps := x, outs := y } =
        { writePreds f res l with temps := x, outs := y } := by
    intro l x y
    simp only [writePreds, allChans, List.foldl]
    split_ifs <;> rfl
  have ho : ∀ (en : Chan → Bool) (l : Lane) (x : List (Nat × Word)),
      writeOuts f en res { l with temps := x } = { writeOuts f en res l with temps := x } := by
    intro en l x
    simp only [writeOuts, allChans, List.foldl]
    split_ifs <;> rfl
  have h1 := writeTemps_eq f (aluEnable f l) dr da res l
  have h2 := writeOuts_eq f (aluEnable f l) res l
  have h3 := writePreds_eq f res l
  unfold aluWrite
  generalize (writeTemps f (aluEnable f l) dr da res l).temps = x at h1 ⊢
  generalize (writeOuts f (aluEnable f l) res l).outs = y at h2 ⊢
  generalize (writePreds f res l).pred = z at h3 ⊢
  generalize (writePreds f res l).predSet = z' at h3 ⊢
  simp only
  rw [h1, ho, h2]
  change writeAr f res (writeW f (aluEnable f l) res (writePreds f res { l with temps := x, outs := y })) = _
  rw [hp l x y, h3]
  unfold writeW writeAr
  split_ifs <;> rfl

/-! ## The sources -/

/-- What the fetch of the six sources can answer: each fetch in the order of R271, every one with the caches that the one before it
leaves. -/
theorem fetchSix_eq_ok {p : Platform} {draw : Nat} {g : Group} {inactive : Bool} {used : List (Port × Chan)} {a : Six SrcAddr}
    {mem m : MemSys} {src : Six Source} :
    fetchSix p draw g inactive used a mem = .ok (src, m) ↔ ∃ m0 m1 m2 m3 m4,
      fetchPort p draw g inactive used a .rgb0 mem = .ok (src.rgb0, m0) ∧
      fetchPort p draw g inactive used a .rgb1 m0 = .ok (src.rgb1, m1) ∧
      fetchPort p draw g inactive used a .rgb2 m1 = .ok (src.rgb2, m2) ∧
      fetchPort p draw g inactive used a .alpha0 m2 = .ok (src.alpha0, m3) ∧
      fetchPort p draw g inactive used a .alpha1 m3 = .ok (src.alpha1, m4) ∧
      fetchPort p draw g inactive used a .alpha2 m4 = .ok (src.alpha2, m) := by
  simp only [fetchSix, bind_eq_ok, pure_ok, Except.ok.injEq, Prod.mk.injEq, Prod.exists]
  constructor
  · rintro ⟨r0, m0, h0, r1, m1, h1, r2, m2, h2, a0, m3, h3, a1, m4, h4, a2, m5, h5, rfl, rfl⟩
    exact ⟨m0, m1, m2, m3, m4, h0, h1, h2, h3, h4, h5⟩
  · rintro ⟨m0, m1, m2, m3, m4, h0, h1, h2, h3, h4, h5⟩
    exact ⟨_, _, h0, _, _, h1, _, _, h2, _, _, h3, _, _, h4, _, _, h5, rfl, rfl⟩

/-- What the fetch of one source can answer: its address resolves, and no enabled processor waits for a lookup of a channel of it. -/
theorem fetchPort_eq_ok {p : Platform} {draw : Nat} {g : Group} {inactive : Bool} {used : List (Port × Chan)} {a : Six SrcAddr}
    {q : Port} {mem m : MemSys} {src : Source} (h : fetchPort p draw g inactive used a q mem = .ok (src, m)) :
    ∃ pl, resolvePlace g (a.get q) = .ok pl ∧
      match pl with
      | .temp n => src = .temp n ∧ m = mem ∧ readHazard g.lanes inactive n (portChannels used q) = false
      | .inline w => src = .value (Quad.all w) ∧ m = mem
      | .const k => ∃ v, src = .value v ∧ readConstf p draw mem g.env.descs.constf k = .ok (v, m) := by
  simp only [fetchPort, bind_eq_ok] at h
  obtain ⟨pl, h1, h2⟩ := h
  refine ⟨pl, h1, ?_⟩
  cases pl with
  | temp n =>
    simp only [fetchPlace] at h2
    split at h2
    · cases h2
    · next hz => obtain ⟨rfl, rfl⟩ := Prod.mk.inj (Except.ok.inj h2); exact ⟨rfl, rfl, by simpa using hz⟩
  | inline w => obtain ⟨rfl, rfl⟩ := Prod.mk.inj (Except.ok.inj h2); exact ⟨rfl, rfl⟩
  | const k =>
    simp only [fetchPlace] at h2
    split at h2
    · cases h2
    · cases hr : readConstf p draw mem g.env.descs.constf k with
      | error e => rw [hr] at h2; cases h2
      | ok r => rw [hr] at h2; obtain ⟨rfl, rfl⟩ := Prod.mk.inj (Except.ok.inj h2); exact ⟨r.1, rfl, hr⟩

/-! ## The instruction -/

/-- What is left of an instruction once its sources are fetched: steps 3 to 8 of R271 on a group after its wait. -/
def aluRest (fa : FArith) (rop : RgbOp) (aop : AlphaOp) (f : AluInst) (s : State) (k : Nat) (g : Group) (r : Six Source × MemSys) :
    Res State := do
  require (!nopHazard g rop aop f r.1) .nopHazard
  let dr ← g.tempIndex f.rgbDst.toNat f.rgbDstRel
  let da ← g.tempIndex f.alphaDst.toNat f.alphaDstRel
  require (!g.lanes.any (aluWriteHazard f dr da)) .texHazard
  let lanes := g.lanes.mapIdx fun n l => aluLane fa (s.draws + drawsPerLane * n) rop aop f r.1 dr da l
  let g1 ← aluFinish g f dr da lanes
  return ({ s with mem := r.2 }.setGroup k g1).spend g

/-- An instruction that comes to fetch its sources runs that fetch and then the rest. -/
theorem AluFields.run {s : State} {rop : RgbOp} {aop : AlphaOp} {f : AluInst} (c : AluFields s rop aop f) :
    runAlu Config.fArith rop aop f s =
      fetchSix s.platform s.draws c.ready f.writeInactive (usedChannels rop aop f) (aluAddrs f) s.mem >>=
        aluRest Config.fArith rop aop f s c.k c.ready := by
  have hcur : s.current = .ok (c.k, c.g) := State.current_eq_ok.2 ⟨c.turn, c.group, c.running⟩
  have hstat : aluStatic c.g rop aop f = .ok () := by
    have h1 := c.last
    unfold aluStatic
    simp only [c.combination, c.targets.1, c.targets.2, require, accept, Bool.and_self, if_true]
    cases hl : f.last <;> simp_all [bind, Except.bind]
  have hwait : c.g.semWait f.semWait = .ok c.ready := Group.semWait_ok c.erratum
  unfold runAlu
  rw [hcur, ok_bind]
  change (aluStatic c.g rop aop f >>= _) = _
  rw [hstat, ok_bind, hwait, ok_bind]
  rfl

/-- A source that cannot be fetched stops the instruction that comes to it. -/
theorem AluFields.stops {s : State} {rop : RgbOp} {aop : AlphaOp} {f : AluInst} (c : AluFields s rop aop f) {q : Port}
    (h : c.reaches q) {e : Stop}
    (hq : ∀ mem, fetchPort s.platform s.draws c.ready f.writeInactive (usedChannels rop aop f) (aluAddrs f) q mem = .error e) :
    runAlu Config.fArith rop aop f s = .error e := by
  rw [c.run]
  obtain ⟨pre, post, hs, hp⟩ := h
  have hf : fetchSix s.platform s.draws c.ready f.writeInactive (usedChannels rop aop f) (aluAddrs f) s.mem = .error e := by
    unfold fetchSix
    generalize hF : fetchPort s.platform s.draws c.ready f.writeInactive (usedChannels rop aop f) (aluAddrs f) = F at hq ⊢
    have hp' : ∀ p ∈ pre, ∀ mem, ∃ r, F p mem = .ok r := by
      subst hF; exact hp
    clear hp hF
    have st : ∀ p, p ∈ pre → ∀ mem, ∃ v m, F p mem = .ok (v, m) := fun p hm mem => by
      obtain ⟨⟨v, m⟩, h⟩ := hp' p hm mem; exact ⟨v, m, h⟩
    rcases pre with _ | ⟨x0, _ | ⟨x1, _ | ⟨x2, _ | ⟨x3, _ | ⟨x4, _ | ⟨x5, _ | ⟨x6, pre⟩⟩⟩⟩⟩⟩⟩ <;>
      simp only [List.cons_append, List.nil_append, List.cons.injEq, List.nil_eq, reduceCtorEq, and_false] at hs
    · obtain ⟨rfl, -⟩ := hs; rw [hq]; rfl
    · obtain ⟨rfl, rfl, -⟩ := hs
      obtain ⟨v0, m0, h0⟩ := st .rgb0 (by simp) s.mem
      simp only [h0, hq, ok_bind]; rfl
    · obtain ⟨rfl, rfl, rfl, -⟩ := hs
      obtain ⟨v0, m0, h0⟩ := st .rgb0 (by simp) s.mem
      obtain ⟨v1, m1, h1⟩ := st .rgb1 (by simp) m0
      simp only [h0, h1, hq, ok_bind]; rfl
    · obtain ⟨rfl, rfl, rfl, rfl, -⟩ := hs
      obtain ⟨v0, m0, h0⟩ := st .rgb0 (by simp) s.mem
      obtain ⟨v1, m1, h1⟩ := st .rgb1 (by simp) m0
      obtain ⟨v2, m2, h2⟩ := st .rgb2 (by simp) m1
      simp only [h0, h1, h2, hq, ok_bind]; rfl
    · obtain ⟨rfl, rfl, rfl, rfl, rfl, -⟩ := hs
      obtain ⟨v0, m0, h0⟩ := st .rgb0 (by simp) s.mem
      obtain ⟨v1, m1, h1⟩ := st .rgb1 (by simp) m0
      obtain ⟨v2, m2, h2⟩ := st .rgb2 (by simp) m1
      obtain ⟨v3, m3, h3⟩ := st .alpha0 (by simp) m2
      simp only [h0, h1, h2, h3, hq, ok_bind]; rfl
    · obtain ⟨rfl, rfl, rfl, rfl, rfl, rfl, -⟩ := hs
      obtain ⟨v0, m0, h0⟩ := st .rgb0 (by simp) s.mem
      obtain ⟨v1, m1, h1⟩ := st .rgb1 (by simp) m0
      obtain ⟨v2, m2, h2⟩ := st .rgb2 (by simp) m1
      obtain ⟨v3, m3, h3⟩ := st .alpha0 (by simp) m2
      obtain ⟨v4, m4, h4⟩ := st .alpha1 (by simp) m3
      simp only [h0, h1, h2, h3, h4, hq, ok_bind]; rfl
  rw [hf]; rfl

/-- A group after an ALU or OUTPUT instruction. -/
def AluCase.after {s : State} {rop : RgbOp} {aop : AlphaOp} {f : AluInst} (c : AluCase s rop aop f) : Group :=
  { c.g with
    lanes := (waited c.g f.semWait).mapIdx fun n l =>
      if l.on f.writeInactive then aluWrite f c.dr c.da (c.result n l) l else l
    aluPending := addNew c.g.aluPending (aluItems f c.dr c.da)
    prev := .alu f.nop (aluDsts f c.dr c.da), started := true
    halted := c.g.atEnd, pc := if c.g.atEnd then c.g.pc else c.g.pc + 1 }

/-- Where its group can execute it, an ALU or OUTPUT instruction answers this next state. -/
theorem AluCase.run {s : State} {rop : RgbOp} {aop : AlphaOp} {f : AluInst} (c : AluCase s rop aop f) :
    runAlu Config.fArith rop aop f s =
      .ok { s with mem := c.mem, groups := s.groups.set c.k c.after, draws := s.draws + drawsPerLane * c.g.lanes.length } := by
  obtain ⟨g', hg⟩ : ∃ g', g' = c.ready := ⟨_, rfl⟩
  have h2 : g'.tempIndex f.rgbDst.toNat f.rgbDstRel = .ok c.dr := by rw [hg]; exact c.rgbDst
  have h3 : g'.tempIndex f.alphaDst.toNat f.alphaDstRel = .ok c.da := by rw [hg]; exact c.alphaDst
  have h4 : nopHazard g' rop aop f c.src = false := by rw [hg]; exact c.nop
  have h5 : g'.lanes.any (aluWriteHazard f c.dr c.da) = false := by
    rw [List.any_eq_false, hg]
    exact fun l hl => by simp [c.lookups l hl]
  have h6 : fetchSix s.platform s.draws g' f.writeInactive (usedChannels rop aop f) (aluAddrs f) s.mem = .ok (c.src, c.mem) := by
    rw [hg]; exact c.fetched
  have h7 : g'.lanes.length = c.g.lanes.length := by rw [hg]; simp only [AluFields.ready, waited]; split_ifs <;> simp
  have h8 : aluFinish g' f c.dr c.da (g'.lanes.mapIdx fun n l =>
      aluLane Config.fArith (s.draws + drawsPerLane * n) rop aop f c.src c.dr c.da l) = .ok c.after := by
    have hend := c.ending
    unfold aluFinish AluCase.after
    subst hg
    have ha : Group.atEnd c.ready = c.g.atEnd := rfl
    simp only [ha]
    simp only [AluFields.ready]
    by_cases he : c.g.atEnd = true
    · have hoe := hend he
      simp only [he, if_true, hoe.1, hoe.2, Bool.and_self]
      rfl
    · have he' := Bool.eq_false_iff.2 he
      have hr := c.running
      simp only [he', hr, Bool.false_eq_true, if_false]
      rfl
  rw [c.toAluFields.run, ← hg, h6, ok_bind]
  unfold aluRest
  simp only [h4, h5, require, Bool.not_false, if_true, ok_bind, h2, h3]
  rw [h8, ok_bind, pure_ok]
  simp only [State.setGroup, State.spend, h7]

/-- The row of an ALU or OUTPUT instruction runs the two operations that it holds. -/
theorem exec_alu {i : Instr} {rop : RgbOp} {aop : AlphaOp} {f : AluInst} (h : i.alu? = some (rop, aop, f)) (s : State) :
    exec i s = conclude s.turnStuck (runAlu Config.fArith rop aop f s) := by
  cases i <;> simp only [Instr.alu?, Option.some.injEq, Prod.mk.injEq, reduceCtorEq] at h <;>
    obtain ⟨rfl, rfl, rfl⟩ := h <;> rfl

end Sys2Proof.Machine
end

