-- ==== Sys2Proof/Laws/Fc.lean ====
section
/-! SUPPORT. What a flow-control instruction does: its next state where its group can execute it. -/

namespace Sys2Proof.Machine

/-! ## The vote and the branch counters -/

/-- Whether a processor votes does not depend on what is noted of it. -/
@[simp] theorem Voter.register_votes (f f' : FcInst) (v : Voter) : (v.register f').votes f = v.votes f := rfl

/-- The processors of a vote are noted as the voters that they are (R382 step 5). -/
theorem fcVoters_voter {f : FcInst} {b : Bool} {ls : List Lane} {v : Voter} (h : v ∈ fcVoters f b ls) : v.voter = v.votes f := by
  obtain ⟨x, -, rfl⟩ := List.mem_map.1 h
  rfl

/-- The vote as a quantifier over the processors that vote (R390). -/
theorem vote_iff {f : FcInst} {vs : List Voter} (h : ∀ v ∈ vs, v.voter = v.votes f) : vote f vs = true ↔ decides f vs := by
  unfold vote decides
  split_ifs with h
  · simp [List.any_eq_true]; grind
  · simp [List.all_eq_true]; grind

/-- A counter that has room below the limit takes INCR. -/
theorem incrAll_ok {f : FcInst} {max : Nat} {jump : Bool} {vs : List Voter}
    (h : ∀ v ∈ vs, v.lane.active = false → v.lane.loopOff = none → v.excluded f = false → v.lane.bcnt + 1 ≤ max) :
    ∃ vs', incrAll f max jump vs = .ok vs' := by
  induction vs with
  | nil => exact ⟨_, rfl⟩
  | cons v rest ih =>
    obtain ⟨vs', hvs⟩ := ih fun v hv => h v (List.mem_cons_of_mem _ hv)
    have h1 := h v (List.mem_cons_self ..)
    have : ∃ v', v.incr f max jump = .ok v' := by
      unfold Voter.incr
      split_ifs <;> first | exact ⟨_, rfl⟩ | simp_all
    obtain ⟨v', hv⟩ := this
    exact ⟨v' :: vs', by simp [incrAll, hv, hvs]⟩

/-- A counter at the limit stops INCR (R400). -/
theorem incrAll_full {f : FcInst} {max : Nat} {jump : Bool} {vs : List Voter}
    (h : ∃ v ∈ vs, v.lane.loopOff = none ∧ v.excluded f = false ∧ v.lane.active = false ∧ max ≤ v.lane.bcnt) :
    incrAll f max jump vs = .error (.fault .branchCounterOverflow) := by
  have only : ∀ v : Voter, (∃ x, v.incr f max jump = .ok x) ∨ v.incr f max jump = .error (.fault .branchCounterOverflow) := by
    intro v; unfold Voter.incr; split_ifs <;> simp
  induction vs with
  | nil => simp at h
  | cons v rest ih =>
    unfold incrAll
    obtain ⟨w, hw, h1, hx, h2, h3⟩ := h
    rcases List.mem_cons.1 hw with rfl | hw
    · have : w.incr f max jump = .error (.fault .branchCounterOverflow) := by
        unfold Voter.incr; simp [h1, hx, h2]; omega
      rw [this]
    · rw [ih ⟨w, hw, h1, hx, h2, h3⟩]
      rcases only v with ⟨x, hx⟩ | hx <;> simp [hx]

/-- The branch counters after B_ELSE are no higher than before where a processor stays inactive (R396). -/
theorem fcVoters_counter {f : FcInst} {b : Bool} {ls : List Lane} {v : Voter} (h : v ∈ fcVoters f b ls)
    (ha : v.lane.active = false) :
    v.lane.bcnt = 0 ∨ ∃ l ∈ ls, l.active = false ∧ l.covered = v.lane.covered ∧ l.bcnt = v.lane.bcnt := by
  obtain ⟨x, hx, rfl⟩ := List.mem_map.1 h
  split_ifs at hx
  · simp only [List.map_map, List.mem_map, Function.comp] at hx
    obtain ⟨l, hl, rfl⟩ := hx
    unfold Voter.register Voter.flip at ha ⊢
    simp only at ha ⊢
    split_ifs at ha ⊢ <;> simp_all <;> grind
  · simp only [List.mem_map] at hx
    obtain ⟨l, hl, rfl⟩ := hx
    exact .inr ⟨l, hl, ha, rfl, rfl⟩

/-! ## The loop operations -/

/-- Who keeps a BREAK or a CONTINUE from jumping (R418). -/
theorem FcPlaced.inhibits_iff {s : State} {f : FcInst} (c : FcPlaced s f) (op : FcOp) (b : Bool) (hb : b = true ↔ op ≠ .cont)
    (v : Voter) :
    Voter.inhibits c.g.env.prog.breakInhibit f b v = true ↔ c.blocks op v := by
  unfold Voter.inhibits FcPlaced.blocks
  rw [← hb]
  cases c.g.env.prog.breakInhibit <;> cases v.lane.active <;> cases b <;> rcases v.lane.loopOff with _ | ⟨_ | _, _⟩ <;> simp

/-- The voters that want to leave become loop-inactive (R415, R417). -/
theorem Voter.leave_eq (kind : OffKind) (depth : Nat) (f : FcInst) {v : Voter} (hv : v.voter = v.votes f) :
    v.leave kind depth =
      { v with lane := { v.lane with
          loopOff := if v.votes f = true ∧ v.want = true then some (kind, depth) else v.lane.loopOff } } := by
  unfold Voter.leave
  rw [hv]
  by_cases h : v.votes f = true ∧ v.want = true
  · rw [if_pos (by simpa using h), if_pos h]
  · rw [if_neg (by simpa using h), if_neg h, ← hv]

/-- What the pop of a frame does to a processor (R404). -/
theorem Lane.popFrame_eq (d : Nat) (l : Lane) : l.popFrame d = { l with loopOff := popped d l.loopOff } := by
  unfold Lane.popFrame
  cases h : l.loopOff with
  | none => unfold popped; obtain ⟨⟩ := l; simp_all
  | some x =>
    obtain ⟨k, e⟩ := x
    unfold popped
    by_cases he : e = d
    · simp [he]
    · obtain ⟨⟩ := l; simp_all

/-- Where an instruction comes to its address-stack operation, steps 6 and 7 of R382 answer its decision and leave each processor
loop-inactive as R404 and R411 to R417 say. -/
theorem FcPlaced.loop {s : State} {f : FcInst} {op : FcOp} {jump : Bool} (c : FcPlaced s f) (h : c.decided op (jump = true)) :
    ∃ r, fcLoop s.platform c.g op f (c.voters op) c.mem = .ok r ∧ r.jump = jump ∧
      r.voters = (c.voters op).map fun v => { v with lane := { v.lane with loopOff := c.offAfter op jump v } } := by
  have hv : vote f (c.voters op) = true ↔ decides f (c.voters op) := vote_iff fun v hv => fcVoters_voter hv
  have hid : c.voters op = (c.voters op).map fun v => { v with lane := { v.lane with loopOff := v.lane.loopOff } } := by simp
  have hTop : ∀ {fr kind}, (c.g.env.prog.fullMode = true ∧ ∃ rest, c.g.loopStack = fr :: rest) →
      (kind = none ∨ kind = some fr.kind) → topFrame c.g kind = .ok fr := by
    rintro fr kind ⟨h1, rest, h2⟩ h3
    unfold topFrame; rw [if_pos h1, h2]; dsimp only; rw [if_pos h3]
  have hBegin : ∀ kind, (∃ count,
      (∃ a0 d mem, readConsti s.platform c.mem c.g.env.descs.consti f.intAddr.toNat = .ok ((count, a0, d), mem)) ∧
      (jump = true ↔ count = 0 ∨ decides f (c.voters op)) ∧
      (¬ jump = true → c.g.env.prog.fullMode = true ∧ c.g.loopStack.length < 4)) →
      ∃ r, beginLoop s.platform c.g kind f (c.voters op) c.mem = .ok r ∧ r.jump = jump ∧ r.voters = c.voters op := by
    rintro kind ⟨count, ⟨a0, d, mem, hr⟩, hj, hroom⟩
    unfold beginLoop
    rw [hr, ok_bind]
    have hj' : (count == 0 || vote f (c.voters op)) = jump := by
      rw [Bool.eq_iff_iff, hj]; simp [hv]
    dsimp only
    rw [hj']
    cases jump with
    | true => exact ⟨_, rfl, rfl, rfl⟩
    | false =>
      obtain ⟨h1, h2⟩ := hroom (by simp)
      simp only [pushFrame, h1, h2, decide_true, Bool.and_self, if_true, Bool.false_eq_true, if_false, ok_bind]
      exact ⟨_, rfl, rfl, rfl⟩
  have hEnd : ∀ kind, (∃ fr, (c.g.env.prog.fullMode = true ∧ ∃ rest, c.g.loopStack = fr :: rest) ∧ fr.kind = kind ∧
      (jump = true ↔ fr.count - 1 ≠ 0 ∧ decides f (c.voters op)) ∧
      (kind = .loop → jump = true →
        ∃ count a0 d mem, readConsti s.platform c.mem c.g.env.descs.consti f.intAddr.toNat = .ok ((count, a0, d), mem))) →
      ∃ r, endLoop s.platform c.g kind f (c.voters op) c.mem = .ok r ∧ r.jump = jump ∧
        r.voters = (c.voters op).map fun v => { v with lane := { v.lane with
          loopOff := if jump = true then v.lane.loopOff else popped c.g.loopStack.length v.lane.loopOff } } := by
    rintro kind ⟨fr, ht, rfl, hj, hc⟩
    unfold endLoop
    rw [hTop ht (.inr rfl), ok_bind]
    dsimp only
    have hj' : (fr.count - 1 != 0 && vote f (c.voters op)) = jump := by
      rw [Bool.eq_iff_iff, hj]; simp [hv]
    rw [hj']
    cases jump with
    | false =>
      refine ⟨_, rfl, rfl, ?_⟩
      simp only [Bool.false_eq_true, if_false]
      exact List.map_congr_left fun v _ => by rw [Lane.popFrame_eq]
    | true =>
      cases hk : fr.kind with
      | loop =>
        obtain ⟨count, a0, d, mem, hr⟩ := hc hk rfl
        simp only [if_true, hr, ok_bind]
        exact ⟨_, rfl, rfl, by simp⟩
      | rep => exact ⟨_, rfl, rfl, by simp⟩
  have hvo : ∀ v ∈ c.voters op, v.voter = v.votes f := fun v hv => fcVoters_voter hv
  have hBreak : ∀ kind, op ≠ .cont →
      (∃ fr, (c.g.env.prog.fullMode = true ∧ ∃ rest, c.g.loopStack = fr :: rest) ∧ fr.kind = kind ∧
        (jump = true ↔ decides f (c.voters op) ∧ ∀ v ∈ c.voters op, ¬ c.blocks op v)) →
      ∃ r, breakLoop c.g kind f (c.voters op) c.mem = .ok r ∧ r.jump = jump ∧
        r.voters = (c.voters op).map fun v => { v with lane := { v.lane with
          loopOff :=
            (if jump = true then popped c.g.loopStack.length v.lane.loopOff
            else if v.votes f = true ∧ v.want = true then some (OffKind.brk, c.g.loopStack.length) else v.lane.loopOff) } } := by
    rintro kind hop ⟨fr, ht, rfl, hj⟩
    unfold breakLoop
    rw [hTop ht (.inr rfl), ok_bind]
    have hj' : (vote f (c.voters op) && !(c.voters op).any (Voter.inhibits c.g.env.prog.breakInhibit f true)) = jump := by
      rw [Bool.eq_iff_iff, hj, Bool.and_eq_true, hv, Bool.not_eq_true', List.any_eq_false]
      refine and_congr Iff.rfl (forall₂_congr fun v _ => not_congr (c.inhibits_iff op true (by simp [hop]) v))
    dsimp only
    rw [hj']
    cases jump with
    | true =>
      refine ⟨_, rfl, rfl, ?_⟩
      simp only [if_true]
      exact List.map_congr_left fun v _ => by rw [Lane.popFrame_eq]
    | false =>
      refine ⟨_, rfl, rfl, ?_⟩
      simp only [Bool.false_eq_true, if_false]
      exact List.map_congr_left fun v hv => by rw [Voter.leave_eq _ _ f (hvo v hv)]
  cases op with
  | jump =>
    refine ⟨_, rfl, ?_, hid⟩
    rw [Bool.eq_iff_iff, hv]; exact (show _ ↔ _ from h).symm
  | loop =>
    obtain ⟨r, h1, h2, h3⟩ := hBegin .loop h
    exact ⟨r, h1, h2, h3.trans hid⟩
  | rep =>
    obtain ⟨r, h1, h2, h3⟩ := hBegin .rep h
    exact ⟨r, h1, h2, h3.trans hid⟩
  | endloop =>
    obtain ⟨fr, h1, h2, h3, h4⟩ := h
    obtain ⟨r, h1, h2, h3⟩ := hEnd .loop ⟨fr, h1, h2, h3, fun _ => h4⟩
    refine ⟨r, h1, h2, h3.trans ?_⟩
    cases jump <;> rfl
  | endrep =>
    obtain ⟨fr, h1, h2, h3⟩ := h
    obtain ⟨r, h1, h2, h3⟩ := hEnd .rep ⟨fr, h1, h2, h3, fun h => by cases h⟩
    refine ⟨r, h1, h2, h3.trans ?_⟩
    cases jump <;> rfl
  | breakloop =>
    obtain ⟨r, h1, h2, h3⟩ := hBreak .loop (by simp) h
    refine ⟨r, h1, h2, h3.trans ?_⟩
    cases jump <;> rfl
  | breakrep =>
    obtain ⟨r, h1, h2, h3⟩ := hBreak .rep (by simp) h
    refine ⟨r, h1, h2, h3.trans ?_⟩
    cases jump <;> rfl
  | cont =>
    obtain ⟨fr, ht, hj⟩ := h
    change ∃ r, continueLoop c.g f (c.voters .cont) c.mem = .ok r ∧ _
    unfold continueLoop
    rw [hTop ht (.inl rfl), ok_bind]
    have hj' : (vote f (c.voters .cont) && !(c.voters .cont).any (Voter.inhibits c.g.env.prog.breakInhibit f false)) = jump := by
      rw [Bool.eq_iff_iff, hj, Bool.and_eq_true, hv, Bool.not_eq_true', List.any_eq_false]
      refine and_congr Iff.rfl (forall₂_congr fun v _ => not_congr (c.inhibits_iff .cont false (by simp) v))
    dsimp only
    rw [hj']
    cases jump with
    | true => exact ⟨_, rfl, rfl, hid⟩
    | false =>
      refine ⟨_, rfl, rfl, List.map_congr_left fun v hv => ?_⟩
      rw [Voter.leave_eq _ _ f (hvo v hv)]
      rfl

/-! ## The instruction -/

/-- A group after a flow-control instruction, given what steps 6 to 9 of R382 answer. -/
def FcPlaced.after {s : State} {f : FcInst} (c : FcPlaced s f) (r : LoopResult) (tgt : Nat × List Nat) (vs : List Voter) :
    Group :=
  { c.g with
    lanes := vs.mapIdx fun n v => v.lane.dropAr (laneDraw s n), loopStack := r.stack, addrStack := tgt.2, pc := tgt.1
    prev := .fc f.semWait, started := true, aluPending := if f.aluWait then [] else c.g.aluPending }

/-- What is left of a flow-control instruction after its waits: steps 3 to 10 of R382, and the end of the program. -/
def fcRest (op : FcOp) (f : FcInst) (s : State) (k : Nat) (g : Group) : Res State := do
  let (boolean, mem0) ← fcBoolean s.platform g.env.descs.constb f s.mem
  require f.wellFormed .invalidEncoding
  let r ← fcLoop s.platform g op f (fcVoters f boolean (fcReenable op g.loopStack.length g.lanes)) mem0
  let (pc, addrs) ← fcTarget g f r.jump
  let vs1 ← branchOp g f r.jump r.voters
  require (!g.atEnd) .badLastInstruction
  let lanes := vs1.mapIdx fun n v => v.lane.dropAr (s.draws + drawsPerLane * n)
  let g2 := { g with
    lanes := lanes, loopStack := r.stack, addrStack := addrs, pc := pc, prev := .fc f.semWait, started := true }
  return ({ s with mem := r.mem }.setGroup k g2).spend g

/-- A flow-control instruction that its group comes to execute makes its waits and then runs the rest. -/
theorem FcFields.run {s : State} {f : FcInst} (c : FcFields s f) (op : FcOp) :
    runFc op f s = fcRest op f s c.k (waitedGroup c.g f.aluWait f.semWait) := by
  have hcur : s.current = .ok (c.k, c.g) := State.current_eq_ok.2 ⟨c.turn, c.group, c.running⟩
  obtain ⟨g1, hg1⟩ : ∃ g1, g1 = { c.g with aluPending := if f.aluWait then [] else c.g.aluPending } := ⟨_, rfl⟩
  have hw : c.g.aluWait f.aluWait (fcUses f) = .ok g1 := by rw [hg1]; exact Group.aluWait_ok c.results
  have he : f.semWait = true → g1.erratum = false := by rw [hg1]; exact c.erratum
  have hs : g1.semWait f.semWait = .ok (waitedGroup c.g f.aluWait f.semWait) := by
    rw [Group.semWait_ok he, hg1]; rfl
  unfold runFc
  rw [hcur, ok_bind]
  simp only [ok_bind, hw, hs]
  rfl

/-- What a flow-control instruction does that comes to the vote and that its stacks and counters allow: at the end address it stops
(R382), else it answers this next state. -/
theorem FcPlaced.run {s : State} {f : FcInst} (c : FcPlaced s f) (op : FcOp) {r : LoopResult} {tgt : Nat × List Nat}
    {vs : List Voter} (hl : fcLoop s.platform c.g op f (c.voters op) c.mem = .ok r)
    (ht : fcTarget c.g f r.jump = .ok tgt) (hb : branchOp c.g f r.jump r.voters = .ok vs) :
    runFc op f s =
      if c.g.atEnd then .error (.fault .badLastInstruction)
      else .ok { s with
        mem := r.mem, groups := s.groups.set c.k (c.after r tgt vs), draws := s.draws + drawsPerLane * c.g.lanes.length } := by
  have hf : f.wellFormed = true := by simpa [FcInst.wellFormed] using c.fields
  have hend : (waitedGroup c.g f.aluWait f.semWait).atEnd = c.g.atEnd := rfl
  rw [c.toFcFields.run]
  obtain ⟨g2, hg2⟩ : ∃ g2, g2 = waitedGroup c.g f.aluWait f.semWait := ⟨_, rfl⟩
  have hlen : g2.lanes.length = c.g.lanes.length := by
    rw [hg2]; simp only [waitedGroup, waited]; split_ifs <;> simp
  have hb0 : fcBoolean s.platform g2.env.descs.constb f s.mem = .ok (c.boolean, c.mem) := by
    rw [hg2]; exact c.bool
  have hl' : fcLoop s.platform g2 op f (fcVoters f c.boolean (fcReenable op g2.loopStack.length g2.lanes)) c.mem = .ok r := by
    rw [hg2]; exact hl
  have ht' : fcTarget g2 f r.jump = .ok tgt := by rw [hg2]; exact ht
  have hb' : branchOp g2 f r.jump r.voters = .ok vs := by rw [hg2]; exact hb
  rw [← hg2] at hend ⊢
  unfold fcRest
  simp only [ok_bind, hb0, hl', ht', hb', pure_ok, hf, require, if_true, hend]
  cases c.g.atEnd <;> simp only [Bool.not_false, Bool.not_true, Bool.false_eq_true, if_true, if_false, ok_bind, error_bind]
  simp only [State.setGroup, State.spend, hlen]
  congr 2
  rw [hg2]
  rfl

/-- The row of a flow-control instruction runs the operation that it holds. -/
theorem exec_fc {i : Instr} {op : FcOp} {f : FcInst} (h : i.fc? = some (op, f)) (s : State) :
    exec i s = conclude s.turnStuck (runFc op f s) := by
  cases i <;> simp only [Instr.fc?, Option.some.injEq, Prod.mk.injEq, reduceCtorEq] at h <;>
    obtain ⟨rfl, rfl⟩ := h <;> rfl

end Sys2Proof.Machine
end

