-- ==== Sys2Proof/Laws/Tex.lean ====
section
/-! SUPPORT. What a texture instruction does: its next state where its group can execute it. -/

namespace Sys2Proof.Machine

/-- A group after a texture instruction. -/
def TexReady.after {s : State} {op : TexOp} {f : TexInst} (c : TexReady s op f) : Group :=
  { c.g with
    lanes := semAcquireAll f.semAcquire c.lanes, prev := .tex, started := true, pc := c.g.pc + 1
    aluPending := if f.aluWait then [] else c.g.aluPending }

/-- One lane of result for each processor. -/
theorem texLanes_length {p : Platform} {draw : Nat} {d : TallDesc} {op : TexOp} {f : TexInst} {src dst : Nat}
    {ls ls' : List Lane} {m m' : MemSys} (h : texLanes p draw d op f src dst ls m = .ok (ls', m')) :
    ls'.length = ls.length := by
  induction ls generalizing draw m ls' with
  | nil => simp [texLanes] at h; simp [h.1]
  | cons l rest ih =>
    simp only [texLanes, bind_eq_ok, pure_ok, Except.ok.injEq, Prod.mk.injEq, Prod.exists] at h
    obtain ⟨l1, m1, -, ls1, m2, h2, rfl, rfl⟩ := h
    simp [ih h2]

/-- What is left of a texture instruction after its waits: steps 3 to 5 of R350, and the end of the program. -/
def texRest (op : TexOp) (f : TexInst) (s : State) (k : Nat) (g : Group) : Res State := do
  let (src, dst) ← texPlaces g op f
  require (!g.lanes.any (texReadHazard op f src)) .texHazard
  let (lanes, mem) ← texLanes s.platform s.draws (g.env.descs.inp.get ⟨f.texId.toNat, f.texId.isLt⟩) op f src dst g.lanes s.mem
  require (!g.lanes.any (texWriteHazard op f dst)) .texHazard
  require f.wellFormed .invalidEncoding
  require (!g.atEnd) .badLastInstruction
  let g2 := { g with lanes := semAcquireAll f.semAcquire lanes, prev := .tex, started := true, pc := g.pc + 1 }
  return ({ s with mem := mem }.setGroup k g2).spend g

/-- A texture instruction whose waits are in order makes them and then runs the rest. -/
theorem runTex_eq {s : State} {op : TexOp} {f : TexInst} {k : Nat} {g : Group} (ht : s.turn = .group k) (hg : s.groups[k]? = some g)
    (hh : g.halted = false)
    (hr : f.aluWait = true ∨ ∀ u ∈ texUses op f (texNamed g f), u ∉ g.aluPending) (hs : f.semWait = true → g.erratum = false) :
    runTex op f s = texRest op f s k (waitedGroup g f.aluWait f.semWait) := by
  have hcur : s.current = .ok (k, g) := State.current_eq_ok.2 ⟨ht, hg, hh⟩
  obtain ⟨g1, hg1⟩ : ∃ g1, g1 = { g with aluPending := if f.aluWait then [] else g.aluPending } := ⟨_, rfl⟩
  have hw : g.aluWait f.aluWait (texUses op f (texNamed g f)) = .ok g1 := by rw [hg1]; exact Group.aluWait_ok hr
  have he1 : f.semWait = true → g1.erratum = false := by rw [hg1]; exact hs
  have hsw : g1.semWait f.semWait = .ok (waitedGroup g f.aluWait f.semWait) := by
    rw [Group.semWait_ok he1, hg1]; rfl
  unfold runTex
  rw [hcur, ok_bind]
  simp only [hw, ok_bind, hsw]
  rfl

/-- What a texture instruction does that comes up to its semaphore: it stops if it acquires without waiting (R369), else at the end
address (R350), and else answers this next state. -/
theorem TexReady.run {s : State} {op : TexOp} {f : TexInst} (c : TexReady s op f) :
    runTex op f s =
      if f.wellFormed then
        if c.g.atEnd then .error (.fault .badLastInstruction)
        else .ok { s with mem := c.mem, groups := s.groups.set c.k c.after, draws := s.draws + drawsPerLane * c.g.lanes.length }
      else .error (.fault .invalidEncoding) := by
  rw [runTex_eq c.turn c.group c.running c.results c.erratum]
  have hend : (waitedGroup c.g f.aluWait f.semWait).atEnd = c.g.atEnd := rfl
  obtain ⟨g2, hg2⟩ : ∃ g2, g2 = waitedGroup c.g f.aluWait f.semWait := ⟨_, rfl⟩
  have hlen : g2.lanes.length = c.g.lanes.length := by
    rw [hg2]; simp only [waitedGroup, waited]; split_ifs <;> simp
  have hp : texPlaces g2 op f = .ok (c.src, c.dst) := by rw [hg2]; exact c.places
  have hh : g2.lanes.any (texReadHazard op f c.src) = false ∧ g2.lanes.any (texWriteHazard op f c.dst) = false := by
    rw [List.any_eq_false, List.any_eq_false, hg2]
    exact ⟨fun l hl => by simp [(c.lookups l hl).1], fun l hl => by simp [(c.lookups l hl).2]⟩
  have hr : texLanes s.platform s.draws (g2.env.descs.inp.get ⟨f.texId.toNat, f.texId.isLt⟩) op f c.src c.dst g2.lanes s.mem =
      .ok (c.lanes, c.mem) := by
    rw [hg2]; exact c.reads
  rw [← hg2] at hend ⊢
  unfold texRest
  simp only [require, Bool.not_false, if_true, ok_bind, hp, hh.1, hh.2, hr, pure_ok, hend]
  cases f.wellFormed <;> cases c.g.atEnd <;>
    simp only [Bool.not_false, Bool.not_true, Bool.false_eq_true, if_true, if_false, ok_bind, error_bind]
  simp only [State.setGroup, State.spend, hlen]
  congr 2
  rw [hg2]
  rfl

/-- Where its group can execute it, a texture instruction answers this next state. -/
theorem TexCase.run {s : State} {op : TexOp} {f : TexInst} (c : TexCase s op f) :
    runTex op f s =
      .ok { s with mem := c.mem, groups := s.groups.set c.k c.after, draws := s.draws + drawsPerLane * c.g.lanes.length } := by
  have hf : f.wellFormed = true := by
    have := c.fields
    unfold TexInst.wellFormed
    cases h : f.semAcquire
    · rfl
    · rw [this h]; rfl
  rw [c.toTexReady.run, if_pos hf, if_neg (by simp [c.notEnd])]

/-- The row of a texture instruction runs the operation that it holds. -/
theorem exec_tex {i : Instr} {op : TexOp} {f : TexInst} (h : i.tex? = some (op, f)) (s : State) :
    exec i s = conclude s.turnStuck (runTex op f s) := by
  cases i <;> simp only [Instr.tex?, Option.some.injEq, Prod.mk.injEq, reduceCtorEq] at h <;>
    obtain ⟨rfl, rfl⟩ := h <;> rfl

end Sys2Proof.Machine
end

