-- ==== Sys2Proof/Laws/Fair.lean ====
section
/-! SUPPORT. What fairness gives (R606, R528; log 8): in a fair run whose waits end, every submitted buffer is consumed. -/

namespace Sys2Proof.Machine

/-! ## What is outstanding -/

/-- The identifiers of the buffers that are submitted and not consumed. -/
def Pe.outstanding (pe : Pe) : List Word := pe.cur.toList.map (fun c => c.sub.id) ++ pe.queue.map Submission.id

/-- The words that the PE has yet to read, a queued buffer counting one more. -/
def Pe.wordsLeft (pe : Pe) : Nat := (pe.cur.toList.map Current.remaining).sum + (pe.queue.map fun b => b.size.toNat + 1).sum

/-- A move that consumes nothing but what was outstanding, and leaves no more words than before. -/
def Pe.goesOn (p q : Pe) : Prop :=
  (∀ x ∈ p.outstanding, x ∈ q.outstanding ∨ x ∈ q.consumed) ∧ (∀ x ∈ p.consumed, x ∈ q.consumed) ∧ q.wordsLeft ≤ p.wordsLeft

theorem Pe.goesOn_of_eq {p q : Pe} (h1 : q.cur = p.cur) (h2 : q.queue = p.queue) (h3 : q.consumed = p.consumed) : p.goesOn q := by
  unfold Pe.goesOn Pe.outstanding Pe.wordsLeft
  rw [h1, h2, h3]
  exact ⟨fun x hx => .inl hx, fun x hx => hx, le_refl _⟩

theorem Pe.goesOn.trans {p q r : Pe} (h : p.goesOn q) (h' : q.goesOn r) : p.goesOn r :=
  ⟨fun x hx => (h.1 x hx).elim (fun hx => h'.1 x hx) fun hx => .inr (h'.2.1 x hx), fun x hx => h'.2.1 x (h.2.1 x hx),
    le_trans h'.2.2 h.2.2⟩

/-- Taking up the next buffer leaves fewer words. -/
theorem nextBuffer_goesOn {pe : Pe} (hc : pe.cur = none) :
    pe.goesOn (nextBuffer pe) ∧ (pe.queue ≠ [] → (nextBuffer pe).wordsLeft < pe.wordsLeft) := by
  unfold nextBuffer
  cases hq : pe.queue with
  | nil => exact ⟨Pe.goesOn_of_eq rfl rfl rfl, fun h => absurd rfl h⟩
  | cons b rest =>
    dsimp only
    split
    · rename_i hz
      refine ⟨⟨?_, ?_, ?_⟩, fun _ => ?_⟩
      · simp only [Pe.outstanding, hc, hq, Option.toList_none, List.map_nil, List.nil_append, List.map_cons, List.mem_cons]
        rintro x (rfl | hx)
        · simp
        · exact .inl hx
      · intro x hx; simp [hx]
      all_goals simp [Pe.wordsLeft, hc, hq, hz]
    · refine ⟨⟨?_, ?_, ?_⟩, fun _ => ?_⟩
      · exact fun x hx => .inl (by simpa [Pe.outstanding, hc, hq] using hx)
      · exact fun x hx => hx
      all_goals simp [Pe.wordsLeft, hc, hq]

/-- Moving the read position leaves fewer words. -/
theorem advance_goesOn {pe : Pe} {c : Current} {n : Nat} (hc : pe.cur = some c) (hr : 0 < c.remaining) (hn : 0 < n) :
    pe.goesOn (pe.advance n) ∧ (pe.advance n).wordsLeft < pe.wordsLeft := by
  by_cases h : c.remaining ≤ n
  · rw [Pe.advance_last hc h]
    refine ⟨⟨?_, ?_, ?_⟩, ?_⟩
    · simp only [Pe.outstanding, hc, Option.toList_some, List.map_cons, List.map_nil, List.mem_append, List.mem_singleton]
      rintro x (rfl | hx)
      · simp
      · simp [hx]
    · intro x hx; simp [hx]
    all_goals simp [Pe.wordsLeft, hc]; try omega
  · rw [Pe.advance_more hc (by omega)]
    refine ⟨⟨?_, ?_, ?_⟩, ?_⟩
    · exact fun x hx => .inl (by simpa [Pe.outstanding, hc] using hx)
    · exact fun x hx => hx
    all_goals simp [Pe.wordsLeft, hc]; try omega

/-! ## The commands -/

/-- A command that is done has moved the read position, a wait that goes on has changed nothing. -/
theorem exec_command {i : Instr} {s t : State} (hi : (encodeCommand i).isSome = true) (h : exec i s = .next t)
    (ht : t.pe.stuck = false) :
    (t.pe.cur = (s.pe.advance (commandLen i)).cur ∧ t.pe.queue = s.pe.queue ∧
      t.pe.consumed = (s.pe.advance (commandLen i)).consumed) ∨ (s.idle = false ∧ t = s) := by
  have stuck : ∀ {r : Res State}, conclude s.peStuck r = .next t → r = .ok t := by
    intro r hr
    rcases conclude_eq_next.1 hr with h | ⟨m, -, rfl⟩
    · exact h
    · cases ht
  have adv : ∀ {p q : Pe} (n : Nat), p.cur = q.cur → p.queue = q.queue → p.consumed = q.consumed →
      (p.advance n).cur = (q.advance n).cur ∧ (p.advance n).queue = q.queue ∧ (p.advance n).consumed = (q.advance n).consumed := by
    intro p q n h1 h2 h3
    unfold Pe.advance
    rw [h1]
    cases q.cur with
    | none => exact ⟨h1, h2, h3⟩
    | some c => dsimp only; split <;> exact ⟨rfl, h2, by simp only [h3]⟩
  cases i <;> try cases hi
  case waitForIdle p =>
    have := stuck h
    simp only [bind_eq_ok, pure_ok, Except.ok.injEq] at this
    obtain ⟨-, -, rfl⟩ := this
    cases hidle : s.idle
    · exact .inr ⟨rfl, by simp⟩
    · exact .inl (by simpa using adv _ rfl rfl rfl)
  case startProgram p =>
    have := stuck h
    left
    simp only [bind_eq_ok] at this
    obtain ⟨-, -, this⟩ := this
    split at this
    · cases this
    · simp only [bind_eq_ok, pure_ok, Except.ok.injEq, Prod.exists] at this
      obtain ⟨-, -, text, mem, -, -, -, rfl⟩ := this
      refine adv _ ?_ ?_ ?_ <;> rw [State.addLaunch_pe]
  case readPerfCounters p =>
    have := stuck h
    left
    simp only [bind_eq_ok] at this
    obtain ⟨-, -, -, -, this⟩ := this
    split at this
    · simp only [bind_eq_ok, pure_ok, Except.ok.injEq] at this
      obtain ⟨s1, h1, rfl⟩ := this
      rw [ramWriteAll_eq_ok h1]; exact adv _ rfl rfl rfl
    · cases this; exact adv _ rfl rfl rfl
  case invCondOutCache p =>
    have := stuck h
    left
    simp only [bind_eq_ok, pure_ok, Except.ok.injEq] at this
    obtain ⟨-, -, s1, h1, rfl⟩ := this
    rw [ramWriteAll_eq_ok h1]; exact adv _ rfl rfl rfl
  case flushOutCache p =>
    have := stuck h
    left
    simp only [bind_eq_ok, pure_ok, Except.ok.injEq] at this
    obtain ⟨-, -, s1, h1, rfl⟩ := this
    rw [ramWriteAll_eq_ok h1]; exact adv _ rfl rfl rfl
  case flushCondOutCache p =>
    have := stuck h
    left
    simp only [bind_eq_ok, pure_ok, Except.ok.injEq] at this
    obtain ⟨-, -, s1, h1, rfl⟩ := this
    rw [ramWriteAll_eq_ok h1]; exact adv _ rfl rfl rfl
  case startPerfCounters p =>
    have := stuck h
    left
    simp only [bind_eq_ok, pure_ok, Except.ok.injEq] at this
    obtain ⟨-, -, rfl⟩ := this
    refine adv _ ?_ ?_ ?_ <;> split <;> rfl
  case stopPerfCounters p =>
    have := stuck h
    left
    simp only [bind_eq_ok, pure_ok, Except.ok.injEq] at this
    obtain ⟨-, -, rfl⟩ := this
    refine adv _ ?_ ?_ ?_ <;> split <;> rfl
  all_goals
    simp only [exec, execSetInstFmt, execSetInpFmt, execSetOutFmt, execSetCondOutFmt, execSetConstfFmt, execSetConstiFmt,
      execSetConstbFmt, execInvInstCache, execInvConstfCache, execInvConstiCache, execInvConstbCache, execInvInpCache,
      execSetOutMask, execSetCondOutMask, execSetCondTest, execSetCondLoc, execInitPerfCounters, execSetCondVal,
      execSetDomain] at h
    have := stuck h
    left
    simp only [bind_eq_ok, pure_ok, Except.ok.injEq] at this
    obtain ⟨-, -, rfl⟩ := this
    exact adv _ rfl rfl rfl

/-- The decoder of commands answers commands. -/
theorem decodeCommand_command {ws : List Word} {i : Instr} (h : decodeCommand ws = .ok i) : (encodeCommand i).isSome = true := by
  unfold decodeCommand at h
  split at h
  · cases h
  · split at h <;> first | (cases h; rfl) | cases h

/-- The decoder of slots answers instructions of a processor. -/
theorem decodeSlot_kind {w : Slot} {i : Instr} (h : decodeSlot w = .ok i) :
    (∃ x, i.alu? = some x) ∨ (∃ x, i.tex? = some x) ∨ ∃ x, i.fc? = some x := by
  unfold decodeSlot at h
  split at h
  · split at h
    · rename_i op f _
      cases h
      right; right
      cases op <;> exact ⟨_, rfl⟩
    · cases h
  · split at h
    · rename_i op f _
      cases h
      right; left
      cases op <;> exact ⟨_, rfl⟩
    · cases h
  · split at h
    · rename_i rop aop f _
      cases h
      left
      unfold nameAlu
      split
      · cases aop <;> exact ⟨_, rfl⟩
      · cases rop <;> exact ⟨_, rfl⟩
    · cases h

/-! ## The other agents -/

/-- Under every layout a slot stands for an instruction of a processor. -/
theorem InstLayout.decode_kind {layout : InstLayout} {w : Slot} {i : Instr} (h : layout.decode w = .ok i) :
    (∃ x, i.alu? = some x) ∨ (∃ x, i.tex? = some x) ∨ ∃ x, i.fc? = some x := by
  cases layout with
  | k1 => exact decodeSlot_kind h
  | other n =>
    simp only [InstLayout.decode] at h
    split at h
    · split at h
      · rename_i hd
        cases h
        simpa [Instr.isDpp, Option.isSome_iff_exists, or_assoc] using hd
      · cases h
    · cases h

/-- What an agent other than the PE leaves: the buffers, and an idle device idle. -/
def keepsPe (s t : State) : Prop :=
  t.pe.cur = s.pe.cur ∧ t.pe.queue = s.pe.queue ∧ t.pe.consumed = s.pe.consumed ∧ (s.idle = true → t.idle = true)

theorem keepsPe_refl (s : State) : keepsPe s s := ⟨rfl, rfl, rfl, id⟩

/-- An instruction of a running group leaves the PE alone. -/
theorem exec_group_pe {i : Instr} {s t : State} (hk : (∃ x, i.alu? = some x) ∨ (∃ x, i.tex? = some x) ∨ ∃ x, i.fc? = some x)
    (h : exec i s = .next t) : t.pe = s.pe := by
  have mark : ∀ m, (s.turnStuck m).pe = s.pe := by
    intro m; unfold State.turnStuck; split <;> rfl
  have run : ∀ {r : Res State}, conclude s.turnStuck r = .next t → (∀ u, r = .ok u → u.pe = s.pe) → t.pe = s.pe := by
    intro r hr hu
    rcases conclude_eq_next.1 hr with h | ⟨m, -, rfl⟩
    · exact hu t h
    · exact mark m
  rcases hk with ⟨⟨rop, aop, f⟩, hk⟩ | ⟨⟨op, f⟩, hk⟩ | ⟨⟨op, f⟩, hk⟩
  · refine run (by rw [← exec_alu hk]; exact h) fun u hu => ?_
    unfold runAlu at hu
    simp only [bind_eq_ok, pure_ok, Except.ok.injEq, Prod.exists] at hu
    obtain ⟨k, g0, -, -, -, g, -, src, mem, -, -, -, dr, -, da, -, -, -, g1, -, rfl⟩ := hu
    rfl
  · refine run (by rw [← exec_tex hk]; exact h) fun u hu => ?_
    unfold runTex at hu
    simp only [bind_eq_ok, pure_ok, Except.ok.injEq, Prod.exists] at hu
    obtain ⟨k, g0, -, -, -, -, -, g1, -, g, -, src, dst, -, -, -, lanes, mem, -, -, -, rfl⟩ := hu
    rfl
  · refine run (by rw [← exec_fc hk]; exact h) fun u hu => ?_
    unfold runFc at hu
    simp only [bind_eq_ok, pure_ok, Except.ok.injEq, Prod.exists] at hu
    obtain ⟨k, g0, -, -, -, -, -, g1, -, g, -, b, mem0, -, r, -, pc, addrs, -, vs1, -, rfl⟩ := hu
    rfl

/-- An idle device has no group and no launch. -/
theorem State.idle_iff (s : State) : s.idle = true ↔ s.pe.launches = [] ∧ s.groups = [] := by
  simp [State.idle]

/-- Agents other than the PE leave the buffers, and an idle device idle. -/
theorem agentStep_other {s t : State} (hn : s.turn ≠ .pe) (h : agentStep s = .next t) : keepsPe s t := by
  unfold agentStep at h
  split at h
  · rename_i e; exact absurd e hn
  · rename_i k e
    unfold groupStep at h
    split at h
    · cases h; exact keepsPe_refl s
    · rename_i g hg
      split at h
      · cases h; exact keepsPe_refl s
      · have hne : s.idle = true → t.idle = true := by
          intro hi
          rw [((State.idle_iff s).1 hi).2] at hg
          cases hg
        have hpe : t.pe = s.pe := by
          split at h
          · rcases conclude_eq_next.1 h with h | ⟨m, -, rfl⟩
            · cases h
            · unfold State.turnStuck; split <;> rfl
          · rename_i i hf
            refine exec_group_pe ?_ h
            obtain ⟨w, -, -, hd⟩ := fetchSlot_eq_ok.1 hf
            exact InstLayout.decode_kind hd
        exact ⟨by rw [hpe], by rw [hpe], by rw [hpe], hne⟩
  · rename_i k n e
    unfold retireStep at h
    split at h
    · cases h; exact keepsPe_refl s
    · rename_i g hg
      have hne : s.idle = true → t.idle = true := by
        intro hi
        rw [((State.idle_iff s).1 hi).2] at hg
        cases hg
      have hpe : t.pe = s.pe := by
        rcases conclude_eq_next.1 h with h | ⟨m, -, rfl⟩
        · split at h
          · split at h
            · cases h; rfl
            · split at h
              · cases h; rfl
              · unfold laneRetire at h
                split at h
                · rename_i l _ _ _ _
                  cases hr : requestResults s.platform s.co.stuck s.draws g.env l s.mem with
                  | error e => rw [hr] at h; cases h
                  | ok r => rw [hr] at h; cases h; rfl
                · split at h
                  · cases h; rfl
                  · cases h
                · cases h; rfl
          · cases h; rfl
        · rfl
      exact ⟨by rw [hpe], by rw [hpe], by rw [hpe], hne⟩
  · rename_i a b proc join e
    unfold distStep at h
    split at h
    · cases h; exact keepsPe_refl s
    · rename_i la hl
      have hne : s.idle = true → t.idle = true := by
        intro hi
        rw [((State.idle_iff s).1 hi).1] at hl
        cases hl
      rcases conclude_eq_next.1 h with h | ⟨m, -, rfl⟩
      · split at h
        · cases h; exact ⟨rfl, rfl, rfl, hne⟩
        · split at h
          · simp only [bind_eq_ok, pure_ok, Except.ok.injEq, Prod.exists] at h
            obtain ⟨pass, mem, -, rfl⟩ := h
            refine ⟨?_, ?_, ?_, hne⟩ <;> cases pass <;> rfl
          · cases h; exact keepsPe_refl s
      · exact ⟨rfl, rfl, rfl, hne⟩
  · rename_i c a e
    have ram : ∀ {b : Byte} {f : State → State} {r : State}, (ramWrite s a b).map f = .ok r → (∀ u, keepsPe u (f u)) →
        keepsPe s r := by
      intro b f r hr hf
      cases hw : ramWrite s a b with
      | error e => rw [hw] at hr; cases hr
      | ok u =>
        rw [hw] at hr
        cases hr
        obtain ⟨-, rfl⟩ := ramWrite_eq_ok hw
        exact hf _
    rcases conclude_eq_next.1 h with h | ⟨m, -, rfl⟩
    · unfold evictStep at h
      split at h
      all_goals first
        | (cases h; exact ⟨rfl, rfl, rfl, id⟩)
        | (split at h
           · cases h; exact ⟨rfl, rfl, rfl, id⟩
           · exact ram h fun u => ⟨rfl, rfl, rfl, id⟩)
    · exact keepsPe_refl _
  · rename_i total active e
    cases h
    unfold clockStep
    dsimp only
    split
    · exact ⟨rfl, rfl, rfl, id⟩
    · exact keepsPe_refl s

/-! ## Every step -/

/-- What a step does to the buffers: it consumes only what was outstanding and leaves no more words; a step of another agent than
the PE leaves them and an idle device idle; at the turn of the PE on an idle device, with a buffer outstanding, fewer words are left. -/
theorem step_goesOn {s t : State} (h : step s = .next t) (hs : s.pe.stuck = false) (ht : t.pe.stuck = false) :
    s.pe.goesOn t.pe ∧ (s.turn ≠ .pe → keepsPe s t) ∧
      (s.turn = .pe → s.idle = true → s.pe.outstanding ≠ [] → t.pe.wordsLeft < s.pe.wordsLeft) := by
  unfold step at h
  cases ha : agentStep s with
  | fault f => rw [ha] at h; cases h
  | refused f => rw [ha] at h; cases h
  | next u =>
    rw [ha] at h
    cases h
    by_cases hp : s.turn = .pe
    · rw [agentStep, hp] at ha
      simp only [peStep, hs, Bool.false_eq_true, if_false] at ha
      cases hc : s.pe.cur with
      | none =>
        rw [hc] at ha
        cases ha
        obtain ⟨h1, h2⟩ := nextBuffer_goesOn hc
        refine ⟨h1, fun h => absurd hp h, fun _ _ ho => h2 ?_⟩
        intro hq
        simp [Pe.outstanding, hc, hq] at ho
      | some c =>
        rw [hc] at ha
        dsimp only at ha
        cases hf : fetchCommand s c with
        | error e =>
          rw [hf] at ha
          rcases conclude_eq_next.1 ha with h | ⟨m, -, rfl⟩
          · cases h
          · cases ht
        | ok i =>
          rw [hf] at ha
          obtain ⟨hi, hr⟩ : (encodeCommand i).isSome = true ∧ 0 < c.remaining := by
            unfold fetchCommand at hf
            dsimp only at hf
            split at hf
            · split at hf
              · cases hf
              · rename_i j hd
                split at hf
                · cases hf
                  refine ⟨decodeCommand_command hd, Nat.pos_of_ne_zero fun h0 => ?_⟩
                  rw [h0] at hd
                  cases hd
                · cases hf
            · cases hf
          have hn : 0 < commandLen i := by
            clear ha hf
            cases i <;> exact Nat.succ_pos _
          obtain ⟨h1, h2⟩ := advance_goesOn hc hr hn
          rcases exec_command hi ha ht with ⟨e1, e2, e3⟩ | ⟨hidle, rfl⟩
          · have hq : (s.pe.advance (commandLen i)).queue = s.pe.queue := by
              rw [Pe.advance_eq]
            have hg : (s.pe.advance (commandLen i)).goesOn u.pe := Pe.goesOn_of_eq e1 (e2.trans hq.symm) e3
            exact ⟨h1.trans hg, fun h => absurd hp h, fun _ _ _ => lt_of_le_of_lt hg.2.2 h2⟩
          · exact ⟨Pe.goesOn_of_eq rfl rfl rfl, fun h => absurd hp h, fun _ h => by rw [hidle] at h; cases h⟩
    · have := agentStep_other hp ha
      exact ⟨Pe.goesOn_of_eq this.1 this.2.1 this.2.2.1, fun _ => this, fun h => absurd h hp⟩

/-! ## Progress (R528) -/

/-- In a fair run in which the PE accesses no unmapped address and the device is idle again and again, so that no wait goes on for
ever, every buffer that is outstanding is consumed in the end. -/
theorem FairRun.consumed {r : Nat → State} (hf : FairRun r) (hs : ∀ n, (r n).pe.stuck = false)
    (hi : ∀ n, ∃ m, n ≤ m ∧ (r m).idle = true) {n : Nat} {x : Word} (hx : x ∈ (r n).pe.outstanding) :
    ∃ m, n ≤ m ∧ x ∈ (r m).pe.consumed := by
  have one : ∀ k, (r k).pe.goesOn (r (k + 1)).pe ∧ ((r k).turn ≠ .pe → keepsPe (r k) (r (k + 1))) ∧
      ((r k).turn = .pe → (r k).idle = true → (r k).pe.outstanding ≠ [] → (r (k + 1)).pe.wordsLeft < (r k).pe.wordsLeft) :=
    fun k => step_goesOn (hf.1 k) (hs k) (hs (k + 1))
  have many : ∀ a d, (r a).pe.goesOn (r (a + d)).pe := by
    intro a d
    induction d with
    | zero => exact Pe.goesOn_of_eq rfl rfl rfl
    | succ d ih => exact ih.trans (one (a + d)).1
  obtain ⟨w, hw⟩ : ∃ w, w = (r n).pe.wordsLeft := ⟨_, rfl⟩
  induction w using Nat.strong_induction_on generalizing n with
  | _ w ih =>
    obtain ⟨m, hm, hidle⟩ := hi n
    obtain ⟨d, rfl⟩ := Nat.exists_eq_add_of_le hm
    rcases (many n d).1 x hx with hxm | hxm
    swap
    · exact ⟨n + d, hm, hxm⟩
    have enabled : ∀ k, (r k).pe.outstanding ≠ [] → Agent.pe.enabled (r k) := by
      intro k ho
      refine ⟨hs k, ?_⟩
      by_contra hc
      simp only [not_or, not_not] at hc
      simp [Pe.outstanding, hc.1, hc.2] at ho
    have hne : (r (n + d)).pe.outstanding ≠ [] := List.ne_nil_of_mem hxm
    have he : ∃ e, Agent.pe.moves (r (n + d + e)) ∨ ¬ Agent.pe.enabled (r (n + d + e)) := by
      obtain ⟨k, hk, h⟩ := hf.2 .pe (n + d) (enabled _ hne)
      obtain ⟨e, rfl⟩ := Nat.exists_eq_add_of_le hk
      exact ⟨e, h⟩
    obtain ⟨e0, hfind, hmin⟩ : ∃ e0, (Agent.pe.moves (r (n + d + e0)) ∨ ¬ Agent.pe.enabled (r (n + d + e0))) ∧
        ∀ k < e0, ¬ (Agent.pe.moves (r (n + d + k)) ∨ ¬ Agent.pe.enabled (r (n + d + k))) := by
      classical
      exact ⟨Nat.find he, Nat.find_spec he, fun k hk => Nat.find_min he hk⟩
    have still : ∀ k, k ≤ e0 → (r (n + d + k)).pe.outstanding = (r (n + d)).pe.outstanding ∧ (r (n + d + k)).idle = true := by
      intro k
      induction k with
      | zero => exact fun _ => ⟨rfl, hidle⟩
      | succ k ihk =>
        intro hk
        obtain ⟨h1, h2⟩ := ihk (by omega)
        have hnm := hmin k (by omega)
        obtain ⟨q1, q2, -, q4⟩ := (one (n + d + k)).2.1 fun h => hnm (.inl h)
        refine ⟨?_, q4 h2⟩
        rw [← h1]
        unfold Pe.outstanding
        rw [← q1, ← q2]
        rfl
    obtain ⟨h1, h2⟩ := still e0 (le_refl _)
    have hturn : (r (n + d + e0)).turn = .pe := by
      rcases hfind with h | h
      · exact h
      · exact absurd (enabled _ (by rw [h1]; exact hne)) h
    have hlt := (one (n + d + e0)).2.2 hturn h2 (by rw [h1]; exact hne)
    have hle := (many n (d + e0)).2.2
    rcases (one (n + d + e0)).1.1 x (by rw [h1]; exact hxm) with hx' | hx'
    · obtain ⟨m, hm, hc⟩ := ih _ (by rw [hw]; exact lt_of_lt_of_le hlt (by rw [← Nat.add_assoc] at hle; exact hle)) hx' rfl
      exact ⟨m, by omega, hc⟩
    · exact ⟨n + d + e0 + 1, by omega, hx'⟩

end Sys2Proof.Machine
end

