-- ==== Sys2Proof/Laws/Host.lean ====
section
/-! SUPPORT. What the submission of a command buffer can do (49_host_interface.md rules R523 to R526). -/

namespace Sys2Proof.Machine

theorem wholeCommands_skip (ps rest : List Word) : wholeCommands ps.length (ps ++ rest) = wholeCommands 0 rest := by
  induction ps with
  | nil => rfl
  | cons p ps ih => simpa [wholeCommands] using ih

/-- A whole command before the rest of a buffer (R130, R525). -/
theorem wholeCommands_command (w : Word) (ps rest : List Word) (h : commandParams w = some ps.length) :
    wholeCommands 0 (w :: (ps ++ rest)) = wholeCommands 0 rest := by
  simp only [wholeCommands, h, wholeCommands_skip]

/-- All that a submission that is not refused can do: the call fails and changes nothing but the count of draws, or the buffer is
queued under a new identifier. -/
theorem amSubmitCommandBuffer_cases {s t : State} {addr size id : Word} (h : amSubmitCommandBuffer s addr size = .ok (id, t)) :
    s.pe.isOpen = true ∧ addr.toNat % 4 = 0 ∧ addr.toNat + 4 * size.toNat ≤ 2 ^ 32 ∧
    (∀ n < 4 * size.toNat, s.platform.mapped (addr.toNat + n) = true) ∧
    wholeCommands 0 (wordsAt s.mem.ram addr.toNat size.toNat) = .ok () ∧
    ((id = 0#32 ∧ t = { s with draws := s.draws + 1 }) ∨
      (id ≠ 0#32 ∧ id ∉ s.pe.issued ∧ t = { s with
        draws := s.draws + 1
        pe := { s.pe with issued := s.pe.issued ++ [id], queue := s.pe.queue ++ [{ id := id, addr := addr, size := size }] } })) := by
  simp only [amSubmitCommandBuffer, bind_eq_ok, accept_eq_ok, beq_iff_eq, decide_eq_true_eq, List.all_eq_true, List.mem_range,
    exists_const] at h
  obtain ⟨ho, ha, hw, hm, _, hc, h⟩ := h
  refine ⟨ho, ha, hw, hm, hc, ?_⟩
  split at h
  · simp only [pure_ok, Except.ok.injEq, Prod.mk.injEq] at h
    obtain ⟨rfl, rfl⟩ := h
    exact .inl ⟨rfl, rfl⟩
  · rename_i hn
    simp only [pure_ok, Except.ok.injEq, Prod.mk.injEq] at h
    obtain ⟨rfl, rfl⟩ := h
    simp only [Bool.or_eq_true, beq_iff_eq, List.contains_eq_mem, decide_eq_true_eq, not_or] at hn
    exact .inr ⟨hn.1.2, hn.2, rfl⟩

end Sys2Proof.Machine
end

