-- ==== Sys2Proof/Laws/PerInstr.lean ====
section
/-! SUPPORT. One law for each instruction: the level at which it is encoded (30_encoding.md rules R130, R131, R145). -/

namespace Sys2Proof.Laws.EncodedAtOneLevel

/-- A command has an opcode of R132 with as many parameters as R132 gives it and no slot; a DPP instruction has a slot and no
command words. -/
def Statement (i : Sys2Proof.Instr) : Prop :=
  (∃ w ps, encodeCommand i = some (w :: ps) ∧ commandParams w = some ps.length ∧ encodeSlot i = none) ∨
  (encodeCommand i = none ∧ (encodeSlot i).isSome = true)

theorem initPerfCounters (flags : Word) : Statement (.initPerfCounters flags) := .inl ⟨_, _, rfl, rfl, rfl⟩
theorem startPerfCounters (reserved : Word) : Statement (.startPerfCounters reserved) := .inl ⟨_, _, rfl, rfl, rfl⟩
theorem stopPerfCounters (reserved : Word) : Statement (.stopPerfCounters reserved) := .inl ⟨_, _, rfl, rfl, rfl⟩
theorem readPerfCounters (base : Word) : Statement (.readPerfCounters base) := .inl ⟨_, _, rfl, rfl, rfl⟩
theorem setCondVal (val : Word) : Statement (.setCondVal val) := .inl ⟨_, _, rfl, rfl, rfl⟩
theorem setDomain (i0 j0 i1 j1 : Word) : Statement (.setDomain i0 j0 i1 j1) := .inl ⟨_, _, rfl, rfl, rfl⟩
theorem startProgram (reserved : Word) : Statement (.startProgram reserved) := .inl ⟨_, _, rfl, rfl, rfl⟩
theorem waitForIdle (reserved : Word) : Statement (.waitForIdle reserved) := .inl ⟨_, _, rfl, rfl, rfl⟩
theorem setInstFmt (base format : Word) : Statement (.setInstFmt base format) := .inl ⟨_, _, rfl, rfl, rfl⟩
theorem setInpFmt (index base format height : Word) : Statement (.setInpFmt index base format height) :=
  .inl ⟨_, _, rfl, rfl, rfl⟩
theorem setOutFmt (index base format height : Word) : Statement (.setOutFmt index base format height) :=
  .inl ⟨_, _, rfl, rfl, rfl⟩
theorem setCondOutFmt (base format height : Word) : Statement (.setCondOutFmt base format height) := .inl ⟨_, _, rfl, rfl, rfl⟩
theorem setConstfFmt (base format : Word) : Statement (.setConstfFmt base format) := .inl ⟨_, _, rfl, rfl, rfl⟩
theorem setConstiFmt (base format : Word) : Statement (.setConstiFmt base format) := .inl ⟨_, _, rfl, rfl, rfl⟩
theorem setConstbFmt (base format : Word) : Statement (.setConstbFmt base format) := .inl ⟨_, _, rfl, rfl, rfl⟩
theorem invInstCache (reserved : Word) : Statement (.invInstCache reserved) := .inl ⟨_, _, rfl, rfl, rfl⟩
theorem invConstfCache (reserved : Word) : Statement (.invConstfCache reserved) := .inl ⟨_, _, rfl, rfl, rfl⟩
theorem invConstiCache (reserved : Word) : Statement (.invConstiCache reserved) := .inl ⟨_, _, rfl, rfl, rfl⟩
theorem invConstbCache (reserved : Word) : Statement (.invConstbCache reserved) := .inl ⟨_, _, rfl, rfl, rfl⟩
theorem invCondOutCache (reserved : Word) : Statement (.invCondOutCache reserved) := .inl ⟨_, _, rfl, rfl, rfl⟩
theorem invInpCache (reserved : Word) : Statement (.invInpCache reserved) := .inl ⟨_, _, rfl, rfl, rfl⟩
theorem flushOutCache (reserved : Word) : Statement (.flushOutCache reserved) := .inl ⟨_, _, rfl, rfl, rfl⟩
theorem flushCondOutCache (reserved : Word) : Statement (.flushCondOutCache reserved) := .inl ⟨_, _, rfl, rfl, rfl⟩
theorem setOutMask (mask : Word) : Statement (.setOutMask mask) := .inl ⟨_, _, rfl, rfl, rfl⟩
theorem setCondOutMask (mask : Word) : Statement (.setCondOutMask mask) := .inl ⟨_, _, rfl, rfl, rfl⟩
theorem setCondTest (condition : Word) : Statement (.setCondTest condition) := .inl ⟨_, _, rfl, rfl, rfl⟩
theorem setCondLoc (loc : Word) : Statement (.setCondLoc loc) := .inl ⟨_, _, rfl, rfl, rfl⟩
theorem opRgbMad (alpha : AlphaOp) (f : AluInst) : Statement (.opRgbMad alpha f) := .inr ⟨rfl, rfl⟩
theorem opRgbMin (alpha : AlphaOp) (f : AluInst) : Statement (.opRgbMin alpha f) := .inr ⟨rfl, rfl⟩
theorem opRgbMax (alpha : AlphaOp) (f : AluInst) : Statement (.opRgbMax alpha f) := .inr ⟨rfl, rfl⟩
theorem opRgbCnd (alpha : AlphaOp) (f : AluInst) : Statement (.opRgbCnd alpha f) := .inr ⟨rfl, rfl⟩
theorem opRgbCmp (alpha : AlphaOp) (f : AluInst) : Statement (.opRgbCmp alpha f) := .inr ⟨rfl, rfl⟩
theorem opRgbFrc (alpha : AlphaOp) (f : AluInst) : Statement (.opRgbFrc alpha f) := .inr ⟨rfl, rfl⟩
theorem opRgbDp3 (alpha : AlphaOp) (f : AluInst) : Statement (.opRgbDp3 alpha f) := .inr ⟨rfl, rfl⟩
theorem opRgbDp4 (alpha : AlphaOp) (f : AluInst) : Statement (.opRgbDp4 alpha f) := .inr ⟨rfl, rfl⟩
theorem opRgbD2a (alpha : AlphaOp) (f : AluInst) : Statement (.opRgbD2a alpha f) := .inr ⟨rfl, rfl⟩
theorem opRgbSop (alpha : AlphaOp) (f : AluInst) : Statement (.opRgbSop alpha f) := .inr ⟨rfl, rfl⟩
theorem opAlphaMad (rgb : RgbOp) (f : AluInst) : Statement (.opAlphaMad rgb f) := .inr ⟨rfl, rfl⟩
theorem opAlphaMin (rgb : RgbOp) (f : AluInst) : Statement (.opAlphaMin rgb f) := .inr ⟨rfl, rfl⟩
theorem opAlphaMax (rgb : RgbOp) (f : AluInst) : Statement (.opAlphaMax rgb f) := .inr ⟨rfl, rfl⟩
theorem opAlphaCnd (rgb : RgbOp) (f : AluInst) : Statement (.opAlphaCnd rgb f) := .inr ⟨rfl, rfl⟩
theorem opAlphaCmp (rgb : RgbOp) (f : AluInst) : Statement (.opAlphaCmp rgb f) := .inr ⟨rfl, rfl⟩
theorem opAlphaFrc (rgb : RgbOp) (f : AluInst) : Statement (.opAlphaFrc rgb f) := .inr ⟨rfl, rfl⟩
theorem opAlphaDp (rgb : RgbOp) (f : AluInst) : Statement (.opAlphaDp rgb f) := .inr ⟨rfl, rfl⟩
theorem opAlphaEx2 (rgb : RgbOp) (f : AluInst) : Statement (.opAlphaEx2 rgb f) := .inr ⟨rfl, rfl⟩
theorem opAlphaLn2 (rgb : RgbOp) (f : AluInst) : Statement (.opAlphaLn2 rgb f) := .inr ⟨rfl, rfl⟩
theorem opAlphaRcp (rgb : RgbOp) (f : AluInst) : Statement (.opAlphaRcp rgb f) := .inr ⟨rfl, rfl⟩
theorem opAlphaRsq (rgb : RgbOp) (f : AluInst) : Statement (.opAlphaRsq rgb f) := .inr ⟨rfl, rfl⟩
theorem opAlphaSin (rgb : RgbOp) (f : AluInst) : Statement (.opAlphaSin rgb f) := .inr ⟨rfl, rfl⟩
theorem opAlphaCos (rgb : RgbOp) (f : AluInst) : Statement (.opAlphaCos rgb f) := .inr ⟨rfl, rfl⟩
theorem texNop (f : TexInst) : Statement (.texNop f) := .inr ⟨rfl, rfl⟩
theorem texLookup (f : TexInst) : Statement (.texLookup f) := .inr ⟨rfl, rfl⟩
theorem texKillLt0 (f : TexInst) : Statement (.texKillLt0 f) := .inr ⟨rfl, rfl⟩
theorem texLookupProj (f : TexInst) : Statement (.texLookupProj f) := .inr ⟨rfl, rfl⟩
theorem texLookupUncached (f : TexInst) : Statement (.texLookupUncached f) := .inr ⟨rfl, rfl⟩
theorem fcJump (f : FcInst) : Statement (.fcJump f) := .inr ⟨rfl, rfl⟩
theorem fcLoop (f : FcInst) : Statement (.fcLoop f) := .inr ⟨rfl, rfl⟩
theorem fcEndloop (f : FcInst) : Statement (.fcEndloop f) := .inr ⟨rfl, rfl⟩
theorem fcRep (f : FcInst) : Statement (.fcRep f) := .inr ⟨rfl, rfl⟩
theorem fcEndrep (f : FcInst) : Statement (.fcEndrep f) := .inr ⟨rfl, rfl⟩
theorem fcBreakloop (f : FcInst) : Statement (.fcBreakloop f) := .inr ⟨rfl, rfl⟩
theorem fcBreakrep (f : FcInst) : Statement (.fcBreakrep f) := .inr ⟨rfl, rfl⟩
theorem fcContinue (f : FcInst) : Statement (.fcContinue f) := .inr ⟨rfl, rfl⟩

end Sys2Proof.Laws.EncodedAtOneLevel
end

