-- ==== Sys2Proof/Tests/Slice0.lean ====
section
/-! SUPPORT. Tests of the model against the spec: words written out from its encodings, vectors of 95_test_vectors.md, and for
each obligation with hypotheses a state and operands that meet them. -/

namespace Sys2Proof.Machine

/-! ## Decoding: every row from a written word (R132, R165 to R172) -/

/-- The fields of an ALU slot of zeros. -/
def aluZero : AluInst :=
  let a : SrcAddr := { addr := 0#8, const := false, rel := false }
  let w : AddrWord := { s0 := a, s1 := a, s2 := a, srcp := .bias }
  let x : RgbOperand := { sel := .src0, red := .r, green := .r, blue := .r, mod := .off }
  let y : AlphaOperand := { sel := .src0, swz := .r, mod := .off }
  { isOutput := false, semWait := false, rgbPredSel := .none, rgbPredInv := false, alphaPredSel := .none, alphaPredInv := false
    writeInactive := false, last := false, nop := false, rgbWmask := 0#3, alphaWmask := false, rgbOmask := 0#3
    alphaOmask := false, rgbClamp := false, alphaClamp := false, resultSel := .red, resultOp := .equal, rgbAddr := w
    alphaAddr := w, rgbA := x, rgbB := x, rgbC := x, alphaA := y, alphaB := y, alphaC := y, rgbOmod := .u1, alphaOmod := .u1
    rgbDst := 0#7, rgbDstRel := false, alphaDst := 0#7, alphaDstRel := false, rgbTarget := .t0, alphaTarget := .t0
    wOmask := false, aluWmask := false }

/-- The fields of a texture slot of zeros. -/
def texZero : TexInst :=
  { semWait := false, rgbPredSel := .none, rgbPredInv := false, alphaPredSel := .none, alphaPredInv := false
    writeInactive := false, aluWait := false, rgbWmask := 0#3, alphaWmask := false, texId := 0#4, semAcquire := false
    ignoreUncovered := false, unscaled := false, srcAddr := 0#7, srcRel := false, swzS := .r, swzT := .r, swzR := .r
    swzQ := .r, dstAddr := 0#7, dstRel := false, dswzR := .r, dswzG := .r, dswzB := .r, dswzA := .r, dxdy := 0#32 }

/-- The fields of a flow-control slot of zeros. -/
def fcZero : FcInst :=
  { semWait := false, predSel := .none, predInv := false, aluWait := false, jumpFunc := 0#8, jumpAny := false, aOp := .none
    bOp0 := .none, bOp1 := .none, bPopCnt := 0#5, bElse := false, ignoreUncovered := false, boolAddr := 0#5, intAddr := 0#5
    jumpAddr := 0#9, jumpGlobal := false }

/-- The opcodes of R132, their parameters in order. -/
theorem test_decode_pe :
    decodeWords [0xC0010200#32, 0x11#32] = .ok (.initPerfCounters 0x11#32) ∧
    decodeWords [0xC0000300#32, 0x11#32] = .ok (.startPerfCounters 0x11#32) ∧
    decodeWords [0xC0000400#32, 0x11#32] = .ok (.stopPerfCounters 0x11#32) ∧
    decodeWords [0xC0010500#32, 0x11#32] = .ok (.readPerfCounters 0x11#32) ∧
    decodeWords [0xC0000600#32, 0x11#32] = .ok (.setCondVal 0x11#32) ∧
    decodeWords [0xC0030700#32, 0x11#32, 0x22#32, 0x33#32, 0x44#32] = .ok (.setDomain 0x11#32 0x22#32 0x33#32 0x44#32) ∧
    decodeWords [0xC0000800#32, 0x11#32] = .ok (.startProgram 0x11#32) ∧
    decodeWords [0xC0000900#32, 0x11#32] = .ok (.waitForIdle 0x11#32) := by
  refine ⟨rfl, rfl, rfl, rfl, rfl, rfl, rfl, rfl⟩

/-- The opcodes of R132, their parameters in order. -/
theorem test_decode_mc_formats :
    decodeWords [0xC0010A00#32, 0x11#32, 0x22#32] = .ok (.setInstFmt 0x11#32 0x22#32) ∧
    decodeWords [0xC0030B00#32, 0x11#32, 0x22#32, 0x33#32, 0x44#32] = .ok (.setInpFmt 0x11#32 0x22#32 0x33#32 0x44#32) ∧
    decodeWords [0xC0030C00#32, 0x11#32, 0x22#32, 0x33#32, 0x44#32] = .ok (.setOutFmt 0x11#32 0x22#32 0x33#32 0x44#32) ∧
    decodeWords [0xC0020D00#32, 0x11#32, 0x22#32, 0x33#32] = .ok (.setCondOutFmt 0x11#32 0x22#32 0x33#32) ∧
    decodeWords [0xC0010E00#32, 0x11#32, 0x22#32] = .ok (.setConstfFmt 0x11#32 0x22#32) ∧
    decodeWords [0xC0010F00#32, 0x11#32, 0x22#32] = .ok (.setConstiFmt 0x11#32 0x22#32) ∧
    decodeWords [0xC0011000#32, 0x11#32, 0x22#32] = .ok (.setConstbFmt 0x11#32 0x22#32) := by
  refine ⟨rfl, rfl, rfl, rfl, rfl, rfl, rfl⟩

/-- The opcodes of R132, their parameters in order. -/
theorem test_decode_mc_caches :
    decodeWords [0xC0001100#32, 0x11#32] = .ok (.invInstCache 0x11#32) ∧
    decodeWords [0xC0001200#32, 0x11#32] = .ok (.invConstfCache 0x11#32) ∧
    decodeWords [0xC0001300#32, 0x11#32] = .ok (.invConstiCache 0x11#32) ∧
    decodeWords [0xC0001400#32, 0x11#32] = .ok (.invConstbCache 0x11#32) ∧
    decodeWords [0xC0001500#32, 0x11#32] = .ok (.invCondOutCache 0x11#32) ∧
    decodeWords [0xC0001600#32, 0x11#32] = .ok (.invInpCache 0x11#32) ∧
    decodeWords [0xC0001700#32, 0x11#32] = .ok (.flushOutCache 0x11#32) ∧
    decodeWords [0xC0001800#32, 0x11#32] = .ok (.flushCondOutCache 0x11#32) := by
  refine ⟨rfl, rfl, rfl, rfl, rfl, rfl, rfl, rfl⟩

/-- The opcodes of R132, their parameters in order. -/
theorem test_decode_masks_and_co :
    decodeWords [0xC0001900#32, 0x11#32] = .ok (.setOutMask 0x11#32) ∧
    decodeWords [0xC0001A00#32, 0x11#32] = .ok (.setCondOutMask 0x11#32) ∧
    decodeWords [0xC0001B00#32, 0x11#32] = .ok (.setCondTest 0x11#32) ∧
    decodeWords [0xC0001C00#32, 0x11#32] = .ok (.setCondLoc 0x11#32) := by
  refine ⟨rfl, rfl, rfl, rfl⟩

/-- RGB_OP in bits 3:0 of w5 (R170), RGB_WMASK.R set, so the RGB row names the slot. -/
theorem test_decode_rgb_rows :
    decodeSlot ⟨0x00000800#32, 0#32, 0#32, 0#32, 0#32, 0x0#32⟩ = .ok (.opRgbMad .mad { aluZero with rgbWmask := 1#3 }) ∧
    decodeSlot ⟨0x00000800#32, 0#32, 0#32, 0#32, 0#32, 0x1#32⟩ = .ok (.opRgbDp3 .mad { aluZero with rgbWmask := 1#3 }) ∧
    decodeSlot ⟨0x00000800#32, 0#32, 0#32, 0#32, 0#32, 0x2#32⟩ = .ok (.opRgbDp4 .mad { aluZero with rgbWmask := 1#3 }) ∧
    decodeSlot ⟨0x00000800#32, 0#32, 0#32, 0#32, 0#32, 0x3#32⟩ = .ok (.opRgbD2a .mad { aluZero with rgbWmask := 1#3 }) ∧
    decodeSlot ⟨0x00000800#32, 0#32, 0#32, 0#32, 0#32, 0x4#32⟩ = .ok (.opRgbMin .mad { aluZero with rgbWmask := 1#3 }) ∧
    decodeSlot ⟨0x00000800#32, 0#32, 0#32, 0#32, 0#32, 0x5#32⟩ = .ok (.opRgbMax .mad { aluZero with rgbWmask := 1#3 }) ∧
    decodeSlot ⟨0x00000800#32, 0#32, 0#32, 0#32, 0#32, 0x7#32⟩ = .ok (.opRgbCnd .mad { aluZero with rgbWmask := 1#3 }) ∧
    decodeSlot ⟨0x00000800#32, 0#32, 0#32, 0#32, 0#32, 0x8#32⟩ = .ok (.opRgbCmp .mad { aluZero with rgbWmask := 1#3 }) ∧
    decodeSlot ⟨0x00000800#32, 0#32, 0#32, 0#32, 0#32, 0x9#32⟩ = .ok (.opRgbFrc .mad { aluZero with rgbWmask := 1#3 }) ∧
    decodeSlot ⟨0x00000800#32, 0#32, 0#32, 0#32, 0#32, 0xA#32⟩ = .ok (.opRgbSop .mad { aluZero with rgbWmask := 1#3 }) := by
  refine ⟨rfl, rfl, rfl, rfl, rfl, rfl, rfl, rfl, rfl, rfl⟩

/-- ALPHA_OP in bits 3:0 of w4 (R169), ALPHA_WMASK set and no RGB mask, so the alpha row names the slot. -/
theorem test_decode_alpha_rows :
    decodeSlot ⟨0x00004000#32, 0#32, 0#32, 0#32, 0x0#32, 0#32⟩ = .ok (.opAlphaMad .mad { aluZero with alphaWmask := true }) ∧
    decodeSlot ⟨0x00004000#32, 0#32, 0#32, 0#32, 0x1#32, 0#32⟩ = .ok (.opAlphaDp .mad { aluZero with alphaWmask := true }) ∧
    decodeSlot ⟨0x00004000#32, 0#32, 0#32, 0#32, 0x2#32, 0#32⟩ = .ok (.opAlphaMin .mad { aluZero with alphaWmask := true }) ∧
    decodeSlot ⟨0x00004000#32, 0#32, 0#32, 0#32, 0x3#32, 0#32⟩ = .ok (.opAlphaMax .mad { aluZero with alphaWmask := true }) ∧
    decodeSlot ⟨0x00004000#32, 0#32, 0#32, 0#32, 0x5#32, 0#32⟩ = .ok (.opAlphaCnd .mad { aluZero with alphaWmask := true }) ∧
    decodeSlot ⟨0x00004000#32, 0#32, 0#32, 0#32, 0x6#32, 0#32⟩ = .ok (.opAlphaCmp .mad { aluZero with alphaWmask := true }) ∧
    decodeSlot ⟨0x00004000#32, 0#32, 0#32, 0#32, 0x7#32, 0#32⟩ = .ok (.opAlphaFrc .mad { aluZero with alphaWmask := true }) ∧
    decodeSlot ⟨0x00004000#32, 0#32, 0#32, 0#32, 0x8#32, 0#32⟩ = .ok (.opAlphaEx2 .mad { aluZero with alphaWmask := true }) ∧
    decodeSlot ⟨0x00004000#32, 0#32, 0#32, 0#32, 0x9#32, 0#32⟩ = .ok (.opAlphaLn2 .mad { aluZero with alphaWmask := true }) ∧
    decodeSlot ⟨0x00004000#32, 0#32, 0#32, 0#32, 0xA#32, 0#32⟩ = .ok (.opAlphaRcp .mad { aluZero with alphaWmask := true }) ∧
    decodeSlot ⟨0x00004000#32, 0#32, 0#32, 0#32, 0xB#32, 0#32⟩ = .ok (.opAlphaRsq .mad { aluZero with alphaWmask := true }) ∧
    decodeSlot ⟨0x00004000#32, 0#32, 0#32, 0#32, 0xC#32, 0#32⟩ = .ok (.opAlphaSin .mad { aluZero with alphaWmask := true }) ∧
    decodeSlot ⟨0x00004000#32, 0#32, 0#32, 0#32, 0xD#32, 0#32⟩ = .ok (.opAlphaCos .mad { aluZero with alphaWmask := true }) := by
  refine ⟨rfl, rfl, rfl, rfl, rfl, rfl, rfl, rfl, rfl, rfl, rfl, rfl, rfl⟩

/-- TEX_INST in bits 24:22 of w1 (R171). -/
theorem test_decode_tex_rows :
    decodeSlot ⟨3#32, 0x00000000#32, 0#32, 0#32, 0#32, 0#32⟩ = .ok (.texNop texZero) ∧
    decodeSlot ⟨3#32, 0x00400000#32, 0#32, 0#32, 0#32, 0#32⟩ = .ok (.texLookup texZero) ∧
    decodeSlot ⟨3#32, 0x00800000#32, 0#32, 0#32, 0#32, 0#32⟩ = .ok (.texKillLt0 texZero) ∧
    decodeSlot ⟨3#32, 0x00C00000#32, 0#32, 0#32, 0#32, 0#32⟩ = .ok (.texLookupProj texZero) ∧
    decodeSlot ⟨3#32, 0x01C00000#32, 0#32, 0#32, 0#32, 0#32⟩ = .ok (.texLookupUncached texZero) := by
  refine ⟨rfl, rfl, rfl, rfl, rfl⟩

/-- FC_OP in bits 2:0 of w2 (R172). -/
theorem test_decode_fc_rows :
    decodeSlot ⟨2#32, 0#32, 0#32, 0#32, 0#32, 0#32⟩ = .ok (.fcJump fcZero) ∧
    decodeSlot ⟨2#32, 0#32, 1#32, 0#32, 0#32, 0#32⟩ = .ok (.fcLoop fcZero) ∧
    decodeSlot ⟨2#32, 0#32, 2#32, 0#32, 0#32, 0#32⟩ = .ok (.fcEndloop fcZero) ∧
    decodeSlot ⟨2#32, 0#32, 3#32, 0#32, 0#32, 0#32⟩ = .ok (.fcRep fcZero) ∧
    decodeSlot ⟨2#32, 0#32, 4#32, 0#32, 0#32, 0#32⟩ = .ok (.fcEndrep fcZero) ∧
    decodeSlot ⟨2#32, 0#32, 5#32, 0#32, 0#32, 0#32⟩ = .ok (.fcBreakloop fcZero) ∧
    decodeSlot ⟨2#32, 0#32, 6#32, 0#32, 0#32, 0#32⟩ = .ok (.fcBreakrep fcZero) ∧
    decodeSlot ⟨2#32, 0#32, 7#32, 0#32, 0#32, 0#32⟩ = .ok (.fcContinue fcZero) := by
  refine ⟨rfl, rfl, rfl, rfl, rfl, rfl, rfl, rfl⟩

/-- The OUTPUT slot of program P1 (95_test_vectors.md, part 4): constants 0, 1 and 2 as the three sources. -/
theorem test_decode_p1_slot0 :
    decodeSlot ⟨0x00078005#32, 0x10240500#32, 0x10240500#32, 0x00442220#32, 0x0068C000#32, 0x1C222000#32⟩ =
      .ok (.opRgbMad .mad
        (let s := fun n : BitVec 8 => { addr := n, const := true, rel := false : SrcAddr }
         let w : AddrWord := { s0 := s 0#8, s1 := s 1#8, s2 := s 2#8, srcp := .bias }
         let x := fun k : SrcSel => { sel := k, red := .r, green := .g, blue := .b, mod := .off : RgbOperand }
         let y := fun k : SrcSel => { sel := k, swz := .a, mod := .off : AlphaOperand }
         { aluZero with
           isOutput := true, semWait := true, rgbOmask := 7#3, alphaOmask := true, rgbAddr := w, alphaAddr := w, rgbA := x .src0
           rgbB := x .src1, rgbC := x .src2, alphaA := y .src0, alphaB := y .src1, alphaC := y .src2 })) := rfl

/-- Slot 0 of program P3: a predicate write from i - 1, PRED_OP_LESS. -/
theorem test_decode_p3_slot0 :
    decodeSlot ⟨0x00008000#32, 0#32, 0#32, 0x20DB0000#32, 0x00810000#32, 0x20ED8000#32⟩ =
      .ok (.opRgbMad .mad
        (let one : RgbOperand := { sel := .src0, red := .one, green := .one, blue := .one, mod := .off }
         let zero : AlphaOperand := { sel := .src0, swz := .zero, mod := .off }
         { aluZero with
           rgbOmask := 1#3, rgbTarget := .t1, rgbB := one, rgbC := { one with mod := .neg }, alphaA := zero, alphaB := zero
           alphaC := zero })) := rfl

/-- Slot 6 of program P3: a bit-exact move of register 1 to output A. -/
theorem test_decode_p3_slot6 :
    decodeSlot ⟨0x00008005#32, 1#32, 1#32, 0x1C000000#32, 0x00810000#32, 0x20490005#32⟩ =
      .ok (.opRgbMax .mad
        (let w : AddrWord := { aluZero.rgbAddr with s0 := { addr := 1#8, const := false, rel := false } }
         let zero : AlphaOperand := { sel := .src0, swz := .zero, mod := .off }
         { aluZero with
           isOutput := true, semWait := true, rgbOmask := 1#3, rgbAddr := w, alphaAddr := w, rgbOmod := .disabled
           rgbC := { sel := .src0, red := .zero, green := .zero, blue := .zero, mod := .off }, alphaA := zero, alphaB := zero
           alphaC := zero })) := rfl

/-- Slot 2 of program P4: source 1 is constant 4 with aL added. -/
theorem test_decode_p4_slot2 :
    ∃ f, decodeSlot ⟨0x00000800#32, 0x000C1000#32, 0#32, 0x00DB0000#32, 0x00810000#32, 0x20001000#32⟩ =
        .ok (.opRgbMad .mad f) ∧
      f.rgbAddr.s1 = { addr := 4#8, const := true, rel := true } ∧ f.rgbC.sel = .src1 ∧ f.rgbWmask = 1#3 ∧
      f.rgbB.red = .one := ⟨_, rfl, rfl, rfl, rfl, rfl⟩

/-- The IF and ELSE of program P3, the ENDLOOP of program P4. -/
theorem test_decode_fc_words :
    decodeSlot ⟨0x00000412#32, 0#32, 0x0A003300#32, 0x80040000#32, 0#32, 0#32⟩ =
      .ok (.fcJump { fcZero with
        predSel := .rrrr, aluWait := true, jumpFunc := 0x33#8, bOp0 := .incr, bOp1 := .incr, jumpAddr := 4#9
        jumpGlobal := true }) ∧
    decodeSlot ⟨0x00000002#32, 0#32, 0x04010010#32, 0x80060000#32, 0#32, 0#32⟩ =
      .ok (.fcJump { fcZero with bElse := true, bOp1 := .decr, bPopCnt := 1#5, jumpAddr := 6#9, jumpGlobal := true }) ∧
    decodeSlot ⟨0x00000002#32, 0#32, 0x0000FF22#32, 0x80020000#32, 0#32, 0#32⟩ =
      .ok (.fcEndloop { fcZero with jumpFunc := 0xFF#8, jumpAny := true, jumpAddr := 2#9, jumpGlobal := true }) :=
  ⟨rfl, rfl, rfl⟩

/-- Words that are no opcode, and a command cut short (95_test_vectors.md 2.1). -/
theorem test_decode_refuses :
    decodeWords [0xC0000100#32, 0#32] = .error .truncated ∧
    decodeCommand [0xC0000100#32, 0#32] = .error (.badCommand 0xC0000100#32) ∧
    decodeCommand [0xC0001D00#32, 0#32] = .error (.badCommand 0xC0001D00#32) ∧
    decodeCommand [0xC0020700#32, 0#32, 0#32, 0#32, 0#32] = .error (.badCommand 0xC0020700#32) ∧
    decodeCommand [0#32] = .error (.badCommand 0#32) ∧
    decodeCommand [0xC0030700#32, 0#32, 0#32, 0x3F#32] = .error .truncated ∧
    decodeSlot ⟨0#32, 0#32, 0#32, 0x1C#32, 0#32, 0#32⟩ = .error .invalidEncoding ∧
    decodeSlot ⟨0#32, 0#32, 0#32, 0#32, 4#32, 0#32⟩ = .error .invalidEncoding ∧
    decodeSlot ⟨2#32, 0#32, 0xC0#32, 0#32, 0#32, 0#32⟩ = .error .invalidEncoding ∧
    decodeSlot ⟨3#32, 0x01000000#32, 0#32, 0#32, 0#32, 0#32⟩ = .error .invalidEncoding := by
  refine ⟨rfl, rfl, rfl, rfl, rfl, rfl, rfl, rfl, rfl, rfl⟩

/-- A command as it lies in memory, and as the table numbers its bits (R82). -/
theorem test_decode_bytes :
    decodeBytes [0x00#8, 0x1B#8, 0x00#8, 0xC0#8, 0x01#8, 0x00#8, 0x00#8, 0x00#8] = .ok (.setCondTest 1#32) ∧
    decodeTableWord 32 0xC0001B00 = some (.setCondTest 0#32) ∧
    decodeTableWord 96 0x00000000_0A400000_00007807 =
      some (.texLookup { texZero with rgbWmask := 7#3, alphaWmask := true, semWait := true, semAcquire := true, unscaled := true }) :=
  ⟨rfl, rfl, rfl⟩

/-! ## What is not well formed -/

/-- Reserved bits of parameters (R138; 95_test_vectors.md 2.1). -/
theorem test_refuses_reserved_bits :
    Instr.wellFormed (.waitForIdle 1#32) = false ∧ Instr.wellFormed (.setDomain 0x1000#32 0#32 0#32 0#32) = false ∧
    Instr.wellFormed (.setDomain 0#32 0#32 0#32 0x1000#32) = false ∧ Instr.wellFormed (.setOutMask 0x10#32) = false ∧
    Instr.wellFormed (.setCondTest 8#32) = false ∧ Instr.wellFormed (.setOutFmt 4#32 0#32 0#32 0#32) = false ∧
    Instr.wellFormed (.setInpFmt 0x10#32 0#32 0#32 0#32) = false ∧ Instr.wellFormed (.initPerfCounters 3#32) = false ∧
    Instr.wellFormed (.setInstFmt 0#32 0x04000041#32) = false ∧ Instr.wellFormed (.setConstfFmt 0#32 0x04002040#32) = false ∧
    Instr.wellFormed (.setConstiFmt 0#32 0x04040040#32) = false ∧ Instr.wellFormed (.setConstbFmt 0#32 0x0C000040#32) = false ∧
    Instr.wellFormed (.setCondOutFmt 0#32 0#32 0x2000#32) = false ∧ Instr.wellFormed (.setCondOutMask 2#32) = false ∧
    Instr.wellFormed (.setCondLoc 2#32) = false ∧ Instr.wellFormed (.invInpCache 1#32) = false := by
  refine ⟨rfl, rfl, rfl, rfl, rfl, rfl, rfl, rfl, rfl, rfl, rfl, rfl, rfl, rfl, rfl, rfl⟩

/-- The combinations that the manual calls invalid (R156, R313, R150), a target without a code (R168), a row that does not name
its slot (log 7). -/
theorem test_refuses_alu_fields :
    Instr.wellFormed (.opRgbSop .mad { aluZero with rgbWmask := 1#3 }) = false ∧
    Instr.wellFormed (.opAlphaDp .mad { aluZero with alphaWmask := true }) = false ∧
    Instr.wellFormed (.opRgbMad .mad { aluZero with rgbWmask := 1#3, rgbOmod := .disabled }) = false ∧
    Instr.wellFormed (.opRgbMax .mad { aluZero with rgbWmask := 1#3, rgbOmod := .disabled, rgbClamp := true }) = false ∧
    Instr.wellFormed (.opAlphaFrc .mad { aluZero with alphaWmask := true, alphaOmod := .disabled }) = false ∧
    Instr.wellFormed (.opAlphaMin .mad { aluZero with alphaWmask := true, alphaOmod := .disabled, alphaClamp := true }) = false ∧
    Instr.wellFormed (.opRgbMad .mad { aluZero with
      rgbWmask := 1#3, rgbAddr := { aluZero.rgbAddr with s2 := { addr := 0x80#8, const := false, rel := true } } }) = false ∧
    Instr.wellFormed (.opRgbMad .mad { aluZero with rgbWmask := 1#3, rgbTarget := .umrtSameIdx }) = false ∧
    Instr.wellFormed (.opRgbMad .mad { aluZero with rgbWmask := 1#3, alphaTarget := .umrtPerProcessorIdxAcquire }) = false ∧
    Instr.wellFormed (.opAlphaMad .mad { aluZero with rgbWmask := 1#3 }) = false ∧
    Instr.wellFormed (.opRgbMad .mad { aluZero with alphaWmask := true }) = false := by
  refine ⟨rfl, rfl, rfl, rfl, rfl, rfl, rfl, rfl, rfl, rfl, rfl⟩

/-- An acquire without a wait (R369), flow control predicated per channel (R386). -/
theorem test_refuses_tex_and_fc_fields :
    Instr.wellFormed (.texLookup { texZero with semAcquire := true }) = false ∧
    Instr.wellFormed (.fcJump { fcZero with predSel := .rgba }) = false := ⟨rfl, rfl⟩

/-! ## Vectors of the spec -/

/-- Linear addresses (95_test_vectors.md 2.2), the last column with its wrap. -/
theorem test_linear_addresses :
    [1, 2, 3, 4].map (fun k => linearAddr 0x100000 64 k 5 3) = [0x0010018A, 0x00100314, 0x00100628, 0x00100C50] ∧
    [1, 2, 3, 4].map (fun k => linearAddr 0x100000 60 k 1 1) = [0x00100062, 0x001000E4, 0x001001E8, 0x001003D0] ∧
    [1, 2, 3, 4].map (fun k => linearAddr 0xFFFFF800 8188 k 4095 4095) = [0x03FDD81E, 0x07FDB81C, 0x0FFD7818, 0x1FFAF830] := by
  decide

/-- Tiled addresses (95_test_vectors.md 2.3). -/
theorem test_tiled_addresses :
    [0, 1, 2, 3, 4].map (fun k => tiledAddr 0 64 k 5 3) = [0x1D, 0x3A, 0x74, 0xD8, 0x1D0] ∧
    [0, 1, 2, 3, 4].map (fun k => tiledAddr 0x100000 64 k 63 31) =
      [0x0010067F, 0x00100A7E, 0x0010187C, 0x00103878, 0x00107870] ∧
    [0, 1, 2, 3, 4].map (fun k => tiledAddr 0x100000 128 k 37 21) =
      [0x001007CD, 0x001008EA, 0x00102F34, 0x00105398, 0x00109450] ∧
    [0, 1, 2, 3, 4].map (fun k => tiledAddr 0xFFFFF800 8188 k 4095 4095) =
      [0x01F9F87F, 0x03F7F87E, 0x07F3F87C, 0x0FEFF878, 0x1FE7F870] := by
  decide

/-- Inline constants: the eight examples of the manual (95_test_vectors.md 1.3) and two more cells of the table of 2.10. -/
theorem test_inline_constants :
    [0x00, 0x01, 0x02, 0x04, 0x08, 0x38, 0x78, 0x7F, 0x07, 0x6B].map inlineConst =
      [0x3A800000#32, 0x3B000000#32, 0x3B800000#32, 0x3C000000#32, 0x3C800000#32, 0x3F800000#32, 0x43800000#32, 0x43F00000#32,
       0x3C600000#32, 0x42B00000#32] := by
  decide

/-- The predicate comparisons on the five special values, in the order of the table (95_test_vectors.md 1.10). -/
theorem test_comparison_table :
    let values : List Word := [0#32, 0x80000000#32, 0x7F800000#32, 0xFF800000#32, 0x7FC00000#32]
    values.map fLt0 = [false, false, false, true, false] ∧ values.map fGe0 = [true, true, true, false, false] ∧
    values.map fEq0 = [true, true, false, false, false] ∧ values.map fNe0 = [false, false, true, true, true] := by
  decide

/-- MAD on special values (95_test_vectors.md 2.11). -/
theorem test_mad_specials :
    let f := fun a b c : Word => finish Config.fArith 0 .u1 (mad a b c)
    f 0#32 0#32 0x80000000#32 = 0#32 ∧ f 0x80000000#32 0#32 0x80000000#32 = 0x80000000#32 ∧
    f 0x80000000#32 0x3F800000#32 0#32 = 0#32 ∧ f 0x7F800000#32 0#32 0x3F800000#32 = 0x7FFFFFFF#32 ∧
    f 0x7F800000#32 0x3F800000#32 0xFF800000#32 = 0x7FFFFFFF#32 ∧ f 0x7F800000#32 0xBF800000#32 0x40A00000#32 = 0xFF800000#32 ∧
    f 0x7FC12345#32 0x3F800000#32 0#32 = 0x7FFFFFFF#32 ∧ f 1#32 0x3F800000#32 0#32 = 0#32 ∧
    f 0x80000001#32 0x3F800000#32 0#32 = 0#32 ∧ f 0x40400000#32 0x3F800000#32 0xC0400000#32 = 0#32 := by
  refine ⟨rfl, rfl, rfl, rfl, rfl, rfl, rfl, rfl, rfl, rfl⟩

/-- MAD of 3, 0.5 and 1 is 2.5: its difference to 2.5 cancels exactly. -/
theorem test_mad_exact :
    addExt (mad 0x40400000#32 0x3F000000#32 0x3F800000#32) (.ofBits 0xC0200000#32) = .zero false := by decide

/-- A result below the normal range is flushed after the modifier's factor: 2^-130 times 8 is still below 2^-126. -/
theorem test_output_modifier_flushes :
    finish Config.fArith 0 .u8 (mad 0x0D800000#32 0x30800000#32 0#32) = 0#32 := rfl

/-- MIN, MAX, CND and CMP (95_test_vectors.md 2.11). -/
theorem test_select_operations :
    selectMin 0x3F800000#32 0xC0000000#32 = 0xC0000000#32 ∧ selectMin 0#32 0x80000000#32 = 0x80000000#32 ∧
    selectMin 0x80000000#32 0#32 = 0#32 ∧ selectMin 0x7FC00000#32 0x40400000#32 = 0x40400000#32 ∧
    selectMin 0x40400000#32 0x7FC12345#32 = 0x7FC12345#32 ∧ selectMin 1#32 2#32 = 2#32 ∧
    selectMax 0x3F800000#32 0xC0000000#32 = 0x3F800000#32 ∧ selectMax 0x80000000#32 0#32 = 0#32 ∧
    selectMax 0x7F800000#32 0x40A00000#32 = 0x7F800000#32 ∧
    selectCnd 0 0x40A00000#32 0x40C00000#32 0x3F400000#32 = 0x40A00000#32 ∧
    selectCnd 0 0x40A00000#32 0x40C00000#32 0x3F000000#32 = 0x40C00000#32 ∧
    selectCnd 0 0x40A00000#32 0x40C00000#32 0x3F000001#32 = 0x40A00000#32 ∧
    selectCnd 0 0x40A00000#32 0x40C00000#32 0x7FC00000#32 = 0x40C00000#32 ∧
    selectCmp 0 0x40A00000#32 0x40C00000#32 0xBF800000#32 = 0x40C00000#32 ∧
    selectCmp 0 0x40A00000#32 0x40C00000#32 0x80000000#32 = 0x40A00000#32 ∧
    selectCmp 0 0x40A00000#32 0x40C00000#32 0x80000001#32 = 0x40A00000#32 := by
  refine ⟨rfl, rfl, rfl, rfl, rfl, rfl, rfl, rfl, rfl, rfl, rfl, rfl, rfl, rfl, rfl, rfl⟩

/-- FRC of 2.75 and of -0.25 is 0.75, of 3 is +0. -/
theorem test_frc :
    addExt (frc 0 0x40300000#32) (.ofBits 0xBF400000#32) = .zero false ∧
    addExt (frc 0 0xBE800000#32) (.ofBits 0xBF400000#32) = .zero false ∧ frc 0 0x40400000#32 = .zero false := by decide

/-- Dot products: (1, 2, 3) with (4, 5, 6) is 32, and two cancelling terms far above the third leave +0 (R449). -/
theorem test_dot_products :
    addExt (dotSum [prodBits 0x3F800000#32 0x40800000#32, prodBits 0x40000000#32 0x40A00000#32,
      prodBits 0x40400000#32 0x40C00000#32]) (.ofBits 0xC2000000#32) = .zero false ∧
    dotSum [prodBits 0x4E800000#32 0x3F800000#32, prodBits 0xCE800000#32 0x3F800000#32, prodBits 0x3F800000#32 0x3F800000#32] =
      .zero false ∧
    dotSum [prodBits 0x7F800000#32 0#32, prodBits 0x3F800000#32 0x3F800000#32, prodBits 0x3F800000#32 0x3F800000#32] = .nan := by
  decide

/-- The table of the transcendental operations (95_test_vectors.md 1.10), and the rows of 2.11 that are flushed or overflow. -/
theorem test_transcendental_specials :
    let values : List Word := [0#32, 0x80000000#32, 0x7F800000#32, 0xFF800000#32, 0x7FC00000#32]
    values.map (ex2 Config.fArith 0) = [0x3F800000#32, 0x3F800000#32, 0x7F800000#32, 0#32, 0x7FFFFFFF#32] ∧
    values.map (ln2 Config.fArith 0) = [0xFF800000#32, 0xFF800000#32, 0x7F800000#32, 0x7FFFFFFF#32, 0x7FFFFFFF#32] ∧
    values.map (rcp Config.fArith 0) = [0x7F800000#32, 0xFF800000#32, 0#32, 0x80000000#32, 0x7FFFFFFF#32] ∧
    values.map (rsq Config.fArith 0) = [0x7F800000#32, 0x7F800000#32, 0#32, 0x7FFFFFFF#32, 0x7FFFFFFF#32] ∧
    values.map (sinTurns Config.fArith 0) = [0#32, 0x80000000#32, 0x7FFFFFFF#32, 0x7FFFFFFF#32, 0x7FFFFFFF#32] ∧
    values.map (cosTurns Config.fArith 0) = [0x3F800000#32, 0x3F800000#32, 0x7FFFFFFF#32, 0x7FFFFFFF#32, 0x7FFFFFFF#32] ∧
    ex2 Config.fArith 0 0xC2FE0000#32 = 0#32 ∧ ex2 Config.fArith 0 0x43000000#32 = 0x7F800000#32 ∧
    rcp Config.fArith 0 0x7F000000#32 = 0#32 ∧ rcp Config.fArith 0 0xFF000000#32 = 0x80000000#32 := by
  refine ⟨rfl, rfl, rfl, rfl, rfl, rfl, rfl, rfl, rfl, rfl⟩

/-- Input modifiers on patterns (95_test_vectors.md 2.10). -/
theorem test_input_modifiers :
    applyIMod .abs 0xC0000000#32 = 0x40000000#32 ∧ applyIMod .nab 0x40000000#32 = 0xC0000000#32 ∧
    applyIMod .nab 0#32 = 0x80000000#32 ∧ applyIMod .neg 0x7FC00001#32 = 0xFFC00001#32 := by decide

/-- Predicate writes from -0.5, -0.0, NaN and +Inf (95_test_vectors.md 2.12). -/
theorem test_predicate_operations :
    let values : List Word := [0xBF000000#32, 0x80000000#32, 0x7FC00000#32, 0x7F800000#32]
    values.map (predOp (Target.test .t0)) = [false, true, false, false] ∧
    values.map (predOp (Target.test .t1)) = [true, false, false, false] ∧
    values.map (predOp (Target.test .t2)) = [false, true, false, true] ∧
    values.map (predOp (Target.test .t3)) = [true, false, true, true] := by decide

/-! ## Small states -/

/-- A processor with T[1] = (1, 2, 3, 4), P = (1, 0, 1, 0) and A of T[2] = -1. -/
def tLane : Lane :=
  { proc := 0, seed := 0, i := 5#12, j := 3#12, vIn := 0#32
    temps := [(4, 0x3F800000#32), (5, 0x40000000#32), (6, 0x40400000#32), (7, 0x40800000#32), (11, 0xBF800000#32)]
    pred := ⟨true, false, true, false⟩, predSet := Quad.all true, ar := true, arSet := true, outs := [], wout := 0#32
    woutSet := false, active := true, bcnt := 0, loopOff := none, covered := true, semHeld := false, texPending := []
    semCover := [], outbox := none, stuck := false }

/-- A program of four slots in full flow-control mode. -/
def tProg : Program :=
  { fgDepthSrc := 0#32, usConfig := 0#32, usPixsize := 127#32, usFcCtrl := 0x80000000#32, usCodeAddr := 0x00030000#32
    usCodeRange := 0x00030000#32, instrCnt := 4#32, inputs := [0], outputs := [0], condOutput := false, floatConsts := []
    intConsts := [0], earlyExit := false, offsetAddr := 0, breakInhibit := .all }

/-- Descriptors: every input at 0x1000, every output and the conditional output at 0x2000, FLOAT32_1 LINEAR, pitch 64, height
32; float constants at 0x3000. -/
def tDescs : Descs :=
  let d := fun b : Word => { base := b, pitch := 64#13, tiling := .linear, format := 2#3 : Desc }
  { inst := d 0x5000#32, constf := { d 0x3000#32 with format := 4#3 }, consti := d 0x4000#32, constb := d 0x4800#32
    inp := Vector.replicate 16 { desc := d 0x1000#32, height := 32#13 }
    out := Vector.replicate 4 { desc := d 0x2000#32, height := 32#13 }, condOut := { desc := d 0x2000#32, height := 32#13 } }

def tEnv : Snapshot :=
  { condVal := 0#32, condTest := 7#3, condLoc := false, condOutMask := false, outMask := 15#4, descs := tDescs, prog := tProg
    text := [] }

def tGroup : Group :=
  { env := tEnv, pc := 1, loopStack := [], addrStack := [], aluPending := [], prev := .none, started := true, halted := false
    lanes := [tLane] }

/-- Memory with all caches emptied; the input element (5, 3) holds 1.0. -/
def tMem : MemSys :=
  { ram := [(0x1316, 0x80#8), (0x1317, 0x3F#8)], inst := ReadCache.empty, constf := ReadCache.empty, consti := ReadCache.empty
    constb := ReadCache.empty, inp := ReadCache.empty, out := [], cond := { clean := ReadCache.empty, dirty := [] } }

/-- The group of one processor is to move. -/
def tState : State := { State.reset with mem := tMem, turn := .group 0, groups := [tGroup] }

/-- The PE is to move; its buffer has three words left at address 0x100. -/
def pState (ram : Memory) : State :=
  { State.reset with
    mem := { tMem with ram := ram }
    pe := { State.reset.pe with cur := some { sub := { id := 7#32, addr := 0#32, size := 9#32 }, pos := 0x100#32, remaining := 3 } } }

/-- A field of the next state. -/
def after {α : Type} (o : Host.Outcome State Fault Refusal) (p : State → α) : Option α :=
  match o with
  | .next t => some (p t)
  | _ => none

/-! ## Commands -/

/-- A step of the PE reads a command, sets the mask and moves on by two words (R242, R25). -/
theorem test_step_set_out_mask :
    after (step (pState [(0x101, 0x19#8), (0x103, 0xC0#8), (0x104, 0x0D#8)]))
        (fun t => (t.mc.outMask, t.pe.cur.map Current.pos, t.pe.cur.map Current.remaining)) =
      some (0xD#4, some 0x108#32, some 1) := rfl

/-- The last command of a buffer consumes it (R25). -/
theorem test_last_command_consumes :
    let s := pState []
    let s1 := { s with pe := { s.pe with cur := s.pe.cur.map fun c => { c with remaining := 2 } } }
    after (exec (.setCondVal 9#32) s1) (fun t => (t.pe.condVal, t.pe.cur, t.pe.consumed)) = some (9#32, none, [7#32]) := rfl

/-- A format word (95_test_vectors.md 2.1). -/
theorem test_set_out_fmt :
    after (exec (.setOutFmt 1#32 0x002007FF#32 0x04000040#32 0x20#32) State.reset) (fun t => t.mc.descs.out.toList[1]?) =
      some (some { desc := { base := 0x00200000#32, pitch := 64#13, tiling := .linear, format := 4#3 }, height := 32#13 }) := rfl

/-- The domain of 95_test_vectors.md 2.7: six pairs; and an empty one. -/
theorem test_domain_pairs :
    Domain.pairs { i0 := 2#12, j0 := 5#12, i1 := 4#12, j1 := 6#12 } =
      [(2#12, 5#12), (3#12, 5#12), (4#12, 5#12), (2#12, 6#12), (3#12, 6#12), (4#12, 6#12)] ∧
    Domain.pairs { i0 := 3#12, j0 := 0#12, i1 := 2#12, j1 := 0#12 } = [] := by decide

/-- The counters as they are stored (95_test_vectors.md 2.8); a command that is not pipelined on a busy device. -/
theorem test_read_perf_counters :
    let s := pState []
    let s1 := { s with pe := { s.pe with perf := { enabled := true, running := false, total := 1000#32, active := 600#32 } } }
    after (exec (.readPerfCounters 0x003007FC#32) s1) (fun t => t.mem.ram) =
      some [(0x300000, 0xE8#8), (0x300001, 0x03#8), (0x300004, 0x58#8), (0x300005, 0x02#8)] ∧
    exec (.readPerfCounters 0x003007FC#32) { s1 with groups := [tGroup] } = .fault .notIdle := ⟨rfl, rfl⟩

/-- The conditional cache forwards its newest write, and a flush makes memory hold it (95_test_vectors.md 2.6 (6), (7)). -/
theorem test_flush_cond_out_cache :
    let s := { pState [] with mem := { tMem with cond := { clean := ReadCache.empty, dirty := [(0x2002, 0x40#8), (0x2003, 0x40#8)] } } }
    after (exec (.flushCondOutCache 0#32) s) (fun t => (t.mem.ram.word 0x2000, t.mem.cond.dirty)) =
      some (0x40400000#32, []) ∧
    after (exec (.invInpCache 0#32) { s with mem := { s.mem with inp := { bytes := [(1, 1#8)] } } })
      (fun t => t.mem.inp) = some ReadCache.empty := ⟨rfl, rfl⟩

/-- The CO tests that make no read, and test 3 on a FLOAT32_1 buffer that holds 1.0 (95_test_vectors.md 2.9). -/
theorem test_conditional :
    let env := { tEnv with descs := { tDescs with condOut := { tDescs.condOut with desc := { tDescs.condOut.desc with base := 0x1000#32 } } } }
    (coTest State.reset.platform false tMem { env with condTest := 0#3 } .dpp 5#12 3#12 0x3F800000#32).map Prod.fst = .ok false ∧
    (coTest State.reset.platform false tMem env .dpp 5#12 3#12 0x3F800000#32).map Prod.fst = .ok true ∧
    (coTest State.reset.platform false tMem { env with condTest := 3#3 } .dpp 5#12 3#12 0x3F800000#32).map Prod.fst = .ok true ∧
    coTest State.reset.platform false tMem { env with condTest := 3#3 } .dpp 5#12 32#12 0x3F800000#32 =
      .error (.fault .indexRange) ∧
    (coTest State.reset.platform false tMem { env with condTest := 0#3 } .pe 5#12 3#12 0x3F800000#32).map Prod.fst = .ok true := by
  refine ⟨rfl, rfl, rfl, rfl, rfl⟩

/-- The CO that meets an unmapped address is stuck with its client, and so is the next client that waits for it (R20, R81). -/
theorem test_stuck_co :
    let hole : Platform := { State.reset.platform with memMap := [] }
    let g := { tGroup with halted := true, env := { tEnv with condTest := 3#3 } }
    let s := { tState with platform := hole, turn := .retire 0 0, groups := [g] }
    let seen := fun t : State => (t.co.stuck, t.groups.map fun g => g.lanes.map Lane.stuck)
    after (step s) seen = some (true, [[true]]) ∧
    after (step { s with platform := tState.platform, co := { s.co with stuck := true } }) seen = some (true, [[true]]) ∧
    after (step { s with platform := tState.platform }) seen = some (false, [[false]]) := ⟨rfl, rfl, rfl⟩

/-- A written element of a FLOAT32_1 output is its first channel (95_test_vectors.md 2.5), masked off when bit 0 is clear. -/
theorem test_write_output :
    let d := tDescs.out.toList.headD TallDesc.unset
    let v : Quad Word := ⟨0x3F800000#32, 0x40000000#32, 0x40400000#32, 0x40800000#32⟩
    (outputWrite d 15#4 1#12 0#12 v).map (putBytes []) =
      .ok [(0x2004, 0x00#8), (0x2005, 0x00#8), (0x2006, 0x80#8), (0x2007, 0x3F#8)] ∧
    outputWrite d 14#4 1#12 0#12 v = .ok [] := ⟨rfl, rfl⟩

/-! ## ALU and OUTPUT -/

/-- A move of T[1] under P = (1, 0, 1, 0): RGBA writes R and B, GGGG inverted all three (95_test_vectors.md 2.12). -/
theorem test_alu_predication :
    let x : RgbOperand := { sel := .src0, red := .r, green := .g, blue := .b, mod := .off }
    let a := { aluZero.rgbAddr with s0 := { addr := 1#8, const := false, rel := false } }
    let f := { aluZero with rgbWmask := 7#3, rgbAddr := a, rgbA := x, rgbB := x, rgbOmod := .disabled, rgbDst := 4#7 }
    after (exec (.opRgbMax .mad { f with rgbPredSel := .rgba }) tState)
        (fun t => t.groups.map fun g => g.lanes.map fun l => l.temps.filter fun c => decide (16 ≤ c.1)) =
      some [[[(16, 0x3F800000#32), (18, 0x40400000#32)]]] ∧
    after (exec (.opRgbMin .mad { f with rgbPredSel := .gggg, rgbPredInv := true }) tState)
        (fun t => t.groups.map fun g => g.lanes.map fun l => l.temps.filter fun c => decide (16 ≤ c.1)) =
      some [[[(16, 0x3F800000#32), (17, 0x40000000#32), (18, 0x40400000#32)]]] := ⟨rfl, rfl⟩

/-- An ALU result from alpha -1 with OP_LESS is 1, and a predicate write is not predicated (R327, R330). -/
theorem test_alu_flags :
    let a := { aluZero.alphaAddr with s0 := { addr := 2#8, const := false, rel := false } }
    let y : AlphaOperand := { sel := .src0, swz := .a, mod := .off }
    let f := { aluZero with
      alphaAddr := a, alphaA := y, alphaB := y, alphaOmod := .disabled, alphaOmask := true, alphaTarget := .t1
      alphaPredSel := .aaaa, aluWmask := true, resultSel := .alpha, resultOp := .less }
    after (exec (.opAlphaMax .mad f) tState) (fun t => t.groups.map fun g => g.lanes.map fun l => (l.pred.a, l.ar)) =
      some [[(true, true)]] := rfl

/-- An OUTPUT with TEX_SEM_WAIT at the end address halts its group; without it, or as an ALU instruction, it faults (R334). -/
theorem test_program_end :
    let s := { tState with groups := [{ tGroup with pc := 3 }] }
    let f := { aluZero with isOutput := true, semWait := true, rgbOmask := 1#3, rgbOmod := .disabled, rgbTarget := .t2 }
    after (exec (.opRgbMax .mad f) s) (fun t => t.groups.map fun g => (g.halted, g.pc)) = some [(true, 3)] ∧
    exec (.opRgbMax .mad { f with semWait := false }) s = .fault .badLastInstruction ∧
    exec (.opRgbMax .mad { f with isOutput := false }) s = .fault .badLastInstruction ∧
    exec (.opRgbMax .mad { f with last := true }) tState = .refused .lastUnsupported := ⟨rfl, rfl, rfl, rfl⟩

/-- Register checks (95_test_vectors.md 2.10). -/
theorem test_register_faults :
    let a := fun (n : BitVec 8) (c r : Bool) => { aluZero with
      rgbWmask := 1#3, rgbAddr := { aluZero.rgbAddr with s0 := { addr := n, const := c, rel := r } } }
    let looped := { tState with groups := [{ tGroup with loopStack := [{ kind := .loop, count := 1, aL := 3 }] }] }
    let small := { tState with groups := [{ tGroup with env := { tEnv with prog := { tProg with usPixsize := 2#32 } } }] }
    exec (.opRgbMad .mad (a 254#8 true true)) looped = .fault .registerRange ∧
    exec (.opRgbMad .mad (a 5#8 false true)) tState = .fault .alInvalid ∧
    exec (.opRgbMad .mad (a 3#8 false false)) small = .fault .registerRange ∧
    exec (.opRgbMad .mad (a 0x80#8 false true)) looped = .fault .invalidEncoding ∧
    exec (.opRgbSop .mad aluZero) tState = .fault .invalidEncoding := ⟨rfl, rfl, rfl, rfl, rfl⟩

/-- NopHazard: INV of a register that the instruction before wrote (95_test_vectors.md 2.13). -/
theorem test_nop_hazard :
    let x : RgbOperand := { sel := .srcp, red := .r, green := .g, blue := .b, mod := .off }
    let f := { aluZero with rgbWmask := 7#3, rgbA := x, rgbAddr := { aluZero.rgbAddr with srcp := .inv } }
    let s := fun p : Prev => { tState with groups := [{ tGroup with prev := p }] }
    exec (.opRgbMad .mad f) (s (.alu false [0, 1, 2])) = .fault .nopHazard ∧
    (after (exec (.opRgbMad .mad f) (s (.alu true [0, 1, 2]))) fun t => t.groups.length) = some 1 ∧
    (after (exec (.opRgbMad .mad f) (s .tex)) fun t => t.groups.length) = some 1 := ⟨rfl, rfl, rfl⟩

/-! ## Texture -/

/-- KILL_LT_0 (95_test_vectors.md 2.13): A = -1 kills, masked off or -0.0 it does not. -/
theorem test_tex_kill :
    let f := { texZero with srcAddr := 2#7, alphaWmask := true }
    let covered := fun t : State => t.groups.map fun g => g.lanes.map Lane.covered
    let zeroA := { tState with groups := [{ tGroup with lanes := [{ tLane with temps := [(11, 0x80000000#32)] }] }] }
    after (exec (.texKillLt0 f) tState) covered = some [[false]] ∧
    after (exec (.texKillLt0 { f with alphaWmask := false }) tState) covered = some [[true]] ∧
    after (exec (.texKillLt0 f) zeroA) covered = some [[true]] := ⟨rfl, rfl, rfl⟩

/-- A lookup at (5, 3) reads the word at 0x1314 into the masked channel (95_test_vectors.md 2.13), notes it as pending, and the
semaphore covers it. -/
theorem test_tex_lookup :
    let l := { tLane with temps := [(4, 0x40A00000#32), (5, 0x40400000#32)] }
    let f := { texZero with
      srcAddr := 1#7, dstAddr := 2#7, rgbWmask := 1#3, unscaled := true, swzT := .g, semWait := true, semAcquire := true }
    let s := { tState with groups := [{ tGroup with lanes := [l] }] }
    let seen := fun t : State => t.groups.map fun g => g.lanes.map fun l => (tabFind l.temps 8, l.texPending, l.semHeld, l.semCover)
    after (exec (.texLookup f) s) seen = some [[(some 0x3F800000#32, [8], true, [8])]] ∧
    after (exec (.texLookupUncached f) s) (fun t => t.mem.inp) = some ReadCache.empty ∧
    exec (.texLookup { f with semWait := false }) s = .fault .invalidEncoding := ⟨rfl, rfl, rfl⟩

/-- A lookup whose result register is still to be written (R366), and a TEX_INST_NOP that waits for it; a lookup and a TEX_INST_NOP
whose source swizzles select a pending result (R588). -/
theorem test_tex_hazard :
    let l := { tLane with texPending := [4], semHeld := true, semCover := [4] }
    let s := { tState with groups := [{ tGroup with lanes := [l] }] }
    exec (.texKillLt0 { texZero with srcAddr := 1#7, rgbWmask := 1#3 }) s = .fault .texHazard ∧
    (after (exec (.texNop { texZero with semWait := true }) s) fun t =>
      t.groups.map fun g => g.lanes.map fun l => (l.texPending, l.semHeld)) = some [[([], false)]] ∧
    exec (.texNop { texZero with semWait := true }) { s with groups := [{ tGroup with lanes := [l], prev := .fc false }] } =
      .fault .semErratum ∧
    exec (.texLookup texZero) { tState with groups := [{ tGroup with aluPending := [.temp 0] }] } = .fault .aluHazard ∧
    exec (.texNop texZero) { tState with groups := [{ tGroup with aluPending := [.temp 0] }] } = .fault .aluHazard :=
  ⟨rfl, rfl, rfl, rfl, rfl⟩

/-! ## Flow control -/

/-- Two processors whose predicate bits R are 1 and 0. -/
def twoLanes : List Lane := [tLane, { tLane with proc := 1, pred := Quad.all false }]

def twoState (g : Group) : State := { tState with groups := [{ g with lanes := twoLanes }] }

/-- The table of JUMP_FUNC (95_test_vectors.md 2.14), for 0x33 and 0x08 over the eight inputs. -/
theorem test_jump_func :
    let want := fun (func : BitVec 8) (a p b : Bool) =>
      jumpWant { fcZero with jumpFunc := func, predSel := .rrrr } b { tLane with ar := a, pred := Quad.all p }
    let inputs := [(false, false, false), (false, false, true), (false, true, false), (false, true, true), (true, false, false),
      (true, false, true), (true, true, false), (true, true, true)]
    inputs.map (fun x => want 0x33#8 x.1 x.2.1 x.2.2) = [true, true, false, false, true, true, false, false] ∧
    inputs.map (fun x => want 0x08#8 x.1 x.2.1 x.2.2) = [false, false, false, true, false, false, false, false] := by decide

/-- Slot 1 of program P3, IF p: the second processor disagrees with staying and is deactivated. -/
theorem test_fc_if :
    let f := { fcZero with
      predSel := .rrrr, aluWait := true, jumpFunc := 0x33#8, bOp0 := .incr, bOp1 := .incr, jumpAddr := 4#9, jumpGlobal := true }
    after (exec (.fcJump f) (twoState tGroup)) (fun t => t.groups.map fun g => (g.pc, g.lanes.map Lane.active)) =
      some [(2, [true, false])] ∧
    after (exec (.fcJump { f with jumpAny := true }) (twoState tGroup))
      (fun t => t.groups.map fun g => (g.pc, g.lanes.map Lane.active)) = some [(4, [false, true])] := ⟨rfl, rfl⟩

/-- BREAK p in a loop (95_test_vectors.md 2.14): the first processor is disabled until the frame is popped; where both want to
leave, the loop ends. -/
theorem test_fc_breakloop :
    let f := { fcZero with predSel := .rrrr, jumpFunc := 0xCC#8, bOp1 := .decr, jumpAddr := 4#9, jumpGlobal := true }
    let g := { tGroup with loopStack := [{ kind := .loop, count := 3, aL := 0 }] }
    let seen := fun t : State => t.groups.map fun g => (g.pc, g.loopStack.length, g.lanes.map Lane.loopOff)
    after (exec (.fcBreakloop f) (twoState g)) seen = some [(2, 1, [some (.brk, 1), none])] ∧
    after (exec (.fcBreakloop f) { tState with groups := [{ g with lanes := [tLane] }] }) seen = some [(4, 0, [none])] ∧
    exec (.fcBreakrep f) (twoState g) = .fault .stackFault := ⟨rfl, rfl, rfl⟩

/-- CONTINUE (95_test_vectors.md 2.14), and ENDREP at its last iteration. -/
theorem test_fc_continue_and_endrep :
    let f := { fcZero with predSel := .rrrr, jumpFunc := 0xCC#8, jumpAddr := 4#9, jumpGlobal := true }
    let g := fun k n => { tGroup with loopStack := [{ kind := k, count := n, aL := 0 }] }
    let seen := fun t : State => t.groups.map fun g => (g.pc, g.loopStack.map Frame.count, g.lanes.map Lane.loopOff)
    after (exec (.fcContinue f) (twoState (g .loop 2))) seen = some [(2, [2], [some (.cont, 1), none])] ∧
    after (exec (.fcEndrep { f with jumpFunc := 0xFF#8 }) (twoState (g .rep 2))) seen = some [(4, [1], [none, none])] ∧
    after (exec (.fcEndrep { f with jumpFunc := 0xFF#8 }) (twoState (g .rep 1))) seen = some [(2, [], [none, none])] ∧
    exec (.fcEndloop f) (twoState (g .rep 1)) = .fault .stackFault := ⟨rfl, rfl, rfl, rfl⟩

/-- DECR by 3 of the counters 2, 3 and 5 (95_test_vectors.md 2.14), INCR at the limit of 31 and of a processor at it that IGNORE_UNCOVERED
excludes (D43), CALL and RETURN. -/
theorem test_fc_counters_and_calls :
    let off := fun n => { tLane with active := false, bcnt := n }
    let s := fun ls => { tState with groups := [{ tGroup with lanes := ls }] }
    after (exec (.fcJump { fcZero with jumpAny := true, bOp0 := .decr, bPopCnt := 3#5 }) (s [off 2, off 3, off 5]))
        (fun t => t.groups.map fun g => g.lanes.map fun l => (l.active, l.bcnt)) =
      some [[(true, 0), (false, 0), (false, 2)]] ∧
    exec (.fcJump { fcZero with jumpAny := true, bOp0 := .incr }) (s [off 31]) = .fault .branchCounterOverflow ∧
    after (exec (.fcJump { fcZero with jumpAny := true, bOp0 := .incr, ignoreUncovered := true }) (s [{ off 31 with covered := false }, off 3]))
        (fun t => t.groups.map fun g => g.lanes.map fun l => (l.active, l.bcnt)) = some [[(false, 31), (false, 4)]] ∧
    after (exec (.fcJump { fcZero with jumpFunc := 0xFF#8, aOp := .push, jumpAddr := 9#9, jumpGlobal := true }) tState)
        (fun t => t.groups.map fun g => (g.pc, g.addrStack)) = some [(9, [2])] ∧
    exec (.fcJump { fcZero with jumpFunc := 0xFF#8, aOp := .pop }) tState = .fault .stackFault ∧
    exec (.fcJump { fcZero with predSel := .rgba }) tState = .fault .invalidEncoding := ⟨rfl, rfl, rfl, rfl, rfl, rfl⟩

/-! ## Agents -/

/-- The first step from a placed word runs it: a command, and a slot of each kind. -/
theorem test_placed_word_runs :
    after (step (State.reset.withFetchWord 64 0x00000005_C0001900)) (fun t => t.mc.outMask) = some 5#4 ∧
    (after (step (State.reset.withFetchWord 192 0x00000800)) fun t => t.groups.map Group.pc) = some [1] ∧
    (after (step (State.reset.withFetchWord 96 0x00000003)) fun t => t.groups.map Group.pc) = some [1] ∧
    (after (step (State.reset.withFetchWord 96 0x0000FF00_00000000_00000002)) fun t => t.groups.map Group.pc) = some [0] :=
  ⟨rfl, rfl, rfl, rfl⟩

/-- A processor that has halted asks the CO, writes its output byte by byte and reports idle; a killed one writes nothing (R334). -/
theorem test_retire :
    let s := fun l : Lane => { tState with turn := .retire 0 0, groups := [{ tGroup with halted := true, lanes := [l] }] }
    let l := { tLane with outs := [(0, 0x3F800000#32)] }
    let outbox := fun t : State => t.groups.map fun g => g.lanes.map Lane.outbox
    after (step (s l)) outbox = some [[some [(0x2314, 0#8), (0x2315, 0#8), (0x2316, 0x80#8), (0x2317, 0x3F#8)]]] ∧
    after (step (s { l with outbox := some [(0x2317, 0x3F#8)] })) (fun t => (outbox t, t.mem.out)) =
      some ([[some []]], [(0x2317, 0x3F#8)]) ∧
    after (step (s { l with outbox := some [] })) (fun t => t.groups.length) = some 0 ∧
    after (step (s { l with covered := false })) outbox = some [[some []]] := ⟨rfl, rfl, rfl, rfl⟩

/-- Words that parse as commands are accepted, a word that is no opcode is BadSubmission, a cut command TruncatedCommand (R131, R525, the
vectors of R131); the device may write into a buffer that is not consumed (log 46). -/
theorem test_submission :
    wholeCommands 0 [0xC0000600#32, 5#32, 0xC0000900#32, 0#32] = .ok () ∧
    wholeCommands 0 [0xC0000600#32, 5#32, 0xC0000100#32, 0#32] = .error (.refuse .badSubmission) ∧
    wholeCommands 0 [0xC0030700#32, 0#32, 0#32, 0x3F#32] = .error (.refuse .truncatedCommand) ∧
    (pState []).inBuffer 1 = true ∧ (ramWrite (pState []) 1 5#8).toOption.map (fun t => t.mem.ram.get 1) = some 5#8 :=
  ⟨rfl, rfl, rfl, rfl, rfl⟩

/-- A stuck CO holds the work distributor up only where the conditional location is the PE (R197, R198); a dirty byte of the conditional
output cache that the MC writes back stays as a clean one (R101, log 44). -/
theorem test_dist_and_evict :
    let s := fun loc => { State.reset with
      mem := tMem, turn := .dist 0 0 0 none, co := { State.reset.co with stuck := true }
      pe := { State.reset.pe with launches := [{ env := { tEnv with condLoc := loc }, todo := [(5#12, 3#12)] }] } }
    let e := { State.reset with
      turn := .evict .cond 0x2000, mem := { tMem with cond := { clean := { bytes := [(0x2000, 7#8)] }, dirty := [(0x2000, 1#8)] } } }
    after (step (s false)) (fun t => (t.groups.length, t.pe.distStuck)) = some (1, false) ∧
    after (step (s true)) (fun t => (t.groups.length, t.pe.distStuck)) = some (0, true) ∧
    after (step e) (fun t => (t.mem.ram.get 0x2000, t.mem.cond)) =
      some (1#8, { clean := { bytes := [(0x2000, 1#8)] }, dirty := [] }) := ⟨rfl, rfl, rfl⟩

/-- Unmapped memory leaves the agent that accesses it stuck, and no other (R81). -/
theorem test_unmapped :
    let hole : Platform := { State.reset.platform with memMap := [{ base := 0, size := 0x1000, kind := .remote }] }
    let s := { tState with platform := hole }
    after (exec (.flushOutCache 0#32) { s with mem := { tMem with out := [(0x1000, 1#8)] } }) (fun t => (t.pe.stuck, t.mem.out)) =
      some (true, [(0x1000, 1#8)]) ∧
    after (step { s with turn := .pe, pe := { s.pe with stuck := true, queue := [{ id := 1#32, addr := 0#32, size := 0#32 }] } })
      (fun t => t.pe.queue.length) = some 1 ∧
    after (exec (.fcLoop { fcZero with jumpAny := true }) s) (fun t => t.groups.map fun g => (g.pc, g.lanes.map Lane.stuck)) =
      some [(1, [true])] := ⟨rfl, rfl, rfl⟩

/-- The first step that something is wrong in stops an instruction (R271, R350, R541): a pending result before a register number, an
unmapped constant before a destination. -/
theorem test_first_fault :
    let small := { tEnv with prog := { tProg with usPixsize := 1#32, floatConsts := [0] } }
    let g := { tGroup with env := small, aluPending := [.temp 4] }
    let f := { texZero with srcAddr := 1#7, dstAddr := 2#7 }
    let a := { aluZero with rgbAddr := { aluZero.rgbAddr with s0 := { addr := 0#8, const := true, rel := false } }, rgbDst := 2#7 }
    let hole : Platform := { State.reset.platform with memMap := [] }
    exec (.texLookup f) { tState with groups := [g] } = .fault .aluHazard ∧
    exec (.texLookup { f with aluWait := true }) { tState with groups := [g] } = .fault .registerRange ∧
    exec (.texLookup f) { tState with groups := [{ g with pc := 3 }] } = .fault .aluHazard ∧
    exec (.texNop { f with aluWait := true }) { tState with groups := [{ g with pc := 3 }] } = .fault .badLastInstruction ∧
    exec (.fcJump { fcZero with jumpFunc := 0xFF#8, aOp := .pop }) { tState with groups := [{ g with pc := 3 }] } = .fault .stackFault ∧
    exec (.fcJump fcZero) { tState with groups := [{ g with pc := 3 }] } = .fault .badLastInstruction ∧
    exec (.opRgbMad .mad a) { tState with groups := [g] } = .fault .registerRange ∧
    after (exec (.opRgbMad .mad a) { tState with groups := [g], platform := hole }) (fun t => t.groups.map fun g => g.lanes.map Lane.stuck) =
      some [[true]] := ⟨rfl, rfl, rfl, rfl, rfl, rfl, rfl, rfl⟩

/-- The reset state (R73): every cache is a table of bytes, whatever it holds. -/
theorem test_reset : State.reset.groups = [] ∧ State.reset.mem.wf = true ∧ State.reset.mc.descs.wf = true := by
  refine ⟨rfl, ?_, rfl⟩
  simp [State.reset, MemSys.wf, ReadCache.atReset, bytesWf_tableOf]
  rfl

/-! ## Each obligation's hypotheses are met -/

/-- Well-formed instructions of every kind, the last word of a field at its largest. -/
theorem witness_EncodedInstructionDecodesBack :
    Instr.wellFormed (.setDomain 0xFFF#32 0xFFF#32 0xFFF#32 0xFFF#32) = true ∧
    Instr.wellFormed (.opRgbDp4 .dp { aluZero with rgbWmask := 7#3, rgbDst := 127#7, aluWmask := true }) = true ∧
    Instr.wellFormed (.opAlphaCos .mad { aluZero with alphaWmask := true, wOmask := true }) = true ∧
    Instr.wellFormed (.texLookupUncached { texZero with semAcquire := true, semWait := true, dxdy := 0xFFFFFFFF#32 }) = true ∧
    Instr.wellFormed (.fcContinue { fcZero with jumpAddr := 511#9, jumpGlobal := true }) = true := by
  refine ⟨rfl, rfl, rfl, rfl, rfl⟩

/-- A PE at a word that is no opcode with one word left, and at a set_domain with four words left, in mapped memory. -/
theorem witness_FetchFaults_command :
    let c : Current := { sub := { id := 7#32, addr := 0#32, size := 1#32 }, pos := 0#32, remaining := 1 }
    let s := { pState [(1, 7#8), (2, 3#8), (3, 0xC0#8)] with pe := { State.reset.pe with cur := some { c with remaining := 4 } } }
    s.turn = .pe ∧ s.pe.stuck = false ∧ s.pe.cur = some { c with remaining := 4 } ∧
    (∀ a ∈ wordAddrs c.pos.toNat, s.platform.mapped a = true) ∧ commandParams (s.mem.ram.word 0) = some 4 ∧ 4 < 1 + 4 ∧
    commandParams ((pState []).mem.ram.word 0) = none ∧ 1 ≤ c.remaining := by
  refine ⟨rfl, rfl, rfl, by decide, rfl, by decide, rfl, by decide⟩

/-- A running group with its pc at the program's size; slots with an unused code in each of the fields that the statement names. -/
theorem witness_FetchFaults_slot :
    let env := { tEnv with text := List.replicate 4 ⟨0#32, 0#32, 0#32, 0#32, 4#32, 15#32⟩ }
    let s := { tState with groups := [{ tGroup with pc := 4 }] }
    let s1 := { tState with groups := [{ tGroup with pc := 3, env := env }] }
    s.turn = .group 0 ∧ (s.groups.map fun g => (g.halted, decide (g.env.prog.instrCnt.toNat ≤ g.pc))) = [(false, true)] ∧
    (∀ l ∈ tGroup.lanes, l.stuck = false) ∧
    (let past := { State.reset.platform with endJump := .stops }
     past.endJump = .stops ∧ { tEnv.prog with usCodeAddr := 0x00010000#32 }.endSlot < 3) ∧
    s1.platform.endJump = .runs ∧ s1.platform.layout = .k1 ∧
    s1.turn = .group 0 ∧ (s1.groups.map fun g => decide (g.pc < g.env.prog.instrCnt.toNat)) = [true] ∧
    (s1.groups.map fun g => g.env.text[g.pc]?.map fun w => (field w.w0 0 2, field w.w4 0 4, field w.w5 0 4)) =
      [some (0, 4, 15)] ∧
    field 0x30#32 3 3 = 6 ∧ field 0x0C000000#32 25 3 = 6 ∧ field 0x1C#32 2 3 = 7 ∧ field 0x0001C000#32 14 3 = 7 ∧
    field 0x01000000#32 22 3 = 4 ∧ field 0xC0#32 6 2 = 3 ∧ field 0x03000000#32 24 2 = 3 ∧ field 0x0C000000#32 26 2 = 3 := by
  refine ⟨rfl, rfl, by decide, ⟨rfl, by decide⟩, rfl, rfl, rfl, rfl, rfl, rfl, rfl, rfl, rfl, rfl, rfl, rfl, rfl⟩

/-- A jump has led past the end address 1, on a device of each kind: it runs the slot there (R548), or the fetch stops (R50, R334; log
36); the last slot past the end is no instruction under K1. -/
theorem test_fetch_past_the_end :
    let slot : Slot := ⟨0x00000800#32, 0#32, 0#32, 0#32, 0#32, 0#32⟩
    let env := { tEnv with prog := { tEnv.prog with usCodeAddr := 0x00010000#32 }, text := [slot, slot, slot, ⟨0#32, 0#32, 0#32, 0#32, 4#32, 0#32⟩] }
    let state := fun e pc => { tState with platform := { tState.platform with endJump := e }, groups := [{ tGroup with pc := pc, env := env }] }
    (after (step (state .runs 2)) fun t => t.groups.map Group.pc) = some [3] ∧ step (state .stops 2) = .fault .pcOutOfRange ∧
    step (state .runs 3) = .fault .invalidEncoding ∧ step (state .runs 4) = .fault .pcOutOfRange := ⟨rfl, rfl, rfl, rfl⟩

/-- A PE with no current buffer, none, an empty and another one submitted. -/
theorem witness_StepRunsDecodedInstruction_queue :
    let s := { State.reset with turn := .pe, pe := { State.reset.pe with queue := [{ id := 1#32, addr := 0#32, size := 0#32 }] } }
    State.reset.pe.cur = none ∧ State.reset.pe.queue = [] ∧ s.turn = .pe ∧ s.pe.stuck = false ∧ s.pe.cur = none ∧
    s.pe.queue = { id := 1#32, addr := 0#32, size := 0#32 } :: [] ∧ (1#32 : Word) ≠ 0#32 := by
  refine ⟨rfl, rfl, rfl, rfl, rfl, rfl, by decide⟩

/-- A PE with a command at the read position, a group with a slot at its pc. -/
theorem witness_StepRunsDecodedInstruction :
    (let s := pState [(0x101, 0x19#8), (0x103, 0xC0#8), (0x104, 0x0D#8)]
     s.pe.stuck = false ∧ decodeCommand (bufferWords s.mem.ram 0x100#32 (min 5 3)) = .ok (.setOutMask 0xD#32) ∧
       (bufferAddrs 0x100#32 (encode (.setOutMask 0xD#32)).length).all s.platform.mapped = true) ∧
    (let slot : Slot := ⟨0x00000800#32, 0#32, 0#32, 0#32, 0#32, 0#32⟩
     let g := { tGroup with env := { tEnv with text := [slot, slot] } }
     g.halted = false ∧ (∀ l ∈ g.lanes, l.stuck = false) ∧ g.pc < g.env.prog.instrCnt.toNat ∧ tState.platform.endJump = .runs ∧
       g.pc ≤ g.env.prog.endSlot ∧ g.env.text[g.pc]? = some slot ∧
       tState.platform.layout.decode slot = .ok (.opRgbMad .mad { aluZero with rgbWmask := 1#3 })) := by
  refine ⟨⟨rfl, rfl, rfl⟩, rfl, by decide, by decide, rfl, by decide, rfl, rfl⟩

/-- A command of two words with three words left, with two words left, a wait on an idle device, and a command that leaves the PE
stuck. -/
theorem witness_CommandsKeepTheArray :
    let s := pState []
    let s2 := { s with pe := { s.pe with cur := s.pe.cur.map fun c => { c with remaining := 2 } } }
    let hole : Platform := { State.reset.platform with memMap := [] }
    (encodeCommand (.setOutMask 5#32)).isSome = true ∧ (∃ t, exec (.setOutMask 5#32) s = .next t ∧ t.pe.stuck = false) ∧
    (encode (.setOutMask 5#32)).length = 2 ∧ s.pe.cur.map Current.remaining = some 3 ∧
    s2.pe.cur.map Current.remaining = some 2 ∧ (∃ t, exec (.waitForIdle 0#32) s2 = .next t) ∧ s2.idle = true ∧
    s.pe.stuck = false ∧
    ∃ t, exec (.flushOutCache 0#32) { s with platform := hole, mem := { tMem with out := [(0, 1#8)] } } = .next t ∧
      t.pe.stuck = true := by
  refine ⟨rfl, ⟨_, rfl, rfl⟩, rfl, rfl, rfl, ⟨_, rfl⟩, rfl, rfl, _, rfl, rfl⟩

/-- A reserved bit; a busy device, a pending launch, and a format parameter with every allowed bit set. -/
theorem witness_CommandChecksFault :
    0x10#32 &&& ~~~0xF#32 ≠ 0#32 ∧ 2#32 &&& ~~~0x1#32 ≠ 0#32 ∧ 8#32 &&& ~~~0x7#32 ≠ 0#32 ∧ 4#32 &&& ~~~0x3#32 ≠ 0#32 ∧
    0x1000#32 &&& ~~~0xFFF#32 ≠ 0#32 ∧ 0x2000#32 &&& ~~~0x1FFF#32 ≠ 0#32 ∧ 0x2#32 &&& ~~~0x07031FFC#32 ≠ 0#32 ∧
    1#32 &&& ~~~0#32 ≠ 0#32 ∧ tState.groups ≠ [] ∧ onlyBits 0x07031FFC#32 0x07031FFC#32 = true := by
  refine ⟨by decide, by decide, by decide, by decide, by decide, by decide, by decide, by decide, by decide, rfl⟩

/-- An idle device and a format parameter, for the three kinds of descriptors. -/
theorem witness_formats : State.reset.idle = true ∧ onlyBits formatBits 0x04000040#32 = true := ⟨rfl, rfl⟩

/-- Every address is mapped after reset (log 18). -/
theorem mapped_reset {a : Nat} (h : a < 2 ^ 32) : State.reset.platform.mapped a = true := by
  have h' : a < 4294967296 := by omega
  simp [State.reset, Platform.mapped, Platform.kind, h']

/-- An idle device with the counters disabled, and with them enabled and the topmost address, whose bytes are mapped, or on a platform
where the last of them is not. -/
theorem witness_PerfCountersRead :
    let on := { State.reset with pe := { State.reset.pe with perf := { State.reset.pe.perf with enabled := true } } }
    let hole : Platform := { State.reset.platform with memMap := [{ base := 0, size := 0xFFFFF807, kind := .remote }] }
    State.reset.idle = true ∧ Memory.wf State.reset.mem.ram = true ∧ State.reset.pe.perf.enabled = false ∧
    on.idle = true ∧ on.pe.perf.enabled = true ∧
    (∀ n < 8, on.platform.mapped ((0xFFFFFFFF#32 &&& 0xFFFFF800#32).toNat + n) = true) ∧
    hole.mapped ((0xFFFFFFFF#32 &&& 0xFFFFF800#32).toNat + 7) = false := by
  refine ⟨rfl, rfl, rfl, rfl, rfl, fun n hn => ?_, rfl⟩
  have h : (0xFFFFFFFF#32 &&& 0xFFFFF800#32).toNat = 4294965248 := by decide
  exact mapped_reset (by omega)

/-- A running and a stopped counter at a turn of the clock, with and without a busy processor, up to the last value of a counter. -/
theorem witness_PerfCountersControlled :
    let s := { tState with
      turn := .clock 2 1, pe := { tState.pe with perf := { enabled := true, running := true, total := 0xFFFFFFFD#32, active := 0#32 } } }
    s.turn = .clock 2 1 ∧ s.pe.perf.running = true ∧ State.reset.pe.perf.running = false ∧
    s.pe.perf.total.toNat + 2 < 2 ^ 32 ∧ s.groups ≠ [] ∧ State.reset.groups = [] ∧ s.pe.perf.active.toNat + min 2 1 < 2 ^ 32 := by
  refine ⟨rfl, rfl, rfl, by decide, by decide, rfl, by decide⟩

/-- Where memory lists nothing, a text of one slot is a slot of zeros, wherever it lies (log 5). -/
theorem loadText_zero :
    ∃ mem, loadText State.reset.platform { tMem with ram := [] } tDescs.inst 1 =
      .ok ([⟨0#32, 0#32, 0#32, 0#32, 0#32, 0#32⟩], mem) := by
  obtain ⟨as, ha⟩ : ∃ as, as = textAddrs tDescs.inst 0 := ⟨_, rfl⟩
  have hl : as.length = 24 := by rw [ha]; simp [textAddrs]
  have hm : as.all State.reset.platform.mapped = true := by
    rw [ha, List.all_eq_true]
    intro a h
    obtain ⟨n, -, rfl⟩ := List.mem_map.1 h
    exact mapped_reset (Nat.mod_lt _ (by decide))
  obtain ⟨h1, -⟩ := ReadCache.empty.readAll_spec [] as
  have hz : as.map (seen ReadCache.empty []) = List.replicate 24 0#8 := by
    rw [← hl, ← List.map_const']
    rfl
  refine ⟨{ tMem with ram := [], inst := (ReadCache.empty.readAll [] as).2 }, ?_⟩
  have hr : readBytes State.reset.platform { tMem with ram := [] } .inst as =
      .ok (List.replicate 24 0#8, { tMem with ram := [], inst := (ReadCache.empty.readAll [] as).2 }) := by
    unfold readBytes
    rw [if_pos hm, ← hz, ← h1]
    rfl
  unfold loadText
  change (readBytes _ _ .inst (textAddrs tDescs.inst 0 ++ [])).map _ = _
  rw [List.append_nil, ← ha, hr]
  rfl

/-- No program; one that is not admissible, in each way; one that is, with its text in emptied instruction memory. -/
theorem witness_StartProgramLaunches :
    State.reset.program = none ∧ onlyBits 1#32 { tProg with fgDepthSrc := 2#32 }.fgDepthSrc = false ∧
    onlyBits 1#32 { tProg with usConfig := 2#32 }.usConfig = false ∧
    onlyBits 0x80000000#32 { tProg with usFcCtrl := 1#32 }.usFcCtrl = false ∧
    Program.consistent { tProg with usPixsize := 128#32 } = false ∧ { tProg with usConfig := 1#32 }.usConfig = 1#32 ∧
    { tProg with earlyExit := true }.earlyExit = true ∧
    { tProg with usCodeAddr := 0#32, usCodeRange := 0#32, instrCnt := 1#32 }.admission = .ok () ∧
    ∃ text mem, loadText State.reset.platform { tMem with ram := [] } tDescs.inst 1 = .ok (text, mem) ∧
      textAgrees .k1 tProg 0 text = .ok () := by
  obtain ⟨mem, h⟩ := loadText_zero
  exact ⟨rfl, rfl, rfl, rfl, rfl, rfl, rfl, rfl, _, mem, h, rfl⟩

/-- An idle and a busy device. -/
theorem witness_WaitForIdleBlocks :
    (State.reset.pe.launches = [] ∧ State.reset.groups = []) ∧ (tState.pe.launches ≠ [] ∨ tState.groups ≠ []) :=
  ⟨⟨rfl, rfl⟩, .inr (by decide)⟩

/-- A device with dirty bytes in both write caches, which may be written to memory. -/
theorem witness_flush :
    let s := { State.reset with mem := { tMem with out := [(0x2000, 1#8)], cond := { tMem.cond with dirty := [(0x2001, 2#8)] } } }
    s.mem.wf = true ∧ Memory.wf s.mem.ram = true ∧ (∀ c ∈ s.mem.out, writable s c.1) ∧
    ∀ c ∈ s.mem.cond.dirty, writable s c.1 := by
  refine ⟨by decide, by decide, ?_, ?_⟩ <;>
  · intro c hc
    rw [List.mem_singleton.1 hc]
    exact ⟨rfl, fun g hg => by cases hg⟩

/-! ### ALU and OUTPUT -/

/-- An instruction that reads T[1] and writes T[1] and T[2]. -/
def tAlu : AluInst :=
  let a : AddrWord := { aluZero.rgbAddr with s0 := { addr := 1#8, const := false, rel := false } }
  { aluZero with
    rgbWmask := 7#3, alphaWmask := true, rgbAddr := a, alphaAddr := { a with s0 := { addr := 2#8, const := false, rel := false } }
    rgbDst := 1#7, alphaDst := 2#7 }

/-- Where each source of `tAlu` lies. -/
def tPlaces : Six Place := { rgb0 := .temp 1, rgb1 := .temp 0, rgb2 := .temp 0, alpha0 := .temp 2, alpha1 := .temp 0, alpha2 := .temp 0 }

/-- The sources of `tAlu`, fetched. -/
def tSources : Six Source :=
  { rgb0 := .temp 1, rgb1 := .temp 0, rgb2 := .temp 0, alpha0 := .temp 2, alpha1 := .temp 0, alpha2 := .temp 0 }

/-- Each source address of `tAlu` names its place in a group of the test program. -/
theorem resolve_tAlu {g : Group} (h : g.env = tEnv) (q : Port) :
    resolvePlace g ((aluAddrs tAlu).get q) = .ok (tPlaces.get q) := by
  cases g; subst h; cases q <;> rfl

/-- The sources of `tAlu` can be fetched one by one where no lookup is pending. -/
theorem fetchPort_tAlu {p : Platform} {draw : Nat} {g : Group} {inactive : Bool} {used : List (Port × Chan)} (h : g.env = tEnv)
    (hl : ∀ l ∈ g.lanes, l.texPending = []) (q : Port) (mem : MemSys) :
    fetchPort p draw g inactive used (aluAddrs tAlu) q mem = .ok (tSources.get q, mem) := by
  have hz : ∀ n chans, readHazard g.lanes inactive n chans = false := by
    intro n chans
    simp only [readHazard, List.any_eq_false, Bool.and_eq_true]
    rintro l hm ⟨-, h2⟩
    simp [hl l hm] at h2
  rw [fetchPort, resolve_tAlu h, ok_bind]
  cases q <;> simp [fetchPlace, tPlaces, tSources, Six.get, hz]

/-- All six of them. -/
theorem fetchSix_tAlu {p : Platform} {draw : Nat} {g : Group} {inactive : Bool} {used : List (Port × Chan)} {mem : MemSys}
    (h : g.env = tEnv) (hl : ∀ l ∈ g.lanes, l.texPending = []) :
    fetchSix p draw g inactive used (aluAddrs tAlu) mem = .ok (tSources, mem) :=
  fetchSix_eq_ok.2 ⟨mem, mem, mem, mem, mem, fetchPort_tAlu h hl .rgb0 mem, fetchPort_tAlu h hl .rgb1 mem, fetchPort_tAlu h hl .rgb2 mem,
    fetchPort_tAlu h hl .alpha0 mem, fetchPort_tAlu h hl .alpha1 mem, fetchPort_tAlu h hl .alpha2 mem⟩

/-- The group of `tState` can execute any valid pair of operations with the fields of `tAlu`, or those with another modifier,
write mask or operand, away from the end address. -/
theorem witness_alu (rop : RgbOp) (aop : AlphaOp) (f : AluInst) (hc : aluCombinationOk rop aop f = true)
    (ht : f.rgbTarget.encodable = true ∧ f.alphaTarget.encodable = true) (hl : f.last = false)
    (ha : f.rgbAddr = tAlu.rgbAddr ∧ f.alphaAddr = tAlu.alphaAddr)
    (hd : f.rgbDst = 1#7 ∧ f.rgbDstRel = false ∧ f.alphaDst = 2#7 ∧ f.alphaDstRel = false) (hw : f.semWait = false) :
    ∃ c : AluCase tState rop aop f, (waited c.g f.semWait)[0]? = some tLane ∧ c.acts 0 tLane ∧ c.pl.rgb0 = .temp 1 ∧
      c.pl.alpha0 = .temp 2 := by
  have hs : aluAddrs f = aluAddrs tAlu := by simp only [aluAddrs, ha]
  have hn : waited tGroup f.semWait = [tLane] := by rw [hw]; rfl
  refine ⟨{ k := 0, g := tGroup, pl := tPlaces, dr := 1, da := 2, turn := rfl, group := rfl, running := rfl, combination := hc
            targets := ht, last := by simp [hl], erratum := fun _ => rfl, places := by rw [hs]; exact resolve_tAlu rfl
            src := tSources, mem := tMem, fetched := by rw [hs, hn]; exact fetchSix_tAlu rfl (by simp [tLane])
            nop := rfl, rgbDst := by rw [hd.1, hd.2.1]; rfl, alphaDst := by rw [hd.2.2.1, hd.2.2.2]; rfl
            lookups := ?_, ending := fun h => by cases h }, ?_, ?_, rfl, rfl⟩
  · intro l hl
    rw [hn, List.mem_singleton] at hl
    subst hl
    simp [aluWriteHazard, tLane]
  · rw [hn]; rfl
  · exact ⟨by rw [hn]; rfl, rfl⟩

/-- The frame and the writes, for an ALU instruction, on a processor that acts and under WRITE_INACTIVE; a processor that is not active
and one that is loop-inactive. -/
theorem witness_AluInstructionFrame :
    (∃ c : AluCase tState .mad .mad tAlu, (waited c.g tAlu.semWait)[0]? = some tLane ∧ c.acts 0 tLane) ∧
    (∃ c : AluCase tState .mad .mad { tAlu with writeInactive := true }, (waited c.g tAlu.semWait)[0]? = some tLane) ∧
    (tLane.active = true ∧ tLane.loopOff = none) ∧ { tLane with active := false }.active = false ∧
    { tLane with loopOff := some (.brk, 1) }.loopOff ≠ none := by
  obtain ⟨c, h1, h2, -⟩ := witness_alu .mad .mad tAlu rfl ⟨rfl, rfl⟩ rfl ⟨rfl, rfl⟩ ⟨rfl, rfl, rfl, rfl⟩ rfl
  obtain ⟨c', h1', -⟩ := witness_alu .mad .mad { tAlu with writeInactive := true } rfl ⟨rfl, rfl⟩ rfl ⟨rfl, rfl⟩
    ⟨rfl, rfl, rfl, rfl⟩ rfl
  exact ⟨⟨c, h1, h2⟩, ⟨c', h1'⟩, ⟨rfl, rfl⟩, rfl, by decide⟩

/-- An OUTPUT that waits, at the end address. -/
theorem witness_AluInstructionCompletes_end :
    Nonempty (AluCase { tState with groups := [{ tGroup with pc := 3 }] } .max .mad
      { tAlu with isOutput := true, semWait := true, rgbOmod := .disabled, rgbOmask := 7#3 }) :=
  ⟨{ k := 0, g := { tGroup with pc := 3 }, pl := tPlaces, dr := 1, da := 2, turn := rfl, group := rfl, running := rfl
     combination := rfl, targets := ⟨rfl, rfl⟩, last := fun h => (by cases h), erratum := fun _ => rfl, places := resolve_tAlu rfl
     src := tSources, mem := tMem, fetched := rfl, nop := rfl, rgbDst := rfl, alphaDst := rfl
     lookups := fun l h => (by rw [List.mem_singleton.1 h]; rfl), ending := fun _ => ⟨rfl, rfl⟩ }⟩

/-- Both units write at a processor of `tState`. -/
theorem witness_alu_written : rgbWritten tAlu tLane .r ∧ rgbWritten tAlu tLane .b ∧ alphaWritten tAlu tLane := by
  refine ⟨⟨by decide, rfl, rfl⟩, ⟨by decide, rfl, rfl⟩, rfl, rfl⟩

/-- Operations for the statements of results: each pair is valid with the fields of `tAlu`, also with both clamp flags set, the moves
also with OMOD_DISABLED. -/
theorem witness_alu_results :
    (∀ x ∈ [(RgbOp.mad, AlphaOp.mad), (.min, .min), (.max, .max), (.cnd, .cnd), (.cmp, .cmp), (.frc, .frc), (.dp3, .dp), (.dp4, .dp),
        (.d2a, .dp), (.sop, .ex2), (.sop, .ln2), (.sop, .rcp), (.sop, .rsq), (.sop, .sin), (.sop, .cos)],
      (∃ c : AluCase tState x.1 x.2 tAlu, c.acts 0 tLane) ∧
      ∃ c : AluCase tState x.1 x.2 { tAlu with rgbClamp := true, alphaClamp := true }, c.acts 0 tLane) ∧
    ∀ x ∈ [(RgbOp.min, AlphaOp.max), (.cnd, .cmp)],
      ∃ c : AluCase tState x.1 x.2 { tAlu with rgbOmod := .disabled, alphaOmod := .disabled }, c.acts 0 tLane := by
  constructor
  · intro x hx
    have hc : aluCombinationOk x.1 x.2 tAlu = true ∧
        aluCombinationOk x.1 x.2 { tAlu with rgbClamp := true, alphaClamp := true } = true := by revert x; decide
    obtain ⟨c, -, h, -⟩ := witness_alu x.1 x.2 tAlu hc.1 ⟨rfl, rfl⟩ rfl ⟨rfl, rfl⟩ ⟨rfl, rfl, rfl, rfl⟩ rfl
    obtain ⟨c', -, h', -⟩ := witness_alu x.1 x.2 _ hc.2 ⟨rfl, rfl⟩ rfl ⟨rfl, rfl⟩ ⟨rfl, rfl, rfl, rfl⟩ rfl
    exact ⟨⟨c, h⟩, c', h'⟩
  · intro x hx
    have hc : aluCombinationOk x.1 x.2 { tAlu with rgbOmod := .disabled, alphaOmod := .disabled } = true := by revert x; decide
    obtain ⟨c, -, h, -⟩ := witness_alu x.1 x.2 _ hc ⟨rfl, rfl⟩ rfl ⟨rfl, rfl⟩ ⟨rfl, rfl, rfl, rfl⟩ rfl
    exact ⟨c, h⟩

/-- FRC has a normal operand, 1.0 in T[1].r and -1.0 in T[2].a with the alpha swizzle A, and a zero one with the swizzle ZERO. -/
theorem witness_FrcResult :
    (∃ c : AluCase tState .frc .frc { tAlu with alphaA := ⟨.src0, .a, .off⟩ }, c.acts 0 tLane ∧
      c.pl.rgb0 = .temp 1 ∧ c.pl.alpha0 = .temp 2 ∧
      tLane.temp 1 .r = 0x3F800000#32 ∧ expField (tLane.temp 1 .r) = 127 ∧ expField (tLane.temp 2 .a) = 127) ∧
    ∃ c : AluCase tState .frc .frc { tAlu with rgbA := { tAlu.rgbA with red := .zero } }, c.acts 0 tLane ∧
      expField ((c.opnds 0 tLane).rgbA.get .r) = 0 := by
  obtain ⟨c, -, h, h1, h2⟩ :=
    witness_alu .frc .frc { tAlu with alphaA := ⟨.src0, .a, .off⟩ } rfl ⟨rfl, rfl⟩ rfl ⟨rfl, rfl⟩ ⟨rfl, rfl, rfl, rfl⟩ rfl
  obtain ⟨c', -, h', -⟩ := witness_alu .frc .frc { tAlu with rgbA := { tAlu.rgbA with red := .zero } } rfl ⟨rfl, rfl⟩ rfl ⟨rfl, rfl⟩
    ⟨rfl, rfl, rfl, rfl⟩ rfl
  have hz : (c'.opnds 0 tLane).rgbA.get .r = 0#32 := rfl
  exact ⟨⟨c, h, h1, h2, rfl, rfl, rfl⟩, c', h', by rw [hz]; decide⟩

/-- The special operands of the transcendental operations, and a selected source in both units. -/
theorem witness_TranscendentalResult_and_operands :
    transTable .ex2 (Ext.ofBits 0#32) = some 0x3F800000#32 ∧ transTable .cos (Ext.ofBits 0x7F800001#32) = some 0x7FFFFFFF#32 ∧
    tAlu.rgbA.sel = .src0 ∧ tAlu.alphaA.sel = .src0 ∧ tAlu.rgbA = tAlu.rgbB ∧ tAlu.alphaA = tAlu.alphaB ∧
    floatValue 0xC2FC0000#32 = -126 ∧ floatValue 0x43000000#32 = 128 ∧ floatValue 0x7E800000#32 = 2 ^ 126 := by
  have h1 : (0xC2FC0000#32)[31] = true := by decide
  have h2 : (0x43000000#32)[31] = false := by decide
  have h3 : (0x7E800000#32)[31] = false := by decide
  refine ⟨rfl, rfl, rfl, rfl, rfl, rfl, ?_, ?_, ?_⟩
  · norm_num [floatValue, expField, manField, signBit, h1]
  · norm_num [floatValue, expField, manField, signBit, h2]
  · norm_num [floatValue, expField, manField, signBit, h3]

/-- Fields of each invalid kind, and fields of none of them with a UMRT target or with LAST. -/
theorem witness_InvalidAluFieldsFault :
    AlphaOp.transcendental .mad = false ∧ RgbOp.dot .mad = false ∧ RgbOp.selects .mad = false ∧ AlphaOp.selects .dp = false ∧
    { tAlu with rgbOmod := .disabled, rgbClamp := true }.rgbClamp = true ∧
    aluCombinationOk .mad .mad { tAlu with isOutput := true, rgbTarget := .umrtSameIdx } = true ∧
    Target.encodable .umrtSameIdx = false ∧ aluCombinationOk .mad .mad { tAlu with last := true } = true ∧ tGroup.atEnd = false ∧
    aluCombinationOk .mad .mad { tAlu with rgbTarget := .umrtSameIdx } = true ∧ tAlu.isOutput = false := by
  refine ⟨rfl, rfl, rfl, rfl, rfl, rfl, rfl, rfl, rfl, rfl, rfl⟩

/-- The fields of `tAlu`, with a presubtract or not, on a group that comes to fetch its sources. -/
def tFields (f : AluInst) (g : Group) (hf : aluCombinationOk .mad .mad f = true)
    (ht : f.rgbTarget.encodable = true ∧ f.alphaTarget.encodable = true) (hl : f.last = false) (hw : f.semWait = false)
    (hg : g.halted = false) : AluFields { tState with groups := [g] } .mad .mad f :=
  { k := 0, g := g, turn := rfl, group := rfl, running := hg, combination := hf, targets := ht, last := by simp [hl]
    erratum := by simp [hw] }

/-- An instruction that comes to a source that adds aL to an inline constant. -/
theorem witness_InvalidAluFieldsFault_inline :
    let f := { tAlu with rgbAddr := { tAlu.rgbAddr with s1 := { addr := 0x80#8, const := false, rel := true } } }
    ∃ c : AluFields { tState with groups := [tGroup] } .mad .mad f, c.reaches .rgb1 ∧
      ((aluAddrs f).get .rgb1).addr.getLsbD 7 = true ∧ ((aluAddrs f).get .rgb1).const = false ∧
      ((aluAddrs f).get .rgb1).rel = true := by
  refine ⟨tFields _ _ rfl ⟨rfl, rfl⟩ rfl rfl rfl, ⟨[.rgb0], _, rfl, ?_⟩, by decide, rfl, rfl⟩
  intro p hp mem
  rw [List.mem_singleton.1 hp]
  exact ⟨(.temp 1, mem), rfl⟩

/-- A wait for a held semaphore after a flow-control instruction that did not wait. -/
theorem witness_AluHazardFaults_erratum :
    let g := { tGroup with prev := .fc false, lanes := [{ tLane with semHeld := true }] }
    ∃ c : AluChecked { tState with groups := [g] } .mad .mad { tAlu with semWait := true },
      c.g.prev = .fc false ∧ ∃ l ∈ c.g.lanes, l.semHeld = true :=
  ⟨{ k := 0, g := _, turn := rfl, group := rfl, running := rfl, combination := rfl, targets := ⟨rfl, rfl⟩, last := fun h => (by cases h) },
    rfl, _, List.mem_cons_self, rfl⟩

/-- Presubtracts of a register that the instruction before wrote, as source 0 and as source 1, in both units; a written channel and a
source channel, read as itself and through a presubtract, that a lookup has yet to write, of the first source and of one behind a source
that is fetched. -/
theorem witness_AluHazardFaults :
    let f := { tAlu with
      rgbA := { tAlu.rgbA with sel := .srcp }, alphaA := { sel := .srcp, swz := .a, mod := .off }
      rgbAddr := { tAlu.rgbAddr with srcp := .sub }, alphaAddr := { tAlu.alphaAddr with srcp := .add } }
    let g := { tGroup with prev := .alu false [4, 3] }
    let l := { tLane with texPending := [0, 4, 11] }
    (SrcSel.srcp, Swz.r) ∈ aluReads .mad .mad f ∧ (SrcSel.srcp, Swz.a) ∈ aluReads .mad .mad f ∧ regKey 1 .r ∈ [4, 3] ∧
    regKey 0 .a ∈ [4, 3] ∧ tPlaces.rgb0 = .temp 1 ∧ tPlaces.alpha1 = .temp 0 ∧
    (l.active = true ∧ l.loopOff = none) ∧ tAlu.rgbWmask.getLsbD Chan.r.idx = true ∧
    predEn l tAlu.rgbPredSel tAlu.rgbPredInv .r = true ∧ regKey 1 .r ∈ l.texPending ∧ regKey 2 .a ∈ l.texPending ∧
    regKey 0 .r ∈ l.texPending ∧ (SrcSel.src0, Swz.r) ∈ aluReads .mad .mad tAlu ∧ swzChan .r = some .r ∧
    (∃ c : AluFetched { tState with groups := [g] } .mad .mad f, c.g = g ∧ c.pl = tPlaces) ∧
    (∃ c : AluFields { tState with groups := [{ tGroup with lanes := [l] }] } .mad .mad tAlu, c.reaches .rgb0 ∧
      resolvePlace c.g ((aluAddrs tAlu).get .rgb0) = .ok (.temp 1) ∧ waited c.g tAlu.semWait = [l]) ∧
    (∃ c : AluFields { tState with groups := [{ tGroup with lanes := [{ tLane with texPending := [0] }] }] } .mad .mad f,
      c.reaches .rgb1 ∧ resolvePlace c.g ((aluAddrs f).get .rgb1) = .ok (.temp 0)) ∧
    ∃ c : AluPlaced { tState with groups := [{ tGroup with lanes := [{ tLane with texPending := [11] }] }] } .mad .mad tAlu,
      c.dr = 1 ∧ c.da = 2 := by
  refine ⟨by decide, by decide, by decide, by decide, rfl, rfl, ⟨rfl, rfl⟩, rfl, rfl, by decide, by decide, by decide, by decide, rfl,
    ?_, ?_, ?_, ?_⟩
  · exact ⟨{ toAluFields := tFields _ _ rfl ⟨rfl, rfl⟩ rfl rfl rfl, pl := tPlaces, src := tSources, mem := tMem
             places := fun q => (by cases q <;> rfl), fetched := rfl }, rfl, rfl⟩
  · exact ⟨tFields tAlu { tGroup with lanes := [{ tLane with texPending := [0, 4, 11] }] } rfl ⟨rfl, rfl⟩ rfl rfl rfl,
      ⟨[], _, rfl, by simp⟩, rfl, rfl⟩
  · refine ⟨tFields _ _ rfl ⟨rfl, rfl⟩ rfl rfl rfl, ⟨[.rgb0], _, rfl, ?_⟩, rfl⟩
    intro p hp mem
    rw [List.mem_singleton.1 hp]
    exact ⟨(.temp 1, mem), rfl⟩
  · exact ⟨{ toAluFields := tFields tAlu { tGroup with lanes := [{ tLane with texPending := [11] }] } rfl ⟨rfl, rfl⟩ rfl rfl rfl
             pl := tPlaces, src := tSources, mem := tMem, places := resolve_tAlu rfl, fetched := rfl, dr := 1, da := 2, nop := rfl
             rgbDst := rfl, alphaDst := rfl }, rfl, rfl⟩

/-- An ALU instruction whose group stands at the end address. -/
theorem witness_BadLastInstructionFaults :
    ∃ c : AluReady { tState with groups := [{ tGroup with pc := 3 }] } .mad .mad tAlu, c.g.atEnd = true ∧ tAlu.isOutput = false := by
  refine ⟨?_, ?_⟩
  · exact { k := 0, g := { tGroup with pc := 3 }, pl := tPlaces, dr := 1, da := 2, turn := rfl, group := rfl, running := rfl
            combination := rfl, targets := ⟨rfl, rfl⟩, last := fun h => (by cases h), erratum := fun _ => rfl, places := resolve_tAlu rfl
            src := tSources, mem := tMem, fetched := rfl, nop := rfl, rgbDst := rfl, alphaDst := rfl
            lookups := fun l h => (by rw [List.mem_singleton.1 h]; rfl) }
  · exact ⟨rfl, rfl⟩

/-- A lookup at the integers (5, 3), which its group can execute. -/
def tTex : TexInst :=
  { texZero with srcAddr := 1#7, dstAddr := 2#7, rgbWmask := 7#3, alphaWmask := true, unscaled := true, swzT := .g, aluWait := true }

/-- A REP frame inside a LOOP frame, a stack of REP frames, and numbers at both ends of the two ranges; instructions with the first or
a later source or a destination out of range inside a LOOP, and with aL outside any. -/
theorem witness_loop_variable_and_registers :
    let rep : Frame := { kind := .rep, count := 1, aL := 9 }
    let g := fun a : Int => { tGroup with loopStack := [rep, { kind := .loop, count := 1, aL := a }] }
    let f := { tAlu with rgbDst := 127#7, rgbDstRel := true }
    let h := { tAlu with rgbAddr := { tAlu.rgbAddr with s0 := { addr := 127#8, const := false, rel := true } } }
    let c1 := { tAlu with rgbAddr := { tAlu.rgbAddr with s1 := { addr := 255#8, const := true, rel := true } } }
    let x := { tTex with dstAddr := 127#7, dstRel := true }
    ((g 3).loopStack = [rep] ++ { kind := .loop, count := 1, aL := 3 } :: [] ∧ ∀ x ∈ [rep], x.kind = .rep) ∧
    (∀ x ∈ { tGroup with loopStack := [rep, rep] }.loopStack, x.kind = .rep) ∧
    (g (-5)).relative 5 true = .ok 0 ∧ (g (-6)).relative 5 true = .ok (-1) ∧ tGroup.relative 127 false = .ok 127 ∧
    (g 1).relative 127 true = .ok 128 ∧ tGroup.relative 255 false = .ok 255 ∧ (g 1).relative 255 true = .ok 256 ∧
    (g 1).halted = false ∧ (g 1).atEnd = false ∧ tGroup.aL = none ∧ (127 : Int) < 128 ∧
    (∃ c : AluFields { tState with groups := [g 1] } .mad .mad h, c.g = g 1 ∧ c.reaches .rgb0) ∧
    (∃ c : AluFields { tState with groups := [g 1] } .mad .mad c1, c.g = g 1 ∧ c.reaches .rgb1) ∧
    (∃ c : AluFields { tState with groups := [tGroup] } .mad .mad h, c.g = tGroup ∧ c.reaches .rgb0) ∧
    (∃ c : AluFetched { tState with groups := [g 1] } .mad .mad f, c.g = g 1 ∧ nopHazard c.g .mad .mad f c.src = false) ∧
    (∃ c : AluFetched { tState with groups := [tGroup] } .mad .mad f, c.g = tGroup ∧ nopHazard c.g .mad .mad f c.src = false) ∧
    tGroup.tempIndex 1 false = .ok 1 ∧ x.wellFormed = true ∧ x.aluWait = true ∧ x.semWait = false := by
  refine ⟨⟨rfl, by decide⟩, by decide, rfl, rfl, rfl, rfl, rfl, rfl, rfl, rfl, rfl, by decide, ?_, ?_, ?_, ?_, ?_, rfl, rfl, rfl, rfl⟩
  · exact ⟨tFields _ _ rfl ⟨rfl, rfl⟩ rfl rfl rfl, rfl, [], _, rfl, by simp⟩
  · refine ⟨tFields _ _ rfl ⟨rfl, rfl⟩ rfl rfl rfl, rfl, [.rgb0], _, rfl, ?_⟩
    intro p hp mem
    rw [List.mem_singleton.1 hp]
    exact ⟨(.temp 1, mem), rfl⟩
  · exact ⟨tFields _ _ rfl ⟨rfl, rfl⟩ rfl rfl rfl, rfl, [], _, rfl, by simp⟩
  · exact ⟨{ toAluFields := tFields _ _ rfl ⟨rfl, rfl⟩ rfl rfl rfl, pl := tPlaces, src := tSources, mem := tMem
             places := resolve_tAlu rfl, fetched := rfl }, rfl, rfl⟩
  · exact ⟨{ toAluFields := tFields _ _ rfl ⟨rfl, rfl⟩ rfl rfl rfl, pl := tPlaces, src := tSources, mem := tMem
             places := resolve_tAlu rfl, fetched := rfl }, rfl, rfl⟩

/-! ### Texture -/

/-- A processor with T[1] = (5, 3). -/
def tTexLane : Lane := { tLane with temps := [(4, 0x40A00000#32), (5, 0x40400000#32)] }

def tTexState : State := { tState with groups := [{ tGroup with lanes := [tTexLane] }] }

/-- Its group can execute each lookup, on a processor that takes part. -/
theorem witness_TexLookupCompletes (op : TexOp) (h : op = .lookup ∨ op = .lookupProj ∨ op = .lookupUncached) :
    (∃ c : TexCase tTexState op { tTex with swzQ := .r, unscaled := true, ignoreUncovered := true }, c.dst = 2) ∨ op = .lookupProj := by
  rcases h with rfl | rfl | rfl
  · refine .inl ⟨{ k := 0, g := { tGroup with lanes := [tTexLane] }, src := 1, dst := 2, lanes := _, mem := _, turn := rfl
                   group := rfl, running := rfl, notEnd := rfl, fields := fun h => (by cases h), places := rfl, results := .inl rfl
                   erratum := fun _ => rfl, lookups := fun l h => (by rw [List.mem_singleton.1 h]; exact ⟨rfl, rfl⟩), reads := rfl }, rfl⟩
  · exact .inr rfl
  · refine .inl ⟨{ k := 0, g := { tGroup with lanes := [tTexLane] }, src := 1, dst := 2, lanes := _, mem := _, turn := rfl
                   group := rfl, running := rfl, notEnd := rfl, fields := fun h => (by cases h), places := rfl, results := .inl rfl
                   erratum := fun _ => rfl, lookups := fun l h => (by rw [List.mem_singleton.1 h]; exact ⟨rfl, rfl⟩), reads := rfl }, rfl⟩

/-- A group of one processor with T[1] = (5, 3, -, 1). -/
def tProjGroup : Group :=
  { tGroup with lanes := [{ tLane with temps := [(4, 0x40A00000#32), (5, 0x40400000#32), (7, 0x3F800000#32)] }] }

def tProjState : State := { tState with groups := [tProjGroup] }

/-- A projected lookup by q = 1. -/
theorem witness_TexLookupCompletes_proj :
    Nonempty (TexCase tProjState .lookupProj { tTex with swzQ := .a }) :=
  ⟨{ k := 0, g := tProjGroup, src := 1, dst := 2, lanes := _, mem := _, turn := rfl, group := rfl
     running := rfl, notEnd := rfl, fields := fun h => (by cases h), places := rfl, results := .inl rfl, erratum := fun _ => rfl
     lookups := fun l h => (by rw [List.mem_singleton.1 h]; exact ⟨rfl, rfl⟩), reads := rfl }⟩

/-- A TEX_INST_NOP and a kill that their group can execute. -/
theorem witness_TexNopOnlySynchronises_and_TexKillUncovers :
    Nonempty (TexCase tState .nop { texZero with semWait := true, semAcquire := true }) ∧
    Nonempty (TexCase tState .killLt0 { texZero with srcAddr := 2#7, alphaWmask := true }) :=
  ⟨⟨{ k := 0, g := tGroup, src := 0, dst := 0, lanes := _, mem := _, turn := rfl, group := rfl, running := rfl, notEnd := rfl
      fields := fun _ => rfl, places := rfl, results := .inr (fun u _ => by simp [tGroup]), erratum := fun _ => rfl
      lookups := fun l h => (by rw [List.mem_singleton.1 h]; exact ⟨rfl, rfl⟩), reads := rfl }⟩,
   ⟨{ k := 0, g := tGroup, src := 2, dst := 0, lanes := _, mem := _, turn := rfl, group := rfl, running := rfl, notEnd := rfl
      fields := fun h => (by cases h), places := rfl, results := .inr (fun u _ => by simp [tGroup]), erratum := fun _ => rfl
      lookups := fun l h => (by rw [List.mem_singleton.1 h]; exact ⟨rfl, rfl⟩), reads := rfl }⟩⟩

/-- A texture instruction that its group has done up to the semaphore, away from and at the end address, the first without a wait; a
flow-control instruction with a per-channel select whose boolean is not read, and one at the end address that has decided to jump. -/
theorem witness_TexAndFc_fields_and_end :
    (∃ _ : TexReady tState .nop { texZero with semAcquire := true }, ({ texZero with semAcquire := true } : TexInst).semWait = false) ∧
    (∃ c : TexReady { tState with groups := [{ tGroup with pc := 3 }] } .nop texZero, c.g.atEnd = true) ∧
    (∃ c : FcFields tState { fcZero with predSel := .rgba },
      ∃ r, fcBoolean tState.platform c.g.env.descs.constb { fcZero with predSel := .rgba } tState.mem = .ok r) ∧
    ∃ c : FcPlaced { tState with groups := [{ tGroup with pc := 3 }] } { fcZero with jumpFunc := 0xFF#8 },
      c.g.atEnd = true ∧ c.decided .jump (true = true) ∧ c.room (true = true) := by
  refine ⟨⟨{ k := 0, g := tGroup, src := 0, dst := 0, lanes := _, mem := _, turn := rfl, group := rfl, running := rfl, places := rfl
             results := .inr (fun u _ => by simp [tGroup]), erratum := fun _ => rfl
             lookups := fun l h => (by rw [List.mem_singleton.1 h]; exact ⟨rfl, rfl⟩), reads := rfl }, rfl⟩,
    ⟨{ k := 0, g := { tGroup with pc := 3 }, src := 0, dst := 0, lanes := _, mem := _, turn := rfl, group := rfl, running := rfl
       places := rfl, results := .inr (fun u _ => by simp [tGroup]), erratum := fun _ => rfl
       lookups := fun l h => (by rw [List.mem_singleton.1 h]; exact ⟨rfl, rfl⟩), reads := rfl }, rfl⟩,
    ⟨{ k := 0, g := tGroup, turn := rfl, group := rfl, running := rfl, results := .inr (fun u _ => by simp [tGroup])
       erratum := fun _ => rfl }, _, rfl⟩,
    ⟨{ k := 0, g := { tGroup with pc := 3 }, boolean := false, mem := tMem, turn := rfl, group := rfl, running := rfl
       results := .inr (fun u _ => by simp [tGroup]), erratum := fun _ => rfl, bool := rfl, fields := by decide }, rfl, ?_, ?_⟩⟩
  · exact ⟨fun _ => (vote_iff fun v hv => fcVoters_voter hv).1 rfl, fun _ => rfl⟩
  · exact ⟨fun _ => ⟨⟨fun h => (by cases h), fun h => (by cases h)⟩, fun h => (by cases h)⟩, fun h => absurd rfl h⟩

/-- Uses of pending results, and a wait for a held semaphore after a flow-control instruction that did not wait. -/
theorem witness_TexAndFcHazardsFault :
    let g := { tGroup with aluPending := [.temp 4, .pred .r] }
    let g1 := { tGroup with prev := .fc false, lanes := [{ tLane with semHeld := true }] }
    g.halted = false ∧ g.atEnd = false ∧ tTex.wellFormed = true ∧ texPlaces g .lookup tTex = .ok (1, 2) ∧
    g.relative tTex.srcAddr.toNat tTex.srcRel = .ok (1 : Nat) ∧ regKey 1 tTex.swzS = 4 ∧
    AluItem.temp 4 ∈ texUses .lookup tTex (texNamed g tTex) ∧ AluItem.temp 4 ∈ g.aluPending ∧
    AluItem.pred .r ∈ fcUses { fcZero with predSel := .rrrr, jumpFunc := 0x33#8 } ∧ AluItem.pred .r ∈ g.aluPending ∧
    g1.halted = false ∧ g1.atEnd = false ∧ g1.prev = .fc false ∧ (∀ l ∈ g1.lanes, l.semHeld = true) ∧ g1.lanes ≠ [] ∧
    (∀ u ∈ fcUses { fcZero with semWait := true }, u ∉ g1.aluPending) := by
  refine ⟨rfl, rfl, rfl, rfl, rfl, rfl, by decide, by decide, by decide, by decide, rfl, rfl, rfl, by decide, by decide, by decide⟩

/-- Processors that take part with a source or a destination channel that a lookup has yet to write, the lookup being answered;
a lookup without a hazard under a reserved format, of a superfine input with four channels, and at a row that is the height, or
whose superfine neighbour is. -/
theorem witness_TexAndFcHazardsFault_lookup :
    let source := { tTexLane with texPending := [4] }
    let destination := { tTexLane with texPending := [8] }
    let d := { tDescs.condOut with desc := { tDescs.condOut.desc with base := 0x1000#32 } }
    let fine := { d with desc := { d.desc with tiling := .linear2x2 } }
    texPlaces tGroup .lookup tTex = .ok (1, 2) ∧ texPlaces tGroup .killLt0 tTex = .ok (1, 0) ∧ tTex.aluWait = true ∧
    tTex.semWait = false ∧ texTakesPart tTex source = true ∧ regKey 1 tTex.swzS ∈ source.texPending ∧
    texTakesPart tTex destination = true ∧ texEnable tTex destination .r = true ∧ regKey 2 .r ∈ destination.texPending ∧
    texEnable tTex source .r = true ∧
    (∃ r, texLanes tState.platform tState.draws (tEnv.descs.inp.get ⟨tTex.texId.toNat, tTex.texId.isLt⟩) .lookup tTex 1 2 [destination]
      tMem = .ok r) ∧ texTakesPart tTex tTexLane = true ∧ tTexLane.texPending = [] ∧
    5 ≤ (5#3 : BitVec 3).toNat ∧ fine.desc.tiling = .linear2x2 ∧ (1#3 : BitVec 3) ≠ 2#3 ∧ d.desc.format.toNat < 5 ∧
    texIndex { d with height := 3#13 } true false (texCoord tTex 1 tTexLane) = (5, 3) ∧
    texIndex { fine with height := 4#13 } true false (texCoord tTex 1 tTexLane) = (5, 3) ∧
    ∀ a < 2 ^ 32, State.reset.platform.mapped a = true := by
  refine ⟨rfl, rfl, rfl, rfl, rfl, by decide, rfl, rfl, by decide, rfl, ⟨_, rfl⟩, rfl, rfl, by decide, rfl, by decide, by decide, rfl,
    rfl, fun a h => mapped_reset h⟩

/-- Coordinates at both ends of the pinned range, an integer with a coordinate that is -0, a NaN and a denormal. -/
theorem witness_TexIndexPinned :
    expField 0x457FF000#32 ≠ 255 ∧ coordInt 0x457FF000#32 = some 4095 ∧ coordInt 0x80000000#32 = some 0 ∧
    expField 0x80000000#32 = 0 ∧ floatValue 0x80000000#32 = (0 : Nat) ∧ floatValue 0x457FF000#32 = (4095 : Nat) ∧
    isNaN 0xFFC00000#32 = true ∧ expField 0x80000001#32 = 0 ∧ isNaN 0x3F800000#32 = false := by
  refine ⟨by decide, by decide, by decide, by decide, ?_, ?_, by decide, by decide, by decide⟩
  · simp [floatValue, expField]
  · have hs : (0x457FF000#32)[31] = false := by decide
    norm_num [floatValue, expField, manField, signBit, hs]

/-! ### Flow control -/

/-- A flow-control instruction with these fields that the group can execute, in a state of two processors. -/
theorem witness_fc (g : Group) (f : FcInst) (hr : g.halted = false) (he : g.atEnd = false) (hf : f.predSel ≠ .rgba)
    (hw : f.aluWait = true) (hs : f.semWait = false) (hb : funcDepends f.jumpFunc 0 = false) :
    ∃ c : FcCase (twoState g) f, c.g = { g with lanes := twoLanes } ∧ c.boolean = false ∧ c.mem = tMem :=
  ⟨{ k := 0, g := { g with lanes := twoLanes }, boolean := false, mem := tMem, turn := rfl, group := rfl, running := hr, notEnd := he
     fields := hf, results := .inl hw, erratum := fun h => (by rw [hs] at h; cases h)
     bool := by unfold fcBoolean; rw [hb]; rfl },
   rfl, rfl, rfl⟩

/-- A jump with a call, with room on the address stack. -/
theorem witness_JumpFollowsTheVote :
    ∃ c : FcCase (twoState tGroup)
      { fcZero with aluWait := true, jumpFunc := 0xFF#8, aOp := .push, bOp0 := .incr, bOp1 := .incr }, ∀ p, c.room p := by
  obtain ⟨c, h, -⟩ := witness_fc tGroup
    { fcZero with aluWait := true, jumpFunc := 0xFF#8, aOp := .push, bOp0 := .incr, bOp1 := .incr } rfl rfl (by decide) rfl rfl rfl
  have hl : c.countersRoom := by
    unfold FcPlaced.countersRoom
    rw [h]; decide
  refine ⟨c, fun p => ⟨fun _ => ⟨⟨fun _ => ?_, fun hh => by cases hh⟩, fun _ => hl⟩, fun _ _ => hl⟩⟩
  rw [h]; exact ⟨rfl, by decide⟩

/-- Full, empty and absent stacks, a vote that decides to jump and one that does not. -/
theorem witness_StackAndCounterLimits :
    let full := { tGroup with loopStack := List.replicate 4 { kind := .loop, count := 1, aL := 0 }, addrStack := [1, 2, 3, 4] }
    let partial' := { tGroup with env := { tEnv with prog := { tProg with usFcCtrl := 0#32 } } }
    let f := { fcZero with aluWait := true, jumpFunc := 0xFF#8, jumpAny := true }
    4 ≤ full.loopStack.length ∧ 4 ≤ full.addrStack.length ∧ partial'.env.prog.fullMode = false ∧ tGroup.loopStack = [] ∧
    tGroup.addrStack = [] ∧ tProg.branchMax = 31 ∧
    (∃ c : FcPlaced (twoState full) { f with jumpFunc := 0#8 }, ¬ decides { f with jumpFunc := 0#8 } (c.voters .loop)) ∧
    ∃ count a0 d mem, readConsti (twoState full).platform tMem tDescs.consti 0 = .ok ((count, a0, d), mem) := by
  refine ⟨by decide, by decide, rfl, rfl, rfl, rfl, ?_, _, _, _, _, rfl⟩
  obtain ⟨c, h, hb, -⟩ := witness_fc { tGroup with loopStack := List.replicate 4 { kind := .loop, count := 1, aL := 0 }, addrStack := [1, 2, 3, 4] }
    { fcZero with aluWait := true, jumpFunc := 0#8, jumpAny := true } rfl rfl (by decide) rfl rfl rfl
  refine ⟨c.toFcPlaced, ?_⟩
  unfold FcPlaced.voters decides
  rw [h, hb]
  decide

/-- A group in the block that an operation needs, with two iterations left. -/
def tBlock (op : FcOp) (ls : List Lane) (addrs : List Nat) : Group :=
  { tGroup with
    loopStack := [{ kind := (match op with | .endrep | .breakrep => .rep | _ => .loop), count := 2, aL := 0 }]
    addrStack := addrs, lanes := ls }

/-- A jump that every processor wants, with these operations of the address stack and the branch counters. -/
def tAlways (a : AOp) (b : BOp) : FcInst := { fcZero with aluWait := true, jumpFunc := 0xFF#8, aOp := a, bOp0 := b, bOp1 := b }

/-- Such an instruction on such a group. -/
def tPlaced (op : FcOp) (ls : List Lane) (addrs : List Nat) (a : AOp) (b : BOp) :
    FcPlaced { tState with groups := [tBlock op ls addrs] } (tAlways a b) :=
  { k := 0, g := tBlock op ls addrs, boolean := false, mem := tMem, turn := rfl, group := rfl, running := rfl
    fields := (show PredSel.none ≠ .rgba by decide), results := .inl rfl, erratum := fun h => (by cases h)
    bool := by cases a <;> cases b <;> rfl }

/-- An operation in the block that it needs comes to its address operation with the decision to jump, where every processor is active
and wants to. -/
theorem decided_tPlaced {op : FcOp} {a : AOp} {addrs : List Nat}
    (hd : vote (tAlways a .none) ((tPlaced op twoLanes addrs a .none).voters op) = true)
    (hl : ((tPlaced op twoLanes addrs a .none).voters op).all (fun v => v.lane.active && v.lane.loopOff.isNone) = true)
    (hc : ∃ count a0 d mem, readConsti tState.platform tMem tDescs.consti 0 = .ok ((count, a0, d), mem)) :
    (tPlaced op twoLanes addrs a .none).decided op True := by
  have hd := (vote_iff fun v hv => fcVoters_voter hv).1 hd
  have hb : ∀ v ∈ (tPlaced op twoLanes addrs a .none).voters op, ¬ (tPlaced op twoLanes addrs a .none).blocks op v := by
    intro v hv
    have h2 := List.all_eq_true.1 hl v hv
    rintro (⟨h, -⟩ | ⟨-, d, h⟩) <;> simp [h] at h2
  have hm : tProg.fullMode = true := rfl
  obtain ⟨count, hc⟩ := hc
  cases op
  · exact ⟨fun _ => hd, fun _ => trivial⟩
  · exact ⟨count, hc, ⟨fun _ => .inr hd, fun _ => trivial⟩, fun h => absurd trivial h⟩
  · exact ⟨_, ⟨hm, _, rfl⟩, rfl, ⟨fun _ => ⟨by decide, hd⟩, fun _ => trivial⟩, fun _ => ⟨count, hc⟩⟩
  · exact ⟨count, hc, ⟨fun _ => .inr hd, fun _ => trivial⟩, fun h => absurd trivial h⟩
  · exact ⟨_, ⟨hm, _, rfl⟩, rfl, fun _ => ⟨by decide, hd⟩, fun _ => trivial⟩
  · exact ⟨_, ⟨hm, _, rfl⟩, rfl, fun _ => ⟨hd, hb⟩, fun _ => trivial⟩
  · exact ⟨_, ⟨hm, _, rfl⟩, rfl, fun _ => ⟨hd, hb⟩, fun _ => trivial⟩
  · exact ⟨_, ⟨hm, _, rfl⟩, fun _ => ⟨hd, hb⟩, fun _ => trivial⟩

/-- Each of the eight operations comes to a push with the address stack full and to a pop with it empty, the decision being to jump. -/
theorem witness_StackAndCounterLimits_address (op : FcOp) :
    (tPlaced op twoLanes [1, 2, 3, 4] .push .none).decided op True ∧ 4 ≤ (tBlock op twoLanes [1, 2, 3, 4]).addrStack.length ∧
    (tPlaced op twoLanes [] .pop .none).decided op True ∧ (tBlock op twoLanes []).addrStack = [] :=
  ⟨decided_tPlaced (by cases op <;> rfl) (by cases op <;> rfl) ⟨_, _, _, _, rfl⟩, Nat.le_refl 4,
    decided_tPlaced (by cases op <;> rfl) (by cases op <;> rfl) ⟨_, _, _, _, rfl⟩, rfl⟩

/-- A processor that is inactive with its counter at the limit. -/
def tLimitLane : Lane := { tLane with active := false, bcnt := 31 }

/-- Each of the eight operations comes to INCR with such a processor, on a jump or, for BREAK and CONTINUE, where it stays. -/
theorem witness_StackAndCounterLimits_counter (op : FcOp) :
    ∃ jump : Bool, (tPlaced op [tLimitLane] [] .none .incr).decided op (jump = true) ∧
      (tPlaced op [tLimitLane] [] .none .incr).addressRoom ∧
      ∃ v ∈ (tPlaced op [tLimitLane] [] .none .incr).voters op,
        (tPlaced op [tLimitLane] [] .none .incr).offAfter op jump v = none ∧ v.lane.active = false ∧
        ((tAlways .none .incr).ignoreUncovered = true → v.lane.covered = true) ∧
        (tPlaced op [tLimitLane] [] .none .incr).g.env.prog.branchMax ≤ v.lane.bcnt := by
  have hd : decides (tAlways .none .incr) ((tPlaced op [tLimitLane] [] .none .incr).voters op) :=
    (vote_iff fun v hv => fcVoters_voter hv).1 (by cases op <;> rfl)
  refine ⟨(match op with | .breakloop | .breakrep | .cont => false | _ => true), ?_,
    ⟨fun h => (by cases h), fun h => (by cases h)⟩, ?_⟩
  · cases op
    · exact ⟨fun _ => hd, fun _ => rfl⟩
    · exact ⟨_, ⟨_, _, _, rfl⟩, ⟨fun _ => .inr hd, fun _ => rfl⟩, fun h => absurd rfl h⟩
    · exact ⟨_, ⟨rfl, _, rfl⟩, rfl, ⟨fun _ => ⟨by decide, hd⟩, fun _ => rfl⟩, fun _ => ⟨_, _, _, _, rfl⟩⟩
    · exact ⟨_, ⟨_, _, _, rfl⟩, ⟨fun _ => .inr hd, fun _ => rfl⟩, fun h => absurd rfl h⟩
    · exact ⟨_, ⟨rfl, _, rfl⟩, rfl, fun _ => ⟨by decide, hd⟩, fun _ => rfl⟩
    · exact ⟨_, ⟨rfl, _, rfl⟩, rfl, fun h => (by cases h), fun h => (h.2 _ List.mem_cons_self (.inl ⟨rfl, .inl rfl⟩)).elim⟩
    · exact ⟨_, ⟨rfl, _, rfl⟩, rfl, fun h => (by cases h), fun h => (h.2 _ List.mem_cons_self (.inl ⟨rfl, .inl rfl⟩)).elim⟩
    · exact ⟨_, ⟨rfl, _, rfl⟩, fun h => (by cases h), fun h => (h.2 _ List.mem_cons_self (.inl ⟨rfl, .inl rfl⟩)).elim⟩
  · cases op <;> exact ⟨_, List.mem_cons_self, rfl, rfl, fun h => (by cases h), by decide⟩

/-- Leave where the predicate bit R is set. -/
def tLeave : FcInst := { fcZero with aluWait := true, predSel := .rrrr, jumpFunc := 0xCC#8, jumpAny := true }

/-- A group inside a block of this kind. -/
def tLoopGroup (kind : FrameKind) (count : Nat) : Group :=
  { tGroup with loopStack := [{ kind := kind, count := count, aL := 0 }] }

/-- A group inside a LOOP and one inside a REP block: a flow-control instruction that they can execute, with room. -/
theorem witness_loops (kind : FrameKind) (count : Nat) :
    ∃ c : FcCase (twoState (tLoopGroup kind count)) tLeave, (∀ p, c.room p) ∧ c.g.env.prog.fullMode = true ∧ c.g.loopStack.length = 1 ∧
      c.g.loopStack = { kind := kind, count := count, aL := 0 } :: [] ∧
      ∃ n a0 d mem, readConsti tState.platform c.mem c.g.env.descs.consti tLeave.intAddr.toNat =
        .ok ((n, a0, d), mem) := by
  obtain ⟨c, h, -, hm⟩ := witness_fc (tLoopGroup kind count) tLeave rfl (show tGroup.atEnd = false from rfl) (by decide) rfl rfl rfl
  refine ⟨c, fun p => ⟨fun _ => ⟨⟨fun hh => ?_, fun hh => ?_⟩, fun hh => ?_⟩, fun _ hh => ?_⟩, ?_, ?_, ?_, ?_⟩
  · cases hh
  · cases hh
  · cases hh
  · cases hh
  · rw [h]; exact (show tProg.fullMode = true from rfl)
  · rw [h]; rfl
  · rw [h]; rfl
  · rw [h, hm]; exact ⟨_, _, _, _, (rfl : readConsti tState.platform tMem tDescs.consti 0 = _)⟩

/-- A flow-control instruction that completes, and an inactive processor under B_ELSE. -/
theorem witness_FlowControlFrame :
    (∃ t, exec (.fcJump { fcZero with bElse := true }) (twoState tGroup) = .next t) ∧
    [{ tLane with active := false }][0]? = some { tLane with active := false } := ⟨⟨_, rfl⟩, rfl⟩

/-- The constants of flow control in unmapped memory: a JUMP_FUNC that depends on the boolean, a LOOP, and an ENDLOOP that jumps. -/
theorem witness_FlowControlFrame_stuck :
    let hole : Platform := { State.reset.platform with memMap := [] }
    let unmapped := fun (d : Desc) => ∃ as, elementAddrs d none 0 0 = .ok as ∧ ∃ a ∈ as, hole.mapped a = false
    let g := { tGroup with loopStack := [{ kind := .loop, count := 2, aL := 0 }] }
    let f := { fcZero with aluWait := true, jumpFunc := 0xFF#8 }
    unmapped tDescs.constb ∧ unmapped tDescs.consti ∧
    (∃ n < 8, (2#8).getLsbD n ≠ (2#8).getLsbD (n ^^^ 1)) ∧
    Nonempty (FcFields { twoState tGroup with platform := hole } { f with jumpFunc := 2#8 }) ∧
    ∃ c : FcPlaced { twoState g with platform := hole } f, c.g.env.prog.fullMode = true ∧
      c.g.loopStack = { kind := .loop, count := 2, aL := 0 } :: [] ∧ (2 : Nat) - 1 ≠ 0 ∧ decides f (c.voters .endloop) := by
  refine ⟨⟨_, rfl, _, List.mem_cons_self, rfl⟩, ⟨_, rfl, _, List.mem_cons_self, rfl⟩, ⟨0, by decide, by decide⟩,
    ⟨{ k := 0, g := { tGroup with lanes := twoLanes }, turn := rfl, group := rfl, running := rfl
       results := .inl rfl, erratum := fun h => (by cases h) }⟩,
    { k := 0, g := { tGroup with loopStack := [{ kind := .loop, count := 2, aL := 0 }], lanes := twoLanes }, boolean := false, mem := tMem
      turn := rfl, group := rfl, running := rfl, fields := (by decide), results := .inl rfl
      erratum := fun h => (by cases h), bool := rfl }, rfl, rfl, by decide, ?_⟩
  unfold decides FcPlaced.voters
  decide

/-! ### Arithmetic, memory, agents -/

/-- NaN, a denormal, a normal number, both infinities; intermediate results of each kind. -/
theorem witness_ComparisonsFollowTheTable_and_MadArithmetic :
    isNaN 0x7F800001#32 = true ∧ expField 0x807FFFFF#32 = 0 ∧ expField 0x7F7FFFFF#32 = 254 ∧ expField 0x00800000#32 = 1 ∧
    isNaN 0x7F800000#32 = false ∧ isNaN 0xFF800000#32 = false ∧
    Ext.nan.ok ∧ (Ext.inf true).ok ∧ (Ext.zero false).ok ∧ (Ext.real (-3) 5).ok :=
  ⟨by decide, by decide, by decide, by decide, by decide, by decide, trivial, trivial, trivial, (by decide : (-3 : Int) ≠ 0)⟩

/-- A real number below the smallest normal one; values below zero, in between and above one. -/
theorem witness_FinishAndClamp :
    OMod.u8 ≠ .disabled ∧ |((1 : Int) : ℚ) * 2 ^ (-130 : Int) * 8| < 2 ^ (-126 : Int) ∧ fLt0 0xBF800000#32 = true ∧
    fEq0 0x80000000#32 = true ∧ fLt 0x3F800000#32 0x3F800001#32 = true ∧ fLt 0x3F800000#32 0x3F800000#32 = false ∧
    fLt0 0x3F800000#32 = false ∧ isNaN 0x3F800000#32 = false ∧
    (2 : ℚ) ^ (-126 : Int) ≤ |((1 : Int) : ℚ) * 2 ^ (-129 : Int) * 8| ∧
    |((2 ^ 24 - 1 : Int) : ℚ) * 2 ^ (107 : Int) * (1 / 8)| ≤ (2 ^ 24 - 1) * 2 ^ 104 := by
  refine ⟨by decide, ?_, by decide, by decide, by decide, by decide, by decide, by decide, ?_, ?_⟩ <;> norm_num

/-- A descriptor with the largest index pair, and ones of float, integer and boolean constants in mapped memory with the last
constant. -/
theorem witness_addresses :
    let d : Desc := { base := 0xFFFFF800#32, pitch := 8188#13, tiling := .tiled, format := 4#3 }
    let m := { tMem with ram := [] }
    d.wf = true ∧ formatLog d.format = some 4 ∧ 4095 < 4096 ∧ { d with tiling := .linear2x2 }.tiling ≠ .tiled ∧
    tDescs.constf.wf = true ∧ tDescs.constf.format = 4#3 ∧ tDescs.constf.tiling = .linear ∧ 255 < 256 ∧ m.constf = ReadCache.empty ∧
    (∀ n < 16, State.reset.platform.mapped ((tDescs.constf.base.toNat + 16 * 255 + n) % 2 ^ 32) = true) ∧
    formatLog tDescs.consti.format = some 2 ∧ formatLog tDescs.constb.format = some 2 ∧ 31 < 32 ∧
    ∀ d ∈ [tDescs.consti, tDescs.constb], ∀ a ∈ (List.range (2 ^ 2)).map fun n => (d.address 2 31 0 + n) % 2 ^ 32,
      State.reset.platform.mapped a = true := by
  refine ⟨by decide, rfl, by decide, by decide, by decide, rfl, rfl, by decide, rfl, by decide, rfl, rfl, by decide, by decide⟩

/-- Output writes under FLOAT32_1, FLOAT32_4, UINT16_1 and UINT8_4 that go through. -/
theorem witness_OutputWritesAreMasked :
    let d := tDescs.condOut
    let d4 := { d with desc := { d.desc with format := 4#3 } }
    let v : Quad Word := ⟨1#32, 2#32, 3#32, 4#32⟩
    let d0 := { d with desc := { d.desc with format := 0#3 } }
    let d1 := { d with desc := { d.desc with format := 1#3 } }
    d.desc.wf = true ∧ formatLog d.desc.format = some 2 ∧ (∃ cells, outputWrite d 15#4 4095#12 31#12 v = .ok cells) ∧
    d4.desc.wf = true ∧ formatLog d4.desc.format = some 4 ∧ (∃ cells, outputWrite d4 5#4 0#12 0#12 v = .ok cells) ∧
    d0.desc.wf = true ∧ formatLog d0.desc.format = some 1 ∧ (∃ cells, outputWrite d0 1#4 4095#12 31#12 v = .ok cells) ∧
    d1.desc.wf = true ∧ formatLog d1.desc.format = some 2 ∧ ∃ cells, outputWrite d1 10#4 0#12 31#12 v = .ok cells := by
  refine ⟨by decide, rfl, ⟨_, rfl⟩, by decide, rfl, ⟨_, rfl⟩, by decide, rfl, ⟨_, rfl⟩, by decide, rfl, _, rfl⟩

/-- The MC drops a byte of a read cache, or a dirty byte at a mapped or an unmapped address; while a processor is busy the byte may
change the last float constant, and a byte of the text wherever that lies. -/
theorem witness_OutputWritesAreMasked_evict :
    let s := { tState with turn := .evict .inp 7, mem := { tMem with inp := { bytes := [(7, 1#8)] } } }
    let s1 := { tState with turn := .evict .out 0x2000, mem := { tMem with out := [(0x2000, 1#8)] } }
    let s2 := { tState with turn := .evict .cond 0x2000, mem := { tMem with cond := { clean := ReadCache.empty, dirty := [(0x2000, 1#8)] } } }
    let hole : Platform := { State.reset.platform with memMap := [] }
    let idle := fun s : State => { s with groups := [] }
    let constant := { tState with setItems := [.constf], mc := { tState.mc with descs := tDescs } }
    let text := { tState with setItems := [], groups := [{ tGroup with env := { tEnv with prog := { tProg with instrCnt := 1#32 } } }] }
    s.mem.wf = true ∧ s1.mem.wf = true ∧ s2.mem.wf = true ∧ tabFind s1.mem.out 0x2000 = some 1#8 ∧ tabFind tMem.out 0x2000 = none ∧
    tabFind s2.mem.cond.dirty 0x2000 = some 1#8 ∧ tabFind tMem.cond.dirty 0x2000 = none ∧ hole.mapped 0x2000 = false ∧
    writable (idle s1) 0x2000 ∧ writable (idle s2) 0x2000 ∧ s1.platform.mapped 0x3FFF = true ∧ constant.mem.ram.get 0x3FFF ≠ 1#8 ∧
    constant.groups ≠ [] ∧
    (∃ as, elementAddrs constant.mc.descs.constf none 255 0 = .ok as ∧ 0x3FFF ∈ as ∧ Item.constf ∈ constant.setItems) ∧
    ∃ a, a = Config.textAddr tDescs.inst.base.toNat tDescs.inst.pitch.toNat tDescs.inst.tiling.isTiled tDescs.inst.format.toNat 0 23 % 2 ^ 32 ∧
      text.platform.mapped a = true ∧ ∃ b, text.mem.ram.get a ≠ b := by
  refine ⟨by decide, by decide, by decide, rfl, rfl, rfl, rfl, rfl, ⟨rfl, fun g hg => by cases hg⟩,
    ⟨rfl, fun g hg => by cases hg⟩, rfl, by decide, by decide, ⟨_, rfl, by decide, by decide⟩, _, rfl,
    mapped_reset (Nat.mod_lt _ (by decide)), ?_⟩
  generalize Memory.get _ _ = x
  exact ⟨x + 1#8, by bv_omega⟩

/-- A write of the conditional value, a read through the conditional cache at the last row, a row past the height; two words that are
not both zeros, and values that are no NaN. -/
theorem witness_ConditionalTest :
    (∃ mem', writeCond State.reset.platform tMem tEnv 0#12 31#12 5#32 = .ok mem') ∧
    (∃ as, elementAddrs tDescs.condOut.desc (some tDescs.condOut.height.toNat) 0 31 = .ok as ∧
      as.all State.reset.platform.mapped = true) ∧
    tDescs.condOut.height.toNat ≤ (32#12 : BitVec 12).toNat ∧ formatLog tDescs.condOut.desc.format ≠ none ∧
    tDescs.condOut.desc.wf = true ∧ tDescs.condOut.desc.format = 2#3 ∧
    { tEnv with condTest := 3#3 }.condTest ≠ 0#3 ∧ tEnv.condTest = 7#3 ∧
    (6#32 ≠ 5#32 ∧ ¬ (6#32 &&& 0x7FFFFFFF#32 = 0#32 ∧ 5#32 &&& 0x7FFFFFFF#32 = 0#32)) ∧ isNaN 5#32 = false ∧
    isNaN (wordOf (bytesOfWord 6#32)) = false ∧
    (∃ as, elementAddrs tDescs.condOut.desc (some tDescs.condOut.height.toNat) 0 31 = .ok as ∧
      ∃ a ∈ as, ({ State.reset.platform with memMap := [] } : Platform).mapped a = false) := by
  refine ⟨⟨_, rfl⟩, ⟨_, rfl, rfl⟩, by decide, by decide, by decide, rfl, by decide, rfl, by decide, by decide, by decide,
    ⟨_, rfl, _, List.mem_cons_self, rfl⟩⟩

/-- A launch with one pair, an idle processor, a group of the same launch that has not started, and both answers of the conditional
test. -/
theorem witness_DistributorStartsProcessors :
    let la : Launch := { env := tEnv, todo := [(5#12, 3#12)] }
    let s := { State.reset with
      mem := tMem, turn := .dist 0 0 0 none, pe := { State.reset.pe with launches := [la, { la with todo := [(0#12, 0#12), (1#12, 0#12)] }] } }
    let s1 := { s with
      turn := .dist 1 1 1 (some 0), platform := { s.platform with moreProcs := 1 }, groups := [{ tGroup with started := false }] }
    s.turn = .dist 0 0 0 none ∧ s.pe.distStuck = false ∧ s.pe.launches[0]? = some la ∧ la.todo[0]? = some (5#12, 3#12) ∧
    0 < s.platform.nproc ∧ s.busy 0 = false ∧ la.todo.eraseIdx 0 = [] ∧ [(0#12, 0#12), (1#12, 0#12)].eraseIdx 1 ≠ [] ∧
    1 < s1.platform.nproc ∧ s1.busy 1 = false ∧
    (∀ k, some 0 = some k → ∃ g, s1.groups[k]? = some g ∧ g.started = false ∧ g.halted = false ∧ g.env = la.env) ∧
    la.env.condLoc = false ∧ coTest s.platform s.co.stuck s.mem { la.env with condLoc := true } .pe 5#12 3#12 la.env.condVal = .ok (true, tMem) ∧
    coTest s.platform s.co.stuck s.mem { la.env with condLoc := true, condTest := 0#3 } .pe 5#12 3#12 la.env.condVal =
      .ok (false, tMem) ∧
    coTest s.platform { s.co with stuck := true }.stuck s.mem { la.env with condLoc := true } .pe 5#12 3#12 la.env.condVal = .error (.stuck tMem) := by
  refine ⟨rfl, rfl, rfl, rfl, by decide, rfl, rfl, by decide, by decide, by decide, ?_, rfl, rfl, rfl, rfl⟩
  intro k hk
  cases hk
  exact ⟨_, rfl, rfl, rfl, rfl⟩

/-- A halted group with a covered processor whose output write goes through, the same processor killed, with bytes to write at a mapped
and at an unmapped address, and with none left, alone in its group or not. -/
theorem witness_HaltedProcessorSendsResults :
    let g := { tGroup with halted := true, lanes := [tLane] }
    let s := { tState with turn := .retire 0 0, groups := [g] }
    let hole : Platform := { State.reset.platform with memMap := [] }
    s.turn = .retire 0 0 ∧ s.groups[0]? = some g ∧ g.halted = true ∧ g.lanes[0]? = some tLane ∧ tLane.stuck = false ∧
    tLane.outbox = none ∧ tLane.covered = true ∧ { tLane with covered := false }.covered = false ∧
    coTest s.platform s.co.stuck s.mem g.env .dpp tLane.i tLane.j tLane.vIn = .ok (true, tMem) ∧
    coTest s.platform s.co.stuck s.mem { g.env with condTest := 0#3 } .dpp tLane.i tLane.j tLane.vIn = .ok (false, tMem) ∧
    (∀ o ∈ g.env.prog.outputs, ∃ d cells, g.env.descs.out[o]? = some d ∧
      outputWrite d g.env.outMask tLane.i tLane.j (tLane.outValue s.draws o) = .ok cells) ∧
    { tLane with outbox := some [(0xFFFFFFFF, 1#8)] }.outbox = some ((0xFFFFFFFF, 1#8) :: []) ∧
    s.platform.mapped 0xFFFFFFFF = true ∧ hole.mapped 0xFFFFFFFF = false ∧ g.lanes.eraseIdx 0 = [] ∧
    [tLane, tLane].eraseIdx 0 ≠ [] ∧
    coTest hole s.co.stuck s.mem { g.env with condTest := 3#3 } .dpp tLane.i tLane.j tLane.vIn = .error (.stuck tMem) := by
  refine ⟨rfl, rfl, rfl, rfl, rfl, rfl, rfl, rfl, rfl, rfl, ?_, rfl, rfl, rfl, rfl, by decide, rfl⟩
  intro o ho
  rw [List.mem_singleton.1 ho]
  exact ⟨_, _, rfl, rfl⟩

/-- A state that keeps every invariant and has a next state: a group with a full loop stack at a texture slot. -/
theorem witness_invariants :
    let slot : Slot := ⟨3#32, 0#32, 0#32, 0#32, 0#32, 0#32⟩
    let g := { tGroup with env := { tEnv with text := [slot, slot] }, loopStack := List.replicate 4 { kind := .loop, count := 1, aL := 0 } }
    let s := { tState with groups := [g] }
    s.mem.wf = true ∧ (∀ g ∈ s.groups, g.wf = true) ∧ s.mc.descs.wf = true ∧ (∀ g ∈ s.groups, g.env.descs.wf = true) ∧
    ∃ t, step s = .next t := by
  refine ⟨by decide, ?_, by decide, ?_, _, rfl⟩
  · intro g hg; rw [List.mem_singleton.1 hg]; decide
  · intro g hg; rw [List.mem_singleton.1 hg]; decide

end Sys2Proof.Machine
end

section
/-! SUPPORT. What a result leaves behind, whether its agent goes on or is stuck, and the operations over memory and caches read
this way: each keeps memory and the seven caches in canonical form (R71, R95, R97, R101). -/

namespace Sys2Proof.Machine

/-! ## What a result leaves -/

/-- Of a result: its value has the property `ok`, and the memory of an agent that gets stuck the property `stuck`. -/
def Leaves {α : Type} (r : Res α) (ok : α → Prop) (stuck : MemSys → Prop) : Prop :=
  (∀ a, r = .ok a → ok a) ∧ ∀ m, r = .error (.stuck m) → stuck m

section
variable {α β : Type} {ok : α → Prop} {ok' : β → Prop} {stuck : MemSys → Prop}

@[simp] theorem leaves_ok (a : α) : Leaves (.ok a) ok stuck ↔ ok a := by simp [Leaves]

@[simp] theorem leaves_fault (f : Fault) : Leaves (.error (.fault f)) ok stuck := by simp [Leaves]

@[simp] theorem leaves_refuse (f : Refusal) : Leaves (.error (.refuse f)) ok stuck := by simp [Leaves]

@[simp] theorem leaves_stuck (m : MemSys) : Leaves (.error (.stuck m)) ok stuck ↔ stuck m := by simp [Leaves]

theorem leaves_require (c : Bool) (f : Fault) : Leaves (require c f) (fun _ => c = true) stuck := by
  unfold require; split <;> simp [*]

theorem leaves_accept (c : Bool) (f : Refusal) : Leaves (accept c f) (fun _ => c = true) stuck := by
  unfold accept; split <;> simp [*]

theorem Leaves.mono {r : Res α} {ok₂ : α → Prop} (h : Leaves r ok stuck) (hok : ∀ a, ok a → ok₂ a) :
    Leaves r ok₂ stuck :=
  ⟨fun a ha => hok a (h.1 a ha), h.2⟩

/-- A chain of two results. -/
theorem Leaves.bind {r : Res α} {f : α → Res β} (h : Leaves r ok stuck) (hf : ∀ a, ok a → Leaves (f a) ok' stuck) :
    Leaves (r >>= f) ok' stuck := by
  rcases r with (e | e | m) | a
  · simp
  · simp
  · simpa using h
  · exact hf a (h.1 a rfl)

/-- A stop is passed on as it is. -/
theorem Leaves.error {r : Res α} {e : Stop} (h : Leaves r ok stuck) (he : r = .error e) :
    Leaves (.error e : Res β) ok' stuck := by
  subst he
  exact ⟨fun _ ha => (nomatch ha), fun m hm => h.2 m (by simpa using hm)⟩

theorem Leaves.map {r : Res α} {f : α → β} (h : Leaves r ok stuck) (hf : ∀ a, ok a → ok' (f a)) :
    Leaves (r.map f) ok' stuck := by
  rcases r with (e | e | m) | a
  · exact leaves_fault e
  · exact leaves_refuse e
  · exact (leaves_stuck m).2 ((leaves_stuck m).1 h)
  · exact (leaves_ok _).2 (hf a (h.1 a rfl))

end

/-- The memory that a result leaves, in its value or with a stuck agent, is in canonical form. -/
abbrev LeavesWf {α : Type} (mem : α → MemSys) (r : Res α) : Prop :=
  Leaves r (fun a => (mem a).wf = true) fun m => m.wf = true

/-! ## The parts of the memory system -/

theorem MemSys.wf_iff (m : MemSys) :
    m.wf = true ↔ m.ram.wf = true ∧ (∀ k, bytesWf (m.cache k).bytes = true) ∧ bytesWf m.out = true ∧
      bytesWf m.cond.clean.bytes = true ∧ bytesWf m.cond.dirty = true := by
  have hk : (∀ k, bytesWf (m.cache k).bytes = true) ↔
      bytesWf m.inst.bytes = true ∧ bytesWf m.constf.bytes = true ∧ bytesWf m.consti.bytes = true ∧
        bytesWf m.constb.bytes = true ∧ bytesWf m.inp.bytes = true :=
    ⟨fun h => ⟨h .inst, h .constf, h .consti, h .constb, h .inp⟩, fun ⟨h1, h2, h3, h4, h5⟩ k => by cases k <;> assumption⟩
  simp only [MemSys.wf, Bool.and_eq_true, hk]
  tauto

section
variable {m : MemSys}

@[simp] theorem MemSys.cache_withRam (r : Memory) (k : ReadClient) : ({ m with ram := r } : MemSys).cache k = m.cache k := by
  cases k <;> rfl

@[simp] theorem MemSys.cache_withOut (o : List Host.Cell) (k : ReadClient) :
    ({ m with out := o } : MemSys).cache k = m.cache k := by
  cases k <;> rfl

@[simp] theorem MemSys.cache_withCond (c : CondCache) (k : ReadClient) :
    ({ m with cond := c } : MemSys).cache k = m.cache k := by
  cases k <;> rfl

theorem MemSys.cache_setCache_eq (k k' : ReadClient) (c : ReadCache) :
    (m.setCache k c).cache k' = if k' = k then c else m.cache k' := by
  cases k <;> cases k' <;> rfl

variable (h : m.wf = true)
include h

theorem MemSys.ram_wf : m.ram.wf = true := by
  obtain ⟨hr, -⟩ := (wf_iff m).1 h
  exact hr

theorem MemSys.cache_wf (k : ReadClient) : bytesWf (m.cache k).bytes = true := by
  obtain ⟨-, hc, -⟩ := (wf_iff m).1 h
  exact hc k

theorem MemSys.out_wf : bytesWf m.out = true := by
  obtain ⟨-, -, ho, -⟩ := (wf_iff m).1 h
  exact ho

theorem MemSys.clean_wf : bytesWf m.cond.clean.bytes = true := by
  obtain ⟨-, -, -, hcl, -⟩ := (wf_iff m).1 h
  exact hcl

theorem MemSys.dirty_wf : bytesWf m.cond.dirty = true := by
  obtain ⟨-, -, -, -, hd⟩ := (wf_iff m).1 h
  exact hd

theorem MemSys.wf_withRam {r : Memory} (hr : r.wf = true) : ({ m with ram := r } : MemSys).wf = true := by
  obtain ⟨-, hc, ho, hcl, hd⟩ := (wf_iff m).1 h
  exact (wf_iff _).2 ⟨hr, by simpa using hc, ho, hcl, hd⟩

theorem MemSys.wf_setCache {c : ReadCache} (k : ReadClient) (hc : bytesWf c.bytes = true) : (m.setCache k c).wf = true := by
  obtain ⟨hr, hcs, ho, hcl, hd⟩ := (wf_iff m).1 h
  refine (wf_iff _).2 ⟨by simpa, fun k' => ?_, by simpa, by simpa, by simpa⟩
  rw [cache_setCache_eq]
  split
  · exact hc
  · exact hcs k'

theorem MemSys.wf_withOut {o : List Host.Cell} (ho : bytesWf o = true) : ({ m with out := o } : MemSys).wf = true := by
  obtain ⟨hr, hc, -, hcl, hd⟩ := (wf_iff m).1 h
  exact (wf_iff _).2 ⟨hr, by simpa using hc, ho, hcl, hd⟩

theorem MemSys.wf_withCond {c : CondCache} (hcl : bytesWf c.clean.bytes = true) (hd : bytesWf c.dirty = true) :
    ({ m with cond := c } : MemSys).wf = true := by
  obtain ⟨hr, hc, ho, -, -⟩ := (wf_iff m).1 h
  exact (wf_iff _).2 ⟨hr, by simpa using hc, ho, hcl, hd⟩

end

theorem ReadCache.wf_empty : bytesWf ReadCache.empty.bytes = true := rfl

theorem bytesWf_nil : bytesWf [] = true := rfl

/-- A byte that a table lists lies at an address below 2^32. -/
theorem bytesWf_find_lt {t : List Host.Cell} {a : Nat} {b : Byte} (h : bytesWf t = true) (hf : tabFind t a = some b) :
    a < 2 ^ 32 := by
  by_contra hlt
  have hne : ∀ c ∈ t, c.1 ≠ a := fun c hc e => hlt (e ▸ ((bytesWf_iff t).1 h).2 c hc)
  rw [tabFind_eq_none hne] at hf
  cases hf

theorem all_mapped_lt {p : Platform} {as : List Nat} (h : as.all p.mapped = true) : ∀ a ∈ as, a < 2 ^ 32 :=
  fun a ha => Platform.mapped_lt (List.all_eq_true.1 h a ha)

/-! ## Reads -/

theorem CondCache.read_wf {ram : Memory} {c : CondCache} {a : Nat} (hcl : bytesWf c.clean.bytes = true)
    (hd : bytesWf c.dirty = true) (ha : a < 2 ^ 32) :
    bytesWf (c.read ram a).2.clean.bytes = true ∧ bytesWf (c.read ram a).2.dirty = true := by
  unfold CondCache.read
  split
  · exact ⟨hcl, hd⟩
  · exact ⟨ReadCache.read_wf hcl ha, hd⟩

theorem CondCache.readAll_wf {ram : Memory} {as : List Nat} {c : CondCache} (hcl : bytesWf c.clean.bytes = true)
    (hd : bytesWf c.dirty = true) (ha : ∀ a ∈ as, a < 2 ^ 32) :
    bytesWf (c.readAll ram as).2.clean.bytes = true ∧ bytesWf (c.readAll ram as).2.dirty = true := by
  induction as generalizing c with
  | nil => exact ⟨hcl, hd⟩
  | cons a rest ih =>
    obtain ⟨hcl1, hd1⟩ := CondCache.read_wf (ram := ram) hcl hd (ha a List.mem_cons_self)
    exact ih hcl1 hd1 fun b hb => ha b (List.mem_cons_of_mem _ hb)

/-- The addresses of an element are found without memory, so that no agent gets stuck at them. -/
theorem leaves_elementAddrs (d : Desc) (ht : Option Nat) (x y : Nat) (stuck : MemSys → Prop) :
    Leaves (elementAddrs d ht x y) (fun _ => True) stuck := by
  unfold elementAddrs
  split
  · simp
  · split <;> simp

section
variable {p : Platform} {mem : MemSys} (h : mem.wf = true)
include h

theorem readBytes_wf (k : ReadClient) (as : List Nat) : LeavesWf Prod.snd (readBytes p mem k as) := by
  unfold readBytes
  split
  · next hm => exact (leaves_ok _).2 (mem.wf_setCache h k (ReadCache.readAll_wf (mem.cache_wf h k) (all_mapped_lt hm)))
  · exact (leaves_stuck _).2 h

theorem readElement_wf (k : ReadClient) (d : Desc) (ht : Option Nat) (x y : Nat) :
    LeavesWf Prod.snd (readElement p mem k d ht x y) := by
  unfold readElement
  split
  · next he => exact (leaves_elementAddrs d ht x y _).error he
  · exact readBytes_wf h k _

theorem readConstf_wf (draw : Nat) (d : Desc) (c : Nat) : LeavesWf Prod.snd (readConstf p draw mem d c) :=
  (readElement_wf h .constf d none c 0).map fun _ hr => hr

theorem readConsti_wf (d : Desc) (c : Nat) : LeavesWf Prod.snd (readConsti p mem d c) :=
  (readElement_wf h .consti d none c 0).map fun _ hr => hr

theorem readConstb_wf (d : Desc) (c : Nat) : LeavesWf Prod.snd (readConstb p mem d c) :=
  (readElement_wf h .constb d none c 0).map fun _ hr => hr

theorem readInput_wf (draw : Nat) (d : TallDesc) (x y : Nat) : LeavesWf Prod.snd (readInput p draw mem d x y) := by
  have one : ∀ (m : MemSys), m.wf = true → ∀ x y, LeavesWf Prod.snd (readElement p m .inp d.desc (some d.height.toNat) x y) :=
    fun m hm x y => readElement_wf hm ..
  unfold readInput
  split
  · split
    · simp
    · split
      · simp
      · refine (one mem h _ _).bind fun r0 h0 => (one r0.2 h0 _ _).bind fun r1 h1 => (one r1.2 h1 _ _).bind fun r2 h2 =>
          (one r2.2 h2 _ _).bind fun r3 h3 => ?_
        exact (leaves_ok _).2 h3
  · exact (one mem h _ _).bind fun r hr => (leaves_ok _).2 hr

/-- An uncached read makes no change to a cache (R362), stuck or not. -/
theorem readInputUncached_leaves (draw : Nat) (d : TallDesc) (x y : Nat) :
    Leaves (readInputUncached p draw mem d x y) (fun _ => True) fun m => m.wf = true := by
  unfold readInputUncached
  split
  · simp
  · simpa using h
  · next e he _ =>
    rcases e with e | e | m
    · simp
    · simp
    · exact absurd rfl (he m)

/-! ## The CO -/

theorem coCompare_wf (env : Snapshot) (i j : BitVec 12) (v : Word) : LeavesWf Prod.snd (coCompare p mem env i j v) := by
  unfold coCompare
  split
  · simpa using h
  · simpa using h
  · split
    · next he => exact (leaves_elementAddrs ..).error he
    · split
      · next hm =>
        obtain ⟨hcl, hd⟩ := CondCache.readAll_wf (ram := mem.ram) (mem.clean_wf h) (mem.dirty_wf h) (all_mapped_lt hm)
        exact (leaves_ok _).2 (mem.wf_withCond h hcl hd)
      · exact (leaves_stuck _).2 h

theorem writeCond_wf (env : Snapshot) (i j : BitVec 12) (v : Word) : LeavesWf id (writeCond p mem env i j v) := by
  unfold writeCond
  split
  · next he => exact (leaves_elementAddrs ..).error he
  · split
    · next hm =>
      refine (leaves_ok _).2 (mem.wf_withCond h (mem.clean_wf h) (bytesWf_putBytes (mem.dirty_wf h) fun c hc => ?_))
      exact all_mapped_lt hm c.1 (List.of_mem_zip hc).1
    · exact (leaves_stuck _).2 h

theorem coTest_wf (coStuck : Bool) (env : Snapshot) (client : CoClient) (i j : BitVec 12) (v : Word) :
    LeavesWf Prod.snd (coTest p coStuck mem env client i j v) := by
  unfold coTest
  split
  · exact (leaves_stuck _).2 h
  · split
    · exact (leaves_ok _).2 h
    · refine (coCompare_wf h env i j v).bind fun r hr => ?_
      dsimp only
      split
      · exact (writeCond_wf hr env i j v).bind fun m hm => (leaves_ok _).2 hm
      · exact (leaves_ok _).2 hr

end

/-! ## Writes to main memory -/

theorem ramWrite_wf {s : State} (h : s.mem.wf = true) (a : Nat) (b : Byte) : LeavesWf State.mem (ramWrite s a b) := by
  unfold ramWrite
  split
  · exact (leaves_stuck _).2 h
  · next hm =>
    split
    · simp
    · split
      · simp
      · have ha : a < 2 ^ 32 := Platform.mapped_lt (p := s.platform) (by simpa using hm)
        exact (leaves_ok _).2 (s.mem.wf_withRam h (Memory.wf_set b (s.mem.ram_wf h) ha))

theorem ramWriteAll_wf {s : State} (h : s.mem.wf = true) (cs : List Host.Cell) : LeavesWf State.mem (ramWriteAll s cs) := by
  induction cs generalizing s with
  | nil => exact (leaves_ok _).2 h
  | cons c rest ih =>
    unfold ramWriteAll
    split
    · next he => exact (ramWrite_wf h c.1 c.2).error he
    · next s1 hs => exact ih ((ramWrite_wf h c.1 c.2).1 s1 hs)

end Sys2Proof.Machine
end

section
/-! SUPPORT. What an instruction of a processor group leaves: memory and the caches in canonical form (R71, R95), and of the groups
the one that ran it, with its launch snapshot, its stacks and branch counters within their limits (R58, R61, R62, R381, R401). -/

namespace Sys2Proof.Machine

/-! ## Branch counters and groups -/

/-- No branch counter of the second processors is above every one of the first. -/
def countersWithin (ls ls' : List Lane) : Prop := ∀ l' ∈ ls', ∃ l ∈ ls, l'.bcnt ≤ l.bcnt

theorem countersWithin.trans {ls ls' ls'' : List Lane} (h : countersWithin ls ls') (h' : countersWithin ls' ls'') :
    countersWithin ls ls'' := by
  intro l'' hl''
  obtain ⟨l', hl', hle'⟩ := h' l'' hl''
  obtain ⟨l, hl, hle⟩ := h l' hl'
  exact ⟨l, hl, hle'.trans hle⟩

theorem countersWithin_of_subset {ls ls' : List Lane} (h : ls' ⊆ ls) : countersWithin ls ls' :=
  fun l' hl' => ⟨l', h hl', le_refl _⟩

theorem countersWithin_map {ls : List Lane} {f : Lane → Lane} (hf : ∀ l, (f l).bcnt ≤ l.bcnt) :
    countersWithin ls (ls.map f) := by
  intro l' hl'
  obtain ⟨l, hl, rfl⟩ := List.mem_map.1 hl'
  exact ⟨l, hl, hf l⟩

theorem countersWithin_mapIdx {ls : List Lane} {f : Nat → Lane → Lane} (hf : ∀ n l, (f n l).bcnt ≤ l.bcnt) :
    countersWithin ls (ls.mapIdx f) := by
  intro l' hl'
  obtain ⟨n, hn, rfl⟩ := List.mem_mapIdx.1 hl'
  exact ⟨ls[n], List.getElem_mem hn, hf n _⟩

theorem countersWithin_waited (g : Group) (wait : Bool) : countersWithin g.lanes (waited g wait) := by
  unfold waited
  split
  · exact countersWithin_map fun l => by simp
  · exact countersWithin_of_subset fun _ hl => hl

theorem Group.wf_iff (g : Group) :
    g.wf = true ↔ g.loopStack.length ≤ 4 ∧ g.addrStack.length ≤ 4 ∧
      (g.env.prog.fullMode = true ∨ g.loopStack = [] ∧ g.addrStack = []) ∧ ∀ l ∈ g.lanes, l.bcnt ≤ g.env.prog.branchMax := by
  simp [Group.wf, and_assoc]

/-- A later group is the earlier one further on: it runs under the same snapshot, and its limits are kept. -/
def Group.Continues (g g' : Group) : Prop := g'.env = g.env ∧ (g.wf = true → g'.wf = true)

/-- A group whose stacks are kept and whose counters are no higher. -/
theorem Group.continues_of_lanes {g g' : Group} (he : g'.env = g.env) (hl : g'.loopStack = g.loopStack)
    (ha : g'.addrStack = g.addrStack) (hc : countersWithin g.lanes g'.lanes) : g.Continues g' := by
  refine ⟨he, fun hg => ?_⟩
  obtain ⟨hloop, haddr, hmode, hcnt⟩ := (Group.wf_iff g).1 hg
  rw [Group.wf_iff, he, hl, ha]
  refine ⟨hloop, haddr, hmode, fun l' hl' => ?_⟩
  obtain ⟨l, hl, hle⟩ := hc l' hl'
  exact hle.trans (hcnt l hl)

theorem Group.continues_refl (g : Group) : g.Continues g := ⟨rfl, id⟩

/-- One group moves, and beside it only memory, the caches and the counter of draws change. -/
def groupMoves (s t : State) : Prop :=
  ∃ k g g', s.groups[k]? = some g ∧ g.Continues g' ∧ t = { s with mem := t.mem, groups := s.groups.set k g', draws := t.draws }

/-! ## Stops without memory -/

section
variable {stuck : MemSys → Prop}

theorem leaves_current (s : State) :
    Leaves s.current (fun r => s.turn = .group r.1 ∧ s.groups[r.1]? = some r.2 ∧ r.2.halted = false) stuck := by
  refine ⟨fun r hr => State.current_eq_ok.1 hr, fun m hm => ?_⟩
  revert hm
  unfold State.current
  split
  · split
    · split <;> simp
    · simp
  · simp

theorem leaves_semWait (g : Group) (wait : Bool) :
    Leaves (g.semWait wait) (fun g' => g' = { g with lanes := waited g wait }) stuck := by
  refine ⟨fun g' hg' => Group.semWait_eq_ok hg', fun m hm => ?_⟩
  revert hm
  unfold Group.semWait
  split
  · split <;> simp
  · simp

theorem leaves_aluWait (g : Group) (wait : Bool) (uses : List AluItem) :
    Leaves (g.aluWait wait uses) (fun g' => g' = { g with aluPending := if wait then [] else g.aluPending }) stuck := by
  refine ⟨fun g' hg' => Group.aluWait_eq_ok hg', fun m hm => ?_⟩
  revert hm
  unfold Group.aluWait
  split
  · simp
  · split <;> simp

theorem leaves_relative (g : Group) (n : Nat) (rel : Bool) : Leaves (g.relative n rel) (fun _ => True) stuck := by
  unfold Group.relative
  split
  · split <;> simp
  · simp

theorem leaves_tempIndex (g : Group) (n : Nat) (rel : Bool) : Leaves (g.tempIndex n rel) (fun _ => True) stuck := by
  unfold Group.tempIndex
  split
  · next he => exact (leaves_relative g n rel).error he
  · split <;> simp

theorem leaves_constIndex (g : Group) (n : Nat) (rel : Bool) : Leaves (g.constIndex n rel) (fun _ => True) stuck := by
  unfold Group.constIndex
  split
  · next he => exact (leaves_relative g n rel).error he
  · split <;> simp

theorem leaves_resolvePlace (g : Group) (a : SrcAddr) : Leaves (resolvePlace g a) (fun _ => True) stuck := by
  unfold resolvePlace
  split
  · split <;> simp
  · split
    · exact (leaves_constIndex g _ _).map fun _ _ => trivial
    · exact (leaves_tempIndex g _ _).map fun _ _ => trivial

theorem leaves_texPlaces (g : Group) (op : TexOp) (f : TexInst) : Leaves (texPlaces g op f) (fun _ => True) stuck := by
  have two : Leaves (do
      let src ← g.tempIndex f.srcAddr.toNat f.srcRel
      let dst ← g.tempIndex f.dstAddr.toNat f.dstRel
      return (src, dst) : Res (Nat × Nat)) (fun _ => True) stuck :=
    (leaves_tempIndex g _ _).bind fun _ _ => (leaves_tempIndex g _ _).bind fun _ _ => (leaves_ok _).2 trivial
  cases op with
  | nop => exact (leaves_ok _).2 trivial
  | killLt0 => exact (leaves_tempIndex g _ _).map fun _ _ => trivial
  | lookup | lookupProj | lookupUncached => exact two

theorem leaves_aluStatic (g : Group) (rop : RgbOp) (aop : AlphaOp) (f : AluInst) :
    Leaves (aluStatic g rop aop f) (fun _ => True) stuck := by
  unfold aluStatic
  refine (leaves_require _ _).bind fun _ _ => ?_
  split
  · exact (leaves_accept _ _).bind fun _ _ => (leaves_accept _ _).mono fun _ _ => trivial
  · exact (leaves_require _ _).bind fun _ _ => (leaves_accept _ _).mono fun _ _ => trivial

theorem leaves_aluFinish (g : Group) (f : AluInst) (dr da : Nat) (lanes : List Lane) :
    Leaves (aluFinish g f dr da lanes)
      (fun g' => g'.env = g.env ∧ g'.loopStack = g.loopStack ∧ g'.addrStack = g.addrStack ∧ g'.lanes = lanes) stuck := by
  unfold aluFinish
  dsimp only
  split
  · split <;> simp
  · simp

/-- The address stack that a jump leaves has at most four addresses, and in partial mode it stays as it is (R62, R393). -/
theorem leaves_fcTarget (g : Group) (f : FcInst) (jump : Bool) :
    Leaves (fcTarget g f jump)
      (fun r => (g.addrStack.length ≤ 4 → r.2.length ≤ 4) ∧ (g.env.prog.fullMode = true ∨ r.2 = g.addrStack)) stuck := by
  unfold fcTarget
  split
  · dsimp only
    split
    · simp
    · split
      · next hr =>
        obtain ⟨hmode, hlen⟩ : g.env.prog.fullMode = true ∧ g.addrStack.length < 4 := by simpa using hr
        exact (leaves_ok _).2 ⟨fun _ => hlen, .inl hmode⟩
      · simp
    · split
      · simp
      · next a rest hst =>
        split
        · next hmode => exact (leaves_ok _).2 ⟨fun hl => by rw [hst] at hl; exact Nat.le_of_succ_le hl, .inl hmode⟩
        · simp
  · simp

/-- INCR keeps a branch counter within its limit (R400). -/
theorem leaves_incr (f : FcInst) (max : Nat) (jump : Bool) (v : Voter) :
    Leaves (v.incr f max jump) (fun v' => v.lane.bcnt ≤ max → v'.lane.bcnt ≤ max) stuck := by
  unfold Voter.incr
  split_ifs
  · simp
  · next hroom => exact (leaves_ok _).2 fun _ => hroom
  · simp
  · simp
  · simp

theorem leaves_incrAll (f : FcInst) (max : Nat) (jump : Bool) (vs : List Voter) :
    Leaves (incrAll f max jump vs) (fun vs' => (∀ v ∈ vs, v.lane.bcnt ≤ max) → ∀ v ∈ vs', v.lane.bcnt ≤ max) stuck := by
  induction vs with
  | nil => simp [incrAll]
  | cons v rest ih =>
    unfold incrAll
    split
    · next v' vs' hv hvs =>
      refine (leaves_ok _).2 fun hall => List.forall_mem_cons.2 ?_
      obtain ⟨h1, h2⟩ := List.forall_mem_cons.1 hall
      exact ⟨(leaves_incr (stuck := stuck) f max jump v).1 v' hv h1, ih.1 vs' hvs h2⟩
    · next he => exact (leaves_incr f max jump v).error he
    · next he _ => exact ih.error he

theorem Voter.decr_bcnt_le (n : Nat) (v : Voter) : (v.decr n).lane.bcnt ≤ v.lane.bcnt := by
  unfold Voter.decr
  split_ifs <;> simp

/-- The branch operation keeps every branch counter within the limit of the mode (R381, R400). -/
theorem leaves_branchOp (g : Group) (f : FcInst) (jump : Bool) (vs : List Voter) :
    Leaves (branchOp g f jump vs)
      (fun vs' => (∀ v ∈ vs, v.lane.bcnt ≤ g.env.prog.branchMax) → ∀ v ∈ vs', v.lane.bcnt ≤ g.env.prog.branchMax) stuck := by
  unfold branchOp
  split
  · simp
  · exact leaves_incrAll ..
  · refine (leaves_ok _).2 fun hall v' hv' => ?_
    obtain ⟨v, hv, rfl⟩ := List.mem_map.1 hv'
    exact (v.decr_bcnt_le _).trans (hall v hv)

theorem leaves_topFrame (g : Group) (kind : Option FrameKind) :
    Leaves (topFrame g kind) (fun fr => g.env.prog.fullMode = true ∧ ∃ rest, g.loopStack = fr :: rest) stuck := by
  unfold topFrame
  split
  · next hmode =>
    split
    · simp
    · next hst =>
      split
      · exact (leaves_ok _).2 ⟨hmode, _, hst⟩
      · simp
  · simp

theorem leaves_pushFrame (g : Group) (fr : Frame) :
    Leaves (pushFrame g fr) (fun st => g.env.prog.fullMode = true ∧ st.length ≤ 4) stuck := by
  unfold pushFrame
  split
  · next hr =>
    obtain ⟨hmode, hlen⟩ : g.env.prog.fullMode = true ∧ g.loopStack.length < 4 := by simpa using hr
    exact (leaves_ok _).2 ⟨hmode, hlen⟩
  · simp

end

/-! ## ALU and OUTPUT -/

section
variable {p : Platform} {draw : Nat} {mem : MemSys} (h : mem.wf = true)
include h

theorem fetchPort_wf (g : Group) (inactive : Bool) (used : List (Port × Chan)) (a : Six SrcAddr) (q : Port) :
    LeavesWf Prod.snd (fetchPort p draw g inactive used a q mem) := by
  refine (leaves_resolvePlace g _).bind fun pl _ => ?_
  unfold fetchPlace
  split
  · split
    · simp
    · exact (leaves_ok _).2 h
  · exact (leaves_ok _).2 h
  · split
    · simp
    · exact (readConstf_wf h draw _ _).map fun _ hr => hr

theorem fetchSix_wf (g : Group) (inactive : Bool) (used : List (Port × Chan)) (a : Six SrcAddr) :
    LeavesWf Prod.snd (fetchSix p draw g inactive used a mem) := by
  have one : ∀ m : MemSys, m.wf = true → ∀ q, LeavesWf Prod.snd (fetchPort p draw g inactive used a q m) :=
    fun m hm q => fetchPort_wf hm g inactive used a q
  exact (one mem h _).bind fun r0 h0 => (one r0.2 h0 _).bind fun r1 h1 => (one r1.2 h1 _).bind fun r2 h2 =>
    (one r2.2 h2 _).bind fun r3 h3 => (one r3.2 h3 _).bind fun r4 h4 => (one r4.2 h4 _).bind fun r5 h5 => (leaves_ok _).2 h5

/-! ## Texture -/

theorem texLookupLane_wf (d : TallDesc) (proj uncached : Bool) (f : TexInst) (src dst : Nat) (l : Lane) :
    LeavesWf Prod.snd (texLookupLane p draw d proj uncached f src dst l mem) := by
  unfold texLookupLane
  dsimp only
  split
  · exact (readInputUncached_leaves h draw d _ _).map fun _ _ => h
  · exact (readInput_wf h draw d _ _).map fun _ hr => hr

theorem texLane_wf (d : TallDesc) (op : TexOp) (f : TexInst) (src dst : Nat) (l : Lane) :
    LeavesWf Prod.snd (texLane p draw d op f src dst l mem) := by
  unfold texLane
  split
  · cases op with
    | nop | killLt0 => exact (leaves_ok _).2 h
    | lookup | lookupProj | lookupUncached => exact texLookupLane_wf h ..
  · exact (leaves_ok _).2 h

theorem texLanes_wf (d : TallDesc) (op : TexOp) (f : TexInst) (src dst : Nat) (ls : List Lane) :
    LeavesWf Prod.snd (texLanes p draw d op f src dst ls mem) := by
  induction ls generalizing draw mem with
  | nil => exact (leaves_ok _).2 h
  | cons l rest ih =>
    exact (texLane_wf h d op f src dst l).bind fun r1 h1 => (ih h1).bind fun r2 h2 => (leaves_ok _).2 h2

/-! ## Flow control -/

theorem fcBoolean_wf (d : Desc) (f : FcInst) : LeavesWf Prod.snd (fcBoolean p d f mem) := by
  unfold fcBoolean
  split
  · exact readConstb_wf h d _
  · exact (leaves_ok _).2 h

variable (g : Group) (f : FcInst) (vs : List Voter)

theorem beginLoop_wf (kind : FrameKind) : LeavesWf LoopResult.mem (beginLoop p g kind f vs mem) := by
  refine (readConsti_wf h _ _).bind fun r hr => ?_
  dsimp only
  split
  · exact (leaves_ok _).2 hr
  · exact (leaves_pushFrame g _).bind fun _ _ => (leaves_ok _).2 hr

theorem endLoop_wf (kind : FrameKind) : LeavesWf LoopResult.mem (endLoop p g kind f vs mem) := by
  refine (leaves_topFrame g _).bind fun fr _ => ?_
  dsimp only
  split
  · cases kind with
    | loop => exact (readConsti_wf h _ _).bind fun r hr => (leaves_ok _).2 hr
    | rep => exact (leaves_ok _).2 h
  · exact (leaves_ok _).2 h

theorem breakLoop_wf (kind : FrameKind) : LeavesWf LoopResult.mem (breakLoop g kind f vs mem) := by
  refine (leaves_topFrame g _).bind fun fr _ => ?_
  dsimp only
  split <;> exact (leaves_ok _).2 h

theorem continueLoop_wf : LeavesWf LoopResult.mem (continueLoop g f vs mem) := by
  refine (leaves_topFrame g _).bind fun fr _ => ?_
  dsimp only
  split <;> exact (leaves_ok _).2 h

theorem fcLoop_wf (op : FcOp) : LeavesWf LoopResult.mem (fcLoop p g op f vs mem) := by
  cases op with
  | jump => exact (leaves_ok _).2 h
  | loop => exact beginLoop_wf (p := p) h g f vs .loop
  | rep => exact beginLoop_wf (p := p) h g f vs .rep
  | endloop => exact endLoop_wf (p := p) h g f vs .loop
  | endrep => exact endLoop_wf (p := p) h g f vs .rep
  | breakloop => exact breakLoop_wf h g f vs .loop
  | breakrep => exact breakLoop_wf h g f vs .rep
  | cont => exact continueLoop_wf h g f vs

end

/-! ## The instructions -/

section
variable {s : State} (h : s.mem.wf = true)
include h

theorem runAlu_wf (fa : FArith) (rop : RgbOp) (aop : AlphaOp) (f : AluInst) :
    LeavesWf State.mem (runAlu fa rop aop f s) :=
  (leaves_current s).bind fun _ _ => (leaves_aluStatic ..).bind fun _ _ => (leaves_semWait ..).bind fun _ _ =>
    (fetchSix_wf h ..).bind fun _ hm => (leaves_require ..).bind fun _ _ => (leaves_tempIndex ..).bind fun _ _ =>
    (leaves_tempIndex ..).bind fun _ _ => (leaves_require ..).bind fun _ _ => (leaves_aluFinish ..).bind fun _ _ =>
    (leaves_ok _).2 hm

theorem runTex_wf (op : TexOp) (f : TexInst) : LeavesWf State.mem (runTex op f s) :=
  (leaves_current s).bind fun _ _ => (leaves_aluWait ..).bind fun _ _ => (leaves_semWait ..).bind fun _ _ =>
    (leaves_texPlaces ..).bind fun _ _ => (leaves_require ..).bind fun _ _ => (texLanes_wf h ..).bind fun _ hm =>
    (leaves_require ..).bind fun _ _ => (leaves_require ..).bind fun _ _ => (leaves_require ..).bind fun _ _ =>
    (leaves_ok _).2 hm

theorem runFc_wf (op : FcOp) (f : FcInst) : LeavesWf State.mem (runFc op f s) :=
  (leaves_current s).bind fun _ _ => (leaves_aluWait ..).bind fun _ _ => (leaves_semWait ..).bind fun _ _ =>
    (fcBoolean_wf h ..).bind fun _ h0 => (leaves_require ..).bind fun _ _ => (fcLoop_wf h0 ..).bind fun _ hm =>
    (leaves_fcTarget ..).bind fun _ _ => (leaves_branchOp ..).bind fun _ _ => (leaves_require ..).bind fun _ _ =>
    (leaves_ok _).2 hm

end

/-! ## The group that an instruction leaves -/

/-- Of a result about which only its value counts. -/
theorem leaves_any {α : Type} (r : Res α) : Leaves r (fun _ => True) fun _ => True :=
  ⟨fun _ _ => trivial, fun _ _ => trivial⟩

@[simp] theorem aluLane_bcnt (fa : FArith) (draw : Nat) (rop : RgbOp) (aop : AlphaOp) (f : AluInst) (src : Six Source)
    (dr da : Nat) (l : Lane) : (aluLane fa draw rop aop f src dr da l).bcnt = l.bcnt := by
  unfold aluLane
  split
  · rw [aluWrite_eq]
  · rfl

theorem runAlu_moves (fa : FArith) (rop : RgbOp) (aop : AlphaOp) (f : AluInst) (s : State) :
    Leaves (runAlu fa rop aop f s) (groupMoves s) fun _ => True := by
  refine (leaves_current s).bind fun ⟨k, g0⟩ ⟨_, hg, _⟩ => (leaves_aluStatic ..).bind fun _ _ =>
    (leaves_semWait ..).bind fun g hw => (leaves_any _).bind fun ⟨src, mem⟩ _ => (leaves_require ..).bind fun _ _ =>
    (leaves_tempIndex ..).bind fun dr _ => (leaves_tempIndex ..).bind fun da _ => (leaves_require ..).bind fun _ _ =>
    (leaves_aluFinish ..).bind fun g' ⟨henv, hloop, haddr, hlanes⟩ => (leaves_ok _).2 ⟨k, g0, g', hg, ?_, rfl⟩
  subst hw
  refine Group.continues_of_lanes henv hloop haddr ((countersWithin_waited g0 f.semWait).trans ?_)
  rw [hlanes]
  exact countersWithin_mapIdx fun n l => by simp

@[simp] theorem texWrite_bcnt (f : TexInst) (dst : Nat) (res : Quad Word) (l : Lane) :
    (texWrite f dst res l).bcnt = l.bcnt := by
  have fold : ∀ (chans : List Chan) (l : Lane),
      (chans.foldl (fun acc ch => acc.setTemp dst ch (res.get (texDswz f ch))) l).bcnt = l.bcnt := by
    intro chans
    induction chans with
    | nil => exact fun _ => rfl
    | cons c rest ih => exact fun l => (ih _).trans rfl
  exact fold _ l

@[simp] theorem texKillLane_bcnt (f : TexInst) (src : Nat) (l : Lane) : (texKillLane f src l).bcnt = l.bcnt := by
  unfold texKillLane
  split <;> rfl

theorem texLookupLane_bcnt (p : Platform) (draw : Nat) (d : TallDesc) (proj uncached : Bool) (f : TexInst) (src dst : Nat)
    (l : Lane) (mem : MemSys) :
    Leaves (texLookupLane p draw d proj uncached f src dst l mem) (fun r => r.1.bcnt = l.bcnt) fun _ => True := by
  unfold texLookupLane
  dsimp only
  split <;> exact (leaves_any _).map fun _ _ => texWrite_bcnt ..

theorem texLane_bcnt (p : Platform) (draw : Nat) (d : TallDesc) (op : TexOp) (f : TexInst) (src dst : Nat) (l : Lane)
    (mem : MemSys) : Leaves (texLane p draw d op f src dst l mem) (fun r => r.1.bcnt = l.bcnt) fun _ => True := by
  unfold texLane
  split
  · cases op with
    | nop => simp
    | killLt0 => simp
    | lookup | lookupProj | lookupUncached => exact texLookupLane_bcnt ..
  · simp

theorem texLanes_counters (p : Platform) (draw : Nat) (d : TallDesc) (op : TexOp) (f : TexInst) (src dst : Nat)
    (ls : List Lane) (mem : MemSys) :
    Leaves (texLanes p draw d op f src dst ls mem) (fun r => countersWithin ls r.1) fun _ => True := by
  induction ls generalizing draw mem with
  | nil => exact (leaves_ok _).2 (countersWithin_of_subset fun _ hl => hl)
  | cons l rest ih =>
    refine (texLane_bcnt p draw d op f src dst l mem).bind fun r1 h1 => (ih _ _).bind fun r2 h2 => (leaves_ok _).2 ?_
    intro l' hl'
    rcases List.mem_cons.1 hl' with rfl | hl'
    · exact ⟨l, List.mem_cons_self, h1.le⟩
    · obtain ⟨x, hx, hle⟩ := h2 l' hl'
      exact ⟨x, List.mem_cons_of_mem _ hx, hle⟩

theorem countersWithin_semAcquireAll (acquire : Bool) (ls : List Lane) : countersWithin ls (semAcquireAll acquire ls) := by
  unfold semAcquireAll
  split
  · exact countersWithin_map fun _ => le_refl _
  · exact countersWithin_of_subset fun _ hl => hl

theorem runTex_moves (op : TexOp) (f : TexInst) (s : State) : Leaves (runTex op f s) (groupMoves s) fun _ => True := by
  refine (leaves_current s).bind fun ⟨k, g0⟩ ⟨_, hg, _⟩ => (leaves_aluWait ..).bind fun g1 ha =>
    (leaves_semWait ..).bind fun g hw => (leaves_texPlaces ..).bind fun ⟨src, dst⟩ _ => (leaves_require ..).bind fun _ _ =>
    (texLanes_counters ..).bind fun ⟨lanes, mem⟩ hc => (leaves_require ..).bind fun _ _ => (leaves_require ..).bind fun _ _ =>
    (leaves_require ..).bind fun _ _ => (leaves_ok _).2 ⟨k, g0, _, hg, ?_, rfl⟩
  subst ha hw
  exact Group.continues_of_lanes rfl rfl rfl
    ((countersWithin_waited g0 f.semWait).trans (hc.trans (countersWithin_semAcquireAll f.semAcquire lanes)))

theorem countersWithin_fcReenable (op : FcOp) (depth : Nat) (ls : List Lane) :
    countersWithin ls (fcReenable op depth ls) := by
  have cont : ∀ l : Lane, (l.endContinue depth).bcnt ≤ l.bcnt := by
    intro l
    unfold Lane.endContinue
    split <;> exact le_refl _
  cases op with
  | endloop | endrep => exact countersWithin_map cont
  | jump | loop | rep | breakloop | breakrep | cont => exact countersWithin_of_subset fun _ hl => hl

theorem Voter.flip_bcnt_le (v : Voter) : v.flip.lane.bcnt ≤ v.lane.bcnt := by
  unfold Voter.flip
  split_ifs <;> simp

theorem countersWithin_fcVoters (f : FcInst) (b : Bool) (ls : List Lane) :
    countersWithin ls ((fcVoters f b ls).map Voter.lane) := by
  unfold fcVoters
  dsimp only
  split
  · simp only [List.map_map]
    exact countersWithin_map fun l => Voter.flip_bcnt_le _
  · simp only [List.map_map]
    exact countersWithin_map fun l => le_refl _

/-- What the loop operations leave of the loop stack and the branch counters: at most four frames, in partial mode the stack as it
is (R62, R405), and no counter changed. -/
def loopKept (g : Group) (vs : List Voter) (r : LoopResult) : Prop :=
  (g.loopStack.length ≤ 4 → r.stack.length ≤ 4) ∧ (g.env.prog.fullMode = true ∨ r.stack = g.loopStack) ∧
  countersWithin (vs.map Voter.lane) (r.voters.map Voter.lane)

theorem countersWithin_voters {vs : List Voter} {f : Voter → Voter} (hf : ∀ v, (f v).lane.bcnt = v.lane.bcnt) :
    countersWithin (vs.map Voter.lane) ((vs.map f).map Voter.lane) := by
  intro l' hl'
  simp only [List.map_map, List.mem_map, Function.comp] at hl'
  obtain ⟨v, hv, rfl⟩ := hl'
  exact ⟨v.lane, List.mem_map_of_mem hv, (hf v).le⟩

section
variable (p : Platform) (g : Group) (f : FcInst) (vs : List Voter) (mem : MemSys)

theorem loopKept_same (jump : Bool) : loopKept g vs { jump := jump, stack := g.loopStack, voters := vs, mem := mem } :=
  ⟨id, .inr rfl, countersWithin_of_subset fun _ hl => hl⟩

theorem beginLoop_kept (kind : FrameKind) :
    Leaves (beginLoop p g kind f vs mem) (loopKept g vs) fun _ => True := by
  refine (leaves_any _).bind fun r _ => ?_
  dsimp only
  split
  · exact (leaves_ok _).2 (loopKept_same g vs _ _)
  · exact (leaves_pushFrame g _).bind fun st ⟨hmode, hlen⟩ =>
      (leaves_ok _).2 ⟨fun _ => hlen, .inl hmode, countersWithin_of_subset fun _ hl => hl⟩

@[simp] theorem Lane.popFrame_bcnt (depth : Nat) (l : Lane) : (l.popFrame depth).bcnt = l.bcnt := by rw [Lane.popFrame_eq]

@[simp] theorem Voter.leave_bcnt (kind : OffKind) (depth : Nat) (v : Voter) : (v.leave kind depth).lane.bcnt = v.lane.bcnt := by
  unfold Voter.leave
  split <;> rfl

theorem endLoop_kept (kind : FrameKind) : Leaves (endLoop p g kind f vs mem) (loopKept g vs) fun _ => True := by
  refine (leaves_topFrame g _).bind fun fr ⟨hmode, rest, hst⟩ => ?_
  have same : ∀ fr' : Frame, g.loopStack.length ≤ 4 → (fr' :: g.loopStack.tail).length ≤ 4 := by simp [hst]
  dsimp only
  split
  · cases kind with
    | loop =>
      exact (leaves_any _).bind fun r _ =>
        (leaves_ok _).2 ⟨same _, .inl hmode, countersWithin_of_subset fun _ hl => hl⟩
    | rep => exact (leaves_ok _).2 ⟨same _, .inl hmode, countersWithin_of_subset fun _ hl => hl⟩
  · exact (leaves_ok _).2 ⟨fun hl => by simp; omega, .inl hmode, countersWithin_voters fun v => by simp⟩

theorem breakLoop_kept (kind : FrameKind) : Leaves (breakLoop g kind f vs mem) (loopKept g vs) fun _ => True := by
  refine (leaves_topFrame g _).bind fun fr ⟨hmode, _⟩ => ?_
  dsimp only
  split
  · exact (leaves_ok _).2 ⟨fun hl => by simp; omega, .inl hmode, countersWithin_voters fun v => by simp⟩
  · exact (leaves_ok _).2 ⟨id, .inr rfl, countersWithin_voters fun v => by simp⟩

theorem continueLoop_kept : Leaves (continueLoop g f vs mem) (loopKept g vs) fun _ => True := by
  refine (leaves_topFrame g _).bind fun fr _ => ?_
  dsimp only
  split
  · exact (leaves_ok _).2 (loopKept_same g vs _ _)
  · exact (leaves_ok _).2 ⟨id, .inr rfl, countersWithin_voters fun v => by simp⟩

theorem fcLoop_kept (op : FcOp) : Leaves (fcLoop p g op f vs mem) (loopKept g vs) fun _ => True := by
  cases op with
  | jump => exact (leaves_ok _).2 (loopKept_same g vs _ _)
  | loop => exact beginLoop_kept p g f vs mem .loop
  | rep => exact beginLoop_kept p g f vs mem .rep
  | endloop => exact endLoop_kept p g f vs mem .loop
  | endrep => exact endLoop_kept p g f vs mem .rep
  | breakloop => exact breakLoop_kept g f vs mem .loop
  | breakrep => exact breakLoop_kept g f vs mem .rep
  | cont => exact continueLoop_kept g f vs mem

end

/-- The limits of a group after a flow-control instruction whose voters come from its processors. -/
theorem Group.continues_of_fc {g g' : Group} {vs0 vs : List Voter} {r : LoopResult} (henv : g'.env = g.env)
    (hvs0 : countersWithin g.lanes (vs0.map Voter.lane)) (hr : loopKept g vs0 r) (hstack : g'.loopStack = r.stack)
    (haddr : (g.addrStack.length ≤ 4 → g'.addrStack.length ≤ 4) ∧ (g.env.prog.fullMode = true ∨ g'.addrStack = g.addrStack))
    (hvs : (∀ v ∈ r.voters, v.lane.bcnt ≤ g.env.prog.branchMax) → ∀ v ∈ vs, v.lane.bcnt ≤ g.env.prog.branchMax)
    (hlanes : countersWithin (vs.map Voter.lane) g'.lanes) : g.Continues g' := by
  refine ⟨henv, fun hg => ?_⟩
  obtain ⟨hloop, haddr0, hmode, hcnt⟩ := (Group.wf_iff g).1 hg
  obtain ⟨hlen, hpart, hvoters⟩ := hr
  rw [Group.wf_iff, henv, hstack]
  refine ⟨hlen hloop, haddr.1 haddr0, ?_, fun l' hl' => ?_⟩
  · rcases hmode with hfull | ⟨hl0, ha0⟩
    · exact .inl hfull
    · rcases hpart with hfull | hp
      · exact .inl hfull
      · rcases haddr.2 with hfull | ha
        · exact .inl hfull
        · exact .inr ⟨hp.trans hl0, ha.trans ha0⟩
  · have hbefore : ∀ v ∈ r.voters, v.lane.bcnt ≤ g.env.prog.branchMax := by
      intro v hv
      obtain ⟨l, hl, hle⟩ := (hvs0.trans hvoters) v.lane (List.mem_map_of_mem hv)
      exact hle.trans (hcnt l hl)
    obtain ⟨x, hx, hle⟩ := hlanes l' hl'
    obtain ⟨v, hv, rfl⟩ := List.mem_map.1 hx
    exact hle.trans (hvs hbefore v hv)

theorem runFc_moves (op : FcOp) (f : FcInst) (s : State) : Leaves (runFc op f s) (groupMoves s) fun _ => True := by
  refine (leaves_current s).bind fun ⟨k, g0⟩ ⟨_, hg, _⟩ => (leaves_aluWait ..).bind fun g1 ha =>
    (leaves_semWait ..).bind fun g hw => (leaves_any _).bind fun ⟨b, mem0⟩ _ => (leaves_require ..).bind fun _ _ =>
    (fcLoop_kept ..).bind fun r hr => (leaves_fcTarget ..).bind fun ⟨pc, addrs⟩ ht => (leaves_branchOp ..).bind fun vs hvs =>
    (leaves_require ..).bind fun _ _ => (leaves_ok _).2 ⟨k, g0, _, hg, ?_, rfl⟩
  subst ha hw
  refine Group.continues_of_fc rfl ?_ hr rfl ht hvs ?_
  · exact (countersWithin_waited g0 f.semWait).trans
      ((countersWithin_fcReenable op _ _).trans (countersWithin_fcVoters f b _))
  · intro l' hl'
    obtain ⟨n, hn, rfl⟩ := List.mem_mapIdx.1 hl'
    exact ⟨vs[n].lane, List.mem_map_of_mem (List.getElem_mem hn), le_refl _⟩

end Sys2Proof.Machine
end

section
/-! SUPPORT. What a command does: everything but the read position first, then the read position moves past it (R25, R181), unless
the PE gets stuck at an unmapped address (R81) or waits for an idle device (R199). -/

namespace Sys2Proof.Machine

/-! ## Descriptors (R34, R89, R90) -/

theorem Desc.wf_iff (d : Desc) : d.wf = true ↔ d.base.toNat % 2 ^ 11 = 0 ∧ d.pitch.toNat % 4 = 0 := by
  simp [Desc.wf]

/-- The masks of R210 leave a base its multiple of 2048 and a pitch its multiple of 4. -/
theorem Desc.wf_ofParams (pb pf : Word) : (Desc.ofParams pb pf).wf = true := by
  rw [Desc.wf_iff]
  constructor
  · change (pb &&& 0xFFFFF800#32).toNat % 2 ^ 11 = 0
    rw [BitVec.toNat_and, Nat.and_mod_two_pow]
    simp
  · change (BitVec.ofNat 13 (pf &&& 0x1FFC#32).toNat).toNat % 4 = 0
    rw [BitVec.toNat_ofNat, Nat.mod_mod_of_dvd _ (by decide), BitVec.toNat_and, show 4 = 2 ^ 2 from rfl, Nat.and_mod_two_pow]
    simp

theorem Descs.wf_iff (d : Descs) :
    d.wf = true ↔ d.inst.wf = true ∧ d.constf.wf = true ∧ d.consti.wf = true ∧ d.constb.wf = true ∧
      d.condOut.desc.wf = true ∧ (∀ t ∈ d.inp, t.desc.wf = true) ∧ ∀ t ∈ d.out, t.desc.wf = true := by
  simp only [Descs.wf, Bool.and_eq_true, List.all_eq_true, Vector.mem_toList_iff, and_assoc]

/-- Replacing one descriptor of several keeps the others as they are. -/
theorem forall_wf_set {n : Nat} {v : Vector TallDesc n} {k : Nat} {d : TallDesc} {hk : k < n}
    (hv : ∀ t ∈ v, t.desc.wf = true) (hd : d.desc.wf = true) : ∀ t ∈ v.set k d hk, t.desc.wf = true := by
  intro t ht
  rcases Vector.mem_or_eq_of_mem_set ht with ht | rfl
  · exact hv t ht
  · exact hd

/-! ## The read position -/

section
variable (pe : Pe) (n : Nat)

@[simp] theorem Pe.advance_launches : (pe.advance n).launches = pe.launches := by rw [Pe.advance_eq]
@[simp] theorem Pe.advance_queue : (pe.advance n).queue = pe.queue := by rw [Pe.advance_eq]
@[simp] theorem Pe.advance_issued : (pe.advance n).issued = pe.issued := by rw [Pe.advance_eq]
@[simp] theorem Pe.advance_isOpen : (pe.advance n).isOpen = pe.isOpen := by rw [Pe.advance_eq]
@[simp] theorem Pe.advance_stuck : (pe.advance n).stuck = pe.stuck := by rw [Pe.advance_eq]
@[simp] theorem Pe.advance_distStuck : (pe.advance n).distStuck = pe.distStuck := by rw [Pe.advance_eq]

end

/-! ## The effect of a command -/

/-- What a command may change of the device before the read position moves: its own registers, memory in canonical form,
descriptors that are aligned, and one launch more with the descriptors of this moment (R30, R181). -/
structure CommandEffect (s u : State) : Prop where
  groups : u.groups = s.groups
  program : u.program = s.program
  platform : u.platform = s.platform
  turn : u.turn = s.turn
  coStuck : u.co.stuck = s.co.stuck
  pe : u.pe = { s.pe with
    condVal := u.pe.condVal, domain := u.pe.domain, perf := u.pe.perf, launches := u.pe.launches }
  launches : u.pe.launches = s.pe.launches ∨ ∃ la, u.pe.launches = s.pe.launches ++ [la] ∧ la.env.descs = s.mc.descs
  mem : s.mem.wf = true → u.mem.wf = true
  descs : s.mc.descs.wf = true → u.mc.descs.wf = true

/-- A command has been carried out and the read position has moved, or the command still waits for an idle device (R199). -/
def commandDone (i : Instr) (s t : State) : Prop :=
  (∃ u, CommandEffect s u ∧ t = u.retireCommand i) ∨ ((∃ p, i = .waitForIdle p) ∧ s.idle = false ∧ t = s)

/-- Memory that was in canonical form is in it again where the PE gets stuck. -/
def stuckWf (s : State) (m : MemSys) : Prop := s.mem.wf = true → m.wf = true

theorem CommandEffect.done {s u : State} (h : CommandEffect s u) (i : Instr) : commandDone i s (u.retireCommand i) :=
  .inl ⟨u, h, rfl⟩

/-- A command that makes no access to memory: its checks, then its effect. -/
theorem CommandEffect.leaves {s u : State} (h : CommandEffect s u) (i : Instr) :
    Leaves (requireReserved i >>= fun _ => pure (u.retireCommand i)) (commandDone i s) (stuckWf s) :=
  (leaves_require ..).bind fun _ _ => (leaves_ok _).2 (h.done i)

/-- A format command: its two checks, then its effect. -/
theorem CommandEffect.leavesFormat {s u : State} (h : CommandEffect s u) (i : Instr) :
    Leaves (requireFormat i s >>= fun _ => pure (u.retireCommand i)) (commandDone i s) (stuckWf s) :=
  (((leaves_require ..).bind fun _ _ => leaves_require ..) : Leaves (requireFormat i s) _ _).bind fun _ _ =>
    (leaves_ok _).2 (h.done i)

theorem CommandEffect.refl (s : State) : CommandEffect s s := ⟨rfl, rfl, rfl, rfl, rfl, rfl, .inl rfl, id, id⟩

theorem CommandEffect.markSet {s u : State} (h : CommandEffect s u) (k : Item) : CommandEffect s (u.markSet k) :=
  ⟨h.groups, h.program, h.platform, h.turn, h.coStuck, h.pe, h.launches, h.mem, h.descs⟩

theorem CommandEffect.withDescs {s : State} {d : Descs} (h : s.mc.descs.wf = true → d.wf = true) :
    CommandEffect s (s.withDescs d) :=
  ⟨rfl, rfl, rfl, rfl, rfl, rfl, .inl rfl, id, h⟩

theorem CommandEffect.withPerf (s : State) (p : Perf) : CommandEffect s (s.withPerf p) :=
  ⟨rfl, rfl, rfl, rfl, rfl, rfl, .inl rfl, id, id⟩

theorem CommandEffect.setPe (s : State) (v : Word) (d : Domain) :
    CommandEffect s { s with pe := { s.pe with condVal := v, domain := d } } :=
  ⟨rfl, rfl, rfl, rfl, rfl, rfl, .inl rfl, id, id⟩

theorem CommandEffect.setMasks (s : State) (out : BitVec 4) (cond : Bool) :
    CommandEffect s { s with mc := { s.mc with outMask := out, condOutMask := cond } } :=
  ⟨rfl, rfl, rfl, rfl, rfl, rfl, .inl rfl, id, id⟩

theorem CommandEffect.setCo (s : State) (test : BitVec 3) (loc : Bool) :
    CommandEffect s { s with co := { s.co with test := test, loc := loc } } :=
  ⟨rfl, rfl, rfl, rfl, rfl, rfl, .inl rfl, id, id⟩

/-- The effect of a command on memory and the caches alone, or with it on the counter of draws. -/
theorem CommandEffect.withMem {s : State} {m : MemSys} (h : s.mem.wf = true → m.wf = true) (n : Nat) :
    CommandEffect s { s.withMem m with draws := n } :=
  ⟨rfl, rfl, rfl, rfl, rfl, rfl, .inl rfl, h, id⟩

theorem CommandEffect.emptyCache (s : State) (k : ReadClient) :
    CommandEffect s (s.withMem (s.mem.setCache k ReadCache.empty)) :=
  .withMem (fun h => s.mem.wf_setCache h k ReadCache.wf_empty) s.draws

/-- Writes of the PE to main memory change nothing else. -/
theorem leaves_ramWriteAll (s : State) (cs : List Host.Cell) :
    Leaves (ramWriteAll s cs) (fun u => u = s.withMem u.mem ∧ (s.mem.wf = true → u.mem.wf = true)) (stuckWf s) := by
  refine ⟨fun u hu => ⟨?_, fun h => (ramWriteAll_wf h cs).1 u hu⟩, fun m hm h => (ramWriteAll_wf h cs).2 m hm⟩
  rw [ramWriteAll_eq_ok hu]
  rfl

/-! ## The launch (R30, R196) -/

theorem leaves_slotAgrees (layout : InstLayout) (p : Program) (n : Nat) (w : Slot) {stuck : MemSys → Prop} :
    Leaves (slotAgrees layout p n w) (fun _ => True) stuck := by
  have check : ∀ c r, Leaves (accept c r) (fun _ => True) stuck := fun c r => (leaves_accept c r).mono fun _ _ => trivial
  unfold slotAgrees
  split
  · simp
  · split
    · exact (check _ _).bind fun _ _ => (check _ _).bind fun _ _ => check _ _
    · exact check _ _
    · exact check _ _
    · simp

theorem leaves_textAgrees (layout : InstLayout) (p : Program) (n : Nat) (text : List Slot) {stuck : MemSys → Prop} :
    Leaves (textAgrees layout p n text) (fun _ => True) stuck := by
  induction text generalizing n with
  | nil => simp [textAgrees]
  | cons w rest ih =>
    unfold textAgrees
    split
    · next he => exact (leaves_slotAgrees layout p n w).error he
    · exact ih (n + 1)

theorem leaves_admission (p : Program) {stuck : MemSys → Prop} : Leaves p.admission (fun _ => True) stuck :=
  (leaves_accept ..).bind fun _ _ => (leaves_accept ..).bind fun _ _ => (leaves_accept ..).bind fun _ _ =>
    (leaves_accept ..).mono fun _ _ => trivial

theorem loadText_wf {p : Platform} {mem : MemSys} (h : mem.wf = true) (d : Desc) (n : Nat) :
    LeavesWf Prod.snd (loadText p mem d n) := by
  unfold loadText
  split
  · simp
  · exact (readBytes_wf h .inst _).map fun _ hr => hr

theorem leaves_loadText (s : State) (d : Desc) (n : Nat) :
    Leaves (loadText s.platform s.mem d n) (fun r => s.mem.wf = true → r.2.wf = true) (stuckWf s) :=
  ⟨fun r hr h => (loadText_wf h d n).1 r hr, fun m hm h => (loadText_wf h d n).2 m hm⟩

/-- A launch with pairs to run is appended, with the launch snapshot of this moment. -/
theorem CommandEffect.addLaunch {s : State} {mem : MemSys} (h : s.mem.wf = true → mem.wf = true) {la : Launch}
    (hla : la.env.descs = s.mc.descs) : CommandEffect s ({ s with mem := mem }.addLaunch la) := by
  unfold State.addLaunch
  split
  · exact ⟨rfl, rfl, rfl, rfl, rfl, rfl, .inl rfl, h, id⟩
  · exact ⟨rfl, rfl, rfl, rfl, rfl, rfl, .inr ⟨la, rfl, hla⟩, h, id⟩

/-! ## Every command -/

/-- What each of the 27 commands leaves, done or stuck. -/
theorem exec_command_leaves {i : Instr} (hi : (encodeCommand i).isSome = true) (s : State) :
    ∃ r, exec i s = conclude s.peStuck r ∧ Leaves r (commandDone i s) (stuckWf s) := by
  have aligned := Desc.wf_ofParams
  cases i <;> try cases hi
  case initPerfCounters => exact ⟨_, rfl, ((CommandEffect.withPerf s _).markSet _).leaves _⟩
  case startPerfCounters =>
    refine ⟨_, rfl, CommandEffect.leaves ?_ _⟩
    split
    · exact .withPerf s _
    · exact .refl s
  case stopPerfCounters =>
    refine ⟨_, rfl, CommandEffect.leaves ?_ _⟩
    split
    · exact .withPerf s _
    · exact .refl s
  case readPerfCounters =>
    refine ⟨_, rfl, (leaves_require ..).bind fun _ _ => (leaves_require ..).bind fun _ _ => ?_⟩
    split
    · refine (leaves_ramWriteAll s _).bind fun u ⟨hu, hwf⟩ => (leaves_ok _).2 (CommandEffect.done ?_ _)
      rw [hu]
      exact .withMem hwf s.draws
    · exact (leaves_ok _).2 ((CommandEffect.refl s).done _)
  case setCondVal => exact ⟨_, rfl, ((CommandEffect.setPe s _ _).markSet _).leaves _⟩
  case setDomain => exact ⟨_, rfl, ((CommandEffect.setPe s _ _).markSet _).leaves _⟩
  case startProgram =>
    refine ⟨_, rfl, (leaves_require ..).bind fun _ _ => ?_⟩
    split
    · simp
    · exact (leaves_admission _).bind fun _ _ => (leaves_loadText s _ _).bind fun ⟨text, mem⟩ hm =>
        (leaves_textAgrees ..).bind fun _ _ => (leaves_ok _).2 ((CommandEffect.addLaunch hm rfl).done _)
  case waitForIdle p =>
    refine ⟨_, rfl, (leaves_require ..).bind fun _ _ => (leaves_ok _).2 ?_⟩
    split
    · exact (CommandEffect.refl s).done _
    · next hidle => exact .inr ⟨⟨p, rfl⟩, by simpa using hidle, rfl⟩
  case setInstFmt =>
    refine ⟨_, rfl, ((CommandEffect.withDescs fun h => ?_).markSet _).leavesFormat _⟩
    rw [Descs.wf_iff] at h ⊢
    exact ⟨aligned _ _, h.2⟩
  case setInpFmt =>
    refine ⟨_, rfl, ((CommandEffect.withDescs fun h => ?_).markSet _).leavesFormat _⟩
    obtain ⟨h1, h2, h3, h4, h5, h6, h7⟩ := (Descs.wf_iff _).1 h
    exact (Descs.wf_iff _).2 ⟨h1, h2, h3, h4, h5, forall_wf_set (hk := (fieldBits _ 0 4).isLt) h6 (aligned _ _), h7⟩
  case setOutFmt =>
    refine ⟨_, rfl, ((CommandEffect.withDescs fun h => ?_).markSet _).leavesFormat _⟩
    obtain ⟨h1, h2, h3, h4, h5, h6, h7⟩ := (Descs.wf_iff _).1 h
    exact (Descs.wf_iff _).2 ⟨h1, h2, h3, h4, h5, h6, forall_wf_set (hk := (fieldBits _ 0 2).isLt) h7 (aligned _ _)⟩
  case setCondOutFmt =>
    refine ⟨_, rfl, ((CommandEffect.withDescs fun h => ?_).markSet _).leavesFormat _⟩
    obtain ⟨h1, h2, h3, h4, h5, h6⟩ := (Descs.wf_iff _).1 h
    exact (Descs.wf_iff _).2 ⟨h1, h2, h3, h4, aligned _ _, h6⟩
  case setConstfFmt =>
    refine ⟨_, rfl, ((CommandEffect.withDescs fun h => ?_).markSet _).leavesFormat _⟩
    obtain ⟨h1, h2, h3⟩ := (Descs.wf_iff _).1 h
    exact (Descs.wf_iff _).2 ⟨h1, aligned _ _, h3⟩
  case setConstiFmt =>
    refine ⟨_, rfl, ((CommandEffect.withDescs fun h => ?_).markSet _).leavesFormat _⟩
    obtain ⟨h1, h2, h3, h4⟩ := (Descs.wf_iff _).1 h
    exact (Descs.wf_iff _).2 ⟨h1, h2, aligned _ _, h4⟩
  case setConstbFmt =>
    refine ⟨_, rfl, ((CommandEffect.withDescs fun h => ?_).markSet _).leavesFormat _⟩
    obtain ⟨h1, h2, h3, h4, h5⟩ := (Descs.wf_iff _).1 h
    exact (Descs.wf_iff _).2 ⟨h1, h2, h3, aligned _ _, h5⟩
  case invInstCache => exact ⟨_, rfl, (CommandEffect.emptyCache s .inst).leaves _⟩
  case invConstfCache => exact ⟨_, rfl, (CommandEffect.emptyCache s .constf).leaves _⟩
  case invConstiCache => exact ⟨_, rfl, (CommandEffect.emptyCache s .consti).leaves _⟩
  case invConstbCache => exact ⟨_, rfl, (CommandEffect.emptyCache s .constb).leaves _⟩
  case invInpCache => exact ⟨_, rfl, (CommandEffect.emptyCache s .inp).leaves _⟩
  case invCondOutCache =>
    refine ⟨_, rfl, (leaves_require ..).bind fun _ _ => (leaves_ramWriteAll s _).bind fun u ⟨hu, hwf⟩ =>
      (leaves_ok _).2 (CommandEffect.done ?_ _)⟩
    rw [hu]
    exact .withMem (fun h => MemSys.wf_withCond (hwf h) ReadCache.wf_empty bytesWf_nil) _
  case flushOutCache =>
    refine ⟨_, rfl, (leaves_require ..).bind fun _ _ => (leaves_ramWriteAll s _).bind fun u ⟨hu, hwf⟩ =>
      (leaves_ok _).2 (CommandEffect.done ?_ _)⟩
    rw [hu]
    exact .withMem (fun h => MemSys.wf_withOut (hwf h) bytesWf_nil) s.draws
  case flushCondOutCache =>
    refine ⟨_, rfl, (leaves_require ..).bind fun _ _ => (leaves_ramWriteAll s _).bind fun u ⟨hu, hwf⟩ =>
      (leaves_ok _).2 (CommandEffect.done ?_ _)⟩
    rw [hu]
    let c : CondCache := { clean := { bytes := putBytes u.mem.cond.clean.bytes u.mem.cond.dirty }, dirty := [] }
    have hc : s.mem.wf = true → ({ u.mem with cond := c } : MemSys).wf = true := fun h =>
      MemSys.wf_withCond (hwf h)
        (bytesWf_putBytes (MemSys.clean_wf (hwf h)) ((bytesWf_iff _).1 (MemSys.dirty_wf (hwf h))).2) bytesWf_nil
    exact .withMem hc s.draws
  case setOutMask => exact ⟨_, rfl, ((CommandEffect.setMasks s _ _).markSet _).leaves _⟩
  case setCondOutMask => exact ⟨_, rfl, ((CommandEffect.setMasks s _ _).markSet _).leaves _⟩
  case setCondTest => exact ⟨_, rfl, ((CommandEffect.setCo s _ _).markSet _).leaves _⟩
  case setCondLoc => exact ⟨_, rfl, ((CommandEffect.setCo s _ _).markSet _).leaves _⟩

/-- The next state of a command: it is done, or waits, or has left the PE stuck. -/
theorem exec_command_cases {i : Instr} {s t : State} (hi : (encodeCommand i).isSome = true) (h : exec i s = .next t) :
    commandDone i s t ∨ ∃ m, stuckWf s m ∧ t = s.peStuck m := by
  obtain ⟨r, hr, hl⟩ := exec_command_leaves hi s
  rw [hr] at h
  rcases conclude_eq_next.1 h with h | ⟨m, hm, ht⟩
  · exact .inl (hl.1 t h)
  · exact .inr ⟨m, hl.2 m hm, ht⟩

end Sys2Proof.Machine
end

section
/-! SUPPORT. What a step of the device can do, agent by agent (R20): the one relation from which the invariants of every step
follow. -/

namespace Sys2Proof.Machine

/-! ## What a step can do -/

/-- Every group is one of the groups before, further on. -/
def groupsContinue (gs gs' : List Group) : Prop := ∀ g' ∈ gs', ∃ g ∈ gs, g.Continues g'

theorem groupsContinue_of_subset {gs gs' : List Group} (h : gs' ⊆ gs) : groupsContinue gs gs' :=
  fun g hg => ⟨g, h hg, g.continues_refl⟩

theorem groupsContinue_set {gs : List Group} {k : Nat} {g g' : Group} (hg : gs[k]? = some g) (hc : g.Continues g') :
    groupsContinue gs (gs.set k g') := by
  intro x hx
  rcases List.mem_or_eq_of_mem_set hx with hx | rfl
  · exact ⟨x, hx, x.continues_refl⟩
  · exact ⟨g, List.mem_of_getElem? hg, hc⟩

theorem groupsContinue_modify {gs : List Group} {k : Nat} {f : Group → Group} (hf : ∀ g : Group, g.Continues (f g)) :
    groupsContinue gs (gs.modify k f) := by
  intro x hx
  obtain ⟨n, hn⟩ := List.mem_iff_getElem?.1 hx
  rw [List.getElem?_modify] at hn
  obtain ⟨g, hg, rfl⟩ := Option.map_eq_some_iff.1 hn
  refine ⟨g, List.mem_of_getElem? hg, ?_⟩
  split
  · exact hf g
  · exact g.continues_refl

/-- What a step can do to the parts of the device that the invariants speak of: memory stays in canonical form, a group goes on or
starts within its limits under the snapshot of a launch, a launch keeps its snapshot or is new with the descriptors of this moment
(R30), and descriptors stay aligned. -/
structure Evolves (s t : State) : Prop where
  mem : s.mem.wf = true → t.mem.wf = true
  descs : s.mc.descs.wf = true → t.mc.descs.wf = true
  launches : ∀ l' ∈ t.pe.launches, (∃ l ∈ s.pe.launches, l'.env = l.env) ∨ l'.env.descs = s.mc.descs
  groups : ∀ g' ∈ t.groups, (∃ g ∈ s.groups, g.Continues g') ∨ g'.wf = true ∧ ∃ l ∈ s.pe.launches, g'.env = l.env

/-- A move that leaves the descriptors and the launches as they are. -/
theorem Evolves.of_groups {s t : State} (hmem : s.mem.wf = true → t.mem.wf = true) (hmc : t.mc = s.mc)
    (hl : t.pe.launches = s.pe.launches) (hg : groupsContinue s.groups t.groups) : Evolves s t where
  mem := hmem
  descs := by rw [hmc]; exact id
  launches := by rw [hl]; exact fun l hl => .inl ⟨l, hl, rfl⟩
  groups := fun g hgt => .inl (hg g hgt)

/-- A move that leaves the groups as they are, too. -/
theorem Evolves.of_mem {s t : State} (hmem : s.mem.wf = true → t.mem.wf = true) (hmc : t.mc = s.mc)
    (hl : t.pe.launches = s.pe.launches) (hg : t.groups = s.groups) : Evolves s t :=
  .of_groups hmem hmc hl (groupsContinue_of_subset (by rw [hg]; exact fun _ h => h))

theorem Evolves.refl (s : State) : Evolves s s := .of_mem id rfl rfl rfl

/-- The next turn is all that is drawn after an agent's move. -/
theorem Evolves.nextTurn {s t : State} (h : Evolves s t) : Evolves s t.nextTurn := ⟨h.mem, h.descs, h.launches, h.groups⟩

/-! ## The PE -/

theorem CommandEffect.evolves {s u : State} (h : CommandEffect s u) (i : Instr) : Evolves s (u.retireCommand i) where
  mem := h.mem
  descs := h.descs
  launches := by
    intro l' hl'
    have hl' : l' ∈ u.pe.launches := by simpa [State.retireCommand] using hl'
    rcases h.launches with heq | ⟨la, heq, hla⟩
    · exact .inl ⟨l', heq ▸ hl', rfl⟩
    · rw [heq, List.mem_append, List.mem_singleton] at hl'
      rcases hl' with hl' | rfl
      · exact .inl ⟨l', hl', rfl⟩
      · exact .inr hla
  groups := by
    intro g hg
    have hg : g ∈ u.groups := hg
    exact .inl ⟨g, h.groups ▸ hg, g.continues_refl⟩

theorem Evolves.peStuck {s : State} {m : MemSys} (hm : s.mem.wf = true → m.wf = true) : Evolves s (s.peStuck m) :=
  .of_mem hm rfl rfl rfl

theorem exec_command_evolves {i : Instr} {s t : State} (hi : (encodeCommand i).isSome = true) (h : exec i s = .next t) :
    Evolves s t := by
  rcases exec_command_cases hi h with (⟨u, hu, rfl⟩ | ⟨-, -, rfl⟩) | ⟨m, hm, rfl⟩
  · exact hu.evolves i
  · exact .refl _
  · exact .peStuck hm

/-- The fetch of a command answers a command, and where it gets stuck memory is as before. -/
theorem leaves_fetchCommand (s : State) (c : Current) :
    Leaves (fetchCommand s c) (fun i => (encodeCommand i).isSome = true) (· = s.mem) := by
  have noStuck : ∀ e, Leaves (Except.error (peError e) : Res Instr) (fun i => (encodeCommand i).isSome = true) (· = s.mem) := by
    intro e
    cases e <;> exact leaves_fault _
  unfold fetchCommand
  dsimp only
  split
  · split
    · exact noStuck _
    · next hd =>
      split
      · exact (leaves_ok _).2 (decodeCommand_command hd)
      · simp
  · simp

theorem nextBuffer_launches (pe : Pe) : (nextBuffer pe).launches = pe.launches := by
  unfold nextBuffer
  split
  · rfl
  · split <;> rfl

theorem peStep_evolves {s t : State} (h : peStep s = .next t) : Evolves s t := by
  unfold peStep at h
  split at h
  · cases h
    exact .refl s
  · split at h
    · cases h
      exact .of_mem id rfl (nextBuffer_launches s.pe) rfl
    · next c _ =>
      have hf := leaves_fetchCommand s c
      split at h
      · next e he =>
        rcases conclude_eq_next.1 h with hr | ⟨m, hr, rfl⟩
        · cases hr
        · cases hr
          exact .peStuck fun h0 => hf.2 m he ▸ h0
      · next i he => exact exec_command_evolves (hf.1 i he) h

/-! ## A group of processors -/

theorem Group.continues_stuck (g : Group) : g.Continues { g with lanes := g.lanes.map fun l => { l with stuck := true } } :=
  Group.continues_of_lanes rfl rfl rfl (countersWithin_map fun _ => le_refl _)

theorem Evolves.turnStuck {s : State} {m : MemSys} (hm : s.mem.wf = true → m.wf = true) : Evolves s (s.turnStuck m) := by
  unfold State.turnStuck
  split
  · exact .of_groups hm rfl rfl (groupsContinue_modify fun g => g.continues_stuck)
  · exact .refl s

theorem groupMoves.evolves {s t : State} (h : groupMoves s t) (hm : s.mem.wf = true → t.mem.wf = true) : Evolves s t := by
  obtain ⟨k, g, g', hg, hc, ht⟩ := h
  rw [ht] at hm ⊢
  exact .of_groups hm rfl rfl (groupsContinue_set hg hc)

/-- An instruction of a group, given what it leaves of memory and of its group. -/
theorem groupRun_evolves {s t : State} {r : Res State} (hwf : s.mem.wf = true → LeavesWf State.mem r)
    (hg : Leaves r (groupMoves s) fun _ => True) (h : conclude s.turnStuck r = .next t) : Evolves s t := by
  rcases conclude_eq_next.1 h with hr | ⟨m, hr, rfl⟩
  · exact (hg.1 t hr).evolves fun h0 => (hwf h0).1 t hr
  · exact .turnStuck fun h0 => (hwf h0).2 m hr

theorem exec_group_evolves {i : Instr} {s t : State}
    (hk : (∃ x, i.alu? = some x) ∨ (∃ x, i.tex? = some x) ∨ ∃ x, i.fc? = some x) (h : exec i s = .next t) : Evolves s t := by
  rcases hk with ⟨⟨rop, aop, f⟩, hk⟩ | ⟨⟨op, f⟩, hk⟩ | ⟨⟨op, f⟩, hk⟩
  · rw [exec_alu hk] at h
    exact groupRun_evolves (fun h0 => runAlu_wf h0 _ rop aop f) (runAlu_moves _ rop aop f s) h
  · rw [exec_tex hk] at h
    exact groupRun_evolves (fun h0 => runTex_wf h0 op f) (runTex_moves op f s) h
  · rw [exec_fc hk] at h
    exact groupRun_evolves (fun h0 => runFc_wf h0 op f) (runFc_moves op f s) h

theorem fetchSlot_not_stuck {p : Platform} {g : Group} {m : MemSys} : fetchSlot p g ≠ .error (.stuck m) := by
  unfold fetchSlot
  split
  · split
    · simp
    · split <;> simp
  · simp

theorem groupStep_evolves {s t : State} {k : Nat} (h : groupStep s k = .next t) : Evolves s t := by
  unfold groupStep at h
  split at h
  · cases h
    exact .refl s
  · next g _ =>
    split at h
    · cases h
      exact .refl s
    · split at h
      · next e he =>
        rcases conclude_eq_next.1 h with hr | ⟨m, hr, rfl⟩
        · cases hr
        · cases hr
          exact absurd he fetchSlot_not_stuck
      · next i hi =>
        obtain ⟨w, -, -, hd⟩ := fetchSlot_eq_ok.1 hi
        exact exec_group_evolves (InstLayout.decode_kind hd) h

/-! ## A processor that has halted -/

theorem leaves_outputWrites (draw : Nat) (env : Snapshot) (l : Lane) (os : List Nat) {stuck : MemSys → Prop} :
    Leaves (outputWrites draw env l os) (fun _ => True) stuck := by
  induction os with
  | nil => simp [outputWrites]
  | cons k rest ih =>
    unfold outputWrites
    split
    · simp
    · next d _ =>
      have one : Leaves (outputWrite d env.outMask l.i l.j (l.outValue draw k)) (fun _ => True) stuck :=
        (leaves_elementAddrs ..).map fun _ _ => trivial
      exact one.bind fun _ _ => ih.bind fun _ _ => (leaves_ok _).2 trivial

section
variable {s : State} (h : s.mem.wf = true)
include h

theorem requestResults_wf (env : Snapshot) (l : Lane) :
    LeavesWf Prod.snd (requestResults s.platform s.co.stuck s.draws env l s.mem) := by
  unfold requestResults
  split
  · refine (coTest_wf h ..).bind fun ⟨pass, mem⟩ hm => ?_
    dsimp only
    split
    · exact (leaves_outputWrites ..).bind fun _ _ => (leaves_ok _).2 hm
    · exact (leaves_ok _).2 hm
  · exact (leaves_ok _).2 h

theorem laneRetire_wf (k n : Nat) (g : Group) (l : Lane) : LeavesWf State.mem (laneRetire s k n g l) := by
  unfold laneRetire
  split
  · exact (requestResults_wf h g.env l).map fun _ hr => hr
  · split
    · next hm => exact (leaves_ok _).2 (s.mem.wf_withOut h (bytesWf_tabPut _ (s.mem.out_wf h) (Platform.mapped_lt hm)))
    · exact (leaves_stuck _).2 h
  · exact (leaves_ok _).2 h

theorem retireStep_wf (k n : Nat) : LeavesWf State.mem (retireStep s k n) := by
  unfold retireStep
  split
  · exact (leaves_ok _).2 h
  · split
    · split
      · exact (leaves_ok _).2 h
      · split
        · exact (leaves_ok _).2 h
        · exact laneRetire_wf h ..
    · exact (leaves_ok _).2 h

end

theorem countersWithin_modify {ls : List Lane} {n : Nat} {f : Lane → Lane} (hf : ∀ l, (f l).bcnt = l.bcnt) :
    countersWithin ls (ls.modify n f) := by
  intro x hx
  obtain ⟨j, hj⟩ := List.mem_iff_getElem?.1 hx
  rw [List.getElem?_modify] at hj
  obtain ⟨l, hl, rfl⟩ := Option.map_eq_some_iff.1 hj
  refine ⟨l, List.mem_of_getElem? hl, ?_⟩
  split
  · exact (hf l).le
  · exact le_refl _

theorem groupsContinue_setOutbox (gs : List Group) (k n : Nat) (cells : List Host.Cell) :
    groupsContinue gs (setOutbox gs k n cells) :=
  groupsContinue_modify fun _ => Group.continues_of_lanes rfl rfl rfl (countersWithin_modify fun _ => rfl)

theorem groupsContinue_dropLane (gs : List Group) (k n : Nat) : groupsContinue gs (dropLane gs k n) := by
  unfold dropLane
  split
  · exact groupsContinue_of_subset fun _ h => h
  · next g hg =>
    dsimp only
    split
    · exact groupsContinue_of_subset List.eraseIdx_subset
    · exact groupsContinue_set hg (Group.continues_of_lanes rfl rfl rfl (countersWithin_of_subset List.eraseIdx_subset))

/-- A move of a halted processor leaves the MC and the PE as they are, and of the groups those before, further on (R334). -/
def retires (s t : State) : Prop := t.mc = s.mc ∧ t.pe = s.pe ∧ groupsContinue s.groups t.groups

theorem retires_refl (s : State) : retires s s := ⟨rfl, rfl, groupsContinue_of_subset fun _ h => h⟩

theorem laneRetire_retires (s : State) (k n : Nat) (g : Group) (l : Lane) :
    Leaves (laneRetire s k n g l) (retires s) fun _ => True := by
  unfold laneRetire
  split
  · exact (leaves_any _).map fun r _ => ⟨rfl, rfl, groupsContinue_setOutbox _ k n _⟩
  · split
    · exact (leaves_ok _).2 ⟨rfl, rfl, groupsContinue_setOutbox _ k n _⟩
    · simp
  · exact (leaves_ok _).2 ⟨rfl, rfl, groupsContinue_dropLane _ k n⟩

theorem retireStep_retires (s : State) (k n : Nat) : Leaves (retireStep s k n) (retires s) fun _ => True := by
  unfold retireStep
  split
  · exact (leaves_ok _).2 (retires_refl s)
  · split
    · split
      · refine (leaves_ok _).2 ⟨rfl, rfl, groupsContinue_of_subset ?_⟩
        dsimp only
        split
        · exact List.eraseIdx_subset
        · exact fun _ h => h
      · split
        · exact (leaves_ok _).2 (retires_refl s)
        · exact laneRetire_retires ..
    · exact (leaves_ok _).2 (retires_refl s)

theorem retireMove_evolves {s t : State} {k n : Nat} (h : conclude (s.laneStuck k n) (retireStep s k n) = .next t) :
    Evolves s t := by
  rcases conclude_eq_next.1 h with hr | ⟨m, hr, rfl⟩
  · obtain ⟨hmc, hpe, hg⟩ := (retireStep_retires s k n).1 t hr
    exact .of_groups (fun h0 => (retireStep_wf h0 k n).1 t hr) hmc (by rw [hpe]) hg
  · exact .of_groups (fun h0 => (retireStep_wf h0 k n).2 m hr) rfl rfl
      (groupsContinue_modify fun _ => Group.continues_of_lanes rfl rfl rfl (countersWithin_modify fun _ => rfl))

/-! ## The work distributor -/

theorem distTest_wf {s : State} (h : s.mem.wf = true) (env : Snapshot) (i j : BitVec 12) :
    LeavesWf Prod.snd (distTest s env i j) := by
  unfold distTest
  split
  · exact coTest_wf h ..
  · exact (leaves_ok _).2 h

theorem dropPair_env {ls : List Launch} {a b : Nat} {l' : Launch} (h : l' ∈ dropPair ls a b) : ∃ l ∈ ls, l'.env = l.env := by
  unfold dropPair at h
  split at h
  · exact ⟨l', h, rfl⟩
  · next l hl =>
    dsimp only at h
    split at h
    · exact ⟨l', List.mem_of_mem_eraseIdx h, rfl⟩
    · rcases List.mem_or_eq_of_mem_set h with h | rfl
      · exact ⟨l', h, rfl⟩
      · exact ⟨l, List.mem_of_getElem? hl, rfl⟩

theorem Group.continues_addLane (g : Group) {l : Lane} (hl : l.bcnt = 0) : g.Continues { g with lanes := g.lanes ++ [l] } := by
  refine ⟨rfl, fun hwf => ?_⟩
  obtain ⟨hloop, haddr, hmode, hcnt⟩ := (Group.wf_iff g).1 hwf
  refine (Group.wf_iff _).2 ⟨hloop, haddr, hmode, fun x hx => ?_⟩
  rcases List.mem_append.1 hx with hx | hx
  · exact hcnt x hx
  · rw [List.mem_singleton.1 hx, hl]
    exact Nat.zero_le _

/-- A processor starts in a group of its own, or joins one whose limits it keeps: its branch counter is 0 (R75). -/
theorem placeLane_cases {gs : List Group} {env : Snapshot} {l : Lane} {join : Option Nat} (hl : l.bcnt = 0) {g' : Group}
    (h : g' ∈ placeLane gs env l join) : (∃ g ∈ gs, g.Continues g') ∨ g'.wf = true ∧ g'.env = env := by
  unfold placeLane at h
  split at h
  · rw [List.mem_append, List.mem_singleton] at h
    rcases h with h | rfl
    · exact .inl ⟨g', h, g'.continues_refl⟩
    · exact .inr ⟨(Group.wf_iff _).2 ⟨by simp, by simp, .inr ⟨rfl, rfl⟩, by simp [hl]⟩, rfl⟩
  · split at h
    · exact .inl ⟨g', h, g'.continues_refl⟩
    · next g hg =>
      exact .inl (groupsContinue_set hg (g.continues_addLane hl) g' h)

theorem distStep_evolves (s : State) (a b proc : Nat) (join : Option Nat) :
    Leaves (distStep s a b proc join) (Evolves s) (stuckWf s) := by
  unfold distStep
  split
  · exact (leaves_ok _).2 (.refl s)
  · next la hla =>
    split
    · refine (leaves_ok _).2 ⟨id, id, fun l' hl' => .inl ⟨l', ?_, rfl⟩, (Evolves.refl s).groups⟩
      dsimp only at hl'
      split at hl'
      · exact List.mem_of_mem_eraseIdx hl'
      · exact hl'
    · next i j _ =>
      split
      · have htest : Leaves (distTest s la.env i j) (fun r => s.mem.wf = true → r.2.wf = true) (stuckWf s) :=
          ⟨fun r hr h => (distTest_wf h la.env i j).1 r hr, fun m hm h => (distTest_wf h la.env i j).2 m hm⟩
        refine htest.bind fun ⟨pass, mem⟩ hm => (leaves_ok _).2 ?_
        have hlaunch : ∀ l' ∈ dropPair s.pe.launches a b,
            (∃ l ∈ s.pe.launches, l'.env = l.env) ∨ l'.env.descs = s.mc.descs := fun l' hl' => .inl (dropPair_env hl')
        cases pass with
        | false => exact ⟨hm, id, hlaunch, (Evolves.refl s).groups⟩
        | true =>
          refine ⟨hm, id, hlaunch, fun g' hg' => ?_⟩
          exact (placeLane_cases rfl hg').imp_right fun ⟨hwf, henv⟩ => ⟨hwf, la, List.mem_of_getElem? hla, henv⟩
      · exact (leaves_ok _).2 (.refl s)

/-! ## The MC on its own, and the clock -/

theorem evictStep_wf {s : State} (h : s.mem.wf = true) (c : CacheId) (a : Nat) : LeavesWf State.mem (evictStep s c a) := by
  have drop : ∀ k, (s.mem.setCache k ((s.mem.cache k).drop a)).wf = true := fun k =>
    s.mem.wf_setCache h k (bytesWf_tabDel a (s.mem.cache_wf h k))
  cases c with
  | inst => exact (leaves_ok _).2 (drop .inst)
  | constf => exact (leaves_ok _).2 (drop .constf)
  | consti => exact (leaves_ok _).2 (drop .consti)
  | constb => exact (leaves_ok _).2 (drop .constb)
  | inp => exact (leaves_ok _).2 (drop .inp)
  | out =>
    unfold evictStep
    dsimp only
    split
    · exact (leaves_ok _).2 h
    · exact (ramWrite_wf h a _).map fun u hu => MemSys.wf_withOut hu (bytesWf_tabDel a (MemSys.out_wf hu))
  | cond =>
    unfold evictStep
    dsimp only
    split
    · exact (leaves_ok _).2 (s.mem.wf_withCond h (bytesWf_tabDel a (s.mem.clean_wf h)) (s.mem.dirty_wf h))
    · next hf =>
      have ha := bytesWf_find_lt (s.mem.dirty_wf h) hf
      exact (ramWrite_wf h a _).map fun u hu => MemSys.wf_withCond hu (bytesWf_tabPut _ (MemSys.clean_wf hu) ha)
        (bytesWf_tabDel a (MemSys.dirty_wf hu))

/-- The MC on its own changes memory and the caches only. -/
theorem leaves_evictStep (s : State) (c : CacheId) (a : Nat) :
    Leaves (evictStep s c a) (fun t => t = s.withMem t.mem) fun _ => True := by
  have write : ∀ b, Leaves (ramWrite s a b) (fun u => u = s.withMem u.mem) fun _ => True := fun b =>
    ⟨fun u hu => by obtain ⟨-, rfl⟩ := ramWrite_eq_ok hu; rfl, fun _ _ => trivial⟩
  cases c with
  | inst | constf | consti | constb | inp => exact (leaves_ok _).2 rfl
  | out | cond =>
    unfold evictStep
    dsimp only
    split
    · exact (leaves_ok _).2 rfl
    · exact (write _).map fun u hu => by rw [hu]; rfl

theorem clockStep_pe (s : State) (total active : Nat) :
    clockStep s total active = s.withPerf (clockStep s total active).pe.perf := by
  unfold clockStep
  dsimp only
  split <;> rfl

/-! ## Every step -/

theorem agentStep_evolves {s t : State} (h : agentStep s = .next t) : Evolves s t := by
  unfold agentStep at h
  split at h
  · exact peStep_evolves h
  · exact groupStep_evolves h
  · exact retireMove_evolves h
  · rcases conclude_eq_next.1 h with hr | ⟨m, hr, rfl⟩
    · exact (distStep_evolves s ..).1 t hr
    · exact .of_mem ((distStep_evolves s ..).2 m hr) rfl rfl rfl
  · next c a _ =>
    rcases conclude_eq_next.1 h with hr | ⟨m, hr, rfl⟩
    · have ht := (leaves_evictStep s c a).1 t hr
      have hm := fun h0 => (evictStep_wf h0 c a).1 t hr
      rw [ht] at hm ⊢
      exact .of_mem hm rfl rfl rfl
    · exact .refl _
  · next total active _ =>
    cases h
    rw [clockStep_pe]
    exact .of_mem id rfl rfl rfl

theorem step_evolves {s t : State} (h : step s = .next t) : Evolves s t := by
  unfold step at h
  split at h
  · next u hu =>
    cases h
    exact (agentStep_evolves hu).nextTurn
  · cases h
  · cases h

/-! ## The invariants -/

/-- Settles O57: whatever a step does (`Evolves`), it leaves memory and the caches in canonical form. -/
theorem stepKeepsMemoryCanonical : Obligations.StepKeepsMemoryCanonical :=
  fun _ _ hmem hstep => (step_evolves hstep).mem hmem

/-- Settles O58: a group after a step is one that goes on within its limits, or one that starts with empty stacks. -/
theorem stepKeepsGroupLimits : Obligations.StepKeepsGroupLimits := by
  intro s t hwf hstep g' hg'
  rcases (step_evolves hstep).groups g' hg' with ⟨g, hg, -, hkeep⟩ | ⟨hstart, -⟩
  · exact hkeep (hwf g hg)
  · exact hstart

/-- Settles O59: the descriptors come from format commands, which align them, those of launches from the MC, and those of groups
from launches. -/
theorem stepKeepsDescriptorsAligned : Obligations.StepKeepsDescriptorsAligned := by
  rintro s t ⟨hmc, hlaunch, hgroup⟩ hstep
  have e := step_evolves hstep
  refine ⟨e.descs hmc, fun l' hl' => ?_, fun g' hg' => ?_⟩
  · rcases e.launches l' hl' with ⟨l, hl, henv⟩ | hdescs
    · exact henv ▸ hlaunch l hl
    · exact hdescs ▸ hmc
  · rcases e.groups g' hg' with ⟨g, hg, henv, -⟩ | ⟨-, l, hl, henv⟩
    · exact henv ▸ hgroup g hg
    · exact henv ▸ hlaunch l hl

theorem ReadCache.wf_atReset (k : CacheId) : bytesWf (ReadCache.atReset k).bytes = true := bytesWf_tableOf _

theorem reset_mem_wf : State.reset.mem.wf = true := by
  refine (MemSys.wf_iff _).2 ⟨rfl, fun k => ?_, bytesWf_tableOf _, ReadCache.wf_atReset _, bytesWf_tableOf _⟩
  cases k <;> exact ReadCache.wf_atReset _

/-- Settles O60: the caches hold at reset what a list of bytes stands for, and no descriptor has been set. -/
theorem resetState : Obligations.ResetState :=
  ⟨rfl, rfl, rfl, rfl, rfl, reset_mem_wf, fun g hg => (nomatch hg), by decide⟩

end Sys2Proof.Machine
end

section
/-! SUPPORT. The commands: what none of them touches (R30, R46, R181), and the launch (R192, R196, R203). -/

namespace Sys2Proof.Machine

/-! ## What no command touches -/

/-- Settles O5: a command is done, still waits, or has left the PE stuck; only the first moves the read position. -/
theorem commandsKeepTheArray : Obligations.CommandsKeepTheArray := by
  intro i s t hi h
  rcases exec_command_cases hi h with (⟨u, hu, rfl⟩ | ⟨⟨p, hp⟩, hidle, rfl⟩) | ⟨m, -, rfl⟩
  · obtain ⟨hcur, hcons, hqueue, hissued, hopen, hstuck, hdist⟩ : u.pe.cur = s.pe.cur ∧ u.pe.consumed = s.pe.consumed ∧
        u.pe.queue = s.pe.queue ∧ u.pe.issued = s.pe.issued ∧ u.pe.isOpen = s.pe.isOpen ∧ u.pe.stuck = s.pe.stuck ∧
        u.pe.distStuck = s.pe.distStuck := by
      rw [hu.pe]
      exact ⟨rfl, rfl, rfl, rfl, rfl, rfl, rfl⟩
    have hprefix : s.pe.launches <+: u.pe.launches := by
      rcases hu.launches with heq | ⟨la, heq, -⟩
      · rw [heq]
      · rw [heq]
        exact List.prefix_append ..
    refine ⟨hu.groups, hu.program, hu.platform, hu.turn, ?_, ?_, ?_, ?_, ?_, hu.coStuck, ?_, ?_⟩
    · simpa using hprefix
    · simpa using hqueue
    · simpa using hissued
    · simpa using hopen
    · simpa using hdist
    · intro hs ht
      have ht : u.pe.stuck = true := by simpa using ht
      rw [hstuck, hs] at ht
      cases ht
    · intro _ _ c hc
      rw [← hcur] at hc
      rw [← hcons]
      exact ⟨fun hn => by simp [commandLen, Pe.advance_more hc hn], fun hn => by simp [commandLen, Pe.advance_last hc hn]⟩
  · refine ⟨rfl, rfl, rfl, rfl, List.prefix_rfl, rfl, rfl, rfl, rfl, rfl, fun _ _ => ⟨rfl, rfl⟩, fun _ hwait => ?_⟩
    rcases hwait with hwait | hwait
    · exact absurd hp (hwait p)
    · rw [hidle] at hwait
      cases hwait
  · exact ⟨rfl, rfl, rfl, rfl, List.prefix_rfl, rfl, rfl, rfl, rfl, rfl, fun _ _ => ⟨rfl, rfl⟩, fun hs => nomatch hs⟩

/-! ## The domain (R192) -/

theorem Domain.mem_pairs (d : Domain) (i j : BitVec 12) :
    (i, j) ∈ d.pairs ↔ d.i0 ≤ i ∧ i ≤ d.i1 ∧ d.j0 ≤ j ∧ j ≤ d.j1 := by
  have axis : ∀ lo hi x : BitVec 12,
      (∃ n < hi.toNat + 1 - lo.toNat, BitVec.ofNat 12 (lo.toNat + n) = x) ↔ lo ≤ x ∧ x ≤ hi := by
    intro lo hi x
    constructor
    · rintro ⟨n, hn, rfl⟩
      bv_omega
    · rintro ⟨h1, h2⟩
      exact ⟨x.toNat - lo.toNat, by bv_omega, by bv_omega⟩
  simp only [Domain.pairs, List.mem_flatMap, List.mem_map, List.mem_range, Prod.mk.injEq]
  rw [← and_assoc, ← axis d.i0 d.i1 i, ← axis d.j0 d.j1 j]
  constructor
  · rintro ⟨y, hy, x, hx, hi, hj⟩
    exact ⟨⟨x, hx, hi⟩, y, hy, hj⟩
  · rintro ⟨⟨x, hx, hi⟩, y, hy, hj⟩
    exact ⟨y, hy, x, hx, hi, hj⟩

/-- Each pair of the domain once. -/
theorem Domain.nodup_pairs (d : Domain) : d.pairs.Nodup := by
  have inj : ∀ (lo hi : BitVec 12) (m n : Nat), m < hi.toNat + 1 - lo.toNat → n < hi.toNat + 1 - lo.toNat →
      BitVec.ofNat 12 (lo.toNat + m) = BitVec.ofNat 12 (lo.toNat + n) → m = n := by
    intro lo hi m n hm hn h
    bv_omega
  unfold Domain.pairs
  rw [List.nodup_flatMap]
  constructor
  · intro y _
    refine List.Nodup.map_on (fun m hm n hn h => ?_) List.nodup_range
    exact inj d.i0 d.i1 m n (List.mem_range.1 hm) (List.mem_range.1 hn) (Prod.mk.inj h).1
  · refine List.Nodup.pairwise_of_forall_ne List.nodup_range fun m hm n hn hne => ?_
    intro x hx hx'
    obtain ⟨_, _, rfl⟩ := List.mem_map.1 hx
    obtain ⟨_, _, h⟩ := List.mem_map.1 hx'
    exact hne (inj d.j0 d.j1 m n (List.mem_range.1 hm) (List.mem_range.1 hn) (Prod.mk.inj h).2.symm)

/-! ## start_program (R196) -/

/-- The text is read through the instruction cache, which is all of memory that changes (R95, R105). -/
theorem loadText_eq_ok {p : Platform} {mem mem' : MemSys} {d : Desc} {n : Nat} {text : List Slot}
    (h : loadText p mem d n = .ok (text, mem')) : mem' = { mem with inst := mem'.inst } := by
  unfold loadText readBytes at h
  split at h
  · cases h
  · split at h
    · cases h
      rfl
    · cases h

/-- A chain that begins with a check is refused where the check fails or what follows it is refused. -/
theorem accept_bind_refused {α : Type} {c : Bool} {r : Refusal} {f : Unit → Res α}
    (h : c = false ∨ ∃ r', f () = .error (.refuse r')) : ∃ r', (accept c r >>= f) = .error (.refuse r') := by
  cases c with
  | false => exact ⟨r, rfl⟩
  | true => exact h.resolve_left (by decide)

/-- A program that is not admissible is refused (R323, R335, R488, R490). -/
theorem Program.admission_refused {p : Program}
    (h : p.headerBitsOk = false ∨ p.consistent = false ∨ p.usConfig.getLsbD 0 = true ∨ p.earlyExit = true) :
    ∃ r, p.admission = .error (.refuse r) := by
  refine accept_bind_refused (h.imp_right fun h => accept_bind_refused (h.imp_right fun h => accept_bind_refused ?_))
  rcases h with h | h
  · exact .inl (by rw [h]; rfl)
  · exact .inr ⟨.lastUnsupported, by rw [h]; rfl⟩

/-- Moving the read position does not see the launches. -/
theorem Pe.advance_withLaunches (pe : Pe) (ls : List Launch) (n : Nat) :
    { pe with launches := ls }.advance n = { pe.advance n with launches := ls } := by
  unfold Pe.advance
  dsimp only
  split
  · rfl
  · split <;> rfl

/-- A launch changes the list of launches only. -/
theorem State.addLaunch_eq (s : State) (l : Launch) :
    s.addLaunch l = { s with pe := { s.pe with launches := (s.addLaunch l).pe.launches } } := by
  unfold State.addLaunch
  split <;> rfl

/-- What start_program does with a loaded program, its one parameter being zero. -/
theorem exec_startProgram {s : State} {p : Program} (hp : s.program = some p) :
    exec (.startProgram 0#32) s = conclude s.peStuck (p.admission >>= fun _ =>
      loadText s.platform s.mem s.mc.descs.inst p.instrCnt.toNat >>= fun r =>
      textAgrees s.platform.layout p 0 r.1 >>= fun _ =>
      pure (({ s with mem := r.2 }.addLaunch { env := s.snapshot p r.1, todo := s.pe.domain.pairs }).retireCommand
        (.startProgram 0#32))) := by
  change conclude s.peStuck _ = _
  simp only [hp]
  rfl

/-- Settles O13: the launch has the snapshot of this moment and the pairs of the domain. -/
theorem startProgramLaunches : Obligations.StartProgramLaunches := by
  intro s
  refine ⟨fun hp => ?_, fun p hp hbad => ?_, fun p text mem hp hadm hload htext => ?_⟩
  · change conclude s.peStuck _ = _
    simp only [hp]
    rfl
  · have hbad' : p.headerBitsOk = false ∨ p.consistent = false ∨ p.usConfig.getLsbD 0 = true ∨ p.earlyExit = true := by
      rcases hbad with h | h | h | h | h | h
      · exact .inl (by simp [Program.headerBitsOk, h])
      · exact .inl (by simp [Program.headerBitsOk, h])
      · exact .inl (by simp [Program.headerBitsOk, h])
      · exact .inr (.inl h)
      · exact .inr (.inr (.inl (by rw [h]; rfl)))
      · exact .inr (.inr (.inr h))
    obtain ⟨r, hr⟩ := Program.admission_refused hbad'
    exact ⟨r, by rw [exec_startProgram hp, hr]; rfl⟩
  · refine ⟨({ s with mem := mem }.addLaunch { env := s.snapshot p text, todo := s.pe.domain.pairs }).retireCommand
      (.startProgram 0#32), ?_, ?_, ?_, s.pe.domain.pairs, s.pe.domain.nodup_pairs, s.pe.domain.mem_pairs, ?_, ?_⟩
    · rw [exec_startProgram hp, hadm, hload]
      simp only [ok_bind, htext]
      rfl
    · rw [State.addLaunch_eq, loadText_eq_ok hload]
      simp only [State.retireCommand, Pe.advance_withLaunches]
      rfl
    · intro a
      rw [State.retireCommand_mem, State.addLaunch_mem, loadText_eq_ok hload]
    · intro htodo
      simp [State.addLaunch_pe, htodo]
    · intro htodo
      simp [State.addLaunch_pe, htodo, State.snapshot]

end Sys2Proof.Machine
end

section
/-! SUPPORT. The stops of flow control at the limits of the stacks and counters (R62, R393, R400, R405), and the move of the work
distributor (R75, R197, R198). -/

namespace Sys2Proof.Machine

/-! ## The stacks -/

section
variable {g : Group}

/-- The top frame of a loop stack that is empty, or that partial mode lacks, is asked for in vain (R62, R405). -/
theorem topFrame_none {kind : Option FrameKind} (h : g.env.prog.fullMode = false ∨ g.loopStack = []) :
    topFrame g kind = .error (.fault .stackFault) := by
  unfold topFrame
  rcases h with h | h
  · simp [h]
  · simp [h]

/-- A top frame of the wrong kind (R405). -/
theorem topFrame_wrong {kind : FrameKind} {fr : Frame} {rest : List Frame} (hst : g.loopStack = fr :: rest)
    (hk : fr.kind ≠ kind) : topFrame g (some kind) = .error (.fault .stackFault) := by
  simp [topFrame, hst, Ne.symm hk]

theorem pushFrame_full {fr : Frame} (h : g.env.prog.fullMode = false ∨ 4 ≤ g.loopStack.length) :
    pushFrame g fr = .error (.fault .stackFault) := by
  unfold pushFrame
  rw [if_neg]
  rcases h with h | h
  · simp [h]
  · simp [h]

theorem fcTarget_push_full {f : FcInst} (hop : f.aOp = .push)
    (h : g.env.prog.fullMode = false ∨ 4 ≤ g.addrStack.length) : fcTarget g f true = .error (.fault .stackFault) := by
  rcases h with h | h
  · simp [fcTarget, hop, h]
  · simp [fcTarget, hop, h]

theorem fcTarget_pop_empty {f : FcInst} (hop : f.aOp = .pop) (h : g.env.prog.fullMode = false ∨ g.addrStack = []) :
    fcTarget g f true = .error (.fault .stackFault) := by
  cases hst : g.addrStack with
  | nil => simp [fcTarget, hop, hst]
  | cons a rest =>
    have hmode : g.env.prog.fullMode = false := h.resolve_right (by simp [hst])
    simp [fcTarget, hop, hst, hmode]

/-- With room on the address stack a flow-control instruction has a target. -/
theorem FcPlaced.target_ok {s : State} {f : FcInst} (c : FcPlaced s f) {jump : Bool} (h : jump = true → c.addressRoom) :
    ∃ tgt, fcTarget c.g f jump = .ok tgt := by
  cases jump with
  | false => exact ⟨_, rfl⟩
  | true =>
    obtain ⟨hpush, hpop⟩ := h rfl
    cases hop : f.aOp with
    | none => exact ⟨_, by simp [fcTarget, hop]; rfl⟩
    | push =>
      obtain ⟨hmode, hlen⟩ := hpush hop
      exact ⟨_, by simp [fcTarget, hop, hmode, hlen]; rfl⟩
    | pop =>
      obtain ⟨hmode, hne⟩ := hpop hop
      obtain ⟨a, rest, hst⟩ := List.exists_cons_of_ne_nil hne
      exact ⟨_, by simp [fcTarget, hop, hst, hmode]; rfl⟩

end

/-! ## Where a flow-control instruction stops -/

section
variable {i : Instr} {op : FcOp} {f : FcInst} {s : State} (c : FcPlaced s f) (hi : i.fc? = some (op, f)) {e : Fault}
include c hi

/-- An instruction that comes to the vote makes its loop operation, its address-stack operation and its branch operation in this
order, each once those before it have answered (R382 steps 6 to 9). -/
theorem FcPlaced.exec_steps :
    ∃ rest : LoopResult → Nat × List Nat → List Voter → Res State,
      exec i s = conclude s.turnStuck (fcLoop s.platform c.g op f (c.voters op) c.mem >>= fun r =>
        fcTarget c.g f r.jump >>= fun tgt => branchOp c.g f r.jump r.voters >>= rest r tgt) := by
  have hf : f.wellFormed = true := by simpa [FcInst.wellFormed] using c.fields
  have hbool : fcBoolean s.platform (waitedGroup c.g f.aluWait f.semWait).env.descs.constb f s.mem = .ok (c.boolean, c.mem) :=
    c.bool
  rw [exec_fc hi, c.toFcFields.run, fcRest, hbool]
  simp only [ok_bind, require, hf, if_true]
  exact ⟨_, rfl⟩

/-- A loop operation that stops stops the instruction. -/
theorem FcPlaced.stops_at_loop (h : fcLoop s.platform c.g op f (c.voters op) c.mem = .error (.fault e)) :
    exec i s = .fault e := by
  obtain ⟨rest, hrest⟩ := c.exec_steps hi
  rw [hrest, h]
  rfl

/-- An address-stack operation that stops stops the instruction that comes to it. -/
theorem FcPlaced.stops_at_target {r : LoopResult} (hl : fcLoop s.platform c.g op f (c.voters op) c.mem = .ok r)
    (h : fcTarget c.g f r.jump = .error (.fault e)) : exec i s = .fault e := by
  obtain ⟨rest, hrest⟩ := c.exec_steps hi
  rw [hrest, hl, ok_bind, h]
  rfl

/-- A branch operation that stops stops the instruction that comes to it. -/
theorem FcPlaced.stops_at_branch {r : LoopResult} {tgt : Nat × List Nat}
    (hl : fcLoop s.platform c.g op f (c.voters op) c.mem = .ok r) (ht : fcTarget c.g f r.jump = .ok tgt)
    (h : branchOp c.g f r.jump r.voters = .error (.fault e)) : exec i s = .fault e := by
  obtain ⟨rest, hrest⟩ := c.exec_steps hi
  rw [hrest, hl, ok_bind, ht, ok_bind, h]
  rfl

end

section
variable {s : State} {f : FcInst} (c : FcPlaced s f) {op : FcOp}

/-- The operations that need a frame stop without one, or in partial mode (R62, R405). -/
theorem FcPlaced.loop_noFrame (hop : op ∈ [.endloop, .endrep, .breakloop, .breakrep, .cont])
    (h : c.g.env.prog.fullMode = false ∨ c.g.loopStack = []) :
    fcLoop s.platform c.g op f (c.voters op) c.mem = .error (.fault .stackFault) := by
  have top : ∀ kind, topFrame c.g kind = .error (.fault .stackFault) := fun _ => topFrame_none h
  cases op with
  | jump | loop | rep => simp at hop
  | endloop | endrep => simp only [fcLoop, endLoop, top, error_bind]
  | breakloop | breakrep => simp only [fcLoop, breakLoop, top, error_bind]
  | cont => simp only [fcLoop, continueLoop, top, error_bind]

/-- A frame of the other kind stops them as well (R405). -/
theorem FcPlaced.loop_wrongFrame {fr : Frame} {rest : List Frame} (hst : c.g.loopStack = fr :: rest)
    (h : (op ∈ [.endloop, .breakloop] ∧ fr.kind = .rep) ∨ (op ∈ [.endrep, .breakrep] ∧ fr.kind = .loop)) :
    fcLoop s.platform c.g op f (c.voters op) c.mem = .error (.fault .stackFault) := by
  have top : ∀ kind, fr.kind ≠ kind → topFrame c.g (some kind) = .error (.fault .stackFault) := fun _ => topFrame_wrong hst
  rcases h with ⟨hop, hk⟩ | ⟨hop, hk⟩
  · have top := top .loop (by simp [hk])
    cases op with
    | endloop => simp only [fcLoop, endLoop, top, error_bind]
    | breakloop => simp only [fcLoop, breakLoop, top, error_bind]
    | _ => simp at hop
  · have top := top .rep (by simp [hk])
    cases op with
    | endrep => simp only [fcLoop, endLoop, top, error_bind]
    | breakrep => simp only [fcLoop, breakLoop, top, error_bind]
    | _ => simp at hop

/-- LOOP and REP that enter their loop stop where there is no room for a frame (R62, R405). -/
theorem FcPlaced.loop_noRoom (hop : op ∈ [.loop, .rep])
    (h : c.g.env.prog.fullMode = false ∨ 4 ≤ c.g.loopStack.length) (hvote : ¬ decides f (c.voters op)) {count : Nat}
    {a0 d : Int} {mem : MemSys} (hcount : count ≠ 0)
    (hr : readConsti s.platform c.mem c.g.env.descs.consti f.intAddr.toNat = .ok ((count, a0, d), mem)) :
    fcLoop s.platform c.g op f (c.voters op) c.mem = .error (.fault .stackFault) := by
  have hjump : (count == 0 || vote f (c.voters op)) = false := by
    have hv : vote f (c.voters op) = true ↔ decides f (c.voters op) := vote_iff fun v hv => fcVoters_voter hv
    simp [hcount, mt hv.1 hvote]
  have begin : ∀ kind, beginLoop s.platform c.g kind f (c.voters op) c.mem = .error (.fault .stackFault) := by
    intro kind
    simp only [beginLoop, hr, ok_bind, hjump, Bool.false_eq_true, if_false, pushFrame_full h, error_bind]
  cases op with
  | loop => exact begin .loop
  | rep => exact begin .rep
  | _ => simp at hop

/-- INCR stops at a processor that stands at the limit, that its loop operation leaves in the loop and that IGNORE_UNCOVERED does
not exclude (R387, R400, R404). -/
theorem FcPlaced.branch_overflow {jump : Bool} {vs : List Voter}
    (hvs : vs = (c.voters op).map fun v => { v with lane := { v.lane with loopOff := c.offAfter op jump v } })
    (hb : (if jump = true then f.bOp1 else f.bOp0) = .incr)
    (h : ∃ v ∈ c.voters op, c.offAfter op jump v = none ∧ v.lane.active = false ∧
      (f.ignoreUncovered = true → v.lane.covered = true) ∧ c.g.env.prog.branchMax ≤ v.lane.bcnt) :
    branchOp c.g f jump vs = .error (.fault .branchCounterOverflow) := by
  obtain ⟨v, hv, hoff, hact, hcov, hmax⟩ := h
  have hmem : { v with lane := { v.lane with loopOff := c.offAfter op jump v } } ∈ vs := by
    rw [hvs]
    exact List.mem_map_of_mem hv
  unfold branchOp
  rw [hb]
  refine incrAll_full ⟨_, hmem, hoff, ?_, hact, hmax⟩
  unfold Voter.excluded
  cases hu : f.ignoreUncovered with
  | false => rfl
  | true => simp [hcov hu]

end

/-- Settles O47: each of the three steps that may stop, the loop operation, the address stack and the branch operation, comes after
those before it have answered. -/
theorem stackAndCounterLimits : Obligations.StackAndCounterLimits := by
  refine ⟨fun i op f s c hi => ⟨fun hop h => ?_, fun fr rest hst h => ?_, fun hop h hvote count a0 d mem hcount hr => ?_⟩,
    fun i op f s c hi => ⟨fun hdec => ?_, fun jump hdec hroom hb h => ?_⟩⟩
  · exact c.stops_at_loop hi (c.loop_noFrame hop h)
  · exact c.stops_at_loop hi (c.loop_wrongFrame hst h)
  · exact c.stops_at_loop hi (c.loop_noRoom hop h hvote hcount hr)
  · obtain ⟨r, hl, hj, -⟩ := c.loop (op := op) (jump := true) (by simpa using hdec)
    exact ⟨fun hop h => c.stops_at_target hi hl (by rw [hj]; exact fcTarget_push_full hop h),
      fun hop h => c.stops_at_target hi hl (by rw [hj]; exact fcTarget_pop_empty hop h)⟩
  · obtain ⟨r, hl, rfl, hvs⟩ := c.loop hdec
    obtain ⟨tgt, ht⟩ := c.target_ok hroom
    exact c.stops_at_branch hi hl ht (c.branch_overflow hvs hb h)

/-! ## The work distributor -/

section
variable {s : State} {a b proc : Nat} {join : Option Nat} {la : Launch} {i j : BitVec 12}

/-- A processor may be placed in the group that the turn names where that runs the same snapshot and has not started (log 9). -/
theorem joinable_of_group {gs : List Group} {env : Snapshot}
    (h : ∀ k, join = some k → ∃ g, gs[k]? = some g ∧ g.started = false ∧ g.halted = false ∧ g.env = env) :
    joinable gs env join = true := by
  cases join with
  | none => rfl
  | some k =>
    obtain ⟨g, hg, hstarted, hhalted, henv⟩ := h k rfl
    simp [joinable, hg, hstarted, hhalted, henv]

theorem placeLane_some {gs : List Group} {k : Nat} {g : Group} (hg : gs[k]? = some g) (env : Snapshot) (l : Lane) :
    placeLane gs env l (some k) = gs.set k { g with lanes := g.lanes ++ [l] } := by
  simp [placeLane, hg]

/-- The pair is taken out of its launch, and its processor placed where the test passes (R75, R198). -/
def distributed (s : State) (a b proc : Nat) (join : Option Nat) (la : Launch) (i j : BitVec 12) (r : Bool × MemSys) : State :=
  let s1 := { s with mem := r.2, pe := { s.pe with launches := dropPair s.pe.launches a b }, draws := s.draws + 8 }
  if r.1 then { s1 with groups := placeLane s.groups la.env (Lane.start (s.draws + 1) proc i j la.env.condVal) join } else s1

/-- With a pair, an idle processor and a group to place it in, the distributor makes its test and hands the pair on. -/
theorem distStep_eq (hstuck : s.pe.distStuck = false) (hla : s.pe.launches[a]? = some la) (hpair : la.todo[b]? = some (i, j))
    (hproc : proc < s.platform.nproc) (hbusy : s.busy proc = false) (hjoin : joinable s.groups la.env join = true) :
    distStep s a b proc join = (distTest s la.env i j).map (distributed s a b proc join la i j) := by
  have htakes : (!s.pe.distStuck && decide (proc < s.platform.nproc) && !s.busy proc && joinable s.groups la.env join) = true := by
    simp [hstuck, hproc, hbusy, hjoin]
  unfold distStep
  simp only [hla, hpair, htakes, if_true]
  cases distTest s la.env i j with
  | error e => rfl
  | ok r => rfl

theorem dropPair_last (hla : s.pe.launches[a]? = some la) (h : la.todo.eraseIdx b = []) :
    dropPair s.pe.launches a b = s.pe.launches.eraseIdx a := by
  simp [dropPair, hla, h]

theorem dropPair_more (hla : s.pe.launches[a]? = some la) (h : la.todo.eraseIdx b ≠ []) :
    dropPair s.pe.launches a b = s.pe.launches.set a { la with todo := la.todo.eraseIdx b } := by
  simp [dropPair, hla, h]

end

/-- Settles O55: the distributor's move is its test and then `distributed`. -/
theorem distributorStartsProcessors : Obligations.DistributorStartsProcessors := by
  intro s a b proc join la i j hturn hstuck hla hpair hproc hbusy hjoin
  have hstep : agentStep s =
      conclude s.distStuck ((distTest s la.env i j).map (distributed s a b proc join la i j)) := by
    rw [← distStep_eq hstuck hla hpair hproc hbusy (joinable_of_group hjoin), agentStep, hturn]
  refine ⟨fun mem hloc hanswer => ?_, fun pass mem hpe hdpp => ?_⟩
  · have htest : distTest s la.env i j = .error (.stuck mem) := by rw [distTest, if_pos hloc, hanswer]
    rw [step, hstep, htest]
    rfl
  · have htest : distTest s la.env i j = .ok (pass, mem) := by
      unfold distTest
      cases hloc : la.env.condLoc with
      | true => exact hpe hloc
      | false =>
        obtain ⟨rfl, rfl⟩ := hdpp hloc
        rfl
    refine ⟨(distributed s a b proc join la i j (pass, mem)).nextTurn, by rw [step, hstep, htest]; rfl, ?_⟩
    cases pass with
    | false =>
      exact ⟨rfl, dropPair_last hla, dropPair_more hla, fun _ => rfl, fun h => nomatch h⟩
    | true =>
      refine ⟨rfl, dropPair_last hla, dropPair_more hla, fun h => (nomatch h), fun _ =>
        ⟨Lane.start (s.draws + 1) proc i j la.env.condVal, rfl, rfl, rfl, rfl, rfl, rfl, rfl, rfl, rfl, rfl, rfl, rfl, rfl, rfl,
          rfl, ?_, ?_⟩⟩
      · rintro rfl
        rfl
      · rintro k g rfl hg
        exact placeLane_some hg la.env _

end Sys2Proof.Machine
end

section
/-! SUPPORT. Encoding and decoding undo each other (R82, R132, R165 to R172): the bytes of a word, the fields of a packed
word, the codes of the enumerations, the three kinds of slot, the commands. -/

namespace Sys2Proof

/-! ## Bytes and words (R82) -/

/-- The bytes of a word, lowest first, stand for it. -/
theorem wordOfBytes_byteOfWord (w : Word) :
    wordOfBytes (byteOfWord w 0) (byteOfWord w 1) (byteOfWord w 2) (byteOfWord w 3) = w := by
  have hw := w.isLt
  apply BitVec.eq_of_toNat_eq
  simp only [wordOfBytes, byteOfWord, BitVec.toNat_ofNat]
  omega

theorem wordsOfBytes_bytesOfWords (ws : List Word) : wordsOfBytes (bytesOfWords ws) = ws := by
  induction ws with
  | nil => rfl
  | cons w ws ih =>
    calc wordsOfBytes (bytesOfWords (w :: ws))
        = wordOfBytes (byteOfWord w 0) (byteOfWord w 1) (byteOfWord w 2) (byteOfWord w 3) :: wordsOfBytes (bytesOfWords ws) := rfl
      _ = w :: ws := by rw [wordOfBytes_byteOfWord, ih]

/-! ## The fields of a packed word (R7) -/

/-- A field that a word is packed from: its lowest bit, its width, and a value that fits into it. -/
structure BitField where
  pos : Nat
  len : Nat
  val : Nat
  fits : val < 2 ^ len

/-- A field of one bit. -/
abbrev BitField.flag (pos : Nat) (b : Bool) : BitField := ⟨pos, 1, b.toNat, b.toNat_lt⟩

/-- A field that holds a number of its own width. -/
abbrev BitField.bits (pos : Nat) {n : Nat} (x : BitVec n) : BitField := ⟨pos, n, x.toNat, x.isLt⟩

/-- The word of a list of fields. -/
def packFields (fs : List BitField) : Word := packWord (fs.map fun f => (f.pos, f.val))

/-- The number that a list of fields adds up to. -/
def fieldSum (fs : List BitField) : Nat := (fs.map fun f => f.val * 2 ^ f.pos).sum

/-- The fields follow one another from bit `lo` on and end below bit `hi`. -/
def fieldsPlaced (hi : Nat) : Nat → List BitField → Bool
  | lo, [] => decide (lo ≤ hi)
  | lo, f :: rest => decide (lo ≤ f.pos) && fieldsPlaced hi (f.pos + f.len) rest

theorem fieldsPlaced_cons {hi lo : Nat} {f : BitField} {rest : List BitField} :
    fieldsPlaced hi lo (f :: rest) = true ↔ lo ≤ f.pos ∧ fieldsPlaced hi (f.pos + f.len) rest = true := by
  simp [fieldsPlaced]

/-- Fields from bit `lo` on leave the bits below it zero. -/
theorem dvd_fieldSum {hi lo : Nat} {fs : List BitField} (h : fieldsPlaced hi lo fs = true) : 2 ^ lo ∣ fieldSum fs := by
  induction fs generalizing lo with
  | nil => exact dvd_zero _
  | cons f rest ih =>
    obtain ⟨hlo, hrest⟩ := fieldsPlaced_cons.1 h
    have hf : 2 ^ lo ∣ f.val * 2 ^ f.pos := Dvd.dvd.mul_left (pow_dvd_pow 2 hlo) _
    exact dvd_add hf ((pow_dvd_pow 2 (by omega)).trans (ih hrest))

/-- Fields that end below bit `hi` add up to less than that bit stands for. -/
theorem fieldSum_lt {hi lo : Nat} {fs : List BitField} (h : fieldsPlaced hi lo fs = true) : fieldSum fs + 2 ^ lo ≤ 2 ^ hi := by
  induction fs generalizing lo with
  | nil =>
    have hlo : lo ≤ hi := by simpa [fieldsPlaced] using h
    simpa [fieldSum] using Nat.pow_le_pow_right two_pos hlo
  | cons f rest ih =>
    obtain ⟨hlo, hrest⟩ := fieldsPlaced_cons.1 h
    calc fieldSum (f :: rest) + 2 ^ lo
        ≤ f.val * 2 ^ f.pos + fieldSum rest + 2 ^ f.pos := Nat.add_le_add_left (Nat.pow_le_pow_right two_pos hlo) _
      _ = (f.val + 1) * 2 ^ f.pos + fieldSum rest := by ring
      _ ≤ 2 ^ f.len * 2 ^ f.pos + fieldSum rest := Nat.add_le_add_right (Nat.mul_le_mul_right _ f.fits) _
      _ = fieldSum rest + 2 ^ (f.pos + f.len) := by ring
      _ ≤ 2 ^ hi := ih hrest

/-- A field that follows bit `lo` starts there or above. -/
theorem le_pos_of_mem {hi lo : Nat} {fs : List BitField} (h : fieldsPlaced hi lo fs = true) : ∀ f ∈ fs, lo ≤ f.pos := by
  induction fs generalizing lo with
  | nil => simp
  | cons g rest ih =>
    obtain ⟨hlo, hrest⟩ := fieldsPlaced_cons.1 h
    intro f hf
    rcases List.mem_cons.1 hf with rfl | hf
    · exact hlo
    · have := ih hrest f hf
      omega

/-- Each field is read back from the sum: the fields below it fill only lower bits, those above it only higher ones. -/
theorem div_mod_fieldSum {hi lo : Nat} {fs : List BitField} (h : fieldsPlaced hi lo fs = true) :
    ∀ f ∈ fs, fieldSum fs / 2 ^ f.pos % 2 ^ f.len = f.val := by
  induction fs generalizing lo with
  | nil => simp
  | cons g rest ih =>
    obtain ⟨-, hrest⟩ := fieldsPlaced_cons.1 h
    obtain ⟨q, hq⟩ := dvd_fieldSum hrest
    have hsum : fieldSum (g :: rest) = 2 ^ g.pos * (g.val + 2 ^ g.len * q) := by
      rw [show fieldSum (g :: rest) = g.val * 2 ^ g.pos + fieldSum rest from rfl, hq]
      ring
    intro f hf
    rcases List.mem_cons.1 hf with rfl | hf
    · rw [hsum, Nat.mul_div_cancel_left _ (Nat.two_pow_pos _), Nat.add_mul_mod_self_left, Nat.mod_eq_of_lt f.fits]
    · obtain ⟨d, hd⟩ := Nat.exists_eq_add_of_le (le_pos_of_mem hrest f hf)
      have hskip : fieldSum (g :: rest) / 2 ^ (g.pos + g.len) = fieldSum rest / 2 ^ (g.pos + g.len) := by
        rw [hq, Nat.mul_div_cancel_left _ (Nat.two_pow_pos _), pow_add, ← Nat.div_div_eq_div_mul, hsum,
          Nat.mul_div_cancel_left _ (Nat.two_pow_pos _), Nat.add_mul_div_left _ _ (Nat.two_pow_pos _),
          Nat.div_eq_of_lt g.fits, Nat.zero_add]
      rw [← ih hrest f hf, hd, pow_add, ← Nat.div_div_eq_div_mul, ← Nat.div_div_eq_div_mul, hskip]

theorem packFields_eq (fs : List BitField) : packFields fs = BitVec.ofNat 32 (fieldSum fs) := by
  simp [packFields, packWord, fieldSum, Function.comp_def]

section
variable {hi : Nat} {fs : List BitField} (h : fieldsPlaced hi 0 fs = true) (hhi : hi ≤ 32)
include h

/-- A packed word has no bit at or above the end of its fields. -/
theorem packFields_lt : (packFields fs).toNat < 2 ^ hi := by
  have hlt := fieldSum_lt h
  rw [packFields_eq, BitVec.toNat_ofNat]
  exact (Nat.mod_le _ _).trans_lt (by omega)

include hhi

theorem packFields_toNat : (packFields fs).toNat = fieldSum fs := by
  have hlt := fieldSum_lt h
  have hpow : 2 ^ hi ≤ 2 ^ 32 := Nat.pow_le_pow_right two_pos hhi
  rw [packFields_eq, BitVec.toNat_ofNat, Nat.mod_eq_of_lt (by omega)]

/-- A field of a packed word holds what was packed. -/
theorem field_packFields : ∀ f ∈ fs, field (packFields fs) f.pos f.len = f.val := by
  intro f hf
  rw [field, packFields_toNat h hhi]
  exact div_mod_fieldSum h f hf

end

/-- A narrower field at the same place. -/
theorem field_narrow (w : Word) (lo : Nat) {m n : Nat} (h : m ≤ n) : field w lo m = field w lo n % 2 ^ m :=
  (Nat.mod_mod_of_dvd _ (pow_dvd_pow 2 h)).symm

@[simp] theorem toNat_beq_one (b : Bool) : (b.toNat == 1) = b := by cases b <;> rfl

/-- A field of one bit read as a flag. -/
theorem fieldBool_of_field {w : Word} {lo : Nat} {b : Bool} (h : field w lo 1 = b.toNat) : fieldBool w lo = b := by
  rw [fieldBool, h]
  exact toNat_beq_one b

theorem fieldBits_of_field {w : Word} {lo n : Nat} {x : BitVec n} (h : field w lo n = x.toNat) : fieldBits w lo n = x := by
  rw [fieldBits, h]
  simp

/-! ## The codes of the enumerations (R149, R154, R168 to R172) -/

theorem PredSel.code_lt (p : PredSel) : p.code < 2 ^ 3 := by cases p <;> decide
theorem RgbOp.code_lt (op : RgbOp) : op.code < 2 ^ 4 := by cases op <;> decide
theorem AlphaOp.code_lt (op : AlphaOp) : op.code < 2 ^ 4 := by cases op <;> decide
theorem SrcSel.code_lt (x : SrcSel) : x.code < 2 ^ 2 := by cases x <;> decide
theorem Swz.code_lt (x : Swz) : x.code < 2 ^ 3 := by cases x <;> decide
theorem IMod.code_lt (x : IMod) : x.code < 2 ^ 2 := by cases x <;> decide
theorem OMod.code_lt (x : OMod) : x.code < 2 ^ 3 := by cases x <;> decide
theorem SrcpOp.code_lt (x : SrcpOp) : x.code < 2 ^ 2 := by cases x <;> decide
theorem CmpOp.code_lt (x : CmpOp) : x.code < 2 ^ 2 := by cases x <;> decide
theorem ResultSel.code_lt (x : ResultSel) : x.code < 2 ^ 1 := by cases x <;> decide
theorem Target.code_lt (x : Target) : x.code < 2 ^ 2 := by cases x <;> decide
theorem Chan.idx_lt (x : Chan) : x.idx < 2 ^ 2 := by cases x <;> decide
theorem AOp.code_lt (x : AOp) : x.code < 2 ^ 2 := by cases x <;> decide
theorem BOp.code_lt (x : BOp) : x.code < 2 ^ 2 := by cases x <;> decide
theorem TexOp.code_lt (x : TexOp) : x.code < 2 ^ 3 := by cases x <;> decide
theorem FcOp.code_lt (x : FcOp) : x.code < 2 ^ 3 := by cases x <;> decide

@[simp] theorem PredSel.ofCode_code (p : PredSel) : PredSel.ofCode p.code = some p := by cases p <;> rfl
@[simp] theorem RgbOp.ofCode_code (op : RgbOp) : RgbOp.ofCode op.code = some op := by cases op <;> rfl
@[simp] theorem AlphaOp.ofCode_code (op : AlphaOp) : AlphaOp.ofCode op.code = some op := by cases op <;> rfl
@[simp] theorem SrcSel.ofCode_code (x : SrcSel) : SrcSel.ofCode x.code = x := by cases x <;> rfl
@[simp] theorem Swz.ofCode_code (x : Swz) : Swz.ofCode x.code = some x := by cases x <;> rfl
@[simp] theorem IMod.ofCode_code (x : IMod) : IMod.ofCode x.code = x := by cases x <;> rfl
@[simp] theorem OMod.ofCode_code (x : OMod) : OMod.ofCode x.code = x := by cases x <;> rfl
@[simp] theorem SrcpOp.ofCode_code (x : SrcpOp) : SrcpOp.ofCode x.code = x := by cases x <;> rfl
@[simp] theorem CmpOp.ofCode_code (x : CmpOp) : CmpOp.ofCode x.code = x := by cases x <;> rfl
@[simp] theorem ResultSel.ofCode_code (x : ResultSel) : ResultSel.ofCode x.code = x := by cases x <;> rfl
@[simp] theorem Chan.ofCode_idx (x : Chan) : Chan.ofCode x.idx = x := by cases x <;> rfl
@[simp] theorem AOp.ofCode_code (x : AOp) : AOp.ofCode x.code = some x := by cases x <;> rfl
@[simp] theorem BOp.ofCode_code (x : BOp) : BOp.ofCode x.code = some x := by cases x <;> rfl
@[simp] theorem TexOp.ofCode_code (x : TexOp) : TexOp.ofCode x.code = some x := by cases x <;> rfl
@[simp] theorem FcOp.ofCode_code (x : FcOp) : FcOp.ofCode x.code = x := by cases x <;> rfl

/-- A target comes back where it has a code (R168). -/
theorem Target.ofCode_code {x : Target} (h : x.encodable = true) : Target.ofCode x.code = x := by
  cases x with
  | t0 | t1 | t2 | t3 => rfl
  | _ => cases h

/-! ## The fields of an ALU or OUTPUT slot (R166 to R170) -/

/-- The fields of `CMN_INST` of an ALU or OUTPUT slot; the first is the two bits that tell the three kinds of slot apart. -/
def aluCmnFields (f : AluInst) : List BitField :=
  [⟨0, 2, f.isOutput.toNat, f.isOutput.toNat_lt.trans (by decide)⟩, .flag 2 f.semWait, ⟨3, 3, _, f.rgbPredSel.code_lt⟩,
   .flag 6 f.rgbPredInv, .flag 7 f.writeInactive, .flag 8 f.last, .flag 9 f.nop, .bits 11 f.rgbWmask, .flag 14 f.alphaWmask,
   .bits 15 f.rgbOmask, .flag 18 f.alphaOmask, .flag 19 f.rgbClamp, .flag 20 f.alphaClamp, ⟨21, 1, _, f.resultSel.code_lt⟩,
   .flag 22 f.alphaPredInv, ⟨23, 2, _, f.resultOp.code_lt⟩, ⟨25, 3, _, f.alphaPredSel.code_lt⟩]

def SrcAddr.bitFields (s : SrcAddr) (lo : Nat) : List BitField :=
  [.bits lo s.addr, .flag (lo + 8) s.const, .flag (lo + 9) s.rel]

def AddrWord.bitFields (a : AddrWord) : List BitField :=
  a.s0.bitFields 0 ++ a.s1.bitFields 10 ++ a.s2.bitFields 20 ++ [⟨30, 2, _, a.srcp.code_lt⟩]

def RgbOperand.bitFields (o : RgbOperand) (lo : Nat) : List BitField :=
  [⟨lo, 2, _, o.sel.code_lt⟩, ⟨lo + 2, 3, _, o.red.code_lt⟩, ⟨lo + 5, 3, _, o.green.code_lt⟩, ⟨lo + 8, 3, _, o.blue.code_lt⟩,
   ⟨lo + 11, 2, _, o.mod.code_lt⟩]

def AlphaOperand.bitFields (o : AlphaOperand) (lo : Nat) : List BitField :=
  [⟨lo, 2, _, o.sel.code_lt⟩, ⟨lo + 2, 3, _, o.swz.code_lt⟩, ⟨lo + 5, 2, _, o.mod.code_lt⟩]

/-- The fields of the word of the first two RGB operands. -/
def aluRgbFields (f : AluInst) : List BitField :=
  f.rgbA.bitFields 0 ++ f.rgbB.bitFields 13 ++
    [⟨26, 3, _, f.rgbOmod.code_lt⟩, ⟨29, 2, _, f.rgbTarget.code_lt⟩, .flag 31 f.aluWmask]

/-- The fields of the word of the alpha operation and its first two operands. -/
def aluAlphaFields (aop : AlphaOp) (f : AluInst) : List BitField :=
  [⟨0, 4, _, aop.code_lt⟩, .bits 4 f.alphaDst, .flag 11 f.alphaDstRel] ++ f.alphaA.bitFields 12 ++ f.alphaB.bitFields 19 ++
    [⟨26, 3, _, f.alphaOmod.code_lt⟩, ⟨29, 2, _, f.alphaTarget.code_lt⟩, .flag 31 f.wOmask]

/-- The fields of the word of the RGB operation and both third operands. -/
def aluRgbaFields (rop : RgbOp) (f : AluInst) : List BitField :=
  [⟨0, 4, _, rop.code_lt⟩, .bits 4 f.rgbDst, .flag 11 f.rgbDstRel] ++ f.rgbC.bitFields 12 ++ f.alphaC.bitFields 25

theorem encodeAddrWord_eq (a : AddrWord) : encodeAddrWord a = packFields a.bitFields := rfl

theorem encodeAlu_eq (rop : RgbOp) (aop : AlphaOp) (f : AluInst) :
    encodeAlu rop aop f =
      ⟨packFields (aluCmnFields f), encodeAddrWord f.rgbAddr, encodeAddrWord f.alphaAddr, packFields (aluRgbFields f),
        packFields (aluAlphaFields aop f), packFields (aluRgbaFields rop f)⟩ := rfl

section
variable {w : Word} {lo : Nat}

theorem decodeSrcAddr_of_fields {s : SrcAddr} (h : ∀ f ∈ s.bitFields lo, field w f.pos f.len = f.val) :
    decodeSrcAddr w lo = s := by
  simp only [SrcAddr.bitFields, List.forall_mem_cons] at h
  obtain ⟨haddr, hconst, hrel, -⟩ := h
  rw [decodeSrcAddr, fieldBits_of_field haddr, fieldBool_of_field hconst, fieldBool_of_field hrel]

theorem decodeRgbOperand_of_fields {o : RgbOperand} (h : ∀ f ∈ o.bitFields lo, field w f.pos f.len = f.val) :
    decodeRgbOperand w lo = some o := by
  simp only [RgbOperand.bitFields, List.forall_mem_cons] at h
  obtain ⟨hsel, hred, hgreen, hblue, hmod, -⟩ := h
  simp [decodeRgbOperand, hsel, hred, hgreen, hblue, hmod]

theorem decodeAlphaOperand_of_fields {o : AlphaOperand} (h : ∀ f ∈ o.bitFields lo, field w f.pos f.len = f.val) :
    decodeAlphaOperand w lo = some o := by
  simp only [AlphaOperand.bitFields, List.forall_mem_cons] at h
  obtain ⟨hsel, hswz, hmod, -⟩ := h
  simp [decodeAlphaOperand, hsel, hswz, hmod]

end

theorem decodeAddrWord_encode (a : AddrWord) : decodeAddrWord (encodeAddrWord a) = a := by
  rw [encodeAddrWord_eq]
  have h := field_packFields (fs := a.bitFields) (hi := 32) rfl le_rfl
  generalize packFields a.bitFields = w at h ⊢
  simp only [AddrWord.bitFields, List.forall_mem_append, List.forall_mem_singleton] at h
  obtain ⟨⟨⟨h0, h1⟩, h2⟩, hsrcp⟩ := h
  simp [decodeAddrWord, decodeSrcAddr_of_fields h0, decodeSrcAddr_of_fields h1, decodeSrcAddr_of_fields h2, hsrcp]

/-- An ALU or OUTPUT slot gives its fields back where its targets have codes (R168). -/
theorem decodeAlu_encodeAlu (rop : RgbOp) (aop : AlphaOp) {f : AluInst} (hr : f.rgbTarget.encodable = true)
    (ha : f.alphaTarget.encodable = true) : decodeAlu (encodeAlu rop aop f) = some (rop, aop, f) := by
  rw [encodeAlu_eq]
  have h0 := field_packFields (fs := aluCmnFields f) (hi := 32) rfl le_rfl
  have h3 := field_packFields (fs := aluRgbFields f) (hi := 32) rfl le_rfl
  have h4 := field_packFields (fs := aluAlphaFields aop f) (hi := 32) rfl le_rfl
  have h5 := field_packFields (fs := aluRgbaFields rop f) (hi := 32) rfl le_rfl
  generalize packFields (aluCmnFields f) = w0 at h0 ⊢
  generalize packFields (aluRgbFields f) = w3 at h3 ⊢
  generalize packFields (aluAlphaFields aop f) = w4 at h4 ⊢
  generalize packFields (aluRgbaFields rop f) = w5 at h5 ⊢
  simp only [aluRgbFields, aluAlphaFields, aluRgbaFields, List.forall_mem_append] at h3 h4 h5
  obtain ⟨⟨hrgbA, hrgbB⟩, h3⟩ := h3
  obtain ⟨⟨⟨h4, halphaA⟩, halphaB⟩, h4'⟩ := h4
  obtain ⟨⟨h5, hrgbC⟩, halphaC⟩ := h5
  simp only [aluCmnFields, List.forall_mem_cons] at h0 h3 h4 h4' h5
  obtain ⟨houtput, h0⟩ := h0
  have houtput : field w0 0 1 = f.isOutput.toNat := by
    rw [field_narrow w0 0 (n := 2) (by decide), houtput]
    exact Nat.mod_eq_of_lt f.isOutput.toNat_lt
  simp [decodeAlu, decodeAddrWord_encode, decodeRgbOperand_of_fields hrgbA, decodeRgbOperand_of_fields hrgbB,
    decodeRgbOperand_of_fields hrgbC, decodeAlphaOperand_of_fields halphaA, decodeAlphaOperand_of_fields halphaB,
    decodeAlphaOperand_of_fields halphaC, houtput, h0, h3, h4, h4', h5, fieldBool, fieldBits, Target.ofCode_code hr,
    Target.ofCode_code ha]

/-! ## The fields of a texture slot (R166, R171) -/

def texCmnFields (f : TexInst) : List BitField :=
  [⟨0, 2, 3, by decide⟩, .flag 2 f.semWait, ⟨3, 3, _, f.rgbPredSel.code_lt⟩, .flag 6 f.rgbPredInv, .flag 7 f.writeInactive,
   .flag 10 f.aluWait, .bits 11 f.rgbWmask, .flag 14 f.alphaWmask, .flag 22 f.alphaPredInv, ⟨25, 3, _, f.alphaPredSel.code_lt⟩]

def texOpFields (op : TexOp) (f : TexInst) : List BitField :=
  [.bits 16 f.texId, ⟨22, 3, _, op.code_lt⟩, .flag 25 f.semAcquire, .flag 26 f.ignoreUncovered, .flag 27 f.unscaled]

def texAddrFields (f : TexInst) : List BitField :=
  [.bits 0 f.srcAddr, .flag 7 f.srcRel, ⟨8, 2, _, f.swzS.idx_lt⟩, ⟨10, 2, _, f.swzT.idx_lt⟩, ⟨12, 2, _, f.swzR.idx_lt⟩,
   ⟨14, 2, _, f.swzQ.idx_lt⟩, .bits 16 f.dstAddr, .flag 23 f.dstRel, ⟨24, 2, _, f.dswzR.idx_lt⟩, ⟨26, 2, _, f.dswzG.idx_lt⟩,
   ⟨28, 2, _, f.dswzB.idx_lt⟩, ⟨30, 2, _, f.dswzA.idx_lt⟩]

theorem encodeTex_eq (op : TexOp) (f : TexInst) :
    encodeTex op f =
      ⟨packFields (texCmnFields f), packFields (texOpFields op f), packFields (texAddrFields f), f.dxdy, 0#32, 0#32⟩ := rfl

/-- A texture slot gives its fields back. -/
theorem decodeTex_encodeTex (op : TexOp) (f : TexInst) : decodeTex (encodeTex op f) = some (op, f) := by
  rw [encodeTex_eq]
  have h0 := field_packFields (fs := texCmnFields f) (hi := 32) rfl le_rfl
  have h1 := field_packFields (fs := texOpFields op f) (hi := 32) rfl le_rfl
  have h2 := field_packFields (fs := texAddrFields f) (hi := 32) rfl le_rfl
  generalize packFields (texCmnFields f) = w0 at h0 ⊢
  generalize packFields (texOpFields op f) = w1 at h1 ⊢
  generalize packFields (texAddrFields f) = w2 at h2 ⊢
  simp only [texCmnFields, texOpFields, texAddrFields, List.forall_mem_cons] at h0 h1 h2
  simp [decodeTex, fieldBool, fieldBits, h0, h1, h2]

/-! ## The fields of a flow-control slot (R166, R172) -/

def fcCmnFields (f : FcInst) : List BitField :=
  [⟨0, 2, 2, by decide⟩, .flag 2 f.semWait, ⟨3, 3, _, f.predSel.code_lt⟩, .flag 6 f.predInv, .flag 10 f.aluWait]

def fcOpFields (op : FcOp) (f : FcInst) : List BitField :=
  [⟨0, 3, _, op.code_lt⟩, .flag 4 f.bElse, .flag 5 f.jumpAny, ⟨6, 2, _, f.aOp.code_lt⟩, .bits 8 f.jumpFunc, .bits 16 f.bPopCnt,
   ⟨24, 2, _, f.bOp0.code_lt⟩, ⟨26, 2, _, f.bOp1.code_lt⟩, .flag 28 f.ignoreUncovered]

def fcAddrFields (f : FcInst) : List BitField :=
  [.bits 0 f.boolAddr, .bits 8 f.intAddr, .bits 16 f.jumpAddr, .flag 31 f.jumpGlobal]

theorem encodeFc_eq (op : FcOp) (f : FcInst) :
    encodeFc op f =
      ⟨packFields (fcCmnFields f), 0#32, packFields (fcOpFields op f), packFields (fcAddrFields f), 0#32, 0#32⟩ := rfl

/-- A flow-control slot gives its fields back. -/
theorem decodeFc_encodeFc (op : FcOp) (f : FcInst) : decodeFc (encodeFc op f) = some (op, f) := by
  rw [encodeFc_eq]
  have h0 := field_packFields (fs := fcCmnFields f) (hi := 32) rfl le_rfl
  have h2 := field_packFields (fs := fcOpFields op f) (hi := 32) rfl le_rfl
  have h3 := field_packFields (fs := fcAddrFields f) (hi := 32) rfl le_rfl
  generalize packFields (fcCmnFields f) = w0 at h0 ⊢
  generalize packFields (fcOpFields op f) = w2 at h2 ⊢
  generalize packFields (fcAddrFields f) = w3 at h3 ⊢
  simp only [fcCmnFields, fcOpFields, fcAddrFields, List.forall_mem_cons] at h0 h2 h3
  simp [decodeFc, fieldBool, fieldBits, h0, h2, h3]

/-! ## The kind of a slot (R166) -/

theorem encodeAlu_kind (rop : RgbOp) (aop : AlphaOp) (f : AluInst) : field (encodeAlu rop aop f).w0 0 2 = f.isOutput.toNat :=
  field_packFields (fs := aluCmnFields f) (hi := 32) rfl le_rfl _ List.mem_cons_self

theorem encodeTex_kind (op : TexOp) (f : TexInst) : field (encodeTex op f).w0 0 2 = 3 :=
  field_packFields (fs := texCmnFields f) (hi := 32) rfl le_rfl _ List.mem_cons_self

theorem encodeFc_kind (op : FcOp) (f : FcInst) : field (encodeFc op f).w0 0 2 = 2 :=
  field_packFields (fs := fcCmnFields f) (hi := 32) rfl le_rfl _ List.mem_cons_self

/-! ## Rows and slots (R132, R270; log 7) -/

section
variable {i : Instr}

/-- The row of an ALU or OUTPUT slot is that of its alpha operation or that of its RGB operation. -/
theorem Instr.eq_of_alu? {rop : RgbOp} {aop : AlphaOp} {f : AluInst} (h : i.alu? = some (rop, aop, f)) :
    i = if i.isAlphaRow then Instr.ofAlpha aop rop f else Instr.ofRgb rop aop f := by
  cases i <;> cases h <;> rfl

theorem Instr.eq_of_tex? {op : TexOp} {f : TexInst} (h : i.tex? = some (op, f)) : i = Instr.ofTex op f := by
  cases i <;> cases h <;> rfl

theorem Instr.eq_of_fc? {op : FcOp} {f : FcInst} (h : i.fc? = some (op, f)) : i = Instr.ofFc op f := by
  cases i <;> cases h <;> rfl

/-- The fields of a slot give it its name back where that is the one they call for (log 7). -/
theorem nameAlu_of_canonicalName {rop : RgbOp} {aop : AlphaOp} {f : AluInst} (h : i.alu? = some (rop, aop, f))
    (hname : i.canonicalName = true) : nameAlu rop aop f = i := by
  have hrow : f.namedByAlpha rop aop = i.isAlphaRow := by simpa [Instr.canonicalName, h] using hname
  rw [nameAlu, hrow]
  exact (Instr.eq_of_alu? h).symm

/-- An instruction that is no command has a slot (R130, R145). -/
theorem encodeSlot_of_encodeCommand_none (h : encodeCommand i = none) : ∃ s, encodeSlot i = some s := by
  cases i <;> cases h <;> exact ⟨_, rfl⟩

/-- A slot with what it encodes. -/
theorem encodeSlot_cases {s : Slot} (h : encodeSlot i = some s) :
    (∃ rop aop f, i.alu? = some (rop, aop, f) ∧ s = encodeAlu rop aop f) ∨
    (∃ op f, i.tex? = some (op, f) ∧ s = encodeTex op f) ∨ ∃ op f, i.fc? = some (op, f) ∧ s = encodeFc op f := by
  unfold encodeSlot at h
  split at h
  · next rop aop f halu => exact .inl ⟨rop, aop, f, halu, (Option.some.inj h).symm⟩
  · next op f htex _ => exact .inr (.inl ⟨op, f, htex, (Option.some.inj h).symm⟩)
  · next op f hfc _ _ => exact .inr (.inr ⟨op, f, hfc, (Option.some.inj h).symm⟩)
  · cases h

/-- Bits 31:28 of the first word of a slot are zero. -/
theorem encodeSlot_w0_lt {s : Slot} (h : encodeSlot i = some s) : s.w0.toNat < 2 ^ 28 := by
  rcases encodeSlot_cases h with ⟨rop, aop, f, -, rfl⟩ | ⟨op, f, -, rfl⟩ | ⟨op, f, -, rfl⟩
  · exact packFields_lt (fs := aluCmnFields f) rfl
  · exact packFields_lt (fs := texCmnFields f) rfl
  · exact packFields_lt (fs := fcCmnFields f) rfl

/-- A well-formed instruction of a processor is read back from its slot. -/
theorem decodeSlot_encodeSlot {s : Slot} (h : encodeSlot i = some s) (hwf : i.wellFormed = true) : decodeSlot s = .ok i := by
  obtain ⟨⟨⟨⟨-, hname⟩, halu⟩, -⟩, -⟩ :
      (((i.commandWellFormed = true ∧ i.canonicalName = true) ∧ _) ∧ _) ∧ _ := by
    simpa only [Instr.wellFormed, Bool.and_eq_true] using hwf
  rcases encodeSlot_cases h with ⟨rop, aop, f, hi, rfl⟩ | ⟨op, f, hi, rfl⟩ | ⟨op, f, hi, rfl⟩
  · obtain ⟨⟨-, hr⟩, ha⟩ : (_ ∧ f.rgbTarget.encodable = true) ∧ f.alphaTarget.encodable = true := by
      simpa only [hi, AluInst.wellFormed, Bool.and_eq_true] using halu
    have hdecode := decodeAlu_encodeAlu rop aop hr ha
    have hkind := encodeAlu_kind rop aop f
    unfold decodeSlot
    cases hout : f.isOutput <;> rw [hout] at hkind <;> simp [hkind, hdecode, nameAlu_of_canonicalName hi hname]
  · simp [decodeSlot, encodeTex_kind, decodeTex_encodeTex, Instr.eq_of_tex? hi]
  · simp [decodeSlot, encodeFc_kind, decodeFc_encodeFc, Instr.eq_of_fc? hi]

end

/-! ## The words of an instruction (R130, R132) -/

/-- No opcode of R132 is below 2^28. -/
theorem commandParams_eq_none {w : Word} (h : w.toNat < 2 ^ 28) : commandParams w = none := by
  unfold commandParams
  split
  case h_28 => rfl
  all_goals omega

/-- A command is read back from its words, whatever follows (R131, R132). -/
theorem decodeWords_encodeCommand {i : Instr} {ws : List Word} (h : encodeCommand i = some ws) (rest : List Word) :
    decodeWords (ws ++ rest) = .ok i := by
  cases i <;> cases h <;> rfl

theorem decodeWords_slot {s : Slot} (h : s.w0.toNat < 2 ^ 28) (rest : List Word) :
    decodeWords (s.words ++ rest) = decodeSlot s := by
  simp [Slot.words, decodeWords, slotOfWords, commandParams_eq_none h]

theorem decodeWords_encode {i : Instr} (hwf : i.wellFormed = true) (rest : List Word) :
    decodeWords (encode i ++ rest) = .ok i := by
  cases hc : encodeCommand i with
  | some ws =>
    have henc : encode i = ws := by simp [encode, hc]
    rw [henc, decodeWords_encodeCommand hc]
  | none =>
    obtain ⟨s, hs⟩ := encodeSlot_of_encodeCommand_none hc
    have henc : encode i = s.words := by simp [encode, hc, hs]
    rw [henc, decodeWords_slot (encodeSlot_w0_lt hs), decodeSlot_encodeSlot hs hwf]

/-- Settles O1: a command is read from its opcode, a slot from its fields, and both from the bytes of their words. -/
theorem encodedInstructionDecodesBack : Obligations.EncodedInstructionDecodesBack := by
  intro i hwf rest
  have hwords := decodeWords_encode hwf rest
  exact ⟨hwords, by rw [decodeBytes, wordsOfBytes_bytesOfWords, hwords]⟩

end Sys2Proof
end

section
/-! SUPPORT. Address translation (R86 to R88, R93): the linear address as one sum, the tiled address by its tile and its bits. -/

namespace Sys2Proof.Machine

/-- An element has 2, 4, 8 or 16 bytes (R88). -/
theorem formatLog_cases {f : BitVec 3} {k : Nat} (h : formatLog f = some k) : k = 1 ∨ k = 2 ∨ k = 3 ∨ k = 4 := by
  unfold formatLog at h
  split at h <;> simp_all

theorem Desc.address_linear {d : Desc} (h : d.tiling = .linear ∨ d.tiling = .linear2x2) (k x y : Nat) :
    d.address k x y = linearAddr d.base.toNat d.pitch.toNat k x y := by
  rcases h with h | h <;> simp [Desc.address, h, Tiling.isTiled]

theorem Desc.address_tiled {d : Desc} (h : d.tiling = .tiled ∨ d.tiling = .tiled2x2) (k x y : Nat) :
    d.address k x y = tiledAddr d.base.toNat d.pitch.toNat k x y := by
  rcases h with h | h <;> simp [Desc.address, h, Tiling.isTiled]

theorem Desc.address_cases (d : Desc) (k x y : Nat) :
    d.address k x y = linearAddr d.base.toNat d.pitch.toNat k x y ∨
    d.address k x y = tiledAddr d.base.toNat d.pitch.toNat k x y := by
  unfold Desc.address
  split
  · exact .inr rfl
  · exact .inl rfl

/-! ## Linear addresses (R86) -/

section
variable {k : Nat} (hk : k ≤ 5)
include hk

theorem dvd_linearAddr (base pitch x y : Nat) : 2 ^ k ∣ linearAddr base pitch k x y :=
  dvd_add (Dvd.dvd.mul_left (pow_dvd_pow 2 hk) _) (Dvd.intro_left _ rfl)

/-- The column within its 32 bytes. -/
theorem linearAddr_column_lt (x : Nat) : x % 2 ^ (5 - k) * 2 ^ k < 2 ^ 5 := by
  calc x % 2 ^ (5 - k) * 2 ^ k
      < 2 ^ (5 - k) * 2 ^ k := Nat.mul_lt_mul_of_pos_right (Nat.mod_lt _ (Nat.two_pow_pos _)) (Nat.two_pow_pos _)
    _ = 2 ^ 5 := by rw [← pow_add, Nat.sub_add_cancel hk]

theorem linearAddr_lt (base pitch x y : Nat) : linearAddr base pitch k x y < 2 ^ 32 := by
  have hcolumn := linearAddr_column_lt hk x
  simp only [linearAddr]
  omega

/-- The 27-bit count of blocks of 32 bytes and the column within a block are the 32-bit sum of base, rows and columns. -/
theorem linearAddr_eq {base : Nat} (hbase : base % 2 ^ 5 = 0) (pitch x y : Nat) :
    linearAddr base pitch k x y = (base + y * (pitch * 2 ^ k / 32 * 32) + x * 2 ^ k) % 2 ^ 32 := by
  have hsplit : 32 = 2 ^ (5 - k) * 2 ^ k := by rw [← pow_add, Nat.sub_add_cancel hk]; rfl
  have hpitch : pitch * 2 ^ k / 32 = pitch / 2 ^ (5 - k) := by
    rw [hsplit, Nat.mul_div_mul_right _ _ (Nat.two_pow_pos k)]
  have hx : x * 2 ^ k = x / 2 ^ (5 - k) * 32 + x % 2 ^ (5 - k) * 2 ^ k := by
    conv_lhs => rw [← Nat.div_add_mod' x (2 ^ (5 - k))]
    rw [add_mul, mul_assoc, ← hsplit]
  have hcolumn := linearAddr_column_lt hk x
  rw [hpitch, hx, ← mul_assoc]
  simp only [linearAddr]
  omega

end

/-! ## Tiled addresses (R87) -/

theorem natOfBits_concat (bs : List Nat) (b : Nat) : natOfBits (bs ++ [b]) = natOfBits bs * 2 + b := by
  simp [natOfBits]

/-- Zeros at the end shift a number up. -/
theorem natOfBits_append_zeros (bs : List Nat) (k : Nat) : natOfBits (bs ++ List.replicate k 0) = natOfBits bs * 2 ^ k := by
  induction k with
  | zero => simp
  | succ k ih => rw [List.replicate_succ', ← List.append_assoc, natOfBits_concat, ih]; ring

theorem natOfBits_lt (bs : List Bool) : natOfBits (bs.map Bool.toNat) < 2 ^ bs.length := by
  induction bs using List.reverseRecOn with
  | nil => decide
  | append_singleton bs b ih =>
    have hb := b.toNat_lt
    rw [List.map_append, List.map_singleton, natOfBits_concat, List.length_append, List.length_singleton, pow_succ]
    omega

/-- The bits of a number that is given most significant bit first. -/
theorem testBit_natOfBits {bs : List Bool} {n : Nat} {b : Bool} (h : bs[n]? = some b) :
    (natOfBits (bs.map Bool.toNat)).testBit (bs.length - 1 - n) = b := by
  induction bs using List.reverseRecOn with
  | nil => simp at h
  | append_singleton bs c ih =>
    rw [List.map_append, List.map_singleton, natOfBits_concat, List.length_append, List.length_singleton, Nat.add_sub_cancel]
    have hc := c.toNat_lt
    rcases Nat.lt_or_ge n bs.length with hn | hn
    · rw [List.getElem?_append_left hn] at h
      have hup : bs.length - n = bs.length - 1 - n + 1 := by omega
      have hhalf : (natOfBits (bs.map Bool.toNat) * 2 + c.toNat) / 2 = natOfBits (bs.map Bool.toNat) := by omega
      rw [hup, Nat.testBit_succ, hhalf, ih h]
    · obtain ⟨-, rfl⟩ : n - bs.length = 0 ∧ c = b := by
        simpa [List.getElem?_append_right hn, List.getElem?_singleton] using h
      rw [Nat.sub_eq_zero_of_le hn, Nat.testBit_zero]
      cases c <;> simp

/-- A bit of an element's column or row. -/
theorem bitOf_eq (v n : Nat) : bitOf v n = (v.testBit n).toNat := (Nat.toNat_testBit v n).symm

theorem toNat_add_mod_two (a b : Bool) : (a.toNat + b.toNat) % 2 = (a != b).toNat := by
  cases a <;> cases b <;> rfl

section
variable {base pitch k x y : Nat} {low : List Bool} (hlow : tileBits k x y = low.map Bool.toNat) (hlen : low.length = 11)
include hlow hlen

theorem natOfBits_tileBits_lt : natOfBits (tileBits k x y) < 2 ^ 11 := by
  rw [hlow, ← hlen]
  exact natOfBits_lt low

theorem tiledAddr_lt : tiledAddr base pitch k x y < 2 ^ 32 := by
  have hbits := natOfBits_tileBits_lt hlow hlen
  simp only [tiledAddr]
  omega

/-- The number of the tile. -/
theorem tiledAddr_div : tiledAddr base pitch k x y / 2 ^ 11 =
    (y / 2 ^ tileRowsLog k * (pitch / 2 ^ tileColsLog k) + x / 2 ^ tileColsLog k + base / 2 ^ 11) % 2 ^ 21 := by
  have hbits := natOfBits_tileBits_lt hlow hlen
  simp only [tiledAddr]
  omega

/-- The bits within the tile. -/
theorem testBit_tiledAddr {n : Nat} {b : Bool} (h : low[n]? = some b) :
    (tiledAddr base pitch k x y).testBit (10 - n) = b := by
  rw [tiledAddr, mul_comm, Nat.testBit_two_pow_mul_add _ (natOfBits_tileBits_lt hlow hlen), if_pos (by omega), hlow,
    ← testBit_natOfBits h, hlen]

end

/-- The bits within a tile: the row of R87 for each size of element. -/
def tileFlags (k x y : Nat) : List Bool :=
  let xb := x.testBit
  let yb := y.testBit
  match k with
  | 0 => [yb 4 != xb 6, xb 5 != yb 5, yb 3 != xb 5, xb 4 != yb 4, yb 2, xb 3, yb 1, yb 0, xb 2, xb 1, xb 0]
  | 1 => [yb 4 != xb 5, xb 4 != yb 5, yb 3 != xb 4, xb 3 != yb 4, yb 2, xb 2, yb 1, yb 0, xb 1, xb 0, false]
  | 2 => [yb 3 != xb 5, xb 4 != yb 4, yb 2 != xb 4, xb 3 != yb 3, yb 1, xb 2, yb 0, xb 1, xb 0, false, false]
  | 3 => [yb 3 != xb 4, xb 3 != yb 4, yb 2 != xb 3, xb 2 != yb 3, yb 1, xb 1, yb 0, xb 0, false, false, false]
  | _ => [yb 2 != xb 4, xb 3 != yb 3, yb 1 != xb 3, xb 2 != yb 2, yb 0, xb 1, xb 0, false, false, false, false]

section
variable {k : Nat} (hk : k ≤ 4) (x y : Nat)
include hk

theorem tileBits_eq : tileBits k x y = (tileFlags k x y).map Bool.toNat := by
  interval_cases k <;> simp [tileBits, tileFlags, bitOf_eq, toNat_add_mod_two]

theorem tileFlags_length : (tileFlags k x y).length = 11 := by interval_cases k <;> rfl

/-- The last bits of a tiled address are zero (R93). -/
theorem tileBits_zeros : tileBits k x y = (tileBits k x y).take (11 - k) ++ List.replicate k 0 := by
  interval_cases k <;> rfl

theorem dvd_tiledAddr (base pitch : Nat) : 2 ^ k ∣ tiledAddr base pitch k x y := by
  have hbits : 2 ^ k ∣ natOfBits (tileBits k x y) := by
    rw [tileBits_zeros hk, natOfBits_append_zeros]
    exact Dvd.intro_left _ rfl
  exact dvd_add (Dvd.dvd.mul_left (pow_dvd_pow 2 (by omega)) _) hbits

end

/-! ## Element addresses -/

section
variable {d : Desc} {k : Nat} (hk : formatLog d.format = some k)
include hk

theorem formatLog_le : k ≤ 4 := by
  have := formatLog_cases hk
  omega

/-- An element lies at a multiple of its size (R93). -/
theorem Desc.dvd_address (x y : Nat) : 2 ^ k ∣ d.address k x y := by
  have hle := formatLog_le hk
  rcases d.address_cases k x y with h | h
  · rw [h]
    exact dvd_linearAddr (by omega) ..
  · rw [h]
    exact dvd_tiledAddr hle ..

theorem Desc.address_lt (x y : Nat) : d.address k x y < 2 ^ 32 := by
  have hle := formatLog_le hk
  rcases d.address_cases k x y with h | h
  · rw [h]
    exact linearAddr_lt (by omega) ..
  · rw [h]
    exact tiledAddr_lt (tileBits_eq hle x y) (tileFlags_length hle x y)

end

/-- The addresses of the bytes of an element of 2^k bytes (R93). -/
def Desc.byteAddrs (d : Desc) (k x y : Nat) : List Nat := (List.range (2 ^ k)).map fun n => (d.address k x y + n) % 2 ^ 32

/-- Wherever an element has addresses they are those of its bytes (R84, R88, R92). -/
theorem elementAddrs_eq_ok {d : Desc} {h : Option Nat} {k x y : Nat} {as : List Nat} (hk : formatLog d.format = some k)
    (he : elementAddrs d h x y = .ok as) : as = d.byteAddrs k x y := by
  unfold elementAddrs at he
  rw [hk] at he
  dsimp only at he
  split at he
  · exact (Except.ok.inj he).symm
  · cases he

/-- A client without a height reaches every element (R84, R92). -/
theorem elementAddrs_noHeight {d : Desc} {k x y : Nat} (hk : formatLog d.format = some k) (hx : x < 4096) (hy : y < 4096) :
    elementAddrs d none x y = .ok (d.byteAddrs k x y) := by
  simp [elementAddrs, hk, hx, hy, inHeight, Desc.byteAddrs]

/-- Settles O51: the linear address is one sum, the tiled one the number of its tile and the bits within it. -/
theorem elementAddresses : Obligations.ElementAddresses := by
  intro d k x y hwf hk _ _
  obtain ⟨hbase, -⟩ := (Desc.wf_iff d).1 hwf
  have hle := formatLog_le hk
  refine ⟨d.dvd_address hk x y, d.address_lt hk x y, fun ht => ?_, fun ht => ?_⟩
  · rw [d.address_linear ht]
    exact linearAddr_eq (by omega) (by omega) _ _ _
  · rw [d.address_tiled ht]
    exact ⟨tiledAddr_div (tileBits_eq hle x y) (tileFlags_length hle x y),
      fun n b => testBit_tiledAddr (tileBits_eq hle x y) (tileFlags_length hle x y)⟩

end Sys2Proof.Machine
end

section
/-! SUPPORT. Reads of constants (R82, R94, R95, R104): the bytes of an element, and the words of a FLOAT32_4 one. -/

namespace Sys2Proof.Machine

/-- An emptied cache shows memory (R95). -/
@[simp] theorem seen_empty (ram : Memory) : seen ReadCache.empty ram = ram.get := rfl

/-- The sixteen addresses of constant c under a FLOAT32_4 LINEAR descriptor (R86, R104). -/
theorem float4_addrs {d : Desc} {c : Nat} (hwf : d.wf = true) (hformat : d.format = 4#3) (hlinear : d.tiling = .linear)
    (hc : c < 4096) :
    elementAddrs d none c 0 = .ok ((List.range 16).map fun n => (d.base.toNat + 16 * c + n) % 2 ^ 32) := by
  obtain ⟨hbase, -⟩ := (Desc.wf_iff d).1 hwf
  have haddr : d.address 4 c 0 = (d.base.toNat + 16 * c) % 2 ^ 32 := by
    rw [d.address_linear (.inl hlinear), linearAddr_eq (by omega) (by omega)]
    congr 1
    omega
  have hlog : formatLog d.format = some 4 := by rw [hformat]; rfl
  rw [elementAddrs_noHeight hlog hc (by omega), Desc.byteAddrs, haddr]
  simp only [Nat.mod_add_mod, Nat.reducePow]

/-- Sixteen bytes as the four words of a FLOAT32_4 element, each little-endian (R82, R94). -/
theorem decodeElement_float4 (ram : Memory) (a draw : Nat) :
    decodeElement 4#3 (((List.range 16).map fun n => (a + n) % 2 ^ 32).map ram.get) draw =
      ⟨ram.word a, ram.word (a + 4), ram.word (a + 8), ram.word (a + 12)⟩ := rfl

section
variable {p : Platform} {mem : MemSys} {d : Desc} {c : Nat} {as : List Nat} (he : elementAddrs d none c 0 = .ok as)
  (hm : ∀ a ∈ as, p.mapped a = true)
include he hm

/-- A float constant is decoded from the bytes of its element. -/
theorem readConstf_ok (draw : Nat) :
    ∃ k, readConstf p draw mem d c =
        .ok (decodeElement d.format (as.map (seen mem.constf mem.ram)) draw, { mem with constf := k }) ∧
      mem.constf.filled k mem.ram := by
  obtain ⟨k, hr, hf⟩ := readElement_ok (k := .constf) (mem := mem) he (List.all_eq_true.2 hm)
  exact ⟨k, by rw [readConstf, hr]; rfl, hf⟩

theorem readConsti_ok :
    ∃ k, readConsti p mem d c =
        .ok (Config.intConstDecode (as.map (seen mem.consti mem.ram)), { mem with consti := k }) ∧
      mem.consti.filled k mem.ram := by
  obtain ⟨k, hr, hf⟩ := readElement_ok (k := .consti) (mem := mem) he (List.all_eq_true.2 hm)
  exact ⟨k, by rw [readConsti, hr]; rfl, hf⟩

theorem readConstb_ok :
    ∃ k, readConstb p mem d c =
        .ok (Config.boolConstDecode (as.map (seen mem.constb mem.ram)), { mem with constb := k }) ∧
      mem.constb.filled k mem.ram := by
  obtain ⟨k, hr, hf⟩ := readElement_ok (k := .constb) (mem := mem) he (List.all_eq_true.2 hm)
  exact ⟨k, by rw [readConstb, hr]; rfl, hf⟩

end

/-- Settles O52: every constant is decoded from the bytes seen at its element's addresses. -/
theorem floatConstantsRead : Obligations.FloatConstantsRead := by
  constructor
  · intro p draw mem d c hwf hformat hlinear hc hempty hm
    have he := float4_addrs (c := c) hwf hformat hlinear (by omega)
    have hmapped : ∀ a ∈ (List.range 16).map (fun n => (d.base.toNat + 16 * c + n) % 2 ^ 32), p.mapped a = true := by
      simpa using hm
    obtain ⟨cache, hr, hf⟩ := readConstf_ok (mem := mem) he hmapped draw
    rw [hempty, seen_empty, hformat, decodeElement_float4] at hr
    exact ⟨_, hr, rfl, hf⟩
  · intro p mem d k c hk hc as hm
    have he : elementAddrs d none c 0 = .ok as := elementAddrs_noHeight hk (by omega) (by omega)
    obtain ⟨ci, hri, hfi⟩ := readConsti_ok (mem := mem) he hm
    obtain ⟨cb, hrb, hfb⟩ := readConstb_ok (mem := mem) he hm
    exact ⟨⟨_, hri, rfl, hfi⟩, _, hrb, rfl, hfb⟩

end Sys2Proof.Machine
end

section
/-! SUPPORT. Bytes that are laid down one after another, in a table or in memory, as they are read back (R82, R97, R107), and
read_perf_counters, which lays down two words (R187). -/

namespace Sys2Proof.Machine

/-! ## Bytes one after another -/

/-- Bytes at rising addresses from `a` on. -/
def cellsFrom (a : Nat) : List Byte → List Host.Cell
  | [] => []
  | b :: bs => (a, b) :: cellsFrom (a + 1) bs

/-- The byte that lies at `x` when bytes are laid down from `a` on. -/
def byteFrom (a : Nat) (bs : List Byte) (x : Nat) : Option Byte := if a ≤ x then bs[x - a]? else none

@[simp] theorem byteFrom_nil (a x : Nat) : byteFrom a [] x = none := by simp [byteFrom]

theorem byteFrom_cons (a : Nat) (b : Byte) (bs : List Byte) (x : Nat) :
    byteFrom a (b :: bs) x = if a = x then some b else byteFrom (a + 1) bs x := by
  unfold byteFrom
  split_ifs with h1 h2 h3 h4 h5
  · simp [h2]
  · rw [show x - a = x - (a + 1) + 1 by omega, List.getElem?_cons_succ]
  · omega
  · omega
  · omega
  · rfl

theorem byteFrom_add {a n : Nat} {bs : List Byte} : byteFrom a bs (a + n) = bs[n]? := by simp [byteFrom]

/-- Past the last byte, and below the first, nothing is laid down. -/
theorem byteFrom_eq_none {a x : Nat} {bs : List Byte} (h : ∀ n < bs.length, x ≠ a + n) : byteFrom a bs x = none := by
  unfold byteFrom
  split
  · rw [List.getElem?_eq_none_iff]
    by_contra hlt
    exact h (x - a) (by omega) (by omega)
  · rfl

/-- Addresses that do not reach the end of the address space need no wrapping (R71). -/
theorem zip_eq_cellsFrom {a : Nat} {bs : List Byte} {as : List Nat} (hlen : bs.length ≤ as.length)
    (has : ∀ n x, as[n]? = some x → x = a + n) : as.zip bs = cellsFrom a bs := by
  induction bs generalizing a as with
  | nil => simp [cellsFrom]
  | cons b bs ih =>
    cases as with
    | nil => simp at hlen
    | cons x as =>
      have hx : x = a := has 0 x rfl
      have htail : as.zip bs = cellsFrom (a + 1) bs := ih (by simpa using hlen) fun n y hy => by
        rw [has (n + 1) y (by simpa using hy)]
        omega
      rw [List.zip_cons_cons, htail, hx]
      rfl

theorem cellsFrom_append (a : Nat) (bs bs' : List Byte) :
    cellsFrom a (bs ++ bs') = cellsFrom a bs ++ cellsFrom (a + bs.length) bs' := by
  induction bs generalizing a with
  | nil => rfl
  | cons b bs ih =>
    rw [List.cons_append, cellsFrom, ih, List.length_cons, Nat.add_right_comm]
    rfl

theorem mem_cellsFrom {a : Nat} {bs : List Byte} {c : Host.Cell} (h : c ∈ cellsFrom a bs) : ∃ n < bs.length, c.1 = a + n := by
  induction bs generalizing a with
  | nil => simp [cellsFrom] at h
  | cons b bs ih =>
    rcases List.mem_cons.1 h with rfl | h
    · exact ⟨0, by simp, rfl⟩
    · obtain ⟨n, hn, hc⟩ := ih h
      exact ⟨n + 1, by simpa using hn, by omega⟩

theorem exists_mem_cellsFrom {a n : Nat} {bs : List Byte} (h : n < bs.length) : ∃ c ∈ cellsFrom a bs, c.1 = a + n := by
  induction bs generalizing a n with
  | nil => simp at h
  | cons b bs ih =>
    cases n with
    | zero => exact ⟨(a, b), List.mem_cons_self, rfl⟩
    | succ n =>
      obtain ⟨c, hc, h1⟩ := ih (a := a + 1) (by simpa using h)
      exact ⟨c, List.mem_cons_of_mem _ hc, by omega⟩

/-- A table after bytes are laid down in it. -/
theorem tabFind_putBytes_cellsFrom (t : List Host.Cell) (a : Nat) (bs : List Byte) (x : Nat) :
    tabFind (putBytes t (cellsFrom a bs)) x = (byteFrom a bs x).or (tabFind t x) := by
  induction bs generalizing t a with
  | nil => simp [cellsFrom, putBytes]
  | cons b bs ih =>
    rw [cellsFrom, tabFind_putBytes_cons, ih, tabFind_tabPut, byteFrom_cons]
    split
    · next h =>
      subst h
      rw [byteFrom_eq_none fun n _ => by omega]
      rfl
    · rfl

/-! ## Memory after several stores -/

/-- Memory after several stores, in order. -/
def Memory.store (m : Memory) (cs : List Host.Cell) : Memory := cs.foldl (fun m c => m.set c.1 c.2) m

theorem Memory.store_cons (m : Memory) (c : Host.Cell) (cs : List Host.Cell) : m.store (c :: cs) = (m.set c.1 c.2).store cs := rfl

theorem Memory.sorted_set {m : Memory} (a : Nat) (b : Byte) (h : tabSorted m = true) : tabSorted (m.set a b) = true := by
  unfold Memory.set
  split
  · exact tabSorted_tabDel a h
  · exact tabSorted_tabPut a b h

/-- A store changes no byte but those that it names. -/
theorem Memory.get_store_of_ne {m : Memory} {cs : List Host.Cell} {x : Nat} (h : tabSorted m = true) (hx : ∀ c ∈ cs, x ≠ c.1) :
    (m.store cs).get x = m.get x := by
  induction cs generalizing m with
  | nil => rfl
  | cons c cs ih =>
    obtain ⟨hc, hcs⟩ := List.forall_mem_cons.1 hx
    rw [store_cons, ih (Memory.sorted_set _ _ h) hcs, Memory.get_set _ _ _ h, if_neg (Ne.symm hc)]

/-- Memory after bytes are laid down in it. -/
theorem Memory.get_store_cellsFrom {m : Memory} (h : tabSorted m = true) (a : Nat) (bs : List Byte) (x : Nat) :
    (m.store (cellsFrom a bs)).get x = (byteFrom a bs x).getD (m.get x) := by
  induction bs generalizing m a with
  | nil => simp [cellsFrom, store]
  | cons b bs ih =>
    rw [cellsFrom, store_cons, ih (Memory.sorted_set _ _ h), Memory.get_set _ _ _ h, byteFrom_cons]
    split
    · next hx =>
      subst hx
      rw [byteFrom_eq_none fun n _ => by omega]
      rfl
    · rfl

/-- The word at an address whose bytes lie there in order (R82). -/
theorem Memory.word_eq {m : Memory} {a : Nat} {w : Word} (ha : a + 4 ≤ 2 ^ 32) (h : ∀ n < 4, m.get (a + n) = byteOfWord w n) :
    m.word a = w := by
  have hmod : ∀ n < 4, (a + n) % 2 ^ 32 = a + n := fun n hn => Nat.mod_eq_of_lt (by omega)
  calc m.word a
      = wordOfBytes (m.get ((a + 0) % 2 ^ 32)) (m.get ((a + 1) % 2 ^ 32)) (m.get ((a + 2) % 2 ^ 32))
          (m.get ((a + 3) % 2 ^ 32)) := rfl
    _ = wordOfBytes (byteOfWord w 0) (byteOfWord w 1) (byteOfWord w 2) (byteOfWord w 3) := by
      rw [hmod 0 (by omega), hmod 1 (by omega), hmod 2 (by omega), hmod 3 (by omega), h 0 (by omega), h 1 (by omega),
        h 2 (by omega), h 3 (by omega)]
    _ = w := wordOfBytes_byteOfWord w

/-! ## Writes of an idle device (R81) -/

/-- With no processor busy every mapped address may be written. -/
theorem writable_of_no_groups {s : State} (hg : s.groups = []) {a : Nat} (ha : s.platform.mapped a = true) : writable s a :=
  ⟨ha, by simp [hg]⟩

/-- With no processor busy only an unmapped address ends a sequence of writes: those before it are made. -/
theorem ramWriteAll_stuck {cs : List Host.Cell} {s : State} (hg : s.groups = []) (h : ∃ c ∈ cs, s.platform.mapped c.1 = false) :
    ∃ made ⊆ cs, ramWriteAll s cs = .error (.stuck { s.mem with ram := s.mem.ram.store made }) := by
  induction cs generalizing s with
  | nil => simp at h
  | cons c cs ih =>
    unfold ramWriteAll
    cases hc : s.platform.mapped c.1 with
    | false => exact ⟨[], List.nil_subset _, by simp [ramWrite, hc, Memory.store]⟩
    | true =>
      have hrest : ∃ c ∈ cs, s.platform.mapped c.1 = false := by simpa [hc] using h
      rw [ramWrite_ok c.2 (writable_of_no_groups hg hc)]
      obtain ⟨made, hsub, hstuck⟩ := ih (s := { s with mem := { s.mem with ram := s.mem.ram.set c.1 c.2 } }) hg hrest
      exact ⟨c :: made, List.cons_subset_cons c hsub, hstuck⟩

/-! ## read_perf_counters (R187) -/

/-- The aligned address leaves room for eight bytes. -/
theorem perfAddress_lt (p : Word) : perfAddress p + 8 ≤ 2 ^ 32 := by
  have hle : perfAddress p ≤ 0xFFFFF800 := by
    rw [perfAddress, BitVec.toNat_and]
    exact Nat.and_le_right
  omega

theorem wordAddrs_zip {a : Nat} (ha : a + 4 ≤ 2 ^ 32) (w : Word) :
    (wordAddrs a).zip (bytesOfWord w) = cellsFrom a (bytesOfWord w) := by
  have hmod : ∀ n < 4, (a + n) % 2 ^ 32 = a + n := fun n hn => Nat.mod_eq_of_lt (by omega)
  have haddrs : wordAddrs a = [a, a + 1, a + 2, a + 3] := by
    rw [wordAddrs, hmod 1 (by omega), hmod 2 (by omega), hmod 3 (by omega), Nat.mod_eq_of_lt (by omega)]
  rw [haddrs]
  rfl

/-- The two counters are eight bytes, one after another. -/
theorem perfCells_eq {a : Nat} (ha : a + 8 ≤ 2 ^ 32) (p : Perf) :
    perfCells a p = cellsFrom a (bytesOfWord p.total ++ bytesOfWord p.active) := by
  rw [perfCells, wordAddrs_zip (by omega), wordAddrs_zip (by omega), cellsFrom_append]
  rfl

/-- What read_perf_counters does on an idle device. -/
theorem exec_readPerfCounters {s : State} (hidle : s.idle = true) (p : Word) :
    exec (.readPerfCounters p) s = conclude s.peStuck
      ((if s.pe.perf.enabled then ramWriteAll s (perfCells (perfAddress p) s.pe.perf) else .ok s) >>= fun s1 =>
        pure (s1.retireCommand (.readPerfCounters p))) := by
  change conclude s.peStuck (requireReserved (.readPerfCounters p) >>= fun _ => requireIdle s >>= fun _ => _) = _
  rw [requireIdle, hidle]
  cases s.pe.perf.enabled <;> rfl

/-- Memory with the two counters stored holds them as words (R82, R107). -/
theorem perfCells_words {m : Memory} (h : tabSorted m = true) {a : Nat} (ha : a + 8 ≤ 2 ^ 32) (p : Perf) :
    (m.store (perfCells a p)).word a = p.total ∧ (m.store (perfCells a p)).word (a + 4) = p.active := by
  have hget : ∀ n b, (bytesOfWord p.total ++ bytesOfWord p.active)[n]? = some b → (m.store (perfCells a p)).get (a + n) = b := by
    intro n b hb
    rw [perfCells_eq ha, Memory.get_store_cellsFrom h, byteFrom_add, hb]
    rfl
  constructor
  · refine Memory.word_eq (by omega) fun n hn => hget n _ ?_
    interval_cases n <;> rfl
  · refine Memory.word_eq (by omega) fun n hn => ?_
    rw [Nat.add_assoc]
    refine hget (4 + n) _ ?_
    interval_cases n <;> rfl

/-- The addresses of the counters are the eight from the aligned one on. -/
theorem perfCells_addrs {a : Nat} (ha : a + 8 ≤ 2 ^ 32) (p : Perf) :
    (∀ c ∈ perfCells a p, ∃ n < 8, c.1 = a + n) ∧ ∀ n < 8, ∃ c ∈ perfCells a p, c.1 = a + n := by
  rw [perfCells_eq ha]
  exact ⟨fun c hc => mem_cellsFrom hc, fun n hn => exists_mem_cellsFrom hn⟩

/-- Settles O12: the eight bytes are stored one after another, up to an unmapped one. -/
theorem perfCountersRead : Obligations.PerfCountersRead := by
  intro s p hidle hwf
  obtain ⟨-, hgroups⟩ : s.pe.launches = [] ∧ s.groups = [] := by simpa [State.idle] using hidle
  have hsorted : tabSorted s.mem.ram = true := ((bytesWf_iff _).1 ((Memory.wf_iff _).1 hwf).1).1
  have hroom := perfAddress_lt p
  obtain ⟨haddrs, hall⟩ := perfCells_addrs hroom s.pe.perf
  refine ⟨fun hoff => ?_, fun hon hmapped => ?_, fun hon ⟨n, hn, hunmapped⟩ => ?_⟩
  · rw [exec_readPerfCounters hidle, hoff]
    rfl
  · have hwritable : ∀ c ∈ perfCells (perfAddress p) s.pe.perf, writable s c.1 := by
      intro c hc
      obtain ⟨n, hn, h1⟩ := haddrs c hc
      exact writable_of_no_groups hgroups (h1 ▸ hmapped n hn)
    obtain ⟨htotal, hactive⟩ := perfCells_words hsorted hroom s.pe.perf
    have hexec : exec (.readPerfCounters p) s = .next { s with
        pe := s.pe.advance 2, mem := { s.mem with ram := s.mem.ram.store (perfCells (perfAddress p) s.pe.perf) } } := by
      rw [exec_readPerfCounters hidle, if_pos hon, ramWriteAll_ok hwritable]
      rfl
    refine ⟨_, hexec, rfl, htotal, hactive, fun a ha => Memory.get_store_of_ne hsorted fun c hc => ?_⟩
    obtain ⟨n, hn, h1⟩ := haddrs c hc
    exact h1 ▸ ha n hn
  · obtain ⟨c, hc, h1⟩ := hall n hn
    obtain ⟨made, hmade, hstuck⟩ := ramWriteAll_stuck hgroups ⟨c, hc, h1 ▸ hunmapped⟩
    have hexec : exec (.readPerfCounters p) s = .next { s with
        pe := { s.pe with stuck := true }, mem := { s.mem with ram := s.mem.ram.store made } } := by
      rw [exec_readPerfCounters hidle, if_pos hon, hstuck]
      rfl
    refine ⟨_, hexec, rfl, fun a ha => Memory.get_store_of_ne hsorted fun c hc => ?_⟩
    obtain ⟨n, hn, h1⟩ := haddrs c (hmade hc)
    exact h1 ▸ ha n hn

end Sys2Proof.Machine
end

section
/-! SUPPORT. A processor that has halted sends its results (R108, R200, R258, R259, R334): its request, its bytes, its end. -/

namespace Sys2Proof.Machine

/-- A step is the move of the agent whose turn it is and a new turn (R21). -/
theorem step_next {s t : State} (h : agentStep s = .next t) : step s = .next t.nextTurn := by rw [step, h]

theorem step_fault {s : State} {f : Fault} (h : agentStep s = .fault f) : step s = .fault f := by rw [step, h]

/-- An entry changed in place is set. -/
theorem modify_eq_set {α : Type} {xs : List α} {n : Nat} {x : α} (f : α → α) (h : xs[n]? = some x) :
    xs.modify n f = xs.set n (f x) := by
  rw [List.modify_eq_set_getElem?, h]
  rfl

/-- The bytes of every output in a list, each write going through, are those of the single writes in order. -/
theorem outputWrites_ok {draw : Nat} {env : Snapshot} {l : Lane} {os : List Nat} {cells : Nat → List Host.Cell}
    (h : ∀ o ∈ os, ∃ d, env.descs.out[o]? = some d ∧ outputWrite d env.outMask l.i l.j (l.outValue draw o) = .ok (cells o)) :
    outputWrites draw env l os = .ok (os.flatMap cells) := by
  induction os with
  | nil => rfl
  | cons o os ih =>
    obtain ⟨⟨d, hd, hw⟩, hos⟩ := List.forall_mem_cons.1 h
    simp only [outputWrites, hd, hw, ih hos, ok_bind, pure_ok, List.flatMap_cons]

/-- A written channel of an output register is sent as it was written (R53). -/
theorem Lane.outValue_get {l : Lane} {draw o : Nat} {ch : Chan} {w : Word} (h : tabFind l.outs (regKey o ch) = some w) :
    (l.outValue draw o).get ch = w := by
  cases ch <;> simp [Lane.outValue, Quad.get, h]

section
variable {s : State} {k n : Nat} {g : Group} {l : Lane} (hg : s.groups[k]? = some g) (hl : g.lanes[n]? = some l)
include hg hl

theorem setOutbox_eq (cells : List Host.Cell) :
    setOutbox s.groups k n cells = s.groups.set k { g with lanes := g.lanes.set n { l with outbox := some cells } } := by
  rw [setOutbox, modify_eq_set _ hg, modify_eq_set _ hl]

/-- A processor that gets stuck takes the CO with it at its request only (R81; log 33). -/
theorem State.laneStuck_eq (mem : MemSys) :
    s.laneStuck k n mem = { s with
      mem := mem, co := { s.co with stuck := s.co.stuck || l.outbox.isNone }
      groups := s.groups.set k { g with lanes := g.lanes.set n { l with stuck := true } } } := by
  rw [State.laneStuck, modify_eq_set _ hg, modify_eq_set _ hl, State.atRequest, hg]
  simp only [hl]

/-- A processor of a halted group moves at its turn unless it is stuck. -/
theorem agentStep_retire (hturn : s.turn = .retire k n) (hhalted : g.halted = true) (hstuck : l.stuck = false) :
    agentStep s = conclude (s.laneStuck k n) (laneRetire s k n g l) := by
  simp [agentStep, hturn, retireStep, hg, hl, hhalted, hstuck]

/-- The request of a processor that has none yet, once it is answered. -/
theorem laneRetire_request (hbox : l.outbox = none) {r : List Host.Cell × MemSys}
    (hr : requestResults s.platform s.co.stuck s.draws g.env l s.mem = .ok r) :
    laneRetire s k n g l = .ok { s with
      mem := r.2, draws := s.draws + 4
      groups := s.groups.set k { g with lanes := g.lanes.set n { l with outbox := some r.1 } } } := by
  simp only [laneRetire, hbox, hr, ← setOutbox_eq hg hl]
  rfl

end

section
variable {gs : List Group} {k n : Nat} {g : Group} (hg : gs[k]? = some g)
include hg

/-- The last processor of a group takes the group with it. -/
theorem dropLane_last (h : g.lanes.eraseIdx n = []) : dropLane gs k n = gs.eraseIdx k := by
  simp [dropLane, hg, h]

theorem dropLane_more (h : g.lanes.eraseIdx n ≠ []) : dropLane gs k n = gs.set k { g with lanes := g.lanes.eraseIdx n } := by
  simp [dropLane, hg, h]

end

/-! ## The request to the CO (R258, R259, R334) -/

section
variable {p : Platform} {coStuck : Bool} {draw : Nat} {env : Snapshot} {l : Lane} {mem : MemSys}

/-- A killed processor makes no request and has nothing to write. -/
theorem requestResults_killed (h : l.covered = false) : requestResults p coStuck draw env l mem = .ok ([], mem) := by
  simp [requestResults, h]

section
variable (hcov : l.covered = true) {mem' : MemSys}
include hcov

theorem requestResults_stuck (h : coTest p coStuck mem env .dpp l.i l.j (sentValue env.prog l) = .error (.stuck mem')) :
    requestResults p coStuck draw env l mem = .error (.stuck mem') := by
  simp [requestResults, hcov, h]

theorem requestResults_fails (h : coTest p coStuck mem env .dpp l.i l.j (sentValue env.prog l) = .ok (false, mem')) :
    requestResults p coStuck draw env l mem = .ok ([], mem') := by
  simp [requestResults, hcov, h]

/-- A request that passes leaves every listed output to be written, each once (R108). -/
theorem requestResults_passes (h : coTest p coStuck mem env .dpp l.i l.j (sentValue env.prog l) = .ok (true, mem'))
    {cells : Nat → List Host.Cell}
    (hw : ∀ o ∈ env.prog.outputs, ∃ d, env.descs.out[o]? = some d ∧
      outputWrite d env.outMask l.i l.j (l.outValue draw o) = .ok (cells o)) :
    requestResults p coStuck draw env l mem = .ok ((addNew [] env.prog.outputs).flatMap cells, mem') := by
  have hos : ∀ o ∈ addNew [] env.prog.outputs, ∃ d, env.descs.out[o]? = some d ∧
      outputWrite d env.outMask l.i l.j (l.outValue draw o) = .ok (cells o) := fun o ho =>
    hw o (by simpa [mem_addNew] using ho)
  simp [requestResults, hcov, h, outputWrites_ok hos]

end

end

/-- Settles O56: the request, each byte and the end of a processor are the four branches of `laneRetire`. -/
theorem haltedProcessorSendsResults : Obligations.HaltedProcessorSendsResults := by
  intro s k n g l hturn hg hhalted hl hstuck goesOn
  have hmove := agentStep_retire hg hl hturn hhalted hstuck
  have moves : ∀ {u}, laneRetire s k n g l = .ok u → step s = .next u.nextTurn := fun hr =>
    step_next (by rw [hmove, hr, conclude_ok])
  have sticks : ∀ {mem}, laneRetire s k n g l = .error (.stuck mem) → step s = .next (s.laneStuck k n mem).nextTurn := fun hr =>
    step_next (by rw [hmove, hr, conclude_stuck])
  have requested : ∀ {cells mem}, l.outbox = none →
      requestResults s.platform s.co.stuck s.draws g.env l s.mem = .ok (cells, mem) →
      goesOn mem { l with outbox := some cells } := fun hbox hr =>
    ⟨_, moves (laneRetire_request hg hl hbox hr), rfl⟩
  refine ⟨fun hbox hcov => ?_, fun hbox hcov answer hanswer => ⟨?_, fun pass mem hok => ⟨?_, ?_⟩⟩,
    fun a b rest hbox => ⟨fun hm => ?_, fun hm => ?_⟩, fun hbox => ?_⟩
  · exact requested hbox (requestResults_killed hcov)
  · rintro mem rfl
    have hr : laneRetire s k n g l = .error (.stuck mem) := by
      simp only [laneRetire, hbox, requestResults_stuck hcov hanswer]
      rfl
    rw [sticks hr, s.laneStuck_eq hg hl, hbox]
    simp [State.nextTurn]
  · rintro rfl
    exact requested hbox (requestResults_fails hcov (hanswer.trans hok))
  · rintro rfl data cells hdata hw
    refine ⟨⟨addNew [] g.env.prog.outputs, nodup_addNew _ List.nodup_nil, fun o => by simp [mem_addNew], ?_⟩, fun o ch w hf => ?_⟩
    · exact requested hbox (requestResults_passes hcov (hanswer.trans hok) fun o ho => hdata o ▸ hw o ho)
    · rw [hdata]
      exact Lane.outValue_get hf
  · have hr : laneRetire s k n g l = .ok { s with
        mem := { s.mem with out := tabPut s.mem.out a b }
        groups := s.groups.set k { g with lanes := g.lanes.set n { l with outbox := some rest } } } := by
      simp only [laneRetire, hbox, hm, if_true, setOutbox_eq hg hl]
    exact ⟨_, moves hr, rfl⟩
  · have hr : laneRetire s k n g l = .error (.stuck s.mem) := by simp [laneRetire, hbox, hm]
    refine ⟨_, sticks hr, ?_⟩
    rw [s.laneStuck_eq hg hl, hbox]
    simp [State.nextTurn]
  · have hr : laneRetire s k n g l = .ok { s with groups := dropLane s.groups k n } := by simp only [laneRetire, hbox]
    exact ⟨_, moves hr, rfl, dropLane_last hg, dropLane_more hg⟩

end Sys2Proof.Machine
end

section
/-! SUPPORT. Output writes (R82, R94, R97, R98): which byte of which channel lies where. -/

namespace Sys2Proof.Machine

/-! ## The bytes of a channel (R94) -/

/-- The bytes that a channel of a format is stored in. -/
def channelSize (f : BitVec 3) : Nat :=
  match f.toNat with
  | 0 => 2
  | 1 => 1
  | _ => 4

/-- Byte n of what a channel of a format is stored as (log 17). -/
def storedByte (f : BitVec 3) (w : Word) (n : Nat) : Byte :=
  match f.toNat with
  | 0 => (Config.uintEncode 0 w).extractLsb' (8 * n) 8
  | 1 => (Config.uintEncode 1 w).extractLsb' 0 8
  | _ => byteOfWord w n

theorem channelSize_pos (f : BitVec 3) : 0 < channelSize f := by
  unfold channelSize
  split <;> decide

theorem encodeChannel_length (f : BitVec 3) (w : Word) : (encodeChannel f w).length = channelSize f := by
  unfold encodeChannel channelSize
  generalize f.toNat = m
  match m with
  | 0 | 1 | _ + 2 => rfl

/-- Each byte of a channel is the stored one. -/
theorem encodeChannel_getElem? {f : BitVec 3} {n : Nat} (hn : n < channelSize f) (w : Word) :
    (encodeChannel f w)[n]? = some (storedByte f w n) := by
  have byte : ∀ (v : BitVec 16) (n : Nat), BitVec.ofNat 8 (v.toNat / 2 ^ (8 * n)) = v.extractLsb' (8 * n) 8 := fun v n => by
    rw [BitVec.extractLsb', Nat.shiftRight_eq_div_pow]
  have byte0 : ∀ v : BitVec 16, BitVec.ofNat 8 v.toNat = v.extractLsb' 0 8 := fun v => by simpa using byte v 0
  revert hn
  unfold encodeChannel storedByte channelSize
  generalize f.toNat = m
  intro hn
  match m, hn with
  | 0, (hn : n < 2) =>
    interval_cases n
    · exact congrArg some (byte0 _)
    · exact congrArg some (byte _ 1)
  | 1, (hn : n < 1) =>
    interval_cases n
    exact congrArg some (byte0 _)
  | _ + 2, (hn : n < 4) => interval_cases n <;> rfl

/-- An element is its channels (R88). -/
theorem formatLog_size {f : BitVec 3} {k : Nat} (h : formatLog f = some k) : 2 ^ k = formatChannels f * channelSize f := by
  revert h
  unfold formatLog formatChannels channelSize
  generalize f.toNat = m
  intro h
  match m, h with
  | 0, rfl | 1, rfl | 2, rfl | 3, rfl | 4, rfl => rfl

/-! ## The cells of an output write (R97, R98) -/

theorem putBytes_append (t cs cs' : List Host.Cell) : putBytes t (cs ++ cs') = putBytes (putBytes t cs) cs' := List.foldl_append

section
variable {a size x c : Nat} {bs : List Byte} (hlen : bs.length = size) (hsize : 0 < size)
include hlen hsize

/-- Channel number c of an element at `a`, its channels `size` bytes each: which byte lies at `x`. -/
theorem byteFrom_channel :
    byteFrom (a + c * size) bs x = if a ≤ x ∧ (x - a) / size = c then bs[(x - a) % size]? else none := by
  split
  · next h =>
    obtain ⟨hx, rfl⟩ := h
    have hdiv := Nat.div_add_mod' (x - a) size
    rw [← byteFrom_add (a := a + (x - a) / size * size)]
    congr 1
    omega
  · next h =>
    refine byteFrom_eq_none fun n hn hx => h ⟨by omega, ?_⟩
    rw [hx, Nat.add_assoc, Nat.add_sub_cancel_left, Nat.add_comm, Nat.add_mul_div_right _ _ hsize,
      Nat.div_eq_of_lt (by omega), Nat.zero_add]

end

section
variable {d : Desc} {k x y : Nat} (hk : formatLog d.format = some k)
include hk

/-- An element does not wrap around the end of the address space (R93). -/
theorem Desc.address_add_le (x y : Nat) : d.address k x y + 2 ^ k ≤ 2 ^ 32 := by
  have hlt := d.address_lt hk x y
  have hle := formatLog_le hk
  obtain ⟨q, hq⟩ := d.dvd_address hk x y
  have hspace : 2 ^ 32 = 2 ^ k * 2 ^ (32 - k) := by rw [← pow_add, Nat.add_sub_cancel' (by omega)]
  rw [hq, hspace] at hlt ⊢
  rw [← Nat.mul_succ]
  exact Nat.mul_le_mul_left _ (Nat.lt_of_mul_lt_mul_left hlt)

/-- The cells of one channel lie one after another (R94). -/
theorem channelCells_eq (x y : Nat) {c : Chan} (hc : c.idx < formatChannels d.format) (w : Word) :
    channelCells (d.byteAddrs k x y) d.format c w =
      cellsFrom (d.address k x y + c.idx * channelSize d.format) (encodeChannel d.format w) := by
  have hroom := d.address_add_le hk x y
  have hsize := formatLog_size hk
  have hend : (c.idx + 1) * channelSize d.format ≤ 2 ^ k := hsize ▸ Nat.mul_le_mul_right _ hc
  rw [channelCells, encodeChannel_length]
  apply zip_eq_cellsFrom
  · rw [encodeChannel_length, List.length_drop, Desc.byteAddrs, List.length_map, List.length_range]
    rw [Nat.add_mul] at hend
    omega
  · intro n z hz
    simp only [Desc.byteAddrs, List.getElem?_drop, List.getElem?_map, Option.map_eq_some_iff, List.getElem?_eq_some_iff, List.length_range,
      List.getElem_range] at hz
    obtain ⟨m, ⟨hm, rfl⟩, rfl⟩ := hz
    rw [Nat.mod_eq_of_lt (by omega), Nat.add_assoc]

end

section
variable {d : TallDesc} {mask : BitVec 4} {data : Quad Word} {k : Nat} (hk : formatLog d.desc.format = some k)
include hk

/-- Channel c of an output write puts in the bytes that it is stored as, where the format has it and the mask enables it. -/
theorem tabFind_putBytes_channel (t : List Host.Cell) (x y : Nat) (c : Chan) (a : Nat) :
    tabFind (putBytes t (if c.idx < formatChannels d.desc.format && mask.getLsbD c.idx then
        channelCells (d.desc.byteAddrs k x y) d.desc.format c (data.get c)
      else [])) a =
    if (c.idx < formatChannels d.desc.format ∧ mask.getLsbD c.idx = true) ∧ d.desc.address k x y ≤ a ∧
        (a - d.desc.address k x y) / channelSize d.desc.format = c.idx then
      some (storedByte d.desc.format (data.get c) ((a - d.desc.address k x y) % channelSize d.desc.format))
    else tabFind t a := by
  have hpos := channelSize_pos d.desc.format
  by_cases hc : c.idx < formatChannels d.desc.format ∧ mask.getLsbD c.idx = true
  · rw [if_pos (by simpa using hc), channelCells_eq hk x y hc.1, tabFind_putBytes_cellsFrom,
      byteFrom_channel (encodeChannel_length _ _) hpos, encodeChannel_getElem? (Nat.mod_lt _ hpos)]
    simp only [hc, true_and]
    split <;> rfl
  · rw [if_neg (by simpa using hc), if_neg fun h => hc h.1]
    rfl

/-- The four channels together. -/
theorem tabFind_putBytes_outputCells (t : List Host.Cell) (x y a : Nat) :
    tabFind (putBytes t (outputCells (d.desc.byteAddrs k x y) d.desc.format mask data)) a =
    if d.desc.address k x y ≤ a ∧ a < d.desc.address k x y + 2 ^ k ∧
        mask.getLsbD ((a - d.desc.address k x y) / channelSize d.desc.format) = true then
      some (storedByte d.desc.format
        (match (a - d.desc.address k x y) / channelSize d.desc.format with
          | 0 => data.r
          | 1 => data.g
          | 2 => data.b
          | _ => data.a) ((a - d.desc.address k x y) % channelSize d.desc.format))
    else tabFind t a := by
  have hwithin : d.desc.address k x y ≤ a → (a < d.desc.address k x y + 2 ^ k ↔
      (a - d.desc.address k x y) / channelSize d.desc.format < formatChannels d.desc.format) := fun ha => by
    rw [Nat.div_lt_iff_lt_mul (channelSize_pos _), ← formatLog_size hk]
    omega
  simp only [outputCells, List.flatMap_cons, List.flatMap_nil, List.append_nil, putBytes_append,
    tabFind_putBytes_channel hk]
  generalize (a - d.desc.address k x y) % channelSize d.desc.format = r
  generalize (a - d.desc.address k x y) / channelSize d.desc.format = q at hwithin ⊢
  by_cases ha : d.desc.address k x y ≤ a
  · simp only [hwithin ha, ha, true_and]
    match q with
    | 0 => simp [Chan.idx, Quad.get]
    | 1 => simp [Chan.idx, Quad.get]
    | 2 => simp [Chan.idx, Quad.get]
    | 3 => simp [Chan.idx, Quad.get]
    | q + 4 => simp [Chan.idx]
  · simp [ha]

end

theorem outputWrite_eq_ok {d : TallDesc} {mask : BitVec 4} {i j : BitVec 12} {data : Quad Word} {k : Nat} {cells : List Host.Cell}
    (hk : formatLog d.desc.format = some k) (h : outputWrite d mask i j data = .ok cells) :
    cells = outputCells (d.desc.byteAddrs k i.toNat j.toNat) d.desc.format mask data := by
  unfold outputWrite at h
  cases he : elementAddrs d.desc (some d.height.toNat) i.toNat j.toNat with
  | error e =>
    rw [he] at h
    cases h
  | ok as =>
    rw [he] at h
    rw [← elementAddrs_eq_ok hk he]
    exact (Except.ok.inj h).symm

end Sys2Proof.Machine
end

section
/-! SUPPORT. The MC on its own (R95, R97, R101, R104, R105): what it drops, what it writes back, and where that stops. -/

namespace Sys2Proof.Machine

/-! ## Where a write to memory stops (R104, R105) -/

/-- The address holds one of the first n constants under a descriptor. -/
theorem Desc.holdsConst_iff {d : Desc} {n a : Nat} :
    d.holdsConst n a = true ↔ ∃ c < n, ∃ as, elementAddrs d none c 0 = .ok as ∧ a ∈ as := by
  have one : ∀ c, a ∈ constAddrs d c ↔ ∃ as, elementAddrs d none c 0 = .ok as ∧ a ∈ as := fun c => by
    unfold constAddrs
    cases elementAddrs d none c 0 <;> simp
  simp [holdsConst, one]

theorem State.underConst_iff {s : State} {a : Nat} :
    s.underConst a = true ↔ ∃ (d : Desc) (item : Item) (n c : Nat) (as : List Nat),
      (d, item, n) ∈ [(s.mc.descs.constf, Item.constf, 256), (s.mc.descs.consti, Item.consti, 32),
        (s.mc.descs.constb, Item.constb, 32)] ∧
      item ∈ s.setItems ∧ c < n ∧ elementAddrs d none c 0 = .ok as ∧ a ∈ as := by
  have under : ∀ (d : Desc) (item : Item) (n : Nat), (s.setItems.contains item && d.holdsConst n a) = true ↔
      ∃ c as, item ∈ s.setItems ∧ c < n ∧ elementAddrs d none c 0 = .ok as ∧ a ∈ as := fun d item n => by
    simp [Desc.holdsConst_iff]
  simp only [State.underConst, Bool.or_eq_true, under, List.mem_cons, List.not_mem_nil, or_false, Prod.mk.injEq]
  constructor
  · rintro ((⟨c, as, h⟩ | ⟨c, as, h⟩) | ⟨c, as, h⟩)
    · exact ⟨_, _, _, c, as, .inl ⟨rfl, rfl, rfl⟩, h⟩
    · exact ⟨_, _, _, c, as, .inr (.inl ⟨rfl, rfl, rfl⟩), h⟩
    · exact ⟨_, _, _, c, as, .inr (.inr ⟨rfl, rfl, rfl⟩), h⟩
  · rintro ⟨d, item, n, c, as, ⟨rfl, rfl, rfl⟩ | ⟨rfl, rfl, rfl⟩ | ⟨rfl, rfl, rfl⟩, h⟩
    · exact .inl (.inl ⟨c, as, h⟩)
    · exact .inl (.inr ⟨c, as, h⟩)
    · exact .inr ⟨c, as, h⟩

/-- Each byte of each slot of the program is text (R105; log 5). -/
theorem Snapshot.holdsText_of_slot {e : Snapshot} {a slot byte : Nat} (hslot : slot < e.prog.instrCnt.toNat) (hbyte : byte < 24)
    (ha : a = Config.textAddr e.descs.inst.base.toNat e.descs.inst.pitch.toNat e.descs.inst.tiling.isTiled
      e.descs.inst.format.toNat slot byte % 2 ^ 32) : e.holdsText a = true := by
  have hmem : a ∈ textAddrs e.descs.inst slot := List.mem_map.2 ⟨byte, List.mem_range.2 hbyte, ha.symm⟩
  exact List.any_eq_true.2 ⟨slot, List.mem_range.2 hslot, by simpa using hmem⟩

section
variable {s : State} {a : Nat} {b : Byte}

theorem ramWrite_unmapped (h : s.platform.mapped a = false) : ramWrite s a b = .error (.stuck s.mem) := by
  simp [ramWrite, h]

section
variable (hm : s.platform.mapped a = true) (hne : s.mem.ram.get a ≠ b)
include hm hne

/-- A change under a constant descriptor while a processor is busy (R104). -/
theorem ramWrite_constChanged (hbusy : s.groups ≠ []) (h : s.underConst a = true) :
    ramWrite s a b = .error (.fault .constChanged) := by
  simp [ramWrite, hm, hne, hbusy, h]

/-- A change of the text of a running program (R105). -/
theorem ramWrite_textChanged (hconst : s.underConst a = false) {g : Group} (hg : g ∈ s.groups) (h : g.env.holdsText a = true) :
    ramWrite s a b = .error (.fault .textChanged) := by
  have hany : s.groups.any (fun g => g.env.holdsText a) = true := List.any_eq_true.2 ⟨g, hg, h⟩
  simp [ramWrite, hm, hne, hconst, hany]

end

end

/-! ## Evictions (R95, R97, R101) -/

/-- A table without the byte at one address. -/
def tableWithout (a : Nat) (c c' : List Host.Cell) : Prop := ∀ b, tabFind c' b = if b = a then none else tabFind c b

theorem tableWithout_tabDel {t : List Host.Cell} (a : Nat) (h : bytesWf t = true) : tableWithout a t (tabDel t a) := fun b => by
  rw [tabFind_tabDel a b ((bytesWf_iff t).1 h).1]
  simp only [eq_comm]

section
variable {s : State} {c : CacheId} {a : Nat} (hturn : s.turn = .evict c a)
include hturn

/-- A step at a turn of the MC is its eviction. -/
theorem step_evict_ok {t : State} (h : evictStep s c a = .ok t) : step s = .next t.nextTurn :=
  step_next (by rw [agentStep, hturn]; dsimp only; rw [h, conclude_ok])

theorem step_evict_stuck {m : MemSys} (h : evictStep s c a = .error (.stuck m)) : step s = .next s.nextTurn :=
  step_next (by rw [agentStep, hturn]; dsimp only; rw [h, conclude_stuck])

theorem step_evict_fault {f : Fault} (h : evictStep s c a = .error (.fault f)) : step s = .fault f :=
  step_fault (by rw [agentStep, hturn]; dsimp only; rw [h, conclude_fault])

end

/-- The caches of the read-only clients among the seven (R40). -/
def ReadClient.cacheId : ReadClient → CacheId
  | .inst => .inst
  | .constf => .constf
  | .consti => .consti
  | .constb => .constb
  | .inp => .inp

theorem evictStep_readClient (s : State) (client : ReadClient) (a : Nat) :
    evictStep s client.cacheId a = .ok { s with mem := s.mem.setCache client ((s.mem.cache client).drop a) } := by
  cases client <;> rfl

section
variable {s : State} {a : Nat} {b : Byte}

theorem evictStep_out (h : tabFind s.mem.out a = some b) :
    evictStep s .out a = (ramWrite s a b).map fun s1 => { s1 with mem := { s1.mem with out := tabDel s1.mem.out a } } := by
  simp only [evictStep, h]

theorem evictStep_cond (h : tabFind s.mem.cond.dirty a = some b) :
    evictStep s .cond a = (ramWrite s a b).map fun s1 => { s1 with
      mem := { s1.mem with cond := { clean := s1.mem.cond.clean.keep a b, dirty := tabDel s1.mem.cond.dirty a } } } := by
  simp only [evictStep, h]

/-- A dirty byte of either write cache goes through memory: where that write stops, so does the eviction. -/
theorem evictStep_error {e : Stop} (h : ramWrite s a b = .error e)
    (hdirty : (s.turn = .evict .out a ∧ tabFind s.mem.out a = some b) ∨
      (s.turn = .evict .cond a ∧ tabFind s.mem.cond.dirty a = some b)) :
    ∃ c, s.turn = .evict c a ∧ evictStep s c a = .error e := by
  rcases hdirty with ⟨hturn, hb⟩ | ⟨hturn, hb⟩
  · exact ⟨.out, hturn, by rw [evictStep_out hb, h]; rfl⟩
  · exact ⟨.cond, hturn, by rw [evictStep_cond hb, h]; rfl⟩

end

/-- Settles O53: an output write is its four channels; an eviction drops a clean byte and writes a dirty one where memory takes
it. -/
theorem outputWritesAreMasked : Obligations.OutputWritesAreMasked := by
  refine ⟨fun d mask i j data k cells t _ hk hw => ?_, fun s a hwf => ?_⟩
  · rw [outputWrite_eq_ok hk hw]
    exact tabFind_putBytes_outputCells hk t i.toNat j.toNat
  · intro next without
    refine ⟨fun client hturn => ?_, fun hturn hb => ?_, fun hturn hb => ?_, fun b hdirty => ⟨fun hm => ?_, fun hw => ?_,
      fun hm hne hbusy => ⟨fun hunder => ?_, fun hunder g hg slot hslot byte hbyte ha => ?_⟩⟩⟩
    · exact ⟨_, tableWithout_tabDel a (s.mem.cache_wf hwf client),
        step_evict_ok (c := client.cacheId) hturn (evictStep_readClient s client a)⟩
    · exact ⟨_, tableWithout_tabDel a (s.mem.clean_wf hwf), step_evict_ok hturn (by simp only [evictStep, hb]; rfl)⟩
    · exact step_evict_ok hturn (by simp only [evictStep, hb])
    · obtain ⟨c, hturn, hstep⟩ := evictStep_error (ramWrite_unmapped hm) hdirty
      exact step_evict_stuck hturn hstep
    · have hram : ∀ x, (s.mem.ram.set a b).get x = if x = a then b else s.mem.ram.get x := fun x => by
        rw [Memory.get_set a x b ((bytesWf_iff _).1 ((Memory.wf_iff _).1 (s.mem.ram_wf hwf)).1).1]
        simp only [eq_comm]
      rcases hdirty with ⟨hturn, hb⟩ | ⟨hturn, hb⟩
      · refine ⟨_, tabDel s.mem.out a, s.mem.cond.dirty, s.mem.cond.clean, ?_, hram,
          fun _ => ⟨tableWithout_tabDel a (s.mem.out_wf hwf), rfl, rfl⟩, fun h => ?_⟩
        · exact step_evict_ok hturn (by rw [evictStep_out hb, ramWrite_ok b hw]; rfl)
        · rw [hturn] at h
          cases h
      · refine ⟨_, s.mem.out, tabDel s.mem.cond.dirty a, s.mem.cond.clean.keep a b, ?_, hram, fun h => ?_,
          fun _ => ⟨tableWithout_tabDel a (s.mem.dirty_wf hwf), rfl, fun x => ?_⟩⟩
        · exact step_evict_ok hturn (by rw [evictStep_cond hb, ramWrite_ok b hw]; rfl)
        · rw [hturn] at h
          cases h
        · rw [ReadCache.keep, tabFind_tabPut]
          simp only [eq_comm]
    · obtain ⟨c, hturn, hstep⟩ := evictStep_error (ramWrite_constChanged hm hne hbusy (State.underConst_iff.2 hunder)) hdirty
      exact step_evict_fault hturn hstep
    · have hconst : s.underConst a = false := by simpa using mt State.underConst_iff.1 hunder
      obtain ⟨c, hturn, hstep⟩ := evictStep_error
        (ramWrite_textChanged hm hne hconst hg (Snapshot.holdsText_of_slot hslot hbyte ha)) hdirty
      exact step_evict_fault hturn hstep

end Sys2Proof.Machine
end

section
/-! SUPPORT. Fetching (R21, R131, R148, R180, R548): what a fetch answers, where it stops, and the step that it leads to. -/

namespace Sys2Proof

/-! ## Unused codes of a field (R149, R152 to R154, R156) -/

section
variable {n : Nat}

theorem PredSel.used_of_ofCode {x : PredSel} (h : PredSel.ofCode n = some x) : n ∉ [6, 7] := fun hn => by
  fin_cases hn <;> cases h

theorem RgbOp.used_of_ofCode {x : RgbOp} (h : RgbOp.ofCode n = some x) : n ∉ [6, 11, 12, 13, 14, 15] := fun hn => by
  fin_cases hn <;> cases h

theorem AlphaOp.used_of_ofCode {x : AlphaOp} (h : AlphaOp.ofCode n = some x) : n ∉ [4, 14, 15] := fun hn => by
  fin_cases hn <;> cases h

theorem Swz.used_of_ofCode {x : Swz} (h : Swz.ofCode n = some x) : n ≠ 7 := by
  rintro rfl
  cases h

theorem TexOp.used_of_ofCode {x : TexOp} (h : TexOp.ofCode n = some x) : n ∉ [4, 5, 6] := fun hn => by
  fin_cases hn <;> cases h

theorem AOp.used_of_ofCode {x : AOp} (h : AOp.ofCode n = some x) : n ≠ 3 := by
  rintro rfl
  cases h

theorem BOp.used_of_ofCode {x : BOp} (h : BOp.ofCode n = some x) : n ≠ 3 := by
  rintro rfl
  cases h

end

theorem decodeRgbOperand_used {w : Word} {lo : Nat} {o : RgbOperand} (h : decodeRgbOperand w lo = some o) :
    field w (lo + 2) 3 ≠ 7 ∧ field w (lo + 5) 3 ≠ 7 ∧ field w (lo + 8) 3 ≠ 7 := by
  simp only [decodeRgbOperand, bind, Option.bind_eq_some_iff] at h
  obtain ⟨red, hred, green, hgreen, blue, hblue, -⟩ := h
  exact ⟨Swz.used_of_ofCode hred, Swz.used_of_ofCode hgreen, Swz.used_of_ofCode hblue⟩

theorem decodeAlphaOperand_used {w : Word} {lo : Nat} {o : AlphaOperand} (h : decodeAlphaOperand w lo = some o) :
    field w (lo + 2) 3 ≠ 7 := by
  simp only [decodeAlphaOperand, bind, Option.bind_eq_some_iff] at h
  obtain ⟨swz, hswz, -⟩ := h
  exact Swz.used_of_ofCode hswz

section
variable {s : Slot}

/-- An ALU or OUTPUT slot that decodes has only used codes. -/
theorem decodeAlu_used {r : RgbOp × AlphaOp × AluInst} (h : decodeAlu s = some r) :
    field s.w4 0 4 ∉ [4, 14, 15] ∧ field s.w5 0 4 ∉ [6, 11, 12, 13, 14, 15] ∧ field s.w0 3 3 ∉ [6, 7] ∧
    field s.w0 25 3 ∉ [6, 7] ∧ (∀ lo ∈ [2, 5, 8, 15, 18, 21], field s.w3 lo 3 ≠ 7) ∧
    (∀ lo ∈ [14, 21], field s.w4 lo 3 ≠ 7) ∧ ∀ lo ∈ [14, 17, 20, 27], field s.w5 lo 3 ≠ 7 := by
  simp only [decodeAlu, bind, Option.bind_eq_some_iff] at h
  obtain ⟨_, hrgbPred, _, halphaPred, _, hrgbA, _, hrgbB, _, haop, _, halphaA, _, halphaB, _, hrop, _, hrgbC, _, halphaC, -⟩ := h
  have hA := decodeRgbOperand_used hrgbA
  have hB := decodeRgbOperand_used hrgbB
  have hC := decodeRgbOperand_used hrgbC
  refine ⟨AlphaOp.used_of_ofCode haop, RgbOp.used_of_ofCode hrop, PredSel.used_of_ofCode hrgbPred,
    PredSel.used_of_ofCode halphaPred, ?_, ?_, ?_⟩
  · simpa [and_assoc] using And.intro hA hB
  · simpa using ⟨decodeAlphaOperand_used halphaA, decodeAlphaOperand_used halphaB⟩
  · simpa [and_assoc] using And.intro hC (decodeAlphaOperand_used halphaC)

/-- A texture slot that decodes has only used codes. -/
theorem decodeTex_used {r : TexOp × TexInst} (h : decodeTex s = some r) :
    field s.w1 22 3 ∉ [4, 5, 6] ∧ field s.w0 3 3 ∉ [6, 7] ∧ field s.w0 25 3 ∉ [6, 7] := by
  simp only [decodeTex, bind, Option.bind_eq_some_iff] at h
  obtain ⟨_, hrgbPred, _, halphaPred, _, hop, -⟩ := h
  exact ⟨TexOp.used_of_ofCode hop, PredSel.used_of_ofCode hrgbPred, PredSel.used_of_ofCode halphaPred⟩

/-- A flow-control slot that decodes has only used codes. -/
theorem decodeFc_used {r : FcOp × FcInst} (h : decodeFc s = some r) :
    field s.w0 3 3 ∉ [6, 7] ∧ field s.w2 6 2 ≠ 3 ∧ field s.w2 24 2 ≠ 3 ∧ field s.w2 26 2 ≠ 3 := by
  simp only [decodeFc, bind, Option.bind_eq_some_iff] at h
  obtain ⟨_, hpred, _, haOp, _, hbOp0, _, hbOp1, -⟩ := h
  exact ⟨PredSel.used_of_ofCode hpred, AOp.used_of_ofCode haOp, BOp.used_of_ofCode hbOp0, BOp.used_of_ofCode hbOp1⟩

theorem decodeSlot_alu_none (hk : field s.w0 0 2 < 2) (h : ∀ r, decodeAlu s ≠ some r) :
    decodeSlot s = .error .invalidEncoding := by
  unfold decodeSlot
  split
  · omega
  · omega
  · rw [Option.eq_none_iff_forall_ne_some.2 h]

theorem decodeSlot_tex_none (hk : field s.w0 0 2 = 3) (h : ∀ r, decodeTex s ≠ some r) :
    decodeSlot s = .error .invalidEncoding := by
  simp only [decodeSlot, hk, Option.eq_none_iff_forall_ne_some.2 h]

theorem decodeSlot_fc_none (hk : field s.w0 0 2 = 2) (h : ∀ r, decodeFc s ≠ some r) :
    decodeSlot s = .error .invalidEncoding := by
  simp only [decodeSlot, hk, Option.eq_none_iff_forall_ne_some.2 h]

end

/-! ## The words of a command (R131, R132) -/

/-- The 27 opcodes. -/
def opcodes : List Word :=
  [0xC0010200#32, 0xC0000300#32, 0xC0000400#32, 0xC0010500#32, 0xC0000600#32, 0xC0030700#32, 0xC0000800#32,
   0xC0000900#32, 0xC0010A00#32, 0xC0030B00#32, 0xC0030C00#32, 0xC0020D00#32, 0xC0010E00#32, 0xC0010F00#32,
   0xC0011000#32, 0xC0001100#32, 0xC0001200#32, 0xC0001300#32, 0xC0001400#32, 0xC0001500#32, 0xC0001600#32,
   0xC0001700#32, 0xC0001800#32, 0xC0001900#32, 0xC0001A00#32, 0xC0001B00#32, 0xC0001C00#32]

theorem mem_opcodes_of_commandParams {w : Word} {n : Nat} (h : commandParams w = some n) : w ∈ opcodes := by
  rw [← BitVec.setWidth_eq w, ← BitVec.ofNat_toNat]
  unfold commandParams at h
  split at h
  case h_28 => cases h
  all_goals
    next hw =>
    rw [hw]
    decide

/-- A command that does not decode has another opcode or too few parameters. -/
theorem decodeCommand_cons (w : Word) (ps : List Word) :
    (∃ n, commandParams w = some n ∧ n ≤ ps.length) ∨
    decodeCommand (w :: ps) = .error (if (commandParams w).isSome then .truncated else .badCommand w) := by
  unfold decodeCommand
  dsimp only
  split
  case h_28 => exact .inr rfl
  all_goals
    next hw =>
    exact .inl (by simp [commandParams, hw])

theorem decodeCommand_badCommand {w : Word} (h : commandParams w = none) (ps : List Word) :
    decodeCommand (w :: ps) = .error (.badCommand w) := by
  rcases decodeCommand_cons w ps with ⟨n, hn, -⟩ | he
  · simp [h] at hn
  · simpa [h] using he

theorem decodeCommand_truncated {w : Word} {n : Nat} (h : commandParams w = some n) {ps : List Word} (hlen : ps.length < n) :
    decodeCommand (w :: ps) = .error .truncated := by
  rcases decodeCommand_cons w ps with ⟨m, hm, hle⟩ | he
  · obtain rfl : n = m := Option.some.inj (h.symm.trans hm)
    omega
  · simpa [h] using he

/-- A command has at least its opcode. -/
theorem encode_length_pos {i : Instr} (h : (encodeCommand i).isSome = true) : 0 < (encode i).length := by
  cases i <;> cases h <;> exact Nat.succ_pos _

end Sys2Proof

namespace Sys2Proof.Machine

/-! ## The fetch of a command (R131, R181) -/

theorem bufferWords_length (ram : Memory) (pos : Word) (n : Nat) : (bufferWords ram pos n).length = n := by
  induction n generalizing pos with
  | zero => rfl
  | succ n ih => rw [bufferWords, List.length_cons, ih]

theorem bufferAddrs_one (pos : Word) : bufferAddrs pos 1 = wordAddrs pos.toNat := by
  change wordAddrs (pos + 0#32).toNat ++ [] = _
  rw [BitVec.add_zero, List.append_nil]

/-- The first words of a position lie among more of them. -/
theorem bufferAddrs_mono (pos : Word) {m n : Nat} (h : m ≤ n) : bufferAddrs pos m ⊆ bufferAddrs pos n := by
  intro a ha
  simp only [bufferAddrs, List.mem_flatMap, List.mem_range] at ha ⊢
  obtain ⟨k, hk, ha⟩ := ha
  exact ⟨k, by omega, ha⟩

section
variable {s : State} {c : Current}

theorem fetchCommand_ok {i : Instr} (hd : decodeCommand (bufferWords s.mem.ram c.pos (min 5 c.remaining)) = .ok i)
    (hm : (bufferAddrs c.pos (encode i).length).all s.platform.mapped = true) : fetchCommand s c = .ok i := by
  have hlen := encode_length_pos (decodeCommand_command hd)
  have hopcode : (bufferAddrs c.pos (min 1 (min 5 c.remaining))).all s.platform.mapped = true :=
    List.all_eq_true.2 fun a ha => List.all_eq_true.1 hm a (bufferAddrs_mono c.pos (by omega) ha)
  rw [fetchCommand]
  simp only [hopcode, if_true, hd, commandLen, hm]

/-- With a word left the first one is that at the read position. -/
theorem bufferWords_cons (hr : 1 ≤ c.remaining) :
    ∃ ps, bufferWords s.mem.ram c.pos (min 5 c.remaining) = s.mem.ram.word c.pos.toNat :: ps ∧ ps.length < c.remaining := by
  obtain ⟨k, hk⟩ : ∃ k, min 5 c.remaining = k + 1 := ⟨min 5 c.remaining - 1, by omega⟩
  rw [hk]
  exact ⟨_, rfl, by rw [bufferWords_length]; omega⟩

section
variable (hr : 1 ≤ c.remaining) (hm : ∀ a ∈ wordAddrs c.pos.toNat, s.platform.mapped a = true)
include hr hm

theorem fetchCommand_error {e : DecodeError} (hd : decodeCommand (bufferWords s.mem.ram c.pos (min 5 c.remaining)) = .error e) :
    fetchCommand s c = .error (peError e) := by
  have hone : min 1 (min 5 c.remaining) = 1 := by omega
  have hopcode : (bufferAddrs c.pos (min 1 (min 5 c.remaining))).all s.platform.mapped = true := by
    rw [hone, bufferAddrs_one]
    exact List.all_eq_true.2 hm
  rw [fetchCommand]
  simp only [hopcode, if_true, hd]

theorem fetchCommand_badCommand (h : commandParams (s.mem.ram.word c.pos.toNat) = none) :
    fetchCommand s c = .error (.fault (.badCommand (s.mem.ram.word c.pos.toNat))) := by
  obtain ⟨ps, hps, -⟩ := bufferWords_cons (s := s) hr
  exact fetchCommand_error hr hm (by rw [hps]; exact decodeCommand_badCommand h ps)

theorem fetchCommand_truncated {n : Nat} (h : commandParams (s.mem.ram.word c.pos.toNat) = some n) (hn : c.remaining < 1 + n) :
    fetchCommand s c = .error (.fault .truncatedCommand) := by
  obtain ⟨ps, hps, hlen⟩ := bufferWords_cons (s := s) hr
  exact fetchCommand_error hr hm (by rw [hps]; exact decodeCommand_truncated h (by omega))

end

/-! ## The turn of the PE (R81, R180, R181, R524) -/

section
variable (hturn : s.turn = .pe)
include hturn

theorem agentStep_pe_stuck (h : s.pe.stuck = true) : agentStep s = .next s := by
  simp [agentStep, hturn, peStep, h]

section
variable (hstuck : s.pe.stuck = false)
include hstuck

/-- Without a current buffer the next submitted one is taken up. -/
theorem agentStep_pe_next (hcur : s.pe.cur = none) : agentStep s = .next { s with pe := nextBuffer s.pe } := by
  simp [agentStep, hturn, peStep, hstuck, hcur]

section
variable (hcur : s.pe.cur = some c)
include hcur

theorem agentStep_pe_exec {i : Instr} (h : fetchCommand s c = .ok i) : agentStep s = exec i s := by
  simp [agentStep, hturn, peStep, hstuck, hcur, h]

theorem agentStep_pe_fault {f : Fault} (h : fetchCommand s c = .error (.fault f)) : agentStep s = .fault f := by
  simp [agentStep, hturn, peStep, hstuck, hcur, h]

end

end

end

theorem nextBuffer_none {pe : Pe} (h : pe.queue = []) : nextBuffer pe = pe := by simp [nextBuffer, h]

section
variable {pe : Pe} {sub : Submission} {rest : List Submission} (h : pe.queue = sub :: rest)
include h

theorem nextBuffer_empty (hs : sub.size = 0#32) :
    nextBuffer pe = { pe with queue := rest, consumed := pe.consumed ++ [sub.id] } := by simp [nextBuffer, h, hs]

theorem nextBuffer_nonempty (hs : sub.size ≠ 0#32) :
    nextBuffer pe = { pe with queue := rest, cur := some { sub := sub, pos := sub.addr, remaining := sub.size.toNat } } := by
  simp [nextBuffer, h, hs]

end

end

/-! ## The turn of a group (R21, R81, R148, R548) -/

section
variable {s : State} {k : Nat} {g : Group} (hturn : s.turn = .group k) (hg : s.groups[k]? = some g) (hrun : g.halted = false)
  (hstuck : ∀ l ∈ g.lanes, l.stuck = false)
include hturn hg hrun hstuck

theorem agentStep_group_exec {i : Instr} (h : fetchSlot s.platform g = .ok i) : agentStep s = exec i s := by
  have hany : g.lanes.any Lane.stuck = false := List.any_eq_false.2 fun l hl => by simp [hstuck l hl]
  simp [agentStep, hturn, groupStep, hg, hrun, hany, h]

theorem step_group_fault {f : Fault} (h : fetchSlot s.platform g = .error (.fault f)) : step s = .fault f := by
  have hany : g.lanes.any Lane.stuck = false := List.any_eq_false.2 fun l hl => by simp [hstuck l hl]
  exact step_fault (by simp [agentStep, hturn, groupStep, hg, hrun, hany, h])

end

/-- A pc past the program, or past the end address where the device stops there, is out of range (log 36). -/
theorem Group.pcInRange_eq_false {p : Platform} {g : Group}
    (h : g.env.prog.instrCnt.toNat ≤ g.pc ∨ (p.endJump = .stops ∧ g.env.prog.endSlot < g.pc)) : g.pcInRange p = false := by
  rw [Bool.eq_false_iff, ne_eq, Group.pcInRange_iff]
  rintro ⟨hin, hend⟩
  rcases h with h | ⟨hstops, hpast⟩
  · omega
  · rcases hend with hend | hend
    · rw [hstops] at hend
      cases hend
    · omega

/-- Settles O3: the words of a command have another opcode or are too few, a pc is out of range, and a slot that decodes has no unused
code. -/
theorem fetchFaults : Obligations.FetchFaults := by
  refine ⟨fun s c hturn hstuck hcur hr hm => ⟨fun hop => ?_, fun n hn hlen => ?_⟩, fun s k g hturn hg hrun hstuck =>
    ⟨fun hpc => ?_, fun slot hpc hend hslot => ?_⟩⟩
  · have hnone : commandParams (s.mem.ram.word c.pos.toNat) = none :=
      Option.eq_none_iff_forall_ne_some.2 fun n hn => hop (mem_opcodes_of_commandParams hn)
    exact step_fault (agentStep_pe_fault hturn hstuck hcur (fetchCommand_badCommand hr hm hnone))
  · exact step_fault (agentStep_pe_fault hturn hstuck hcur (fetchCommand_truncated hr hm hn hlen))
  · exact step_group_fault hturn hg hrun hstuck (fetchSlot_out (Group.pcInRange_eq_false hpc))
  · have invalid : ∀ e, s.platform.layout.decode slot = .error e → step s = .fault .invalidEncoding := fun e he =>
      step_group_fault hturn hg hrun hstuck (fetchSlot_invalid (Group.pcInRange_iff.2 ⟨hpc, hend⟩) hslot he)
    refine ⟨invalid, fun hlayout => ?_⟩
    have invalidK1 : decodeSlot slot = .error .invalidEncoding → step s = .fault .invalidEncoding := fun he =>
      invalid _ (by rw [hlayout]; exact he)
    refine ⟨fun hkind hunused => invalidK1 (decodeSlot_alu_none hkind fun r hd => ?_),
      fun hkind hunused => invalidK1 (decodeSlot_tex_none hkind fun r hd => ?_),
      fun hkind hunused => invalidK1 (decodeSlot_fc_none hkind fun r hd => ?_)⟩
    · have hused := decodeAlu_used hd
      grind
    · have hused := decodeTex_used hd
      grind
    · have hused := decodeFc_used hd
      grind

/-- Settles O4: what the agent's fetch answers is executed, and the next turn is drawn. -/
theorem stepRunsDecodedInstruction : Obligations.StepRunsDecodedInstruction := by
  refine ⟨?_, fun s i h => ?_⟩
  · intro s hturn next
    refine ⟨fun h => ?_, fun sub rest hstuck hcur hqueue => ?_⟩
    · cases hstuck : s.pe.stuck with
      | true => exact step_next (agentStep_pe_stuck hturn hstuck)
      | false =>
        obtain ⟨hcur, hqueue⟩ : s.pe.cur = none ∧ s.pe.queue = [] := by simpa [hstuck] using h
        have hstep := step_next (agentStep_pe_next hturn hstuck hcur)
        rwa [nextBuffer_none hqueue] at hstep
    · have hstep := step_next (agentStep_pe_next hturn hstuck hcur)
      refine ⟨fun hsize => ?_, fun hsize => ?_⟩
      · rwa [nextBuffer_empty hqueue hsize] at hstep
      · rwa [nextBuffer_nonempty hqueue hsize] at hstep
  · have hexec : agentStep s = exec i s := by
      rcases h with ⟨hturn, hstuck, c, hcur, hd, hm⟩ | ⟨k, g, slot, hturn, hg, hrun, hstuck, hpc, hend, hslot, hd⟩
      · exact agentStep_pe_exec hturn hstuck hcur (fetchCommand_ok hd hm)
      · exact agentStep_group_exec hturn hg hrun hstuck
          (fetchSlot_eq_ok.2 ⟨slot, Group.pcInRange_iff.2 ⟨hpc, hend⟩, hslot, hd⟩)
    rw [step, hexec]
    cases exec i s <;> rfl

/-- Settles O2: each sample is evaluated, field by field, from its words. -/
theorem sampleWordsDecode : Obligations.SampleWordsDecode := ⟨rfl, rfl, rfl, rfl, rfl, rfl, rfl⟩

end Sys2Proof.Machine
end

section
/-! SUPPORT. The checks of a command (R135, R137 to R139): reserved bits first, then, where it is not pipelined, an idle device. -/

namespace Sys2Proof.Machine

/-! ## The two checks -/

/-- The eight commands that are not pipelined (R135). -/
def notPipelined : Instr → Bool
  | .readPerfCounters _ | .setInstFmt _ _ | .setInpFmt _ _ _ _ | .setOutFmt _ _ _ _ | .setCondOutFmt _ _ _
  | .setConstfFmt _ _ | .setConstiFmt _ _ | .setConstbFmt _ _ => true
  | _ => false

/-- Reserved bits stop a command before anything else of it (R139). -/
theorem exec_reservedBits {i : Instr} (h : i.commandWellFormed = false) (s : State) : exec i s = .fault .reservedBits := by
  have hr : requireReserved i = .error (.fault .reservedBits) := by simp [requireReserved, require, h]
  cases i <;> try cases h
  case setInstFmt | setInpFmt | setOutFmt | setCondOutFmt | setConstfFmt | setConstiFmt | setConstbFmt =>
    change conclude s.peStuck ((requireReserved _ >>= fun _ => _) >>= fun _ => _) = _
    rw [hr]
    rfl
  all_goals
    change conclude s.peStuck (requireReserved _ >>= fun _ => _) = _
    rw [hr]
    rfl

/-- A command that is not pipelined stops on a device that is not idle (R135). -/
theorem exec_notIdle {i : Instr} (hp : notPipelined i = true) (h : i.commandWellFormed = true) {s : State}
    (hs : s.idle = false) : exec i s = .fault .notIdle := by
  have hr : requireReserved i = .ok () := by simp [requireReserved, require, h]
  have hi : requireIdle s = .error (.fault .notIdle) := by simp [requireIdle, require, hs]
  cases i <;> try cases hp
  case readPerfCounters =>
    change conclude s.peStuck (requireReserved _ >>= fun _ => requireIdle s >>= fun _ => _) = _
    rw [hr, hi]
    rfl
  all_goals
    change conclude s.peStuck ((requireReserved _ >>= fun _ => requireIdle s) >>= fun _ => _) = _
    rw [hr, hi]
    rfl

theorem idle_eq_false {s : State} (h : s.groups ≠ [] ∨ s.pe.launches ≠ []) : s.idle = false := by
  rcases h with h | h <;> simp [State.idle, h]

/-! ## Reserved bits (R137, R138) -/

theorem onlyBits_eq_false {used p : Word} : onlyBits used p = false ↔ p &&& ~~~used ≠ 0#32 := by simp [onlyBits]

/-- A number has no bit beyond its own width. -/
theorem onlyBits_setWidth {n : Nat} (x : BitVec n) {used : Word} (h : ∀ k < n, used.getLsbD k = true) :
    onlyBits used (x.setWidth 32) = true := by
  have hzero : x.setWidth 32 &&& ~~~used = 0#32 := by
    ext k hk
    by_cases hn : k < n
    · have := h k hn
      simp_all
    · simp [BitVec.getLsbD_of_ge x k (by omega)]
  simp [onlyBits, hzero]

/-- Settles O6: a parameter with a reserved bit is not well formed, and one of its own width is. -/
theorem commandChecksFault : Obligations.CommandChecksFault := by
  constructor
  · intro s p a q h i0 j0 i1 j1 stops beyond
    have stop : ∀ i : Instr, i.commandWellFormed = false → stops i := fun i hi => exec_reservedBits hi s
    have bad : ∀ {used w : Word}, beyond used w → onlyBits used w = false := onlyBits_eq_false.2
    refine ⟨fun hp => ?_, fun hp => stop _ (bad hp), fun hp => stop _ (bad hp), fun hd => stop _ ?_, fun hq => ?_,
      fun hf => stop _ ?_, fun hf => stop _ ?_, fun hf => stop _ ?_, fun hp => ?_⟩
    · and_intros <;> exact stop _ (bad hp)
    · rcases hd with hd | hd | hd | hd <;> simp [Instr.commandWellFormed, bad hd]
    · and_intros <;> exact stop _ (bad hq)
    · rcases hf with hf | hf | hf <;> simp [Instr.commandWellFormed, formatBits, bad hf]
    · rcases hf with hf | hf | hf <;> simp [Instr.commandWellFormed, formatBits, bad hf]
    · rcases hf with hf | hf <;> simp [Instr.commandWellFormed, formatBits, bad hf]
    · and_intros <;> exact stop _ (bad hp)
  · intro s hbusy p
    have stop : ∀ i : Instr, notPipelined i = true → i.commandWellFormed = true → exec i s = .fault .notIdle :=
      fun i hi hwf => exec_notIdle hi hwf (idle_eq_false hbusy)
    refine ⟨stop _ rfl rfl, fun q hq => ⟨stop _ rfl hq, stop _ rfl hq, stop _ rfl hq, stop _ rfl hq, fun h => ?_⟩⟩
    have hheight : onlyBits 0x1FFF#32 (h.setWidth 32) = true := onlyBits_setWidth h (by decide)
    refine ⟨stop _ rfl ?_, fun k => stop _ rfl ?_, fun k => stop _ rfl ?_⟩
    · simp [Instr.commandWellFormed, formatBits, hq, hheight]
    · simp [Instr.commandWellFormed, formatBits, hq, hheight, onlyBits_setWidth k (used := 0xF#32) (by decide)]
    · simp [Instr.commandWellFormed, formatBits, hq, hheight, onlyBits_setWidth k (used := 0x3#32) (by decide)]

end Sys2Proof.Machine
end

section
/-! SUPPORT. The operands of an ALU or OUTPUT instruction (R151, R272 to R280): what a source address names, what its channels hold
on a processor, and what an operand makes of them. -/

namespace Sys2Proof.Machine

/-! ## Inline constants (R151) -/

/-- The number of a positive normal pattern, from its exponent and mantissa fields. -/
theorem floatValue_ofFields {e m : Nat} (he : 0 < e) (he' : e < 255) (hm : m < 2 ^ 23) :
    floatValue (BitVec.ofNat 32 (e * 2 ^ 23 + m)) = ((2 ^ 23 + m : Nat) : ℚ) * 2 ^ ((e : Int) - 150) := by
  have hnat : (BitVec.ofNat 32 (e * 2 ^ 23 + m)).toNat = e * 2 ^ 23 + m := by
    rw [BitVec.toNat_ofNat]
    omega
  have hexp : expField (BitVec.ofNat 32 (e * 2 ^ 23 + m)) = e := by
    rw [expField, hnat]
    omega
  have hman : manField (BitVec.ofNat 32 (e * 2 ^ 23 + m)) = m := by
    rw [manField, hnat]
    omega
  have hsign : signBit (BitVec.ofNat 32 (e * 2 ^ 23 + m)) = false := by
    rw [signBit, BitVec.getLsbD, hnat]
    exact Nat.testBit_lt_two_pow (by omega)
  rw [floatValue, hexp, hman, hsign, if_neg (by omega)]
  simp

/-- With exponent bits of zero: 2^-10 for code 0, else multiples of 2^-9. -/
theorem floatValue_inlineConst_low {x : Nat} (hx : x < 8) :
    floatValue (inlineConst x) = if x = 0 then 1 / 2 ^ 10 else (x : ℚ) / 8 / 2 ^ 6 := by
  have hsign : ∀ y < 8, signBit (inlineConst y) = false := by decide
  rw [floatValue, hsign x hx]
  interval_cases x <;> norm_num [inlineConst, expField, manField]

/-- With other exponent bits: the mantissa scaled by the exponent less seven. -/
theorem floatValue_inlineConst_high {x : Nat} (hx : 8 ≤ x) (hx' : x < 128) :
    floatValue (inlineConst x) = (1 + ((x % 8 : Nat) : ℚ) / 8) * 2 ^ (((x / 8 : Nat) : Int) - 7) := by
  have hbits : inlineConst x = BitVec.ofNat 32 ((x / 8 + 120) * 2 ^ 23 + x % 8 * 2 ^ 20) := by
    have he : x / 2 ^ 3 % 16 = x / 8 := by omega
    rw [inlineConst, he, if_pos (by omega)]
    norm_num
  have hexp : ((x / 8 : Nat) : Int) - 7 = 23 + (((x / 8 + 120 : Nat) : Int) - 150) := by omega
  rw [hbits, floatValue_ofFields (by omega) (by omega) (by omega), hexp, zpow_add₀ two_ne_zero, zpow_ofNat]
  push_cast
  ring

/-- The number that the low seven bits of an address stand for (log 4). -/
theorem floatValue_inlineConst (n : Nat) :
    floatValue (inlineConst (n % 128)) =
      if n % 128 = 0 then 1 / 2 ^ 10 else if n % 128 / 8 = 0 then ((n % 8 : Nat) : ℚ) / 8 / 2 ^ 6
      else (1 + ((n % 8 : Nat) : ℚ) / 8) * 2 ^ (((n % 128 / 8 : Nat) : Int) - 7) := by
  have hlow : n % 8 = n % 128 % 8 := (Nat.mod_mod_of_dvd n (by decide)).symm
  rw [hlow]
  have hlt : n % 128 < 128 := Nat.mod_lt _ (by decide)
  generalize n % 128 = x at hlt
  rcases Nat.lt_or_ge x 8 with hsmall | hlarge
  · rw [floatValue_inlineConst_low hsmall, if_pos (Nat.div_eq_of_lt hsmall), Nat.mod_eq_of_lt hsmall]
  · rw [floatValue_inlineConst_high hlarge hlt, if_neg (by omega), if_neg (by omega)]

/-! ## What a source address names (R272) -/

theorem map_eq_ok {α β : Type} {r : Res α} {f : α → β} {b : β} : r.map f = .ok b ↔ ∃ a, r = .ok a ∧ f a = b := by
  rcases r with e | a <;> simp [Except.map]

/-- The number of a temporary or of a float constant is its address, aL added. -/
theorem Group.relative_of_index {g : Group} {n k : Nat} {rel : Bool}
    (h : g.tempIndex n rel = .ok k ∨ g.constIndex n rel = .ok k) : g.relative n rel = .ok (k : Int) := by
  cases hr : g.relative n rel with
  | error e => simp [Group.tempIndex, Group.constIndex, hr] at h
  | ok i =>
    have hi : 0 ≤ i ∧ i.toNat = k := by
      simp only [Group.tempIndex, Group.constIndex, hr] at h
      grind
    rw [← hi.2, Int.toNat_of_nonneg hi.1]

section
variable {g : Group} {a : SrcAddr} {pl : Place} (h : resolvePlace g a = .ok pl)
include h

theorem resolvePlace_inline (hc : a.const = false) (hb : a.addr.getLsbD 7 = true) :
    pl = .inline (inlineConst (a.addr.toNat % 128)) := by
  simp only [resolvePlace, hc, hb, Bool.not_false, Bool.and_self, if_true] at h
  split at h
  · cases h
  · exact (Except.ok.inj h).symm

theorem resolvePlace_temp (hc : a.const = false) (hb : a.addr.getLsbD 7 = false) :
    ∃ k, pl = .temp k ∧ g.relative a.addr.toNat a.rel = .ok (k : Int) := by
  have hmsb : a.addr.msb = false := hb
  have hlt := BitVec.msb_eq_false_iff_two_mul_lt.1 hmsb
  have hmod : a.addr.toNat % 2 ^ 7 = a.addr.toNat := Nat.mod_eq_of_lt (by omega)
  simp only [resolvePlace, hc, hb, hmod, Bool.and_false, Bool.false_eq_true, if_false, map_eq_ok] at h
  obtain ⟨k, hk, rfl⟩ := h
  exact ⟨k, rfl, Group.relative_of_index (.inl hk)⟩

theorem resolvePlace_const (hc : a.const = true) :
    ∃ k, pl = .const k ∧ g.relative a.addr.toNat a.rel = .ok (k : Int) := by
  simp only [resolvePlace, hc, Bool.not_true, Bool.false_and, Bool.false_eq_true, if_false, if_true, map_eq_ok] at h
  obtain ⟨k, hk, rfl⟩ := h
  exact ⟨k, rfl, Group.relative_of_index (.inr hk)⟩

end

/-! ## What the six sources hold (R272, R274) -/

@[simp] theorem Quad.get_all {α : Type} (v : α) (ch : Chan) : (Quad.all v).get ch = v := by cases ch <;> rfl

theorem decodeElement_get (fmt : BitVec 3) (bs : List Byte) (draw : Nat) (ch : Chan) :
    (decodeElement fmt bs draw).get ch = channelOf fmt bs draw ch := by cases ch <;> rfl

section
variable {s : State} {p : Platform} {draw : Nat} {g : Group} {inactive : Bool} {used : List (Port × Chan)} {a : Six SrcAddr}
  {mem m : MemSys}

/-- A source that is fetched holds what its address names, and its fetch leaves float constants as they are seen (R95). -/
theorem fetchPort_holds {q : Port} {src : Source} {pl : Place} (h : fetchPort p draw g inactive used a q mem = .ok (src, m))
    (hpl : resolvePlace g (a.get q) = .ok pl) (hseen : seen mem.constf mem.ram = seen s.mem.constf s.mem.ram) (l : Lane) :
    portHolds s g.env l pl (src.read l) ∧ seen m.constf m.ram = seen s.mem.constf s.mem.ram := by
  obtain ⟨pl', hpl', hsrc⟩ := fetchPort_eq_ok h
  obtain rfl : pl = pl' := Except.ok.inj (hpl.symm.trans hpl')
  cases pl with
  | temp n =>
    obtain ⟨rfl, rfl, -⟩ := hsrc
    exact ⟨fun _ => rfl, hseen⟩
  | inline w =>
    obtain ⟨rfl, rfl⟩ := hsrc
    exact ⟨Quad.get_all w, hseen⟩
  | const k =>
    obtain ⟨v, rfl, hread⟩ := hsrc
    obtain ⟨as, cache, hAddrs, rfl, rfl, hfilled⟩ := readConstf_eq_ok hread
    refine ⟨⟨as, draw, hAddrs, fun ch => ?_⟩, hfilled.seen_eq.trans hseen⟩
    rw [← hseen]
    exact decodeElement_get _ _ _ ch

theorem fetchSix_holds {src : Six Source} {pl : Six Place} (h : fetchSix p draw g inactive used a s.mem = .ok (src, m))
    (hpl : ∀ q, resolvePlace g (a.get q) = .ok (pl.get q)) (l : Lane) (q : Port) :
    portHolds s g.env l (pl.get q) ((src.get q).read l) := by
  obtain ⟨m0, m1, m2, m3, m4, h0, h1, h2, h3, h4, h5⟩ := fetchSix_eq_ok.1 h
  obtain ⟨hrgb0, hseen⟩ := fetchPort_holds h0 (hpl .rgb0) rfl l
  obtain ⟨hrgb1, hseen⟩ := fetchPort_holds h1 (hpl .rgb1) hseen l
  obtain ⟨hrgb2, hseen⟩ := fetchPort_holds h2 (hpl .rgb2) hseen l
  obtain ⟨halpha0, hseen⟩ := fetchPort_holds h3 (hpl .alpha0) hseen l
  obtain ⟨halpha1, hseen⟩ := fetchPort_holds h4 (hpl .alpha1) hseen l
  obtain ⟨halpha2, -⟩ := fetchPort_holds h5 (hpl .alpha2) hseen l
  cases q with
  | rgb0 => exact hrgb0
  | rgb1 => exact hrgb1
  | rgb2 => exact hrgb2
  | alpha0 => exact halpha0
  | alpha1 => exact halpha1
  | alpha2 => exact halpha2

end

/-! ## Operands (R276 to R280) -/

theorem presub_eq (fa : FArith) (draw : Nat) (op : SrcpOp) (x0 x1 : Word) :
    presub fa draw op x0 x1 = finish fa draw .u1 (presubValue op x0 x1) := by cases op <;> rfl

/-- A word under another sign bit, bit by bit. -/
theorem getLsbD_withSign (b : Bool) (w : Word) (k : Nat) :
    (BitVec.ofBool b ++ w.extractLsb' 0 31).getLsbD k = if k < 31 then w.getLsbD k else (decide (k = 31) && b) := by
  rw [BitVec.getLsbD_append]
  split
  · next h => simp [h]
  · next h =>
    rw [BitVec.getLsbD_ofBool]
    congr 2
    simp
    omega

/-- The bits of the sign mask and of its complement. -/
theorem getLsbD_signMask {k : Nat} (hk : k < 32) :
    (0x80000000#32).getLsbD k = decide (k = 31) ∧ (0x7FFFFFFF#32).getLsbD k = !decide (k = 31) := by
  have hbits : ∀ k < 32, (0x80000000#32).getLsbD k = decide (k = 31) ∧ (0x7FFFFFFF#32).getLsbD k = !decide (k = 31) := by
    decide
  exact hbits k hk

/-- A word that differs from another one in the sign bit at most. -/
theorem eq_withSign {x w : Word} {b : Bool} (hlow : ∀ k < 31, x.getLsbD k = w.getLsbD k) (hsign : x.getLsbD 31 = b) :
    x = BitVec.ofBool b ++ w.extractLsb' 0 31 := by
  refine BitVec.eq_of_getLsbD_eq fun k hk => Eq.trans ?_ (getLsbD_withSign b w k).symm
  split
  · next h => exact hlow k h
  · next h =>
    obtain rfl : k = 31 := by omega
    simpa using hsign

/-- The input modifiers NEG, ABS and NAB invert, clear and set the sign bit. -/
theorem applyIMod_eq (w : Word) :
    applyIMod .neg w = BitVec.ofBool (!w.getLsbD 31) ++ w.extractLsb' 0 31 ∧
    applyIMod .abs w = BitVec.ofBool false ++ w.extractLsb' 0 31 ∧
    applyIMod .nab w = BitVec.ofBool true ++ w.extractLsb' 0 31 := by
  refine ⟨eq_withSign (fun k hk => ?_) ?_, eq_withSign (fun k hk => ?_) ?_, eq_withSign (fun k hk => ?_) ?_⟩
  · rw [applyIMod, BitVec.getLsbD_xor, (getLsbD_signMask (by omega)).1]
    simp [hk.ne]
  · simp [applyIMod]
  · rw [applyIMod, BitVec.getLsbD_and, (getLsbD_signMask (by omega)).2]
    simp [hk.ne]
  · simp [applyIMod]
  · rw [applyIMod, BitVec.getLsbD_or, (getLsbD_signMask (by omega)).1]
    simp [hk.ne]
  · simp [applyIMod]

/-- Settles O28: the six sources hold what their addresses name, and the operands are read from them. -/
theorem operandsComeFromSources : Obligations.OperandsComeFromSources := by
  intro s rop aop f c n l
  constructor
  · rintro p a rfl
    refine ⟨fun hc hb => ⟨_, resolvePlace_inline (c.places p) hc hb, ?_⟩, fun hc hb => resolvePlace_temp (c.places p) hc hb,
      fun hc => resolvePlace_const (c.places p) hc⟩
    exact floatValue_inlineConst _
  · obtain ⟨V, hV⟩ : ∃ V, V = vectors Config.fArith (laneDraw s n) f c.src l := ⟨_, rfl⟩
    refine ⟨fun p => (c.src.get p).read l, V.sp, fun p => ?_, fun ch hch => ?_, ?_, ?_⟩
    · exact fetchSix_holds (pl := c.pl) c.fetched (fun q => c.places q) l p
    · rw [hV]
      cases ch with
      | r => exact ⟨_, presub_eq ..⟩
      | g => exact ⟨_, presub_eq ..⟩
      | b => exact ⟨_, presub_eq ..⟩
      | a => exact absurd rfl hch
    · rw [hV]
      exact ⟨_, presub_eq ..⟩
    · intro vector read sign rgb alpha
      have hvector : ∀ sel ch, (V.sel sel).get ch = vector sel ch := by
        intro sel ch
        subst hV
        cases sel <;> cases ch <;> rfl
      have hread : ∀ sel z, swizzle (V.sel sel) z = read sel z := by
        intro sel z
        cases z with
        | r => exact hvector sel .r
        | g => exact hvector sel .g
        | b => exact hvector sel .b
        | a => exact hvector sel .a
        | zero | half | one => rfl
      have hsign : ∀ m w, applyIMod m w = sign m w := by
        intro m w
        obtain ⟨hneg, habs, hnab⟩ := applyIMod_eq w
        cases m with
        | off => rfl
        | neg => exact hneg
        | abs => exact habs
        | nab => exact hnab
      have hrgb : ∀ o, rgbOperand V o = rgb o := by
        intro o
        simp only [rgbOperand, hread, hsign, rgb]
      have halpha : ∀ o, alphaOperand V o = alpha o := by
        intro o
        simp only [alphaOperand, hread, hsign, alpha]
      rw [AluCase.opnds, ← hV, operands]
      simp only [hrgb, halpha]

end Sys2Proof.Machine
end

section
/-! SUPPORT. The commands of the PE that make no access to memory (R184 to R186, R190, R192, R199), and the clock (R188). -/

namespace Sys2Proof.Machine

/-! ## A command without an access to memory -/

/-- A command that only checks its reserved bits, and finds them zero, answers its next state (R139). -/
theorem exec_checked {i : Instr} {s u : State} (h : i.commandWellFormed = true)
    (hexec : exec i s = conclude s.peStuck (requireReserved i >>= fun _ => pure u)) : exec i s = .next u := by
  have hr : requireReserved i = .ok () := by simp [requireReserved, require, h]
  rw [hexec, hr]
  rfl

theorem State.mem_markSet {s : State} {k x : Item} : x ∈ (s.markSet k).setItems ↔ x = k ∨ x ∈ s.setItems := by
  unfold State.markSet
  dsimp only
  split
  · next h =>
    have hk : k ∈ s.setItems := List.contains_iff_mem.1 h
    exact ⟨.inr, fun hx => hx.elim (fun e => e ▸ hk) id⟩
  · rw [List.mem_append, List.mem_singleton, or_comm]

/-- A command that has changed no note before notes its own item and no other (R203). -/
theorem setsItem_markSet {s u : State} (h : u.setItems = s.setItems) (k : Item) (i : Instr) :
    setsItem k s ((u.markSet k).retireCommand i) := by
  intro x
  rw [State.retireCommand_setItems, State.mem_markSet, h]

theorem bitParam_bit (b : Bool) : (bitParam b).getLsbD 0 = b := by cases b <;> rfl

theorem onlyBits_bitParam (b : Bool) : onlyBits 1#32 (bitParam b) = true := onlyBits_setWidth (BitVec.ofBool b) (by decide)

/-! ## The read position and the registers of the PE (R25 to R28) -/

section
variable (pe : Pe) (v : Word) (d : Domain) (p : Perf) (n : Nat)

@[simp] theorem Pe.advance_condVal : (pe.advance n).condVal = pe.condVal := by rw [Pe.advance_eq]
@[simp] theorem Pe.advance_domain : (pe.advance n).domain = pe.domain := by rw [Pe.advance_eq]
@[simp] theorem Pe.advance_perf : (pe.advance n).perf = pe.perf := by rw [Pe.advance_eq]

/-- Moving the read position does not see the registers. -/
theorem Pe.advance_withRegs :
    { pe with condVal := v, domain := d, perf := p }.advance n =
      { pe.advance n with condVal := v, domain := d, perf := p } := by
  unfold Pe.advance
  dsimp only
  split
  · rfl
  · split <;> rfl

theorem Pe.advance_withCondVal : { pe with condVal := v }.advance n = { pe.advance n with condVal := v } := by
  simpa using pe.advance_withRegs v pe.domain pe.perf n

theorem Pe.advance_withDomain : { pe with domain := d }.advance n = { pe.advance n with domain := d } := by
  simpa using pe.advance_withRegs pe.condVal d pe.perf n

theorem Pe.advance_withPerf : { pe with perf := p }.advance n = { pe.advance n with perf := p } := by
  simpa using pe.advance_withRegs pe.condVal pe.domain p n

end

/-! ## set_cond_val and set_domain (R190, R192) -/

theorem exec_setCondVal (v : Word) (s : State) :
    exec (.setCondVal v) s =
      .next (({ s with pe := { s.pe with condVal := v } }.markSet .condVal).retireCommand (.setCondVal v)) :=
  exec_checked rfl rfl

/-- A bound of 12 bits has no reserved bit, and is the bound that the command sets. -/
theorem exec_setDomain (i0 j0 i1 j1 : BitVec 12) (s : State) :
    exec (.setDomain (i0.setWidth 32) (j0.setWidth 32) (i1.setWidth 32) (j1.setWidth 32)) s =
      .next (({ s with pe := { s.pe with domain := ⟨i0, j0, i1, j1⟩ } }.markSet .domain).retireCommand
        (.setDomain (i0.setWidth 32) (j0.setWidth 32) (i1.setWidth 32) (j1.setWidth 32))) := by
  have hbits : ∀ x : BitVec 12, onlyBits 0xFFF#32 (x.setWidth 32) = true := fun x => onlyBits_setWidth x (by decide)
  have hback : ∀ x : BitVec 12, (x.setWidth 32).setWidth 12 = x := fun x => by simp
  rw [exec_checked (by simp [Instr.commandWellFormed, hbits]) rfl, hback, hback, hback, hback]

/-- Settles O7: each of the two updates a register that the move of the read position does not see. -/
theorem condValAndDomainSet : Obligations.CondValAndDomainSet := by
  intro s
  refine ⟨fun v => ⟨_, exec_setCondVal v s, ?_, setsItem_markSet (u := { s with pe := _ }) rfl _ _⟩, fun i0 j0 i1 j1 =>
    ⟨_, exec_setDomain i0 j0 i1 j1 s, ?_, setsItem_markSet (u := { s with pe := _ }) rfl _ _⟩⟩
  · simp only [State.retireCommand, State.markSet, Pe.advance_withCondVal]
    rfl
  · simp only [State.retireCommand, State.markSet, Pe.advance_withDomain]
    rfl

/-! ## wait_for_idle (R199) -/

theorem exec_waitForIdle (s : State) :
    exec (.waitForIdle 0#32) s = .next (if s.idle then s.retireCommand (.waitForIdle 0#32) else s) :=
  exec_checked rfl rfl

/-- Settles O14: the device is idle, or it is not. -/
theorem waitForIdleBlocks : Obligations.WaitForIdleBlocks := by
  intro s
  rw [exec_waitForIdle]
  constructor
  · intro hidle
    rw [if_pos (s.idle_iff.2 hidle)]
    rfl
  · intro hbusy
    rw [idle_eq_false hbusy.symm]
    rfl

/-! ## Control of the performance counters (R184 to R186) -/

theorem State.retireCommand_withPerf (s : State) (p : Perf) (i : Instr) :
    (s.withPerf p).retireCommand i = { s with pe := { s.pe.advance (commandLen i) with perf := p } } := by
  simp only [State.retireCommand, State.withPerf, Pe.advance_withPerf]

theorem exec_initPerfCounters (b : Bool) (s : State) :
    exec (.initPerfCounters (bitParam b)) s =
      .next (((s.withPerf { s.pe.perf with enabled := b }).markSet .perfEnabled).retireCommand
        (.initPerfCounters (bitParam b))) := by
  rw [exec_checked (i := .initPerfCounters (bitParam b)) (onlyBits_bitParam b) rfl, bitParam_bit]

/-- Counters that are replaced only where they are enabled. -/
theorem State.withPerf_ite (s : State) (c : Bool) (p : Perf) :
    (if c then s.withPerf p else s) = s.withPerf (if c then p else s.pe.perf) := by
  cases c <;> rfl

theorem exec_startPerfCounters (s : State) :
    exec (.startPerfCounters 0#32) s =
      .next ((s.withPerf (if s.pe.perf.enabled then { s.pe.perf with total := 0#32, active := 0#32, running := true }
        else s.pe.perf)).retireCommand (.startPerfCounters 0#32)) := by
  rw [← State.withPerf_ite]
  exact exec_checked rfl rfl

theorem exec_stopPerfCounters (s : State) :
    exec (.stopPerfCounters 0#32) s =
      .next ((s.withPerf (if s.pe.perf.enabled then { s.pe.perf with running := false } else s.pe.perf)).retireCommand
        (.stopPerfCounters 0#32)) := by
  rw [← State.withPerf_ite]
  exact exec_checked rfl rfl

/-! ## The clock (R188) -/

/-- Below 2^32 a counter is exact. -/
theorem countUp_toNat {w : Word} {n : Nat} (draw : Nat) (h : w.toNat + n < 2 ^ 32) :
    (countUp draw w n).toNat = w.toNat + n := by
  rw [countUp, if_pos h, BitVec.toNat_ofNat, Nat.mod_eq_of_lt h]

theorem countUp_zero (draw : Nat) (w : Word) : countUp draw w 0 = w :=
  BitVec.eq_of_toNat_eq (countUp_toNat draw w.isLt)

theorem clockStep_stopped {s : State} (h : s.pe.perf.running = false) (total active : Nat) :
    clockStep s total active = s := by
  simp [clockStep, h]

theorem clockStep_running {s : State} (h : s.pe.perf.running = true) (total active : Nat) :
    clockStep s total active = s.withPerf { s.pe.perf with
      total := countUp s.draws s.pe.perf.total total
      active := countUp (s.draws + 1) s.pe.perf.active (if s.groups.isEmpty then 0 else min total active) } := by
  simp only [clockStep, h, if_true]
  rfl

/-- The clock touches the two counts and nothing else. -/
theorem clockStep_frame (s : State) (total active : Nat) :
    clockStep s total active = s.withPerf { s.pe.perf with
      total := (clockStep s total active).pe.perf.total, active := (clockStep s total active).pe.perf.active } := by
  cases h : s.pe.perf.running with
  | false =>
    rw [clockStep_stopped h]
    rfl
  | true =>
    rw [clockStep_running h]
    rfl

theorem step_clock {s : State} {total active : Nat} (h : s.turn = .clock total active) :
    step s = .next (clockStep s total active).nextTurn := by
  simp [step, agentStep, h]

/-- Settles O11: the commands by their equations, the clock by whether the counters run. -/
theorem perfCountersControlled : Obligations.PerfCountersControlled := by
  intro s
  refine ⟨fun b => ⟨_, exec_initPerfCounters b s, ?_, setsItem_markSet (s.withPerf_setItems _) _ _⟩,
    ⟨_, exec_startPerfCounters s, ?_⟩, ⟨_, exec_stopPerfCounters s, ?_⟩, fun total active hturn =>
    ⟨_, step_clock hturn, ?_, fun hstop => ?_, fun hrun => ⟨fun hfit => ?_, fun hnone => ?_, fun hbusy hfit => ?_⟩⟩⟩
  · simp only [State.retireCommand, State.markSet, State.withPerf, Pe.advance_withPerf]
    rfl
  · rw [State.retireCommand_withPerf]
    split
    · next henabled =>
      have hstarted : { s.pe.perf with total := 0#32, active := 0#32, running := true } = Perf.mk true true 0#32 0#32 :=
        congrArg (Perf.mk · true 0#32 0#32) henabled
      rw [hstarted]
      rfl
    · rfl
  · rw [State.retireCommand_withPerf]
    rfl
  · rw [clockStep_frame]
    rfl
  · rw [clockStep_stopped hstop]
    rfl
  · rw [clockStep_running hrun]
    exact countUp_toNat _ hfit
  · rw [clockStep_running hrun, hnone]
    exact countUp_zero _ _
  · rw [clockStep_running hrun]
    simpa [hbusy] using countUp_toNat (s.draws + 1) hfit

end Sys2Proof.Machine
end

section
/-! SUPPORT. The commands that set a mask, a condition or a descriptor (R210 to R224, R242, R243, R251, R252). -/

namespace Sys2Proof.Machine

/-! ## Fields of a parameter (R137, R138) -/

theorem field_eq_extractLsb' (w : Word) (lo n : Nat) : field w lo n = (w.extractLsb' lo n).toNat := by
  rw [field, BitVec.extractLsb'_toNat, Nat.shiftRight_eq_div_pow]

theorem fieldBits_eq_extractLsb' (w : Word) (lo n : Nat) : fieldBits w lo n = w.extractLsb' lo n :=
  fieldBits_of_field (field_eq_extractLsb' w lo n)

/-- A number that fills the low bits of its parameter is read back from them. -/
theorem fieldBits_setWidth {n : Nat} (x : BitVec n) (hn : n ≤ 32) : fieldBits (x.setWidth 32) 0 n = x := by
  refine fieldBits_of_field ?_
  have hlt : x.toNat < 2 ^ 32 := x.isLt.trans_le (Nat.pow_le_pow_right two_pos hn)
  rw [field, pow_zero, Nat.div_one, BitVec.toNat_setWidth, Nat.mod_eq_of_lt hlt, Nat.mod_eq_of_lt x.isLt]

/-! ## Masks and condition (R242, R243, R251, R252) -/

theorem exec_setOutMask (m : BitVec 4) (s : State) :
    exec (.setOutMask (m.setWidth 32)) s =
      .next (({ s with mc := { s.mc with outMask := m } }.markSet .outMask).retireCommand (.setOutMask (m.setWidth 32))) := by
  rw [exec_checked (i := .setOutMask (m.setWidth 32)) (onlyBits_setWidth m (by decide)) rfl,
    fieldBits_setWidth m (by decide)]

theorem exec_setCondOutMask (b : Bool) (s : State) :
    exec (.setCondOutMask (bitParam b)) s =
      .next (({ s with mc := { s.mc with condOutMask := b } }.markSet .condOutMask).retireCommand
        (.setCondOutMask (bitParam b))) := by
  rw [exec_checked (i := .setCondOutMask (bitParam b)) (onlyBits_bitParam b) rfl, bitParam_bit]

theorem exec_setCondTest (c : BitVec 3) (s : State) :
    exec (.setCondTest (c.setWidth 32)) s =
      .next (({ s with co := { s.co with test := c } }.markSet .condTest).retireCommand (.setCondTest (c.setWidth 32))) := by
  rw [exec_checked (i := .setCondTest (c.setWidth 32)) (onlyBits_setWidth c (by decide)) rfl,
    fieldBits_setWidth c (by decide)]

theorem exec_setCondLoc (b : Bool) (s : State) :
    exec (.setCondLoc (bitParam b)) s =
      .next (({ s with co := { s.co with loc := b } }.markSet .condLoc).retireCommand (.setCondLoc (bitParam b))) := by
  rw [exec_checked (i := .setCondLoc (bitParam b)) (onlyBits_bitParam b) rfl, bitParam_bit]

/-- Settles O8: each command's equation names its register, its item and the read position. -/
theorem masksAndConditionSet : Obligations.MasksAndConditionSet := by
  intro s
  refine ⟨fun m => ⟨_, exec_setOutMask m s, rfl, ?_⟩, fun b => ⟨_, exec_setCondOutMask b s, rfl, ?_⟩,
    fun c => ⟨_, exec_setCondTest c s, rfl, ?_⟩, fun b => ⟨_, exec_setCondLoc b s, rfl, ?_⟩⟩
  · exact setsItem_markSet (u := { s with mc := _ }) rfl _ _
  · exact setsItem_markSet (u := { s with mc := _ }) rfl _ _
  · exact setsItem_markSet (u := { s with co := _ }) rfl _ _
  · exact setsItem_markSet (u := { s with co := _ }) rfl _ _

/-! ## The format commands (R210 to R224) -/

theorem Desc.ofParams_holds (pb pf : Word) : (Desc.ofParams pb pf).holds pb pf := by
  refine ⟨rfl, BitVec.ofNat_toNat .., fieldBits_eq_extractLsb' pf 24 3, ?_⟩
  change Tiling.ofCode (field pf 16 2) = Tiling.ofCode (pf.extractLsb' 16 2).toNat
  rw [field_eq_extractLsb']

/-- On an idle device a format command without reserved bits replaces its descriptor and notes its item (R135, R139, R211). -/
theorem exec_format {i : Instr} {s : State} {d : Descs} {k : Item} (hwf : i.commandWellFormed = true) (hidle : s.idle = true)
    (hexec : exec i s =
      conclude s.peStuck (requireFormat i s >>= fun _ => pure (((s.withDescs d).markSet k).retireCommand i))) :
    exec i s = .next (((s.withDescs d).markSet k).retireCommand i) := by
  have hr : requireFormat i s = .ok () := by simp [requireFormat, requireReserved, requireIdle, require, hwf, hidle]
  rw [hexec, hr]
  rfl

theorem setsItem_format (s : State) (d : Descs) (k : Item) (i : Instr) :
    setsItem k s (((s.withDescs d).markSet k).retireCommand i) :=
  setsItem_markSet (s.withDescs_setItems d) k i

/-- Settles O9: the four commands are one equation, for the descriptor of R210. -/
theorem plainFormatsSet : Obligations.PlainFormatsSet := by
  intro s pb pf hidle hpf
  exact ⟨Desc.ofParams pb pf, Desc.ofParams_holds pb pf,
    ⟨_, exec_format (i := .setInstFmt pb pf) hpf hidle rfl, rfl, setsItem_format _ _ _ _⟩,
    ⟨_, exec_format (i := .setConstfFmt pb pf) hpf hidle rfl, rfl, setsItem_format _ _ _ _⟩,
    ⟨_, exec_format (i := .setConstiFmt pb pf) hpf hidle rfl, rfl, setsItem_format _ _ _ _⟩,
    ⟨_, exec_format (i := .setConstbFmt pb pf) hpf hidle rfl, rfl, setsItem_format _ _ _ _⟩⟩

section
variable {s : State} {pb pf : Word} (h : BitVec 13) (hidle : s.idle = true) (hpf : onlyBits formatBits pf = true)

/-- The descriptor with a height of 13 bits that the parameters stand for (R138, R216). -/
theorem TallDesc.ofParams_setWidth : TallDesc.ofParams pb pf (h.setWidth 32) = ⟨Desc.ofParams pb pf, h⟩ := by
  rw [TallDesc.ofParams, fieldBits_setWidth h (by decide)]

theorem onlyBits_height : onlyBits 0x1FFF#32 (h.setWidth 32) = true := onlyBits_setWidth h (by decide)

include hidle hpf

theorem exec_setInpFmt (k : BitVec 4) :
    exec (.setInpFmt (k.setWidth 32) pb pf (h.setWidth 32)) s =
      .next (((s.withDescs
        { s.mc.descs with inp := s.mc.descs.inp.set k.toNat ⟨Desc.ofParams pb pf, h⟩ k.isLt }).markSet (.inp k)).retireCommand
        (.setInpFmt (k.setWidth 32) pb pf (h.setWidth 32))) := by
  have hwf : (Instr.setInpFmt (k.setWidth 32) pb pf (h.setWidth 32)).commandWellFormed = true := by
    simp [Instr.commandWellFormed, hpf, onlyBits_height, onlyBits_setWidth k (used := 0xF#32) (by decide)]
  rw [exec_format hwf hidle rfl, TallDesc.ofParams_setWidth]
  simp only [fieldBits_setWidth k (by decide)]

theorem exec_setOutFmt (k : BitVec 2) :
    exec (.setOutFmt (k.setWidth 32) pb pf (h.setWidth 32)) s =
      .next (((s.withDescs
        { s.mc.descs with out := s.mc.descs.out.set k.toNat ⟨Desc.ofParams pb pf, h⟩ k.isLt }).markSet (.out k)).retireCommand
        (.setOutFmt (k.setWidth 32) pb pf (h.setWidth 32))) := by
  have hwf : (Instr.setOutFmt (k.setWidth 32) pb pf (h.setWidth 32)).commandWellFormed = true := by
    simp [Instr.commandWellFormed, hpf, onlyBits_height, onlyBits_setWidth k (used := 0x3#32) (by decide)]
  rw [exec_format hwf hidle rfl, TallDesc.ofParams_setWidth]
  simp only [fieldBits_setWidth k (by decide)]

theorem exec_setCondOutFmt :
    exec (.setCondOutFmt pb pf (h.setWidth 32)) s =
      .next (((s.withDescs { s.mc.descs with condOut := ⟨Desc.ofParams pb pf, h⟩ }).markSet .condOut).retireCommand
        (.setCondOutFmt pb pf (h.setWidth 32))) := by
  have hwf : (Instr.setCondOutFmt pb pf (h.setWidth 32)).commandWellFormed = true := by
    simp [Instr.commandWellFormed, hpf, onlyBits_height]
  rw [exec_format hwf hidle rfl, TallDesc.ofParams_setWidth]

end

/-- Reading one of several descriptors after one of them is replaced. -/
theorem get_set_vector {α : Type} {m k : Nat} (v : Vector α m) (d : α) (hk : k < m) (n : Fin m) :
    (v.set k d hk).get n = if n.val = k then d else v.get n := by
  rw [Vector.get_eq_getElem, Vector.get_eq_getElem, Vector.getElem_set]
  simp only [eq_comm]

/-- Settles O10: the three commands' equations, with a replaced descriptor read back from its vector. -/
theorem tallFormatsSet : Obligations.TallFormatsSet := by
  intro s pb pf h hidle hpf
  refine ⟨⟨Desc.ofParams pb pf, h⟩, Desc.ofParams_holds pb pf, rfl, fun k => ?_, fun k => ?_, ?_⟩
  · exact ⟨_, exec_setInpFmt h hidle hpf k, rfl, get_set_vector _ _ k.isLt, setsItem_format _ _ _ _⟩
  · exact ⟨_, exec_setOutFmt h hidle hpf k, rfl, get_set_vector _ _ k.isLt, setsItem_format _ _ _ _⟩
  · exact ⟨_, exec_setCondOutFmt h hidle hpf, rfl, setsItem_format _ _ _ _⟩

end Sys2Proof.Machine
end

section
/-! SUPPORT. The commands that empty or flush a cache (R232 to R239): the dirty bytes that they write to memory, and what is left. -/

namespace Sys2Proof.Machine

/-! ## An ordered table written over memory or over another table -/

/-- The first key of an ordered table stands in it once. -/
theorem tabFind_tail_of_sorted {α : Type} {c : Nat × α} {cs : List (Nat × α)} (h : tabSorted (c :: cs) = true) :
    tabFind cs c.1 = none ∧ tabSorted cs = true := by
  rw [tabSorted_iff, List.pairwise_cons] at h
  obtain ⟨hbelow, htail⟩ := h
  exact ⟨tabFind_eq_none fun d hd => (hbelow d hd).ne', (tabSorted_iff cs).2 htail⟩

theorem tabFind_cons {α : Type} (c : Nat × α) (cs : List (Nat × α)) (a : Nat) :
    tabFind (c :: cs) a = if c.1 = a then some c.2 else tabFind cs a := rfl

/-- Memory after the bytes of an ordered table are stored. -/
theorem Memory.get_store_of_sorted {m : Memory} {cs : List Host.Cell} (hm : tabSorted m = true) (hcs : tabSorted cs = true)
    (a : Nat) : (m.store cs).get a = (tabFind cs a).getD (m.get a) := by
  induction cs generalizing m with
  | nil => rfl
  | cons c cs ih =>
    obtain ⟨hnone, htail⟩ := tabFind_tail_of_sorted hcs
    rw [store_cons, ih (Memory.sorted_set _ _ hm) htail, Memory.get_set _ _ _ hm, tabFind_cons]
    split
    · next hca =>
      rw [← hca, hnone]
      rfl
    · rfl

/-- A table after the bytes of an ordered one are put into it. -/
theorem tabFind_putBytes_of_sorted (t : List Host.Cell) {cs : List Host.Cell} (hcs : tabSorted cs = true) (a : Nat) :
    tabFind (putBytes t cs) a = (tabFind cs a).or (tabFind t a) := by
  induction cs generalizing t with
  | nil => rfl
  | cons c cs ih =>
    obtain ⟨hnone, htail⟩ := tabFind_tail_of_sorted hcs
    rw [tabFind_putBytes_cons, ih _ htail, tabFind_tabPut, tabFind_cons]
    split
    · next hca =>
      rw [← hca, hnone]
      rfl
    · rfl

/-- A byte of memory is kept, or is one of those stored, in whatever order they come. -/
theorem Memory.get_store_cases {m : Memory} (hm : tabSorted m = true) (cs : List Host.Cell) (a : Nat) :
    (m.store cs).get a = m.get a ∨ (a, (m.store cs).get a) ∈ cs := by
  induction cs generalizing m with
  | nil => exact .inl rfl
  | cons c cs ih =>
    rw [store_cons]
    rcases ih (Memory.sorted_set c.1 c.2 hm) with hkept | hmem
    · rw [hkept, Memory.get_set _ _ _ hm]
      split
      · next hca =>
        subst hca
        exact .inr List.mem_cons_self
      · exact .inl rfl
    · exact .inr (List.mem_cons_of_mem _ hmem)

theorem Memory.sorted_of_wf {m : Memory} (h : m.wf = true) : tabSorted m = true := by
  obtain ⟨hbytes, -⟩ := (Memory.wf_iff m).1 h
  obtain ⟨hsorted, -⟩ := (bytesWf_iff m).1 hbytes
  exact hsorted

/-! ## A command that writes dirty bytes to memory -/

/-- A command that writes bytes to memory answers its next state where every one of them may be written (R81, R104, R105). -/
theorem exec_writes {i : Instr} {s : State} {cs : List Host.Cell} {after : State → State} (h : i.commandWellFormed = true)
    (hw : ∀ c ∈ cs, writable s c.1)
    (hexec : exec i s =
      conclude s.peStuck (requireReserved i >>= fun _ => ramWriteAll s cs >>= fun u => pure (after u))) :
    exec i s = .next (after { s with mem := { s.mem with ram := s.mem.ram.store cs } }) := by
  have hr : requireReserved i = .ok () := by simp [requireReserved, require, h]
  rw [hexec, hr, ramWriteAll_ok hw]
  rfl

/-! ## Invalidation (R232 to R237) -/

/-- Only dirty bytes are written back (R236). -/
theorem survivors_subset (draw : Nat) (dirty : List Host.Cell) : survivors draw dirty ⊆ dirty := by
  intro c hc
  obtain ⟨⟨d, n⟩, hd, rfl⟩ := List.mem_map.1 hc
  exact List.fst_mem_of_mem_zipIdx (List.mem_of_mem_filter hd)

theorem exec_invCondOutCache {s : State} (hw : ∀ c ∈ s.mem.cond.dirty, writable s c.1) :
    exec (.invCondOutCache 0#32) s =
      .next { s with
        pe := s.pe.advance 2, draws := s.draws + s.mem.cond.dirty.length
        mem := { s.mem with
          ram := s.mem.ram.store (survivors s.draws s.mem.cond.dirty), cond := { clean := ReadCache.empty, dirty := [] } } } :=
  exec_writes
    (after := fun u => { u.withMem { u.mem with cond := { clean := ReadCache.empty, dirty := [] } } with
      draws := u.draws + s.mem.cond.dirty.length }.retireCommand (.invCondOutCache 0#32))
    rfl (fun c hc => hw c (survivors_subset _ _ hc)) rfl

/-- Settles O15: a read cache is emptied, and of the dirty bytes only those that survive are stored. -/
theorem invalidateEmptiesTheCache : Obligations.InvalidateEmptiesTheCache := by
  refine ⟨⟨rfl, rfl, rfl, rfl, rfl, rfl⟩, fun s => ⟨exec_checked rfl rfl, exec_checked rfl rfl, exec_checked rfl rfl,
    exec_checked rfl rfl, exec_checked rfl rfl, fun hwf hw => ⟨_, exec_invCondOutCache hw, rfl, fun a => ?_⟩⟩⟩
  exact (Memory.get_store_cases (Memory.sorted_of_wf hwf) _ a).imp_right fun hmem => survivors_subset _ _ hmem

/-! ## Flush (R238, R239) -/

theorem exec_flushOutCache {s : State} (hw : ∀ c ∈ s.mem.out, writable s c.1) :
    exec (.flushOutCache 0#32) s =
      .next { s with pe := s.pe.advance 2, mem := { s.mem with ram := s.mem.ram.store s.mem.out, out := [] } } :=
  exec_writes (after := fun u => (u.withMem { u.mem with out := [] }).retireCommand (.flushOutCache 0#32)) rfl hw rfl

theorem exec_flushCondOutCache {s : State} (hw : ∀ c ∈ s.mem.cond.dirty, writable s c.1) :
    exec (.flushCondOutCache 0#32) s =
      .next { s with
        pe := s.pe.advance 2
        mem := { s.mem with
          ram := s.mem.ram.store s.mem.cond.dirty
          cond := { clean := ⟨putBytes s.mem.cond.clean.bytes s.mem.cond.dirty⟩, dirty := [] } } } :=
  exec_writes
    (after := fun u => (u.withMem { u.mem with
      cond := { clean := ⟨putBytes u.mem.cond.clean.bytes u.mem.cond.dirty⟩, dirty := [] } }).retireCommand
        (.flushCondOutCache 0#32))
    rfl hw rfl

/-- Settles O16: the dirty bytes are an ordered table, stored over memory and, by the second command, put over the clean bytes. -/
theorem flushWritesDirtyBytes : Obligations.FlushWritesDirtyBytes := by
  refine ⟨⟨rfl, fun s hwf hw => ⟨_, exec_flushOutCache hw, rfl, fun a => ?_⟩⟩, rfl, fun s hwf hw =>
    ⟨_, exec_flushCondOutCache hw, rfl, fun a => ?_, fun a => ?_⟩⟩
  · obtain ⟨hsorted, -⟩ := (bytesWf_iff _).1 (MemSys.out_wf hwf)
    exact Memory.get_store_of_sorted (Memory.sorted_of_wf (MemSys.ram_wf hwf)) hsorted a
  · obtain ⟨hsorted, -⟩ := (bytesWf_iff _).1 (MemSys.dirty_wf hwf)
    exact Memory.get_store_of_sorted (Memory.sorted_of_wf (MemSys.ram_wf hwf)) hsorted a
  · obtain ⟨hsorted, -⟩ := (bytesWf_iff _).1 (MemSys.dirty_wf hwf)
    change tabFind (putBytes _ _) a = _
    rw [tabFind_putBytes_of_sorted _ hsorted]
    cases tabFind s.mem.cond.dirty a <;> rfl

end Sys2Proof.Machine
end

section
/-! SUPPORT. The conditional test (R92, R101, R250, R254, R256, R262): its comparisons, its write, and what the CO answers. -/

namespace Sys2Proof.Machine

/-! ## Comparisons (R256, R262) -/

theorem wordOf_bytesOfWord (w : Word) : wordOf (bytesOfWord w) = w := wordOfBytes_byteOfWord w

theorem bytesOfWord_injective : Function.Injective bytesOfWord :=
  Function.LeftInverse.injective wordOf_bytesOfWord

/-- The value equals its own encoding under every format, a NaN apart. -/
theorem condEq_condEnc (fmt : BitVec 3) {v : Word} (hv : isNaN v = false) : condEq fmt v (condEnc fmt v) = true := by
  have hnan : isNanBits v = false := hv
  simp [condEq, hnan]

/-- Under FLOAT32_1 it equals the bytes of no other word, two zeros apart. -/
theorem condEq_float1_of_ne {v w : Word} (hne : w ≠ v) (hzero : ¬ (w &&& 0x7FFFFFFF#32 = 0#32 ∧ v &&& 0x7FFFFFFF#32 = 0#32)) :
    condEq 2#3 v (bytesOfWord w) = false := by
  have hbytes : bytesOfWord w ≠ condEnc 2#3 v := bytesOfWord_injective.ne hne
  have hzeros : (isZeroBits v && isZeroBits (wordOf (bytesOfWord w))) = false := by
    rw [wordOf_bytesOfWord, Bool.and_eq_false_iff]
    simpa [isZeroBits, imp_iff_not_or, or_comm] using hzero
  simp [condEq, hbytes, hzeros]

section
variable (fmt : BitVec 3) (v : Word) (bs : List Byte)

/-- Test 2 is less or equal. -/
theorem condCmp_two : condCmp fmt 2#3 v bs = (condCmp fmt 1#3 v bs || condCmp fmt 3#3 v bs) := rfl

/-- Test 6 is not equal. -/
theorem condCmp_six : condCmp fmt 6#3 v bs = !condCmp fmt 3#3 v bs := rfl

variable {v bs}

theorem condOrdered_of_not_nan (hv : isNaN v = false) (hb : isNaN (wordOf bs) = false) : condOrdered v bs = true := by
  have hv' : isNanBits v = false := hv
  have hb' : isNanBits (wordOf bs) = false := hb
  rw [condOrdered, hv', hb']
  rfl

/-- Test 4 is the opposite of test 1 where the order counts as total. -/
theorem condCmp_four (h : condOrdered v bs = true) : condCmp fmt 4#3 v bs = !condCmp fmt 1#3 v bs := if_pos h

/-- Test 5 is the opposite of test 2 where the order counts as total. -/
theorem condCmp_five (h : condOrdered v bs = true) : condCmp fmt 5#3 v bs = !condCmp fmt 2#3 v bs := if_pos h

end

/-! ## The write of the conditional value (R256) -/

section
variable {p : Platform} {mem : MemSys} {env : Snapshot} {i j : BitVec 12} {v : Word} {as : List Nat}

/-- All that the write can do: it puts the encoding of the value into the dirty bytes, at the addresses of the element. -/
theorem writeCond_eq_ok {mem' : MemSys} (h : writeCond p mem env i j v = .ok mem') :
    ∃ as, elementAddrs env.descs.condOut.desc (some env.descs.condOut.height.toNat) i.toNat j.toNat = .ok as ∧
      mem' = { mem with cond.dirty := putBytes mem.cond.dirty (as.zip (condEnc env.descs.condOut.desc.format v)) } := by
  unfold writeCond at h
  split at h
  · cases h
  · next as he =>
    split at h
    · exact ⟨as, he, (Except.ok.inj h).symm⟩
    · cases h

/-- Under FLOAT32_1 the encoding is the one channel of the element, so that its cells lie as those of an output do. -/
theorem zip_condEnc_float1 {d : Desc} (hformat : d.format = 2#3) (x y : Nat) (v : Word) :
    (d.byteAddrs 2 x y).zip (condEnc d.format v) = cellsFrom (d.address 2 x y) (bytesOfWord v) := by
  have hlog : formatLog d.format = some 2 := by rw [hformat]; rfl
  have hcells := channelCells_eq hlog x y (c := .r) (by rw [hformat]; decide) v
  rw [hformat] at hcells ⊢
  exact hcells

theorem byteFrom_bytesOfWord (a : Nat) (v : Word) (x : Nat) :
    byteFrom a (bytesOfWord v) x = if a ≤ x ∧ x < a + 4 then some (byteOfWord v (x - a)) else none := by
  split
  · next h =>
    obtain ⟨hlow, hhigh⟩ := h
    obtain ⟨n, rfl⟩ := Nat.exists_eq_add_of_le hlow
    rw [byteFrom_add, Nat.add_sub_cancel_left]
    exact encodeChannel_getElem? (f := 2#3) (n := n) (Nat.lt_of_add_lt_add_left hhigh) v
  · next h => exact byteFrom_eq_none fun n (hn : n < 4) hx => h (by omega)

theorem tabFind_writeCond_float1 {mem' : MemSys} (hformat : env.descs.condOut.desc.format = 2#3)
    (h : writeCond p mem env i j v = .ok mem') (a : Nat) :
    tabFind mem'.cond.dirty a =
      if env.descs.condOut.desc.address 2 i.toNat j.toNat ≤ a ∧ a < env.descs.condOut.desc.address 2 i.toNat j.toNat + 4 then
        some (byteOfWord v (a - env.descs.condOut.desc.address 2 i.toNat j.toNat))
      else tabFind mem.cond.dirty a := by
  obtain ⟨as, he, rfl⟩ := writeCond_eq_ok h
  have hlog : formatLog env.descs.condOut.desc.format = some 2 := by rw [hformat]; rfl
  rw [elementAddrs_eq_ok hlog he, zip_condEnc_float1 hformat, tabFind_putBytes_cellsFrom, byteFrom_bytesOfWord]
  split <;> rfl

/-- The write gets stuck at an unmapped byte of the element (R81). -/
theorem writeCond_unmapped
    (he : elementAddrs env.descs.condOut.desc (some env.descs.condOut.height.toNat) i.toNat j.toNat = .ok as)
    (hm : as.all p.mapped = false) : writeCond p mem env i j v = .error (.stuck mem) := by
  simp [writeCond, he, hm]

/-! ## The comparison and its read (R92, R101, R254) -/

theorem coCompare_zero (h : env.condTest = 0#3) : coCompare p mem env i j v = .ok (false, mem) := by
  rw [coCompare, h]
  rfl

theorem coCompare_seven (h : env.condTest = 7#3) : coCompare p mem env i j v = .ok (true, mem) := by
  rw [coCompare, h]
  rfl

section
variable (h0 : env.condTest ≠ 0#3) (h7 : env.condTest ≠ 7#3)
include h0 h7

/-- The tests 1 to 6 read the element. -/
theorem coCompare_reads :
    coCompare p mem env i j v =
      (elementAddrs env.descs.condOut.desc (some env.descs.condOut.height.toNat) i.toNat j.toNat >>= fun as =>
        if as.all p.mapped then
          .ok (condCmp env.descs.condOut.desc.format env.condTest v (mem.cond.readAll mem.ram as).1,
            { mem with cond := (mem.cond.readAll mem.ram as).2 })
        else .error (.stuck mem)) := by
  unfold coCompare
  split
  · next h => exact absurd (BitVec.eq_of_toNat_eq h) h0
  · next h => exact absurd (BitVec.eq_of_toNat_eq h) h7
  · split
    · next he => rw [he, error_bind]
    · next he => rw [he, ok_bind]

/-- A read past the height stops (R92). -/
theorem coCompare_past_height (hformat : formatLog env.descs.condOut.desc.format ≠ none)
    (hrow : env.descs.condOut.height.toNat ≤ j.toNat) : coCompare p mem env i j v = .error (.fault .indexRange) := by
  obtain ⟨k, hk⟩ := Option.ne_none_iff_exists'.1 hformat
  have he : elementAddrs env.descs.condOut.desc (some env.descs.condOut.height.toNat) i.toNat j.toNat =
      .error (.fault .indexRange) := by
    simp [elementAddrs, hk, inHeight, hrow]
  rw [coCompare_reads h0 h7, he, error_bind]

variable (he : elementAddrs env.descs.condOut.desc (some env.descs.condOut.height.toNat) i.toNat j.toNat = .ok as)
include he

/-- A read of a mapped element compares the bytes seen there and fills the cache from memory (R101). -/
theorem coCompare_mapped (hm : as.all p.mapped = true) : ∃ cache : CondCache, mem.cond.filled cache mem.ram ∧
    coCompare p mem env i j v =
      .ok (condCmp env.descs.condOut.desc.format env.condTest v (as.map (mem.cond.seen mem.ram)), { mem with cond := cache }) := by
  obtain ⟨hbytes, hfilled⟩ := CondCache.readAll_spec mem.ram as mem.cond
  refine ⟨_, hfilled, ?_⟩
  rw [coCompare_reads h0 h7, he, ok_bind, if_pos hm, hbytes]

theorem coCompare_unmapped (hm : as.all p.mapped = false) : coCompare p mem env i j v = .error (.stuck mem) := by
  rw [coCompare_reads h0 h7, he, ok_bind, hm]
  rfl

end

/-! ## What the CO answers (R81, R254) -/

theorem coTest_stuck (client : CoClient) : coTest p true mem env client i j v = .error (.stuck mem) := rfl

variable {client : CoClient}

/-- The client is the one that the conditional location selects (R250). -/
def CoClient.selected (client : CoClient) (loc : Bool) : Prop := (client = .pe ∧ loc = true) ∨ (client = .dpp ∧ loc = false)

theorem coTest_other (h : (client = .pe ∧ env.condLoc = false) ∨ (client = .dpp ∧ env.condLoc = true)) :
    coTest p false mem env client i j v = .ok (true, mem) := by
  rcases h with ⟨rfl, hloc⟩ | ⟨rfl, hloc⟩ <;> simp [coTest, hloc]

section
variable (hsel : client.selected env.condLoc)
include hsel

theorem coTest_selected :
    coTest p false mem env client i j v =
      (coCompare p mem env i j v >>= fun r =>
        if r.1 && env.condOutMask then writeCond p r.2 env i j v >>= fun m => .ok (true, m) else .ok r) := by
  rcases hsel with ⟨rfl, hloc⟩ | ⟨rfl, hloc⟩ <;> simp [coTest, hloc]

theorem coTest_error {e : Stop} (hcmp : coCompare p mem env i j v = .error e) : coTest p false mem env client i j v = .error e := by
  rw [coTest_selected hsel, hcmp, error_bind]

/-- Without a pass, and without the mask, nothing is written. -/
theorem coTest_unwritten {pass : Bool} {m : MemSys} (hcmp : coCompare p mem env i j v = .ok (pass, m))
    (hno : pass = false ∨ env.condOutMask = false) : coTest p false mem env client i j v = .ok (pass, m) := by
  have hand : (pass && env.condOutMask) = false := Bool.and_eq_false_iff.2 hno
  rw [coTest_selected hsel, hcmp, ok_bind, hand]
  rfl

/-- A pass under the mask answers once the value is written. -/
theorem coTest_writes {m : MemSys} (hcmp : coCompare p mem env i j v = .ok (true, m)) (hmask : env.condOutMask = true) :
    coTest p false mem env client i j v = writeCond p m env i j v >>= fun m' => .ok (true, m') := by
  rw [coTest_selected hsel, hcmp, ok_bind, hmask]
  rfl

theorem coTest_written {m mem' : MemSys} (hcmp : coCompare p mem env i j v = .ok (true, m)) (hmask : env.condOutMask = true)
    (hw : writeCond p m env i j v = .ok mem') : coTest p false mem env client i j v = .ok (true, mem') := by
  rw [coTest_writes hsel hcmp hmask, hw, ok_bind]

/-- An access to an unmapped byte, whether the read of the tests 1 to 6 or the write of test 7, finds no answer (R81). -/
theorem coTest_unmapped (h0 : env.condTest ≠ 0#3) (hacc : env.condTest ≠ 7#3 ∨ env.condOutMask = true)
    (he : elementAddrs env.descs.condOut.desc (some env.descs.condOut.height.toNat) i.toNat j.toNat = .ok as)
    (hm : as.all p.mapped = false) : coTest p false mem env client i j v = .error (.stuck mem) := by
  by_cases h7 : env.condTest = 7#3
  · rw [coTest_writes hsel (coCompare_seven h7) (hacc.resolve_left (absurd h7)), writeCond_unmapped he hm, error_bind]
  · exact coTest_error hsel (coCompare_unmapped h0 h7 he hm)

end

end

/-- Settles O54: the comparisons row by row, the bytes of a FLOAT32_1 write, and the answer of the CO from what its comparison and its
write give. -/
theorem conditionalTest : Obligations.ConditionalTest := by
  refine ⟨fun fmt v bs => ?_, fun p mem mem' env i j v _ hformat hw => ?_, fun p mem env client i j v => ?_⟩
  · refine ⟨condCmp_two fmt v bs, condCmp_six fmt v bs, fun hv hb => ?_, condEq_condEnc fmt, fun w => condEq_float1_of_ne⟩
    have hord := condOrdered_of_not_nan hv hb
    exact ⟨condCmp_four fmt hord, condCmp_five fmt hord⟩
  · refine ⟨?_, tabFind_writeCond_float1 hformat hw⟩
    obtain ⟨as, -, rfl⟩ := writeCond_eq_ok hw
    rfl
  · refine ⟨coTest_stuck client, coTest_other, fun hsel => ⟨fun h0 => ?_, fun h7 hmask => ?_, fun h7 hmask mem' hw => ?_,
      fun h0 hacc as he ⟨a, ha, hm⟩ => ?_, fun h0 h7 => ⟨fun hformat hrow => ?_, fun as he hm => ?_⟩⟩⟩
    · exact coTest_unwritten hsel (coCompare_zero h0) (.inl rfl)
    · exact coTest_unwritten hsel (coCompare_seven h7) (.inr hmask)
    · exact coTest_written hsel (coCompare_seven h7) hmask hw
    · exact coTest_unmapped hsel h0 hacc he (List.all_eq_false.2 ⟨a, ha, by simp [hm]⟩)
    · exact coTest_error hsel (coCompare_past_height h0 h7 hformat hrow)
    · obtain ⟨cache, hfilled, hcmp⟩ := coCompare_mapped h0 h7 he hm (mem := mem) (v := v)
      exact ⟨cache, hfilled, coTest_unwritten hsel hcmp,
        fun hpass hmask mem' hw => coTest_written hsel (hpass ▸ hcmp) hmask hw⟩

end Sys2Proof.Machine
end

section
/-! SUPPORT. What an ALU or OUTPUT instruction that its group can execute leaves (R271, R318 to R330, R334, R588, R590): the next
state, the processors of the group, and what each of them holds. -/

namespace Sys2Proof.Machine

/-! ## Masks, predicates and units (R318 to R322) -/

theorem Completes.mono {i : Instr} {s : State} {P Q : State → Prop} (h : Completes i s P) (hPQ : ∀ t, P t → Q t) :
    Completes i s Q := by
  obtain ⟨t, ht, hp⟩ := h
  exact ⟨t, ht, hPQ t hp⟩

/-- The processors on which an instruction's writes take place (R319). -/
theorem Lane.on_iff {l : Lane} {w : Bool} : l.on w = true ↔ (l.active = true ∧ l.loopOff = none) ∨ w = true := by
  simp [Lane.on, Lane.enabled]

theorem wmaskBit_rgb {ch : Chan} (h : ch ≠ .a) (m : BitVec 3) (b : Bool) : wmaskBit m b ch = m.getLsbD ch.idx := by
  cases ch with
  | r | g | b => rfl
  | a => exact absurd rfl h

@[simp] theorem wmaskBit_alpha (m : BitVec 3) (b : Bool) : wmaskBit m b .a = b := rfl

section
variable {f : AluInst} {l : Lane} {ch : Chan}

theorem aluEnable_rgb (h : ch ≠ .a) : aluEnable f l ch = predEn l f.rgbPredSel f.rgbPredInv ch := by
  cases ch with
  | r | g | b => rfl
  | a => exact absurd rfl h

@[simp] theorem aluEnable_alpha : aluEnable f l .a = predEn l f.alphaPredSel f.alphaPredInv .a := rfl

theorem aluDst_eq (dr da : Nat) (ch : Chan) : aluDst dr da ch = if ch = .a then da else dr := by cases ch <;> rfl

theorem aluTarget_eq (f : AluInst) (ch : Chan) : aluTarget f ch = if ch = .a then f.alphaTarget else f.rgbTarget := by
  cases ch <;> rfl

theorem mem_allChans (ch : Chan) : ch ∈ allChans := by cases ch <;> decide

/-- The destination channels of the static masks: those of the RGB mask, and alpha (R588, R590). -/
theorem mem_aluDsts (f : AluInst) (dr da x : Nat) :
    x ∈ aluDsts f dr da ↔ (∃ ch, ch ≠ .a ∧ f.rgbWmask.getLsbD ch.idx = true ∧ x = regKey dr ch) ∨
      (f.alphaWmask = true ∧ x = regKey da .a) := by
  simp only [aluDsts, List.mem_map, List.mem_filter, mem_allChans, true_and, aluWmaskBit]
  constructor
  · rintro ⟨ch, hmask, rfl⟩
    by_cases h : ch = .a
    · subst h
      exact .inr ⟨hmask, rfl⟩
    · exact .inl ⟨ch, h, by rwa [wmaskBit_rgb h] at hmask, by rw [aluDst_eq, if_neg h]⟩
  · rintro (⟨ch, h, hmask, rfl⟩ | ⟨hmask, rfl⟩)
    · exact ⟨ch, by rwa [wmaskBit_rgb h], by rw [aluDst_eq, if_neg h]⟩
    · exact ⟨.a, hmask, rfl⟩

/-- What joins the pending ALU results (R588). -/
theorem mem_aluItems (f : AluInst) (dr da : Nat) (u : AluItem) :
    u ∈ aluItems f dr da ↔ (∃ x ∈ aluDsts f dr da, u = .temp x) ∨
      (f.isOutput = false ∧ ∃ ch, u = .pred ch ∧ (if ch = .a then f.alphaOmask else f.rgbOmask.getLsbD ch.idx) = true) ∨
      (f.aluWmask = true ∧ u = .ar) := by
  have hmask : ∀ ch, aluOmaskBit f ch = if ch = .a then f.alphaOmask else f.rgbOmask.getLsbD ch.idx := by
    intro ch
    split
    · next h => subst h; rfl
    · next h => exact wmaskBit_rgb h _ _
  have hpreds : u ∈ (if f.isOutput then [] else (allChans.filter (aluOmaskBit f)).map AluItem.pred) ↔
      f.isOutput = false ∧ ∃ ch, u = .pred ch ∧ (if ch = .a then f.alphaOmask else f.rgbOmask.getLsbD ch.idx) = true := by
    cases f.isOutput with
    | true => simp
    | false =>
      simp only [Bool.false_eq_true, if_false, List.mem_map, List.mem_filter, mem_allChans, true_and, hmask]
      exact exists_congr fun ch => by rw [and_comm, eq_comm]
  have har : u ∈ (if f.aluWmask then [AluItem.ar] else []) ↔ f.aluWmask = true ∧ u = .ar := by
    cases f.aluWmask <;> simp
  have htemps : u ∈ (aluDsts f dr da).map AluItem.temp ↔ ∃ x ∈ aluDsts f dr da, u = .temp x := by
    simp only [List.mem_map, @eq_comm _ u]
  rw [aluItems, List.mem_append, List.mem_append, htemps, hpreds, har, or_assoc]

end

/-! ## The registers of one processor after the writes -/

section
variable (f : AluInst) (dr da : Nat) (res : AluResult) (l : Lane)

theorem aluWrite_temp (m : Nat) (ch : Chan) :
    (aluWrite f dr da res l).temp m ch =
      if aluWmaskBit f ch = true ∧ aluEnable f l ch = true ∧ m = (if ch = .a then da else dr) then res.get ch
      else l.temp m ch := by
  have hkept : (aluWrite f dr da res l).temp m ch = (writeTemps f (aluEnable f l) dr da res l).temp m ch := by
    rw [aluWrite_eq, writeTemps_eq]
    rfl
  simp only [hkept, writeTemps_temp, aluDst_eq, eq_comm]

theorem aluWrite_outs (m : Nat) (ch : Chan) :
    tabFind (aluWrite f dr da res l).outs (regKey m ch) =
      if f.isOutput = true ∧ aluOmaskBit f ch = true ∧ aluEnable f l ch = true ∧
          m = Target.register (if ch = .a then f.alphaTarget else f.rgbTarget) then some (res.get ch)
      else tabFind l.outs (regKey m ch) := by
  rw [aluWrite_eq]
  simp only [writeOuts_outs, aluTarget_eq, eq_comm]

theorem aluWrite_pred (ch : Chan) :
    (aluWrite f dr da res l).pred.get ch =
      if f.isOutput = false ∧ aluOmaskBit f ch = true then
        predOp (Target.test (if ch = .a then f.alphaTarget else f.rgbTarget)) (res.get ch)
      else l.pred.get ch := by
  have h := writePreds_pred f res l ch
  rw [aluTarget_eq] at h
  rw [aluWrite_eq]
  exact h

theorem aluWrite_w :
    (aluWrite f dr da res l).wout = (if f.wOmask = true ∧ aluEnable f l .a = true then res.a else l.wout) ∧
    (aluWrite f dr da res l).woutSet = (if f.wOmask = true ∧ aluEnable f l .a = true then true else l.woutSet) := by
  rw [aluWrite_eq]
  dsimp only
  unfold writeW
  by_cases h : f.wOmask = true ∧ aluEnable f l .a = true
  · rw [if_pos h, if_pos h, if_pos (by simpa using h)]
    exact ⟨rfl, rfl⟩
  · rw [if_neg h, if_neg h, if_neg (by simpa using h)]
    exact ⟨rfl, rfl⟩

theorem aluWrite_ar :
    (aluWrite f dr da res l).ar =
      (if f.aluWmask = true then predOp f.resultOp (match f.resultSel with | .red => res.r | .alpha => res.a) else l.ar) ∧
    (aluWrite f dr da res l).arSet = (if f.aluWmask = true then true else l.arSet) := by
  rw [aluWrite_eq]
  dsimp only
  unfold writeAr
  by_cases h : f.aluWmask = true
  · rw [if_pos h, if_pos h, if_pos h]
    exact ⟨rfl, rfl⟩
  · rw [if_neg h, if_neg h, if_neg h]
    exact ⟨rfl, rfl⟩

/-- An ALU instruction writes no output (R322). -/
theorem aluWrite_outs_alu (h : f.isOutput = false) : (aluWrite f dr da res l).outs = l.outs := by
  rw [aluWrite_eq]
  dsimp only
  rw [writeOuts, h]
  rfl

/-- An OUTPUT instruction writes no predicate bit (R326). -/
theorem aluWrite_pred_output (h : f.isOutput = true) :
    (aluWrite f dr da res l).pred = l.pred ∧ (aluWrite f dr da res l).predSet = l.predSet := by
  rw [aluWrite_eq]
  dsimp only
  rw [writePreds, h]
  exact ⟨rfl, rfl⟩

/-- Everything but the six kinds of registers stays. -/
theorem aluWrite_kept :
    aluWrite f dr da res l =
      { l with
        temps := (aluWrite f dr da res l).temps, outs := (aluWrite f dr da res l).outs
        pred := (aluWrite f dr da res l).pred, predSet := (aluWrite f dr da res l).predSet
        wout := (aluWrite f dr da res l).wout, woutSet := (aluWrite f dr da res l).woutSet
        ar := (aluWrite f dr da res l).ar, arSet := (aluWrite f dr da res l).arSet } := by
  rw [aluWrite_eq]

end

/-! ## The float constant cache (R95, R272) -/

section
variable {p : Platform} {draw : Nat} {g : Group} {inactive : Bool} {used : List (Port × Chan)} {a : Six SrcAddr} {mem m : MemSys}

/-- The second memory is the first one but for float constants that the cache has taken in. -/
def constfFilled (mem m : MemSys) : Prop := ∃ k, m = { mem with constf := k } ∧ mem.constf.filled k mem.ram

theorem constfFilled.trans {mem m m' : MemSys} (h : constfFilled mem m) (h' : constfFilled m m') : constfFilled mem m' := by
  obtain ⟨k, rfl, hk⟩ := h
  obtain ⟨k', rfl, hk'⟩ := h'
  exact ⟨k', rfl, hk.trans hk'⟩

theorem fetchPort_fills {q : Port} {src : Source} (h : fetchPort p draw g inactive used a q mem = .ok (src, m)) :
    constfFilled mem m := by
  obtain ⟨pl, -, hsrc⟩ := fetchPort_eq_ok h
  cases pl with
  | temp n =>
    obtain ⟨-, rfl, -⟩ := hsrc
    exact ⟨_, rfl, ReadCache.filled_refl _ _⟩
  | inline w =>
    obtain ⟨-, rfl⟩ := hsrc
    exact ⟨_, rfl, ReadCache.filled_refl _ _⟩
  | const c =>
    obtain ⟨v, -, hread⟩ := hsrc
    obtain ⟨-, k, -, -, rfl, hk⟩ := readConstf_eq_ok hread
    exact ⟨k, rfl, hk⟩

theorem fetchSix_fills {src : Six Source} (h : fetchSix p draw g inactive used a mem = .ok (src, m)) : constfFilled mem m := by
  obtain ⟨m0, m1, m2, m3, m4, h0, h1, h2, h3, h4, h5⟩ := fetchSix_eq_ok.1 h
  exact (((((fetchPort_fills h0).trans (fetchPort_fills h1)).trans (fetchPort_fills h2)).trans (fetchPort_fills h3)).trans
    (fetchPort_fills h4)).trans (fetchPort_fills h5)

end

/-! ## The next state -/

theorem othersKept_set {s t : State} {k : Nat} {g : Group} (h : t.groups = s.groups.set k g) : othersKept s t k := by
  rw [othersKept, h]
  exact ⟨List.length_set, fun j hj => List.getElem?_set_ne hj.symm⟩

theorem length_waited (g : Group) (wait : Bool) : (waited g wait).length = g.lanes.length := by
  unfold waited
  split <;> simp

section
variable {i : Instr} {s : State} {rop : RgbOp} {aop : AlphaOp} {f : AluInst} (c : AluCase s rop aop f)

/-- The state after an ALU or OUTPUT instruction. -/
def AluCase.next : State :=
  { s with mem := c.mem, groups := s.groups.set c.k c.after, draws := s.draws + drawsPerLane * c.g.lanes.length }

/-- Processor n after the instruction (R319). -/
def AluCase.laneNext (n : Nat) (l : Lane) : Lane :=
  if l.on f.writeInactive then aluWrite f c.dr c.da (c.result n l) l else l

theorem AluCase.completes (hi : i.alu? = some (rop, aop, f)) {P : State → Prop} (h : P c.next) : Completes i s P :=
  ⟨c.next, by rw [exec_alu hi, c.run]; rfl, h⟩

theorem AluCase.group_next : c.next.groups[c.k]? = some c.after := by
  obtain ⟨hk, -⟩ := List.getElem?_eq_some_iff.1 c.group
  exact List.getElem?_set_self hk

variable {n : Nat} {l : Lane}

theorem AluCase.laneAt_next (hl : (waited c.g f.semWait)[n]? = some l) : laneAt c.next c.k n (c.laneNext n l) := by
  refine ⟨c.after, c.group_next, ?_⟩
  rw [AluCase.after, List.getElem?_mapIdx, hl]
  rfl

/-- Of a processor after the instruction. -/
theorem AluCase.completes_lane (hi : i.alu? = some (rop, aop, f)) (hl : (waited c.g f.semWait)[n]? = some l) {P : Lane → Prop}
    (h : P (c.laneNext n l)) : Completes i s fun t => ∃ l', laneAt t c.k n l' ∧ P l' :=
  c.completes hi ⟨_, c.laneAt_next hl, h⟩

theorem AluCase.laneNext_on (h : l.on f.writeInactive = true) : c.laneNext n l = aluWrite f c.dr c.da (c.result n l) l := if_pos h

theorem AluCase.laneNext_off (h : l.on f.writeInactive = false) : c.laneNext n l = l := if_neg (by simp [h])

end

/-- Settles O17: the next state of `AluCase.run`, its memory by what the fetch of the sources fills. -/
theorem aluInstructionCompletes : Obligations.AluInstructionCompletes := by
  intro i rop aop f s hi c
  obtain ⟨k, hmem, hfilled⟩ := fetchSix_fills c.fetched
  refine c.completes hi ⟨?_, ?_, othersKept_set rfl, ?_, c.after, c.group_next, rfl, rfl, rfl, ?_, rfl, ?_, ?_⟩
  · simp only [AluCase.next, hmem]
  · intro a
    simp only [AluCase.next, hmem]
  · simp only [AluCase.next, hmem]
    exact hfilled
  · rw [AluCase.after, List.length_mapIdx, length_waited]
  · intro he
    simp only [AluCase.after, he, Bool.false_eq_true, if_false]
  · refine ⟨aluDsts f c.dr c.da, rfl, mem_aluDsts f c.dr c.da, fun u => ?_⟩
    rw [AluCase.after, mem_addNew, mem_aluItems]

/-- Settles O18: a processor off which the instruction is keeps everything, else each kind of register by its own law. -/
theorem aluInstructionFrame : Obligations.AluInstructionFrame := by
  intro i rop aop f s hi c n l hl
  refine c.completes_lane hi hl ?_
  cases hon : l.on f.writeInactive with
  | false =>
    rw [c.laneNext_off hon]
    exact ⟨fun _ _ => rfl, rfl, fun _ _ _ => rfl, fun _ => rfl, fun _ => ⟨rfl, rfl⟩, fun _ => ⟨rfl, rfl⟩, fun _ => ⟨rfl, rfl⟩⟩
  | true =>
    rw [c.laneNext_on hon]
    obtain ⟨hw, hwset⟩ := aluWrite_w f c.dr c.da (c.result n l) l
    obtain ⟨har, harset⟩ := aluWrite_ar f c.dr c.da (c.result n l) l
    refine ⟨fun hinactive hoff => ?_, aluWrite_kept .., fun m ch h => ?_, aluWrite_outs_alu _ _ _ _ _, aluWrite_pred_output _ _ _ _ _,
      fun h => ?_, fun h => ?_⟩
    · obtain ⟨hact, hloop⟩ | h := Lane.on_iff.1 hon
      · rcases hoff with hoff | hoff
        · rw [hact] at hoff; cases hoff
        · exact absurd hloop hoff
      · rw [h] at hinactive; cases hinactive
    · rw [aluWrite_temp, if_neg]
      rintro ⟨hmask, -, hm⟩
      rcases h with h | h
      · rw [aluWmaskBit, h] at hmask; cases hmask
      · exact h hm
    · rw [hw, hwset, h]
      exact ⟨rfl, rfl⟩
    · rw [har, harset, h]
      exact ⟨rfl, rfl⟩

/-- Settles O19: the temporaries after the writes, the enabling of a unit being the predicate that allows it. -/
theorem aluTemporariesWritten : Obligations.AluTemporariesWritten := by
  intro i rop aop f s hi c n l hl hacts allowed
  have hon : l.on f.writeInactive = true := Lane.on_iff.2 hacts
  have hen : ∀ sel inv ch, predEn l sel inv ch = true ↔ allowed sel inv ch := by
    intro sel inv ch
    cases sel with
    | none => exact iff_of_true rfl trivial
    | rgba | rrrr | gggg | bbbb | aaaa => simp only [predEn, allowed, bne_iff_ne, ne_eq, Bool.eq_not]
  have hrgb : ∀ ch, ch ≠ .a → (aluWrite f c.dr c.da (c.result n l) l).temp c.dr ch =
      if f.rgbWmask.getLsbD ch.idx = true ∧ predEn l f.rgbPredSel f.rgbPredInv ch = true then (c.result n l).get ch
      else l.temp c.dr ch := by
    intro ch hch
    rw [aluWrite_temp, aluWmaskBit, wmaskBit_rgb hch, aluEnable_rgb hch, if_neg hch]
    simp only [and_true]
  have halpha : (aluWrite f c.dr c.da (c.result n l) l).temp c.da .a =
      if f.alphaWmask = true ∧ predEn l f.alphaPredSel f.alphaPredInv .a = true then (c.result n l).a else l.temp c.da .a := by
    rw [aluWrite_temp, aluWmaskBit, wmaskBit_alpha, aluEnable_alpha, if_pos rfl]
    simp only [and_true]
    rfl
  refine c.completes_lane hi hl ?_
  rw [c.laneNext_on hon]
  refine ⟨fun ch hch => ⟨fun hm ha => ?_, fun hno => ?_⟩, fun hm ha => ?_, fun hno => ?_⟩
  · rw [hrgb ch hch, if_pos ⟨hm, (hen ..).2 ha⟩]
  · rw [hrgb ch hch, if_neg]
    rintro ⟨hm, ha⟩
    exact hno.elim (fun h => by rw [h] at hm; cases hm) (· ((hen ..).1 ha))
  · rw [halpha, if_pos ⟨hm, (hen ..).2 ha⟩]
  · rw [halpha, if_neg]
    rintro ⟨hm, ha⟩
    exact hno.elim (fun h => by rw [h] at hm; cases hm) (· ((hen ..).1 ha))

/-- Settles O20: outputs, predicate bits, W and the ALU result after the writes, each test and register being that of its target. -/
theorem aluFlagsAndOutputsWritten : Obligations.AluFlagsAndOutputsWritten := by
  unfold Obligations.AluFlagsAndOutputsWritten
  intro holds test register i rop aop f s hi c n l hacts
  obtain ⟨hl, hon⟩ := hacts
  have hholds : ∀ op w, predOp op w = holds op w := by
    intro op w
    cases op <;> rfl
  have htest : ∀ t : Target, Target.test t = test t := by
    intro t
    cases t <;> rfl
  have hregister : ∀ t : Target, Target.register t = register t := by
    intro t
    cases t <;> rfl
  refine c.completes_lane hi hl ?_
  rw [c.laneNext_on hon]
  obtain ⟨hw, -⟩ := aluWrite_w f c.dr c.da (c.result n l) l
  obtain ⟨har, -⟩ := aluWrite_ar f c.dr c.da (c.result n l) l
  refine ⟨fun ch hch m => ?_, fun m => ?_, fun ch hch => ?_, ?_, hw, ?_⟩
  · rw [aluWrite_outs, aluOmaskBit, wmaskBit_rgb hch, aluEnable_rgb hch, if_neg hch, hregister]
  · rw [aluWrite_outs, aluOmaskBit, wmaskBit_alpha, aluEnable_alpha, if_pos rfl, hregister]
    rfl
  · rw [aluWrite_pred, aluOmaskBit, wmaskBit_rgb hch, if_neg hch, hholds, htest]
  · have hpred := aluWrite_pred f c.dr c.da (c.result n l) l .a
    rw [aluOmaskBit, wmaskBit_alpha, if_pos rfl, hholds, htest] at hpred
    exact hpred
  · rw [hholds] at har
    exact har

end Sys2Proof.Machine
end

section
/-! SUPPORT. The results of the ALU operations (R284 to R289, R296 to R301, R312 to R316): what a unit stores once its output
modifier and its clamp are made, and the operations that select, multiply and add, or take a fraction. -/

namespace Sys2Proof.Machine

/-! ## Output modifier and clamp (R312 to R314) -/

section
variable {om : OMod} {draw : Nat}

theorem finishRaw_ext (h : om ≠ .disabled) (v : Ext) :
    finishRaw Config.fArith draw om (.ext v) = finish Config.fArith draw om v := by
  cases om with
  | disabled => exact absurd rfl h
  | u1 | u2 | u4 | u8 | d2 | d4 | d8 => rfl

theorem finishRaw_bits (w : Word) : finishRaw Config.fArith draw om (.bits w) = modified draw om w := by cases om <;> rfl

theorem modified_disabled (h : om = .disabled) (w : Word) : modified draw om w = w := if_pos h

theorem modified_finish (h : om ≠ .disabled) (w : Word) :
    modified draw om w = finish Config.fArith draw om (.ofBits w) := if_neg h

end

theorem clamped_false (draw : Nat) (w : Word) : clamped draw false w = w := rfl

/-! ## What a unit stores -/

section
variable {i : Instr} {s : State} {rop : RgbOp} {aop : AlphaOp} {f : AluInst} (c : AluCase s rop aop f)

/-- The valid combinations, one by one (R293, R302, R313). -/
theorem aluCombinationOk_iff :
    aluCombinationOk rop aop f = true ↔
      (rop = .sop → aop.transcendental = true) ∧ (aop = .dp → rop.dot = true) ∧
      (f.rgbOmod = .disabled → rop.selects = true ∧ f.rgbClamp = false) ∧
      (f.alphaOmod = .disabled → aop.selects = true ∧ f.alphaClamp = false) := by
  simp only [aluCombinationOk, Bool.and_eq_true, Bool.or_eq_true, bne_iff_ne, ne_eq, Bool.not_eq_true', imp_iff_not_or, and_assoc]

section
include c

/-- Only operations that select have their output modifier disabled (R313). -/
theorem AluCase.rgbOmod_ne (h : rop.selects = false) : f.rgbOmod ≠ .disabled := fun hd => by
  obtain ⟨-, -, hrgb, -⟩ := aluCombinationOk_iff.1 c.combination
  rw [(hrgb hd).1] at h
  cases h

theorem AluCase.alphaOmod_ne (h : aop.selects = false) : f.alphaOmod ≠ .disabled := fun hd => by
  obtain ⟨-, -, -, halpha⟩ := aluCombinationOk_iff.1 c.combination
  rw [(halpha hd).1] at h
  cases h

end

variable {n : Nat} {l : Lane} {ch : Chan}

/-- Processor n holds in channel ch of temporary d, once the instruction is done, a value that its output modifier gives at some draw
and the unit's clamp flag then treats. -/
def AluCase.stores (i : Instr) (n d : Nat) (ch : Chan) (clamp : Bool) (v : Nat → Word) : Prop :=
  Completes i s fun t => ∃ l' draw draw', laneAt t c.k n l' ∧ l'.temp d ch = clamped draw' clamp (v draw)

variable (hi : i.alu? = some (rop, aop, f)) (hacts : c.acts n l)
include hi hacts

/-- The RGB unit stores its operation's result, under its modifier and clamp flag (R271 steps 5 to 7). -/
theorem AluCase.rgb_stores (hw : rgbWritten f l ch) :
    c.stores i n c.dr ch f.rgbClamp fun draw =>
      finishRaw Config.fArith draw f.rgbOmod (rgbRaw Config.fArith (laneDraw s n) rop aop (c.opnds n l) ch) := by
  obtain ⟨hl, hon⟩ := hacts
  obtain ⟨hch, hmask, hen⟩ := hw
  have hresult : (c.result n l).get ch = clamped (laneDraw s n + 12 + ch.idx) f.rgbClamp
      (finishRaw Config.fArith (laneDraw s n + 8 + ch.idx) f.rgbOmod
        (rgbRaw Config.fArith (laneDraw s n) rop aop (c.opnds n l) ch)) := by
    cases ch with
    | r | g | b => rfl
    | a => exact absurd rfl hch
  refine c.completes hi ⟨_, laneDraw s n + 8 + ch.idx, laneDraw s n + 12 + ch.idx, c.laneAt_next hl, ?_⟩
  rw [c.laneNext_on hon, aluWrite_temp, if_pos ⟨hmask, hen, (if_neg hch).symm⟩]
  exact hresult

/-- The alpha unit stores its operation's result, under its own modifier and clamp flag (R271 steps 5 to 7). -/
theorem AluCase.alpha_stores (hw : alphaWritten f l) :
    c.stores i n c.da .a f.alphaClamp fun draw =>
      finishRaw Config.fArith draw f.alphaOmod (alphaRaw Config.fArith (laneDraw s n) rop aop (c.opnds n l)) := by
  obtain ⟨hl, hon⟩ := hacts
  obtain ⟨hmask, hen⟩ := hw
  have hresult : (c.result n l).get .a = clamped (laneDraw s n + 12 + Chan.a.idx) f.alphaClamp
      (finishRaw Config.fArith (laneDraw s n + 8 + Chan.a.idx) f.alphaOmod
        (alphaRaw Config.fArith (laneDraw s n) rop aop (c.opnds n l))) := rfl
  refine c.completes hi ⟨_, laneDraw s n + 8 + Chan.a.idx, laneDraw s n + 12 + Chan.a.idx, c.laneAt_next hl, ?_⟩
  rw [c.laneNext_on hon, aluWrite_temp, if_pos ⟨hmask, hen, rfl⟩]
  exact hresult

/-- An extended value is stored finished. -/
theorem AluCase.rgb_stores_ext (hw : rgbWritten f l ch) (hsel : rop.selects = false) {v : Ext}
    (hv : rgbRaw Config.fArith (laneDraw s n) rop aop (c.opnds n l) ch = .ext v) :
    c.stores i n c.dr ch f.rgbClamp fun draw => finish Config.fArith draw f.rgbOmod v := by
  have h := c.rgb_stores hi hacts hw
  simpa only [hv, finishRaw_ext (c.rgbOmod_ne hsel)] using h

theorem AluCase.alpha_stores_ext (hw : alphaWritten f l) (hsel : aop.selects = false) {v : Ext}
    (hv : alphaRaw Config.fArith (laneDraw s n) rop aop (c.opnds n l) = .ext v) :
    c.stores i n c.da .a f.alphaClamp fun draw => finish Config.fArith draw f.alphaOmod v := by
  have h := c.alpha_stores hi hacts hw
  simpa only [hv, finishRaw_ext (c.alphaOmod_ne hsel)] using h

/-- 32 bits are stored as the modifier gives them. -/
theorem AluCase.rgb_stores_bits (hw : rgbWritten f l ch) {w : Word}
    (hv : rgbRaw Config.fArith (laneDraw s n) rop aop (c.opnds n l) ch = .bits w) :
    c.stores i n c.dr ch f.rgbClamp fun draw => modified draw f.rgbOmod w := by
  have h := c.rgb_stores hi hacts hw
  simpa only [hv, finishRaw_bits] using h

theorem AluCase.alpha_stores_bits (hw : alphaWritten f l) {w : Word}
    (hv : alphaRaw Config.fArith (laneDraw s n) rop aop (c.opnds n l) = .bits w) :
    c.stores i n c.da .a f.alphaClamp fun draw => modified draw f.alphaOmod w := by
  have h := c.alpha_stores hi hacts hw
  simpa only [hv, finishRaw_bits] using h

end

/-- Settles O21: both units take the exact product and sum. -/
theorem madResult : Obligations.MadResult := by
  intro i f s n l
  exact ⟨fun aop c ch hi hacts hw => c.rgb_stores_ext hi hacts hw rfl rfl,
    fun rop c hi hacts hw => c.alpha_stores_ext hi hacts hw rfl rfl⟩

/-- Settles O22: both units take one of the two operands as it is. -/
theorem minMaxResult : Obligations.MinMaxResult := by
  intro i f s n l
  exact ⟨fun aop c ch hi hacts hw => c.rgb_stores_bits hi hacts hw rfl, fun aop c ch hi hacts hw => c.rgb_stores_bits hi hacts hw rfl,
    fun rop c hi hacts hw => c.alpha_stores_bits hi hacts hw rfl, fun rop c hi hacts hw => c.alpha_stores_bits hi hacts hw rfl⟩

/-! ## CND and CMP (R287, R288, R299, R300) -/

/-- The choice is the formula's, or the second operand where a NaN among the first two allows it (D36). -/
theorem selectThird_cases (draw : Nat) (test : Bool) (a b c : Word) :
    selectThird draw test a b c = (if test = true then a else b) ∨
      (selectThird draw test a b c = b ∧ isNaN c = false ∧ (isNaN a = true ∨ isNaN b = true)) := by
  unfold selectThird
  split
  · next h =>
    simp only [Bool.and_eq_true, Bool.not_eq_true', Bool.or_eq_true] at h
    obtain ⟨⟨hc, hab⟩, -⟩ := h
    exact .inr ⟨rfl, hc, hab⟩
  · exact .inl rfl

section
variable (fa : FArith) (draw : Nat) (o : Opnds)

theorem rgbRaw_third {rop : RgbOp} (h : rop = .cnd ∨ rop = .cmp) (aop : AlphaOp) (ch : Chan) :
    ∃ draw', rgbRaw fa draw rop aop o ch =
      .bits (selectThird draw' (if rop = .cnd then fGtHalf (o.rgbC.get ch) else fGe0 (o.rgbC.get ch)) (o.rgbA.get ch)
        (o.rgbB.get ch) (o.rgbC.get ch)) := by
  rcases h with rfl | rfl <;> exact ⟨_, rfl⟩

theorem alphaRaw_third {aop : AlphaOp} (h : aop = .cnd ∨ aop = .cmp) (rop : RgbOp) :
    ∃ draw', alphaRaw fa draw rop aop o =
      .bits (selectThird draw' (if aop = .cnd then fGtHalf o.alphaC else fGe0 o.alphaC) o.alphaA o.alphaB o.alphaC) := by
  rcases h with rfl | rfl <;> exact ⟨_, rfl⟩

end

/-- Settles O23: the bits that a unit stores are those of `selectThird`. -/
theorem cndCmpResult : Obligations.CndCmpResult := by
  intro i f s n l
  refine ⟨fun rop aop c ch hop hi hacts hw => ?_, fun rop aop c hop hi hacts hw => ?_⟩
  · obtain ⟨draw, hraw⟩ := rgbRaw_third Config.fArith (laneDraw s n) (c.opnds n l) hop aop ch
    exact (c.rgb_stores_bits hi hacts hw hraw).mono fun t ⟨l', d, d', hl, ht⟩ =>
      ⟨l', d, d', _, hl, ht, selectThird_cases draw _ _ _ _⟩
  · obtain ⟨draw, hraw⟩ := alphaRaw_third Config.fArith (laneDraw s n) (c.opnds n l) hop rop
    exact (c.alpha_stores_bits hi hacts hw hraw).mono fun t ⟨l', d, d', hl, ht⟩ =>
      ⟨l', d, d', _, hl, ht, selectThird_cases draw _ _ _ _⟩

/-! ## MOV (R316) -/

/-- An operation that selects between equal operands takes them as they are. -/
theorem selectThird_same (draw : Nat) (test : Bool) (a c : Word) : selectThird draw test a a c = a := by
  simp [selectThird]

theorem rgbRaw_same {rop : RgbOp} (h : rop.selects = true) {o : Opnds} (hab : o.rgbA = o.rgbB) (draw : Nat) (aop : AlphaOp)
    (ch : Chan) : rgbRaw Config.fArith draw rop aop o ch = .bits (o.rgbA.get ch) := by
  cases rop with
  | min => simp only [rgbRaw, selectMin, hab, ite_self]
  | max => simp only [rgbRaw, selectMax, hab, ite_self]
  | cnd => simp only [rgbRaw, selectCnd, hab, selectThird_same]
  | cmp => simp only [rgbRaw, selectCmp, hab, selectThird_same]
  | mad | frc | dp3 | dp4 | d2a | sop => cases h

theorem alphaRaw_same {aop : AlphaOp} (h : aop.selects = true) {o : Opnds} (hab : o.alphaA = o.alphaB) (draw : Nat)
    (rop : RgbOp) : alphaRaw Config.fArith draw rop aop o = .bits o.alphaA := by
  cases aop with
  | min => simp only [alphaRaw, selectMin, hab, ite_self]
  | max => simp only [alphaRaw, selectMax, hab, ite_self]
  | cnd => simp only [alphaRaw, selectCnd, hab, selectThird_same]
  | cmp => simp only [alphaRaw, selectCmp, hab, selectThird_same]
  | mad | frc | dp | ex2 | ln2 | rcp | rsq | sin | cos => cases h

/-- Settles O27: equal operands leave nothing to choose, and a disabled modifier comes without a clamp (R313). -/
theorem movIsBitExact : Obligations.MovIsBitExact := by
  intro i rop aop f s hi c n l hacts
  obtain ⟨-, -, hrgb, halpha⟩ := aluCombinationOk_iff.1 c.combination
  refine ⟨fun hsel homod hab ch hw => ?_, fun hsel homod hab hw => ?_⟩
  · have hopnds : (c.opnds n l).rgbA = (c.opnds n l).rgbB := congrArg (rgbOperand _) hab
    refine (c.rgb_stores_bits hi hacts hw (rgbRaw_same hsel hopnds ..)).mono fun t ⟨l', draw, draw', hl, ht⟩ => ⟨l', hl, ?_⟩
    rw [ht, (hrgb homod).2, clamped_false]
    exact modified_disabled homod _
  · have hopnds : (c.opnds n l).alphaA = (c.opnds n l).alphaB := congrArg (alphaOperand _) hab
    refine (c.alpha_stores_bits hi hacts hw (alphaRaw_same hsel hopnds ..)).mono fun t ⟨l', draw, draw', hl, ht⟩ => ⟨l', hl, ?_⟩
    rw [ht, (halpha homod).2, clamped_false]
    exact modified_disabled homod _

/-! ## The numbers of patterns (R440, R442) -/

section
variable {w : Word}

theorem Ext.ofBits_zero (h : expField w = 0) : Ext.ofBits w = .zero (signBit w) := by
  rw [Ext.ofBits, h]
  rfl

theorem Ext.ofBits_real (h0 : expField w ≠ 0) (h255 : expField w ≠ 255) :
    Ext.ofBits w = .real ((if signBit w then -1 else 1) * ((2 ^ 23 + manField w : Nat) : Int)) ((expField w : Int) - 150) := by
  rw [Ext.ofBits, if_neg h255, if_neg h0]

/-- A finite pattern stands for the number that it is read as. -/
theorem Ext.number_ofBits (h255 : expField w ≠ 255) : (Ext.ofBits w).number = floatValue w := by
  by_cases h0 : expField w = 0
  · rw [Ext.ofBits_zero h0, floatValue, if_pos h0]
    rfl
  · rw [Ext.ofBits_real h0 h255, floatValue, if_neg h0, Ext.number]
    cases signBit w <;> push_cast <;> simp

end

@[simp] theorem Ext.number_zero (b : Bool) : (Ext.zero b).number = 0 := rfl

@[simp] theorem Ext.number_real (m e : Int) : (Ext.real m e).number = (m : ℚ) * 2 ^ e := rfl

@[simp] theorem Ext.number_ofReal (m e : Int) : (Ext.ofReal m e).number = (m : ℚ) * 2 ^ e := by
  unfold Ext.ofReal
  split
  · next h => simp [h]
  · rfl

/-! ## FRC (R289, R301, R452) -/

/-- The fraction of a number with binary places is what is left of its multiple modulo one. -/
theorem fract_scaled (m e : Int) (he : e < 0) :
    Int.fract ((m : ℚ) * 2 ^ e) = ((m % 2 ^ (-e).toNat : Int) : ℚ) * 2 ^ e := by
  obtain ⟨k, rfl⟩ : ∃ k : Nat, e = -k := ⟨(-e).toNat, by omega⟩
  have h := Int.fract_div_intCast_eq_div_intCast_mod (k := ℚ) (m := m) (n := 2 ^ k)
  rw [neg_neg, Int.toNat_natCast, zpow_neg, zpow_natCast, ← div_eq_mul_inv, ← div_eq_mul_inv]
  exact_mod_cast h

theorem frc_finite (draw : Nat) {a : Word} (h255 : expField a ≠ 255) :
    (frc draw a).number = Int.fract (floatValue a) ∧ (expField a = 0 → ∃ negative, frc draw a = .zero negative) ∧
      (expField a ≠ 0 → frc draw a = .zero false ∨ ∃ m e, frc draw a = .real m e ∧ 0 < m) := by
  rw [← Ext.number_ofBits h255]
  by_cases h0 : expField a = 0
  · rw [frc, Ext.ofBits_zero h0]
    exact ⟨by simp, fun _ => ⟨_, rfl⟩, fun h => absurd h0 h⟩
  · rw [frc, Ext.ofBits_real h0 h255]
    generalize (if signBit a then -1 else 1) * ((2 ^ 23 + manField a : Nat) : Int) = m
    generalize (expField a : Int) - 150 = e
    refine ⟨?_, fun h => absurd h h0, fun _ => ?_⟩
    · dsimp only
      split
      · next he =>
        obtain ⟨k, rfl⟩ := Int.eq_ofNat_of_zero_le he
        have hint : Int.fract (((m * 2 ^ k : Int)) : ℚ) = 0 := Int.fract_intCast _
        rw [Ext.number_zero, Ext.number_real, ← hint]
        push_cast
        rfl
      · next he => rw [Ext.number_ofReal, Ext.number_real, fract_scaled m e (by omega)]
    · dsimp only
      split
      · exact .inl rfl
      · have hnonneg : 0 ≤ m % 2 ^ (-e).toNat := Int.emod_nonneg _ (by positivity)
        unfold Ext.ofReal
        split
        · exact .inl rfl
        · exact .inr ⟨_, _, rfl, by omega⟩

/-- Settles O24: the value that a unit stores is that of `frc`. -/
theorem frcResult : Obligations.FrcResult := by
  unfold Obligations.FrcResult
  intro fraction i f s n l
  refine ⟨fun aop c ch hi hacts hw hfin => ?_, fun rop c hi hacts hw hfin => ?_⟩
  · exact (c.rgb_stores_ext hi hacts hw rfl rfl).mono fun t ⟨l', draw, draw', hl, ht⟩ =>
      ⟨l', draw, draw', _, hl, frc_finite _ hfin, ht⟩
  · exact (c.alpha_stores_ext hi hacts hw rfl rfl).mono fun t ⟨l', draw, draw', hl, ht⟩ =>
      ⟨l', draw, draw', _, hl, frc_finite _ hfin, ht⟩

end Sys2Proof.Machine
end

section
/-! SUPPORT. The transcendental operations (R303 to R308, R454, R455): the patterns that rounding gives, the numbers that decide
their cases, and where the result goes. -/

namespace Sys2Proof.Machine

/-! ## Patterns that rounding gives (R445, R456, R458) -/

/-- A finite normal number. -/
def normalPattern (w : Word) : Prop := expField w ≠ 0 ∧ expField w ≠ 255

/-- Neither a NaN nor a denormal. -/
def tidyPattern (w : Word) : Prop := isNaN w = false ∧ (expField w = 0 → manField w = 0)

theorem expField_eq (w : Word) : expField w = (w.extractLsb' 23 8).toNat := by
  rw [expField, BitVec.extractLsb'_toNat, Nat.shiftRight_eq_div_pow]

/-- Flipping the lowest exponent bit makes a finite normal number of every other pattern (log 13). -/
theorem normalBits_normal (w : Word) : normalPattern (normalBits w) := by
  have hflip : expField (w ^^^ 0x00800000#32) = (w.extractLsb' 23 8 ^^^ 1#8).toNat := by
    rw [expField_eq, BitVec.extractLsb'_xor]
    rfl
  unfold normalBits
  split
  · next h =>
    rw [normalPattern, hflip]
    rw [expField_eq] at h
    rcases h with h | h
    · rw [show w.extractLsb' 23 8 = 255#8 from BitVec.eq_of_toNat_eq h]
      decide
    · rw [show w.extractLsb' 23 8 = 0#8 from BitVec.eq_of_toNat_eq h]
      decide
  · next h => exact ⟨fun h0 => h (.inr h0), fun h255 => h (.inl h255)⟩

theorem normalPattern.tidy {w : Word} (h : normalPattern w) : tidyPattern w := by
  obtain ⟨h0, h255⟩ := h
  exact ⟨by simp [isNaN, h255], fun h => absurd h h0⟩

theorem zeroBits_tidy (b : Bool) : tidyPattern (zeroBits b) := by
  unfold tidyPattern
  cases b <;> decide

theorem infBits_tidy (b : Bool) : tidyPattern (infBits b) := by
  unfold tidyPattern
  cases b <;> decide

theorem oneBits_normal : normalPattern oneBits := by
  unfold normalPattern
  decide

theorem saturate_tidy (b : Bool) (w : Word) : tidyPattern (saturate b w) := by
  unfold saturate flushDenormal
  split
  · exact infBits_tidy b
  · next h255 =>
    split
    · exact zeroBits_tidy _
    · next h0 => exact normalPattern.tidy ⟨h0, h255⟩

theorem rounded_tidy (fa : FArith) (draw : Nat) (m e : Int) : tidyPattern (rounded fa draw m e) := by
  unfold rounded
  split
  · exact zeroBits_tidy _
  · split
    · exact saturate_tidy ..
    · exact (normalBits_normal _).tidy

theorem transExact_tidy (fa : FArith) (draw : Nat) (m e : Int) : tidyPattern (transExact fa draw m e) := by
  unfold transExact
  split
  · exact zeroBits_tidy _
  · exact rounded_tidy ..

/-- A power of two of the normal range is a finite normal number. -/
theorem transExact_power (fa : FArith) (draw : Nat) {m n : Int} (hm : m.natAbs = 1) (hlow : -126 ≤ n) (hhigh : n ≤ 127) :
    normalPattern (transExact fa draw m n) := by
  have hbelow : belowNormal m n = false := by
    rw [belowNormal, hm, show (-(n + 126)).toNat = 0 by omega]
    have := Nat.one_le_two_pow (n := (n + 126).toNat)
    simp only [decide_eq_false_iff_not]
    omega
  have habove : aboveFinite m n = false := by
    have hpow : 2 ^ (n - 104).toNat ≤ 2 ^ 23 := Nat.pow_le_pow_right (by decide) (by omega)
    have := Nat.one_le_two_pow (n := (104 - n).toNat)
    rw [aboveFinite, hm]
    simp only [decide_eq_false_iff_not]
    omega
  have hm0 : m ≠ 0 := by omega
  rw [transExact, if_neg hm0, rounded, hbelow, habove]
  exact normalBits_normal _

/-- Minus 2^-127 and 2^-127 lie below the normal range. -/
theorem transExact_tiny (fa : FArith) (draw : Nat) {m : Int} (hm : m.natAbs = 1) :
    transExact fa draw m (-127) = zeroBits (decide (m < 0)) := by
  have hbelow : belowNormal m (-127) = true := by
    rw [belowNormal, hm]
    decide
  have hm0 : m ≠ 0 := by omega
  rw [transExact, if_neg hm0, rounded, hbelow]
  rfl

/-! ## The numbers that decide the cases -/

/-- Scaling to a lower exponent keeps the number. -/
theorem scaleTo_number (m : Int) {e lo : Int} (h : lo ≤ e) : (scaleTo m e lo : ℚ) * 2 ^ lo = (m : ℚ) * 2 ^ e := by
  have he : e = ((e - lo).toNat : Int) + lo := by omega
  rw [scaleTo]
  push_cast
  conv_rhs => rw [he, zpow_add₀ two_ne_zero, zpow_natCast]
  ring

theorem Ext.lt_real (m e m' e' : Int) :
    (Ext.real m e).lt (.real m' e') = true ↔ (m : ℚ) * 2 ^ e < (m' : ℚ) * 2 ^ e' := by
  rw [← scaleTo_number m (min_le_left e e'), ← scaleTo_number m' (min_le_right e e'),
    mul_lt_mul_iff_left₀ (by positivity), Int.cast_lt]
  exact decide_eq_true_iff

section
variable {a : Word} {m e : Int}

/-- A finite operand is a zero or a real number. -/
theorem Ext.ofBits_finite (h : expField a ≠ 255) :
    (∃ n, Ext.ofBits a = .zero n) ∨ ∃ m e, Ext.ofBits a = .real m e := by
  by_cases h0 : expField a = 0
  · exact .inl ⟨_, Ext.ofBits_zero h0⟩
  · exact .inr ⟨_, _, Ext.ofBits_real h0 h⟩

/-- The fields of an operand that is a real number (R440). -/
theorem Ext.ofBits_eq_real (h : Ext.ofBits a = .real m e) :
    expField a ≠ 0 ∧ expField a ≠ 255 ∧ m = (if signBit a then -1 else 1) * ((2 ^ 23 + manField a : Nat) : Int) ∧
      e = (expField a : Int) - 150 ∧ floatValue a = m * 2 ^ e := by
  have h255 : expField a ≠ 255 := fun h255 => by
    rw [Ext.ofBits, if_pos h255] at h
    split at h <;> cases h
  have h0 : expField a ≠ 0 := fun h0 => by
    rw [Ext.ofBits_zero h0] at h
    cases h
  have hnumber : floatValue a = m * 2 ^ e := by rw [← Ext.number_ofBits h255, h, Ext.number_real]
  rw [Ext.ofBits_real h0 h255] at h
  cases h
  exact ⟨h0, h255, rfl, rfl, hnumber⟩

theorem floatValue_of_zero {n : Bool} (h : Ext.ofBits a = .zero n) : floatValue a = 0 := by
  have h0 : expField a = 0 := by
    by_contra h0
    by_cases h255 : expField a = 255
    · rw [Ext.ofBits, if_pos h255] at h
      split at h <;> cases h
    · rw [Ext.ofBits_real h0 h255] at h
      cases h
  rw [floatValue, if_pos h0]

/-- The sign of a real operand is its sign bit. -/
theorem Ext.ofBits_neg (h : Ext.ofBits a = .real m e) : m < 0 ↔ signBit a = true := by
  obtain ⟨-, -, hm, -, -⟩ := Ext.ofBits_eq_real h
  split at hm
  · next hs => exact iff_of_true (by omega) hs
  · next hs => exact iff_of_false (by omega) hs

theorem floatValue_nonneg_iff (h : Ext.ofBits a = .real m e) : 0 ≤ floatValue a ↔ ¬ m < 0 := by
  obtain ⟨-, -, -, -, hv⟩ := Ext.ofBits_eq_real h
  rw [hv, mul_nonneg_iff_of_pos_right (by positivity), not_lt, Int.cast_nonneg_iff]

/-- The magnitude of a real operand, from its fields. -/
theorem abs_floatValue (h : Ext.ofBits a = .real m e) :
    |floatValue a| = ((2 ^ 23 + manField a : Nat) : ℚ) * 2 ^ ((expField a : Int) - 150) := by
  obtain ⟨h0, -, -, -, -⟩ := Ext.ofBits_eq_real h
  rw [floatValue, if_neg h0, abs_mul, abs_mul, abs_of_pos (show (0 : ℚ) < 2 ^ ((expField a : Int) - 150) by positivity),
    abs_of_nonneg (show (0 : ℚ) ≤ ((2 ^ 23 + manField a : Nat) : ℚ) by positivity)]
  cases signBit a <;> simp

/-- The operands within 2^126: by their exponent, 2^126 itself being the only one of its exponent. -/
theorem abs_floatValue_le_iff (h : Ext.ofBits a = .real m e) :
    |floatValue a| ≤ 2 ^ 126 ↔ expField a < 253 ∨ (expField a = 253 ∧ manField a = 0) := by
  have hman : manField a < 2 ^ 23 := Nat.mod_lt _ (by decide)
  have hexp : expField a < 256 := Nat.mod_lt _ (by decide)
  have hscaled : |floatValue a| ≤ 2 ^ 126 ↔ (2 ^ 23 + manField a) * 2 ^ expField a ≤ 2 ^ 126 * 2 ^ 150 := by
    rw [abs_floatValue h, zpow_sub₀ two_ne_zero, ← mul_div_assoc, div_le_iff₀ (by positivity), zpow_natCast]
    exact_mod_cast Iff.rfl
  rw [hscaled]
  constructor
  · intro hle
    by_contra hno
    have hlarge : 2 ^ 23 * 2 ^ 253 < (2 ^ 23 + manField a) * 2 ^ expField a := by
      rcases Nat.lt_or_ge 253 (expField a) with hgt | hle'
      · exact Nat.mul_lt_mul_of_le_of_lt (by omega) (Nat.pow_lt_pow_right (by decide) hgt) (by omega)
      · rw [show expField a = 253 by omega]
        exact Nat.mul_lt_mul_of_pos_right (by omega) (by positivity)
    have : 2 ^ 23 * 2 ^ 253 = 2 ^ 126 * 2 ^ 150 := by rw [← pow_add, ← pow_add]
    omega
  · rintro (hlt | ⟨heq, hzero⟩)
    · calc (2 ^ 23 + manField a) * 2 ^ expField a ≤ 2 ^ 24 * 2 ^ 252 :=
            Nat.mul_le_mul (by omega) (Nat.pow_le_pow_right (by decide) (by omega))
        _ = 2 ^ 126 * 2 ^ 150 := by rw [← pow_add, ← pow_add]
    · rw [heq, hzero, Nat.add_zero, ← pow_add, ← pow_add]

/-- `integer?` names the number itself. -/
theorem integer?_number {n : Int} (h : integer? m e = some n) : (n : ℚ) = m * 2 ^ e := by
  unfold integer? at h
  split at h
  · next he =>
    obtain ⟨k, rfl⟩ := Int.eq_ofNat_of_zero_le he
    cases h
    push_cast
    rfl
  · next he =>
    split at h
    · next hdvd =>
      obtain ⟨k, rfl⟩ : ∃ k : Nat, e = -k := ⟨(-e).toNat, by omega⟩
      rw [neg_neg, Int.toNat_natCast] at h hdvd
      cases h
      rw [zpow_neg, zpow_natCast, ← div_eq_mul_inv, Int.cast_div (Int.dvd_of_emod_eq_zero hdvd) (by positivity)]
      push_cast
      rfl
    · cases h

end

/-! ## The six operations (R454, R455) -/

section
variable (fa : FArith) (draw : Nat) {a : Word} {m e : Int}

/-- The result of the special operands is that of the table. -/
theorem transOf_table {aop : AlphaOp} {v : Word} (h : transTable aop (Ext.ofBits a) = some v) : transOf fa draw aop a = v := by
  cases aop with
  | ex2 =>
    rw [transOf, ex2]
    rcases hx : Ext.ofBits a with _ | (_ | _) | _ | ⟨m, e⟩ <;> rw [hx] at h <;> cases h <;> rfl
  | ln2 =>
    rw [transOf, ln2]
    rcases hx : Ext.ofBits a with _ | (_ | _) | _ | ⟨m, e⟩ <;> rw [hx] at h <;> cases h <;> rfl
  | rcp =>
    rw [transOf, rcp]
    rcases hx : Ext.ofBits a with _ | (_ | _) | _ | ⟨m, e⟩ <;> rw [hx] at h <;> cases h <;> rfl
  | rsq =>
    rw [transOf, rsq]
    rcases hx : Ext.ofBits a with _ | (_ | _) | _ | ⟨m, e⟩ <;> rw [hx] at h <;> cases h <;> rfl
  | sin =>
    rw [transOf, sinTurns]
    rcases hx : Ext.ofBits a with _ | (_ | _) | _ | ⟨m, e⟩ <;> rw [hx] at h <;> cases h <;> rfl
  | cos =>
    rw [transOf, cosTurns]
    rcases hx : Ext.ofBits a with _ | (_ | _) | _ | ⟨m, e⟩ <;> rw [hx] at h <;> cases h <;> rfl
  | mad | min | max | cnd | cmp | frc | dp => cases h

/-- EX2 by the number of its operand. -/
theorem ex2_finite (h : expField a ≠ 255) :
    (128 ≤ floatValue a → ex2 fa draw a = infBits false) ∧ (floatValue a < -126 → ex2 fa draw a = zeroBits false) ∧
      (-126 ≤ floatValue a → floatValue a < 128 → normalPattern (ex2 fa draw a)) := by
  rcases Ext.ofBits_finite h with ⟨n, hx⟩ | ⟨m, e, hx⟩
  · rw [ex2, hx, floatValue_of_zero hx, normalPattern]
    exact ⟨by norm_num, by norm_num, fun _ _ => show normalPattern oneBits from oneBits_normal⟩
  · obtain ⟨-, -, -, -, hv⟩ := Ext.ofBits_eq_real hx
    have hlarge : (Ext.real m e).lt (.real 1 7) = true ↔ floatValue a < 128 := by
      rw [Ext.lt_real, ← hv]
      norm_num
    have hsmall : (Ext.real m e).lt (.real (-126) 0) = true ↔ floatValue a < -126 := by
      rw [Ext.lt_real, ← hv]
      norm_num
    rw [ex2, hx]
    dsimp only
    refine ⟨fun hge => ?_, fun hlt => ?_, fun hge hlt => ?_⟩
    · rw [if_pos (by simpa using mt hlarge.1 (not_lt.2 hge))]
    · rw [if_neg (by simpa using hlarge.2 (by linarith)), if_pos (hsmall.2 hlt)]
    · rw [if_neg (by simpa using hlarge.2 hlt), if_neg (mt hsmall.1 (not_lt.2 hge))]
      split
      · next n hn =>
        rw [hv, ← integer?_number hn] at hge hlt
        have hlow : -126 ≤ n := by exact_mod_cast hge
        have hhigh : n < 128 := by exact_mod_cast hlt
        exact transExact_power fa draw rfl hlow (by omega)
      · exact normalBits_normal _

/-- RCP of a real number: a zero of its sign beyond 2^126, else a finite normal number. -/
theorem rcp_real (hx : Ext.ofBits a = .real m e) :
    (|floatValue a| ≤ 2 ^ 126 → normalPattern (rcp fa draw a)) ∧
      (2 ^ 126 < |floatValue a| → rcp fa draw a = zeroBits (signBit a)) := by
  have hneg : decide (m < 0) = signBit a := Bool.eq_iff_iff.2 (by rw [decide_eq_true_iff, Ext.ofBits_neg hx])
  obtain ⟨h0, h255, -, -, -⟩ := Ext.ofBits_eq_real hx
  have hexp : expField a < 256 := Nat.mod_lt _ (by decide)
  rw [← not_le, abs_floatValue_le_iff hx, rcp, hx]
  dsimp only
  unfold exactLog
  by_cases hman : manField a = 0
  · rw [if_pos hman]
    dsimp only
    refine ⟨fun hle => ?_, fun hgt => ?_⟩
    · exact transExact_power fa draw (by split <;> rfl) (by omega) (by omega)
    · have hexp : -((expField a : Int) - 127) = -127 := by omega
      rw [hexp, transExact_tiny fa draw (by split <;> rfl), ← hneg]
      congr 1
      split <;> simp_all
  · rw [if_neg hman]
    dsimp only
    refine ⟨fun hle => ?_, fun hgt => ?_⟩
    · rw [if_neg (by omega)]
      exact normalBits_normal _
    · rw [if_pos (by omega), hneg]

/-- RSQ of a positive number is a finite normal number. -/
theorem rsq_real (hx : Ext.ofBits a = .real m e) (hm : ¬ m < 0) : normalPattern (rsq fa draw a) := by
  obtain ⟨h0, h255, -, -, -⟩ := Ext.ofBits_eq_real hx
  have hexp : expField a < 256 := Nat.mod_lt _ (by decide)
  rw [rsq, hx]
  dsimp only
  rw [if_neg hm]
  unfold exactLog
  split
  · next n hn =>
    split at hn
    · cases hn
      split
      · exact transExact_power fa draw rfl (by omega) (by omega)
      · exact normalBits_normal _
    · cases hn
  · exact normalBits_normal _

/-- No result of a finite operand, a negative one of LN2 and RSQ apart, is a NaN or a denormal. -/
theorem transOf_tidy {aop : AlphaOp} (haop : aop.transcendental = true) (h : expField a ≠ 255)
    (hpos : aop = .ln2 ∨ aop = .rsq → 0 ≤ floatValue a) : tidyPattern (transOf fa draw aop a) := by
  rcases Ext.ofBits_finite h with ⟨n, hx⟩ | ⟨m, e, hx⟩
  · have htable : ∃ v, transTable aop (Ext.ofBits a) = some v ∧ tidyPattern v := by
      rw [hx]
      cases aop with
      | ex2 => exact ⟨_, rfl, oneBits_normal.tidy⟩
      | ln2 => exact ⟨_, rfl, infBits_tidy _⟩
      | rcp => exact ⟨_, rfl, infBits_tidy _⟩
      | rsq => exact ⟨_, rfl, infBits_tidy _⟩
      | sin => exact ⟨_, rfl, zeroBits_tidy _⟩
      | cos => exact ⟨_, rfl, oneBits_normal.tidy⟩
      | mad | min | max | cnd | cmp | frc | dp => cases haop
    obtain ⟨v, hv, htidy⟩ := htable
    rwa [transOf_table fa draw hv]
  · have hm : aop = .ln2 ∨ aop = .rsq → ¬ m < 0 := fun hop => (floatValue_nonneg_iff hx).1 (hpos hop)
    cases aop with
    | ex2 =>
      obtain ⟨hlarge, hsmall, hmid⟩ := ex2_finite fa draw h
      rw [transOf]
      rcases lt_or_ge (floatValue a) (-126) with hlt | hge
      · rw [hsmall hlt]
        exact zeroBits_tidy _
      · rcases lt_or_ge (floatValue a) 128 with hlt' | hge'
        · exact (hmid hge hlt').tidy
        · rw [hlarge hge']
          exact infBits_tidy _
    | ln2 =>
      rw [transOf, ln2, hx]
      dsimp only
      rw [if_neg (hm (.inl rfl))]
      split
      · exact transExact_tidy ..
      · exact (normalBits_normal _).tidy
    | rcp =>
      obtain ⟨hin, hbeyond⟩ := rcp_real fa draw hx
      rw [transOf]
      rcases le_or_gt |floatValue a| (2 ^ 126) with hle | hgt
      · exact (hin hle).tidy
      · rw [hbeyond hgt]
        exact zeroBits_tidy _
    | rsq => exact (rsq_real fa draw hx (hm (.inr rfl))).tidy
    | sin =>
      rw [transOf, sinTurns, hx]
      dsimp only
      split
      · exact transExact_tidy ..
      · exact (normalBits_normal _).tidy
    | cos =>
      rw [transOf, cosTurns, hx]
      dsimp only
      split
      · exact transExact_tidy ..
      · exact (normalBits_normal _).tidy
    | mad | min | max | cnd | cmp | frc | dp => cases haop

end

theorem alphaRaw_transcendental {aop : AlphaOp} (h : aop.transcendental = true) (fa : FArith) (draw : Nat) (rop : RgbOp)
    (o : Opnds) : alphaRaw fa draw rop aop o = .bits (transOf fa (draw + 7) aop o.alphaA) := by
  cases aop with
  | ex2 | ln2 | rcp | rsq | sin | cos => rfl
  | mad | min | max | cnd | cmp | frc | dp => cases h

theorem transcendental_selects {aop : AlphaOp} (h : aop.transcendental = true) : aop.selects = false := by
  cases aop with
  | ex2 | ln2 | rcp | rsq | sin | cos => rfl
  | mad | min | max | cnd | cmp | frc | dp => cases h

/-- Settles O26: both units store the one result of `transOf`, whose patterns the laws above give. -/
theorem transcendentalResult : Obligations.TranscendentalResult := by
  intro i rop aop f s hi haop c n l hacts
  refine ⟨transOf Config.fArith (laneDraw s n + 7) aop (c.opnds n l).alphaA, fun v hv => transOf_table _ _ hv, fun hfin => ?_,
    fun hw => ?_, fun hrop ch hw => ?_⟩
  · generalize (c.opnds n l).alphaA = a at hfin
    generalize laneDraw s n + 7 = draw
    refine ⟨?_, ?_, ?_, ?_, ?_, transOf_tidy _ _ haop hfin⟩
    · rintro rfl
      exact (ex2_finite _ draw hfin).1
    · rintro rfl
      exact (ex2_finite _ draw hfin).2.1
    · rintro rfl
      exact (ex2_finite _ draw hfin).2.2
    · rintro (⟨rfl, hne, hle⟩ | ⟨rfl, hpos⟩)
      · rcases Ext.ofBits_finite hfin with ⟨b, hx⟩ | ⟨m, e, hx⟩
        · exact absurd (floatValue_of_zero hx) hne
        · exact (rcp_real _ draw hx).1 hle
      · rcases Ext.ofBits_finite hfin with ⟨b, hx⟩ | ⟨m, e, hx⟩
        · exact absurd (floatValue_of_zero hx) hpos.ne'
        · exact rsq_real _ draw hx ((floatValue_nonneg_iff hx).1 hpos.le)
    · rintro rfl hgt
      rcases Ext.ofBits_finite hfin with ⟨b, hx⟩ | ⟨m, e, hx⟩
      · rw [floatValue_of_zero hx] at hgt
        norm_num at hgt
      · exact (rcp_real _ draw hx).2 hgt
  · have h := c.alpha_stores_bits hi hacts hw (alphaRaw_transcendental haop _ _ _ _)
    simp only [modified_finish (c.alphaOmod_ne (transcendental_selects haop))] at h
    exact h
  · subst hrop
    have h := c.rgb_stores_bits hi hacts hw (w := transOf Config.fArith (laneDraw s n + 7) aop (c.opnds n l).alphaA) rfl
    simp only [modified_finish (c.rgbOmod_ne rfl)] at h
    exact h

end Sys2Proof.Machine
end

section
/-! SUPPORT. The sum of a dot product's terms (R447, R449) and the operations that store it (R290 to R292, R302). -/

namespace Sys2Proof.Machine

/-! ## Sums of extended values (R447) -/

/-- Neither a NaN nor an infinity. -/
def Ext.isFinite (a : Ext) : Prop := a ≠ .nan ∧ ∀ x, a ≠ .inf x

theorem Ext.isFinite_zero (n : Bool) : (Ext.zero n).isFinite := ⟨by simp, by simp⟩

theorem Ext.isFinite_real (m e : Int) : (Ext.real m e).isFinite := ⟨by simp, by simp⟩

theorem Ext.isFinite.cases {a : Ext} (h : a.isFinite) : (∃ n, a = .zero n) ∨ ∃ m e, a = .real m e := by
  obtain ⟨hnan, hinf⟩ := h
  cases a with
  | nan => exact absurd rfl hnan
  | inf n => exact absurd rfl (hinf n)
  | zero n => exact .inl ⟨n, rfl⟩
  | real m e => exact .inr ⟨m, e, rfl⟩

/-- A value as R445 has them whose number is zero is a zero. -/
theorem Ext.isFinite.zero_of_number {a : Ext} (h : a.isFinite) (hok : a.ok) (hnum : a.number = 0) : ∃ n, a = .zero n := by
  rcases h.cases with hz | ⟨m, e, rfl⟩
  · exact hz
  · have hm : (m : ℚ) * 2 ^ e = 0 := hnum
    rw [mul_eq_zero, or_iff_left (by positivity), Int.cast_eq_zero] at hm
    exact absurd hm hok

theorem Ext.ofReal_finite (m e : Int) : (Ext.ofReal m e).isFinite ∧ (Ext.ofReal m e).ok ∧ Ext.ofReal m e ≠ .zero true := by
  unfold Ext.ofReal
  split
  · exact ⟨Ext.isFinite_zero _, trivial, by simp⟩
  · next h => exact ⟨Ext.isFinite_real .., h, by simp⟩

/-- The sum of two finite values: finite, of their numbers' sum, -0 only from two -0. -/
theorem addExt_finite {a b : Ext} (ha : a.isFinite) (hb : b.isFinite) (hoka : a.ok) (hokb : b.ok) :
    (addExt a b).isFinite ∧ (addExt a b).ok ∧ (addExt a b).number = a.number + b.number ∧
      (addExt a b = .zero true ↔ a = .zero true ∧ b = .zero true) := by
  rcases ha.cases with ⟨n, rfl⟩ | ⟨m, e, rfl⟩ <;> rcases hb.cases with ⟨n', rfl⟩ | ⟨m', e', rfl⟩
  · exact ⟨Ext.isFinite_zero _, trivial, by simp [addExt], by simp [addExt]⟩
  · exact ⟨Ext.isFinite_real .., hokb, by simp [addExt], by simp [addExt]⟩
  · exact ⟨Ext.isFinite_real .., hoka, by simp [addExt], by simp [addExt]⟩
  · obtain ⟨hfin, hok, hne⟩ := Ext.ofReal_finite (scaleTo m e (min e e') + scaleTo m' e' (min e e')) (min e e')
    refine ⟨hfin, hok, ?_, iff_of_false hne (by simp)⟩
    rw [addExt, Ext.number_ofReal, Ext.number_real, Ext.number_real, ← scaleTo_number m (min_le_left e e'),
      ← scaleTo_number m' (min_le_right e e')]
    push_cast
    ring

/-- A sum in which an infinity of the other sign does not stand. -/
theorem addExt_inf {a b : Ext} {x : Bool} (ha : a ≠ .nan ∧ a ≠ .inf (!x)) (hb : b ≠ .nan ∧ b ≠ .inf (!x)) :
    (addExt a b ≠ .nan ∧ addExt a b ≠ .inf (!x)) ∧ (a = .inf x ∨ b = .inf x → addExt a b = .inf x) := by
  have hsame : ∀ n, n ≠ (!x) → n = x := by cases x <;> decide
  have hinf : ∀ {c : Ext} {n}, c ≠ .nan ∧ c ≠ .inf (!x) → c = .inf n → n = x := fun hc h => hsame _ fun hn => hc.2 (h ▸ hn ▸ rfl)
  have hfinite : ∀ {c : Ext}, c.isFinite → c ≠ .nan ∧ c ≠ .inf (!x) := fun hc => ⟨hc.1, hc.2 _⟩
  cases a with
  | nan => exact absurd rfl ha.1
  | inf n =>
    obtain rfl := hinf ha rfl
    cases b with
    | nan => exact absurd rfl hb.1
    | inf n' =>
      obtain rfl := hinf hb rfl
      simp [addExt]
    | zero n' => simp [addExt]
    | real m' e' => simp [addExt]
  | zero n =>
    cases b with
    | nan => exact absurd rfl hb.1
    | inf n' =>
      obtain rfl := hinf hb rfl
      simp [addExt]
    | zero n' => simp [addExt]
    | real m' e' => simp [addExt]
  | real m e =>
    cases b with
    | nan => exact absurd rfl hb.1
    | inf n' =>
      obtain rfl := hinf hb rfl
      simp [addExt]
    | zero n' => simp [addExt]
    | real m' e' =>
      obtain ⟨hfin, -, -⟩ := Ext.ofReal_finite (scaleTo m e (min e e') + scaleTo m' e' (min e e')) (min e e')
      exact ⟨hfinite hfin, by simp⟩

/-! ## The sum of a list of terms -/

/-- What makes a sum a NaN: a NaN, or infinities of both signs. -/
def sumsToNan (ts : List Ext) : Prop := .nan ∈ ts ∨ (.inf true ∈ ts ∧ .inf false ∈ ts)

/-- Adding the first two terms keeps it. -/
theorem sumsToNan_addExt {a b : Ext} {ts : List Ext} (h : sumsToNan (a :: b :: ts)) : sumsToNan (addExt a b :: ts) := by
  simp only [sumsToNan, List.mem_cons] at h ⊢
  cases a with
  | nan => simp [addExt]
  | inf n => cases b with
    | nan => simp [addExt]
    | inf n' => cases n <;> cases n' <;> simp_all [addExt]
    | zero n' => simp_all [addExt]
    | real m' e' => simp_all [addExt]
  | zero n => cases b with
    | nan => simp [addExt]
    | inf n' => simp_all [addExt]
    | zero n' => simp_all [addExt]
    | real m' e' => simp_all [addExt]
  | real m e => cases b with
    | nan => simp [addExt]
    | inf n' => simp_all [addExt]
    | zero n' => simp_all [addExt]
    | real m' e' =>
      have hts : sumsToNan ts := by simpa [sumsToNan] using h
      exact hts.imp .inr fun ⟨ht, hf⟩ => ⟨.inr ht, .inr hf⟩

theorem foldl_addExt_nan {ts : List Ext} {acc : Ext} (h : sumsToNan (acc :: ts)) : ts.foldl addExt acc = .nan := by
  induction ts generalizing acc with
  | nil =>
    rcases h with h | ⟨ht, hf⟩
    · exact (List.mem_singleton.1 h).symm
    · rw [← List.mem_singleton.1 ht] at hf
      simp at hf
  | cons t ts ih => exact ih (sumsToNan_addExt h)

/-- One infinity among finite terms gives itself. -/
theorem foldl_addExt_inf {x : Bool} {ts : List Ext} {acc : Ext} (hacc : acc ≠ .nan ∧ acc ≠ .inf (!x))
    (hts : ∀ t ∈ ts, t ≠ .nan ∧ t ≠ .inf (!x)) (h : acc = .inf x ∨ .inf x ∈ ts) : ts.foldl addExt acc = .inf x := by
  induction ts generalizing acc with
  | nil => simpa using h
  | cons t ts ih =>
    obtain ⟨hsum, hinf⟩ := addExt_inf hacc (hts t List.mem_cons_self)
    refine ih hsum (fun u hu => hts u (List.mem_cons_of_mem _ hu)) ?_
    rw [List.mem_cons] at h
    rcases h with h | h | h
    · exact .inl (hinf (.inl h))
    · exact .inl (hinf (.inr h.symm))
    · exact .inr h

/-- Finite terms give the exact sum, -0 where every term is -0. -/
theorem foldl_addExt_finite {ts : List Ext} {acc : Ext} (hacc : acc.isFinite) (hok : acc.ok)
    (hts : ∀ t ∈ ts, t.isFinite ∧ t.ok) :
    (ts.foldl addExt acc).isFinite ∧ (ts.foldl addExt acc).ok ∧
      (ts.foldl addExt acc).number = acc.number + (ts.map Ext.number).sum ∧
      (ts.foldl addExt acc = .zero true ↔ acc = .zero true ∧ ∀ t ∈ ts, t = .zero true) := by
  induction ts generalizing acc with
  | nil => exact ⟨hacc, hok, by simp, by simp⟩
  | cons t ts ih =>
    obtain ⟨hfin, hokt⟩ := hts t List.mem_cons_self
    obtain ⟨hfin', hok', hnum, hzero⟩ := addExt_finite hacc hfin hok hokt
    obtain ⟨hf, ho, hn, hz⟩ := ih hfin' hok' fun u hu => hts u (List.mem_cons_of_mem _ hu)
    refine ⟨hf, ho, ?_, ?_⟩
    · rw [List.foldl_cons, hn, hnum, List.map_cons, List.sum_cons, add_assoc]
    · rw [List.foldl_cons, hz, hzero, List.forall_mem_cons, and_assoc]

/-! ## Terms that cancel (R449) -/

/-- `cancelsLarge` by the terms themselves. -/
theorem cancelsLarge_iff (ts : List Ext) :
    cancelsLarge ts = true ↔ ∃ (i j : Nat) (a b : Ext), i < j ∧ ts[i]? = some a ∧ ts[j]? = some b ∧ a.cancels b = true ∧
      ∀ (k : Nat) (c : Ext), k ≠ i → k ≠ j → ts[k]? = some c → c.muchSmaller a = true := by
  have hget : ∀ {k : Nat} {c : Ext}, ts[k]? = some c → k < ts.length ∧ ts.getD k .nan = c := fun h => by
    obtain ⟨hlt, -⟩ := List.getElem?_eq_some_iff.1 h
    exact ⟨hlt, by rw [List.getD_eq_getElem?_getD, h, Option.getD_some]⟩
  have hsome : ∀ {k : Nat}, k < ts.length → ts[k]? = some (ts.getD k .nan) := fun h => by
    rw [List.getD_eq_getElem?_getD, List.getElem?_eq_getElem h, Option.getD_some]
  simp only [cancelsLarge, List.any_eq_true, List.all_eq_true, List.mem_range, Bool.and_eq_true, Bool.or_eq_true,
    decide_eq_true_eq, beq_iff_eq]
  constructor
  · rintro ⟨i, hi, j, hj, ⟨hlt, hcancel⟩, hsmall⟩
    refine ⟨i, j, _, _, hlt, hsome hi, hsome hj, hcancel, fun k c hki hkj hk => ?_⟩
    obtain ⟨hklt, rfl⟩ := hget hk
    rcases hsmall k hklt with (h | h) | h
    · exact absurd h hki
    · exact absurd h hkj
    · exact h
  · rintro ⟨i, j, a, b, hlt, hi, hj, hcancel, hsmall⟩
    obtain ⟨hilt, rfl⟩ := hget hi
    obtain ⟨hjlt, rfl⟩ := hget hj
    refine ⟨i, hilt, j, hjlt, ⟨hlt, hcancel⟩, fun k hk => ?_⟩
    by_cases hki : k = i
    · exact .inl (.inl hki)
    · by_cases hkj : k = j
      · exact .inl (.inr hkj)
      · exact .inr (hsmall k _ hki hkj (hsome hk))

theorem Ext.finite_of_cancels {a b : Ext} (h : a.cancels b = true) : a.isFinite ∧ b.isFinite := by
  cases a with
  | real m e => cases b with
    | real m' e' => exact ⟨Ext.isFinite_real .., Ext.isFinite_real ..⟩
    | nan | inf n | zero n => cases h
  | nan | inf n | zero n => cases h

theorem Ext.finite_of_muchSmaller {a b : Ext} (h : a.muchSmaller b = true) : a.isFinite := by
  cases a with
  | nan | inf n => cases h
  | zero n => exact Ext.isFinite_zero n
  | real m e => exact Ext.isFinite_real m e

/-- Where terms cancel, every term is finite. -/
theorem finite_of_cancelsLarge {ts : List Ext} (h : cancelsLarge ts = true) {t : Ext} (ht : t ∈ ts) : t.isFinite := by
  obtain ⟨i, j, a, b, -, hi, hj, hcancel, hsmall⟩ := (cancelsLarge_iff ts).1 h
  obtain ⟨hfa, hfb⟩ := Ext.finite_of_cancels hcancel
  obtain ⟨k, hk⟩ := List.mem_iff_getElem?.1 ht
  by_cases hki : k = i
  · rw [hki, hi] at hk
    cases hk
    exact hfa
  · by_cases hkj : k = j
    · rw [hkj, hj] at hk
      cases hk
      exact hfb
    · exact Ext.finite_of_muchSmaller (hsmall k t hki hkj hk)

/-- A finite value as a multiple of a power of two. -/
theorem Ext.isFinite.finite?_number {a : Ext} (h : a.isFinite) : ∃ m e : Int, a.finite? = some (m, e) ∧ a.number = m * 2 ^ e := by
  rcases h.cases with ⟨n, rfl⟩ | ⟨m, e, rfl⟩
  · exact ⟨0, 0, rfl, by simp⟩
  · exact ⟨m, e, rfl, rfl⟩

theorem Ext.muchSmaller_iff {a b : Ext} (ha : a.isFinite) (hb : b.isFinite) :
    a.muchSmaller b = true ↔ |a.number| * 2 ^ 25 ≤ |b.number| := by
  obtain ⟨m, e, hfa, hna⟩ := ha.finite?_number
  obtain ⟨m', e', hfb, hnb⟩ := hb.finite?_number
  have habs : ∀ x lo : Int, |(x : ℚ) * 2 ^ lo| = (x.natAbs : ℚ) * 2 ^ lo := fun x lo => by
    rw [abs_mul, abs_of_pos (show (0 : ℚ) < 2 ^ lo by positivity), Nat.cast_natAbs, Int.cast_abs]
  rw [Ext.muchSmaller, hfa, hfb, hna, hnb, ← scaleTo_number m (min_le_left e e'), ← scaleTo_number m' (min_le_right e e'),
    habs, habs, mul_right_comm, mul_le_mul_iff_left₀ (by positivity), decide_eq_true_iff]
  exact_mod_cast Iff.rfl

theorem Ext.cancels_iff {a b : Ext} (ha : a.isFinite) (hb : b.isFinite) (hoka : a.ok) (hokb : b.ok) :
    a.cancels b = true ↔ a.number ≠ 0 ∧ a.number + b.number = 0 := by
  obtain ⟨hfin, hok, hnum, hzero⟩ := addExt_finite ha hb hoka hokb
  rcases ha.cases with ⟨n, rfl⟩ | ⟨m, e, rfl⟩
  · exact iff_of_false (by simp [Ext.cancels]) (by simp)
  · have hne : (Ext.real m e).number ≠ 0 := fun h => by
      obtain ⟨n, hn⟩ := ha.zero_of_number hoka h
      cases hn
    rcases hb.cases with ⟨n', rfl⟩ | ⟨m', e', rfl⟩
    · exact iff_of_false (by simp [Ext.cancels]) (by simp)
    · rw [Ext.cancels, beq_iff_eq, ← hnum, and_iff_right hne]
      constructor
      · intro h
        rw [h, Ext.number_zero]
      · intro h
        obtain ⟨n, hn⟩ := hfin.zero_of_number hok h
        rw [hn] at hzero ⊢
        cases n with
        | false => rfl
        | true => exact absurd (hzero.1 rfl).1 (by simp)

/-! ## The scalar -/

section
variable {terms : List Ext}

theorem dotSum_cancels (h : cancelsLarge terms = true) : dotSum terms = .zero false := if_pos h

theorem dotSum_folds (h : cancelsLarge terms ≠ true) : dotSum terms = terms.foldl addExt (.zero true) := if_neg h

theorem dotSum_nan (h : sumsToNan terms) : dotSum terms = .nan := by
  rw [dotSum_folds]
  · exact foldl_addExt_nan (h.imp (List.mem_cons_of_mem _) fun ⟨ht, hf⟩ => ⟨List.mem_cons_of_mem _ ht, List.mem_cons_of_mem _ hf⟩)
  · intro hcancel
    rcases h with h | ⟨h, -⟩
    · exact (finite_of_cancelsLarge hcancel h).1 rfl
    · exact (finite_of_cancelsLarge hcancel h).2 _ rfl

theorem dotSum_inf {x : Bool} (hnan : .nan ∉ terms) (hinf : .inf x ∈ terms) (hother : .inf (!x) ∉ terms) :
    dotSum terms = .inf x := by
  rw [dotSum_folds fun hcancel => (finite_of_cancelsLarge hcancel hinf).2 _ rfl]
  exact foldl_addExt_inf ⟨by simp, by simp⟩ (fun t ht => ⟨fun h => hnan (h ▸ ht), fun h => hother (h ▸ ht)⟩) (.inr hinf)

/-- Of finite terms without a large pair that cancels: the exact sum, its zero by the terms' signs. -/
theorem dotSum_finite (hts : ∀ t ∈ terms, t.isFinite ∧ t.ok) (hno : cancelsLarge terms ≠ true) :
    (dotSum terms).isFinite ∧ (dotSum terms).ok ∧ (dotSum terms).number = (terms.map Ext.number).sum ∧
      (dotSum terms = .zero true ↔ ∀ t ∈ terms, t = .zero true) := by
  obtain ⟨hfin, hok, hnum, hzero⟩ := foldl_addExt_finite (Ext.isFinite_zero true) trivial hts
  rw [dotSum_folds hno]
  exact ⟨hfin, hok, by simpa using hnum, by simpa using hzero⟩

end

/-- Settles O25: the scalar by `dotSum`'s laws, and its two destinations by what the units store. -/
theorem dotProductResult : Obligations.DotProductResult := by
  refine ⟨fun terms hok => ⟨dotSum_nan, fun x => dotSum_inf, fun hnan hinf => ?_⟩, ?_⟩
  · have hfin : ∀ t ∈ terms, t.isFinite ∧ t.ok := fun t ht =>
      ⟨⟨fun h => hnan (h ▸ ht), fun x h => hinf x (h ▸ ht)⟩, hok t ht⟩
    have hmem : ∀ {k : Nat} {c : Ext}, terms[k]? = some c → c.isFinite ∧ c.ok := fun hk => hfin _ (List.mem_of_getElem? hk)
    intro cancels
    have hcancels : cancelsLarge terms = true ↔ cancels := by
      rw [cancelsLarge_iff]
      refine exists_congr fun i => exists_congr fun j => exists_congr fun a => exists_congr fun b =>
        and_congr_right fun _ => and_congr_right fun hi => and_congr_right fun hj => ?_
      obtain ⟨hfa, hoka⟩ := hmem hi
      obtain ⟨hfb, hokb⟩ := hmem hj
      rw [Ext.cancels_iff hfa hfb hoka hokb, and_assoc]
      refine and_congr_right fun _ => and_congr_right fun _ => forall_congr' fun k => forall_congr' fun c =>
        forall_congr' fun _ => forall_congr' fun _ => forall_congr' fun hk => ?_
      exact Ext.muchSmaller_iff (hmem hk).1 hfa
    refine ⟨fun h => dotSum_cancels (hcancels.2 h), fun h => ?_⟩
    obtain ⟨hsum, hokSum, hnum, hzero⟩ := dotSum_finite hfin (mt hcancels.1 h)
    obtain ⟨hnotNan, hnotInf⟩ := hsum
    refine ⟨hnum, hokSum, hnotNan, hnotInf, hzero.2, fun ⟨t, ht, hne⟩ hsum0 => ?_⟩
    obtain ⟨n, hn⟩ := Ext.isFinite.zero_of_number ⟨hnotNan, hnotInf⟩ hokSum (hnum.trans hsum0)
    cases n with
    | false => exact hn
    | true => exact absurd (hzero.1 hn t ht) hne
  · intro i rop aop f s hi c n l hacts terms hterms
    have hscalar : rop.selects = false ∧ dotOf rop (c.opnds n l) = dotSum terms ∧
        ∀ ch, rgbRaw Config.fArith (laneDraw s n) rop aop (c.opnds n l) ch = .ext (dotSum terms) := by
      rcases hterms with ⟨rfl, rfl⟩ | ⟨rfl, rfl⟩ | ⟨rfl, rfl⟩ <;> exact ⟨rfl, rfl, fun _ => rfl⟩
    obtain ⟨hsel, hdot, hrgb⟩ := hscalar
    refine ⟨fun ch hw => c.rgb_stores_ext hi hacts hw hsel (hrgb ch), ?_⟩
    rintro rfl hw
    exact c.alpha_stores_ext hi hacts hw rfl (congrArg Raw.ext hdot)

end Sys2Proof.Machine
end

section
/-! SUPPORT. What stops an ALU, OUTPUT, texture or flow-control instruction (R59, R271, R272, R293, R302, R313, R323, R334, R335,
R350, R366, R382, R590, R594): the fields, the wait, the sources, the presubtract, the destinations and the end address, in the order
in which the instruction comes to them. -/

namespace Sys2Proof.Machine

/-! ## Register numbers (R272, R409) -/

section
variable {g : Group} {n : Nat} {rel : Bool} {x : Int}

/-- A number, aL added, that no temporary has. -/
def badTempNumber (g : Group) (x : Int) : Prop := x < 0 ∨ 127 < x ∨ (g.env.prog.usPixsize.toNat : Int) < x

theorem Group.tempIndex_ok (hr : g.relative n rel = .ok x) (h : 0 ≤ x ∧ x ≤ 127 ∧ x ≤ g.env.prog.usPixsize.toNat) :
    g.tempIndex n rel = .ok x.toNat := by
  simp only [Group.tempIndex, hr, h, decide_true, Bool.and_self, if_true]

theorem Group.tempIndex_bad (hr : g.relative n rel = .ok x) (h : badTempNumber g x) :
    g.tempIndex n rel = .error (.fault .registerRange) := by
  have hno : (0 ≤ x && x ≤ 127 && x ≤ (g.env.prog.usPixsize.toNat : Int)) = false := by
    simp only [Bool.and_eq_false_iff, decide_eq_false_iff_not]
    unfold badTempNumber at h
    omega
  simp only [Group.tempIndex, hr, hno, Bool.false_eq_true, if_false]

theorem Group.constIndex_ok (hr : g.relative n rel = .ok x) (h : 0 ≤ x ∧ x ≤ 255) : g.constIndex n rel = .ok x.toNat := by
  simp only [Group.constIndex, hr, h, decide_true, Bool.and_self, if_true]

theorem Group.constIndex_bad (hr : g.relative n rel = .ok x) (h : x < 0 ∨ 255 < x) :
    g.constIndex n rel = .error (.fault .registerRange) := by
  have hno : (decide (0 ≤ x) && decide (x ≤ 255)) = false := by
    simp only [Bool.and_eq_false_iff, decide_eq_false_iff_not]
    omega
  simp only [Group.constIndex, hr, hno, Bool.false_eq_true, if_false]

theorem Group.relative_noLoop (hrel : rel = true) (h : g.aL = none) : g.relative n rel = .error (.fault .alInvalid) := by
  simp only [Group.relative, hrel, h, if_true]

theorem Group.tempIndex_noLoop (hrel : rel = true) (h : g.aL = none) : g.tempIndex n rel = .error (.fault .alInvalid) := by
  simp only [Group.tempIndex, Group.relative_noLoop hrel h]

theorem Group.constIndex_noLoop (hrel : rel = true) (h : g.aL = none) : g.constIndex n rel = .error (.fault .alInvalid) := by
  simp only [Group.constIndex, Group.relative_noLoop hrel h]

end

section
variable {g : Group} {a : SrcAddr} {e : Stop}

/-- aL may not be added to an inline constant (R150). -/
theorem resolvePlace_relInline (hc : a.const = false) (hb : a.addr.getLsbD 7 = true) (hrel : a.rel = true) :
    resolvePlace g a = .error (.fault .invalidEncoding) := by
  simp only [resolvePlace, hc, hb, hrel, Bool.not_false, Bool.and_self, if_true]

theorem resolvePlace_const_stops (hc : a.const = true) (h : g.constIndex a.addr.toNat a.rel = .error e) :
    resolvePlace g a = .error e := by
  simp only [resolvePlace, hc, Bool.not_true, Bool.false_and, Bool.false_eq_true, if_false, if_true, h]
  rfl

theorem resolvePlace_temp_stops (hc : a.const = false) (hb : a.addr.getLsbD 7 = false)
    (h : g.tempIndex a.addr.toNat a.rel = .error e) : resolvePlace g a = .error e := by
  have hmsb : a.addr.msb = false := hb
  have hlt := BitVec.msb_eq_false_iff_two_mul_lt.1 hmsb
  have hmod : a.addr.toNat % 2 ^ 7 = a.addr.toNat := Nat.mod_eq_of_lt (by omega)
  simp only [resolvePlace, hc, hb, hmod, Bool.and_false, Bool.false_eq_true, if_false, h]
  rfl

end

/-! ## The fields and the wait (R156, R293, R302, R313, R323, R335, R594) -/

section
variable {g : Group} {rop : RgbOp} {aop : AlphaOp} {f : AluInst}

/-- The invalid combinations, one by one. -/
theorem aluCombination_invalid_iff :
    aluCombinationOk rop aop f = false ↔
      (rop = .sop ∧ aop.transcendental = false) ∨ (aop = .dp ∧ rop.dot = false) ∨
      (f.rgbOmod = .disabled ∧ (rop.selects = false ∨ f.rgbClamp = true)) ∨
      (f.alphaOmod = .disabled ∧ (aop.selects = false ∨ f.alphaClamp = true)) := by
  rw [← Bool.not_eq_true, aluCombinationOk_iff]
  simp only [not_and_or, Classical.not_imp, Bool.not_eq_true, Bool.not_eq_false]

theorem aluStatic_combination (h : aluCombinationOk rop aop f = false) :
    aluStatic g rop aop f = .error (.fault .invalidEncoding) := by
  simp only [aluStatic, h, require, Bool.false_eq_true, if_false, error_bind]

theorem aluStatic_targets (hc : aluCombinationOk rop aop f = true)
    (h : f.rgbTarget.encodable = false ∨ f.alphaTarget.encodable = false) :
    aluStatic g rop aop f = .error (if f.isOutput = true then .refuse .umrtUnsupported else .fault .invalidEncoding) := by
  have hno : (f.rgbTarget.encodable && f.alphaTarget.encodable) = false := by rcases h with h | h <;> simp [h]
  cases ho : f.isOutput <;>
    simp only [aluStatic, hc, ho, hno, require, accept, Bool.false_eq_true, if_false, if_true, ok_bind, error_bind]

theorem aluStatic_last (hc : aluCombinationOk rop aop f = true) (hr : f.rgbTarget.encodable = true)
    (ha : f.alphaTarget.encodable = true) (hl : f.last = true) (he : g.atEnd = false) :
    aluStatic g rop aop f = .error (.refuse .lastUnsupported) := by
  cases ho : f.isOutput <;>
    simp only [aluStatic, hc, ho, hr, ha, hl, he, require, accept, Bool.and_self, Bool.not_true, Bool.or_self, Bool.false_eq_true,
      if_false, if_true, ok_bind]

variable {i : Instr} {s : State} {k : Nat} {e : Stop} (hi : i.alu? = some (rop, aop, f))
include hi

/-- Fields that stop an instruction stop it first (log 45). -/
theorem exec_alu_static (ht : s.turn = .group k) (hg : s.groups[k]? = some g) (hh : g.halted = false)
    (h : aluStatic g rop aop f = .error e) : exec i s = conclude s.turnStuck (.error e) := by
  have hcur : s.current = .ok (k, g) := State.current_eq_ok.2 ⟨ht, hg, hh⟩
  rw [exec_alu hi, runAlu, hcur, ok_bind]
  simp only [h, error_bind]

/-- Its wait stops an instruction whose fields do not (R594). -/
theorem AluChecked.stops_at_wait (c : AluChecked s rop aop f) (h : c.g.semWait f.semWait = .error e) :
    exec i s = conclude s.turnStuck (.error e) := by
  have hcur : s.current = .ok (c.k, c.g) := State.current_eq_ok.2 ⟨c.turn, c.group, c.running⟩
  obtain ⟨hrgb, halpha⟩ := c.targets
  have hlast : (!f.last || c.g.atEnd) = true := by
    cases hl : f.last with
    | false => rfl
    | true => exact c.last hl
  have hstat : aluStatic c.g rop aop f = .ok () := by
    cases ho : f.isOutput <;>
      simp only [aluStatic, c.combination, ho, hrgb, halpha, hlast, require, accept, Bool.and_self, Bool.false_eq_true, if_false,
        if_true, ok_bind]
  rw [exec_alu hi, runAlu, hcur, ok_bind]
  simp only [hstat, ok_bind, h, error_bind]

/-! ## The sources (R272) -/

/-- An address that does not resolve stops the instruction that comes to its source. -/
theorem AluFields.stops_at_address (c : AluFields s rop aop f) {q : Port} (hq : c.reaches q)
    (h : resolvePlace c.g ((aluAddrs f).get q) = .error e) : exec i s = conclude s.turnStuck (.error e) := by
  have hplace : resolvePlace c.ready ((aluAddrs f).get q) = .error e := h
  rw [exec_alu hi, c.stops hq fun mem => by rw [fetchPort, hplace, error_bind]]

/-- A temporary of which an enabled processor reads a channel that a lookup has yet to write stops it (R366). -/
theorem AluFields.stops_at_lookup (c : AluFields s rop aop f) {q : Port} {m : Nat} (hq : c.reaches q)
    (hp : resolvePlace c.g ((aluAddrs f).get q) = .ok (.temp m))
    (h : readHazard (waited c.g f.semWait) f.writeInactive m (portChannels (usedChannels rop aop f) q) = true) :
    exec i s = .fault .texHazard := by
  have hplace : resolvePlace c.ready ((aluAddrs f).get q) = .ok (.temp m) := hp
  have hlanes : c.ready.lanes = waited c.g f.semWait := rfl
  rw [exec_alu hi, c.stops hq fun mem => by rw [fetchPort, hplace, ok_bind, fetchPlace, hlanes, if_pos h], conclude_fault]

end

/-! ## After the sources (R271 steps 3 to 8) -/

section
variable {fa : FArith} {rop : RgbOp} {aop : AlphaOp} {f : AluInst} {s : State} {k : Nat} {g : Group} {r : Six Source × MemSys}
  {e : Stop} {dr da : Nat}

theorem aluRest_nop (h : nopHazard g rop aop f r.1 = true) : aluRest fa rop aop f s k g r = .error (.fault .nopHazard) := by
  simp only [aluRest, h, require, Bool.not_true, Bool.false_eq_true, if_false, error_bind]

section
variable (hn : nopHazard g rop aop f r.1 = false)
include hn

theorem aluRest_rgbDst (h : g.tempIndex f.rgbDst.toNat f.rgbDstRel = .error e) : aluRest fa rop aop f s k g r = .error e := by
  simp only [aluRest, hn, require, Bool.not_false, if_true, ok_bind, h, error_bind]

variable (hr : g.tempIndex f.rgbDst.toNat f.rgbDstRel = .ok dr)
include hr

theorem aluRest_alphaDst (h : g.tempIndex f.alphaDst.toNat f.alphaDstRel = .error e) :
    aluRest fa rop aop f s k g r = .error e := by
  simp only [aluRest, hn, require, Bool.not_false, if_true, ok_bind, hr, h, error_bind]

variable (ha : g.tempIndex f.alphaDst.toNat f.alphaDstRel = .ok da)
include ha

theorem aluRest_lookup (h : g.lanes.any (aluWriteHazard f dr da) = true) :
    aluRest fa rop aop f s k g r = .error (.fault .texHazard) := by
  simp only [aluRest, hn, require, Bool.not_false, Bool.not_true, Bool.false_eq_true, if_true, if_false, ok_bind, hr, ha, h,
    error_bind]

theorem aluRest_end (hl : g.lanes.any (aluWriteHazard f dr da) = false) (h : ∀ lanes, aluFinish g f dr da lanes = .error e) :
    aluRest fa rop aop f s k g r = .error e := by
  simp only [aluRest, hn, require, Bool.not_false, if_true, ok_bind, hr, ha, hl, h, error_bind]

end

/-- Only an OUTPUT that waits may stand at the end address (R334). -/
theorem aluFinish_bad (he : g.atEnd = true) (h : f.isOutput = false ∨ f.semWait = false) (lanes : List Lane) :
    aluFinish g f dr da lanes = .error (.fault .badLastInstruction) := by
  have hno : (f.isOutput && f.semWait) = false := by rcases h with h | h <;> simp [h]
  simp only [aluFinish, he, hno, Bool.false_eq_true, if_true, if_false]

variable {i : Instr} (hi : i.alu? = some (rop, aop, f))
include hi

/-- What stops the steps after the sources stops an instruction whose sources can be fetched. -/
theorem AluFetched.exec_stops (c : AluFetched s rop aop f) {x : Fault}
    (h : aluRest Config.fArith rop aop f s c.k c.ready (c.src, c.mem) = .error (.fault x)) : exec i s = .fault x := by
  have hfetched : fetchSix s.platform s.draws c.ready f.writeInactive (usedChannels rop aop f) (aluAddrs f) s.mem =
      .ok (c.src, c.mem) := c.fetched
  rw [exec_alu hi, c.run, hfetched, ok_bind, h, conclude_fault]

end

/-! ## What an instruction reads (R272, R275, R276) -/

/-- The swizzle that selects a channel (R279). -/
def chanSwz : Chan → Swz
  | .r => .r
  | .g => .g
  | .b => .b
  | .a => .a

section
variable {q : Port} {ch : Chan} {f : AluInst} {reads : List Read}

theorem mem_portChannels {used : List (Port × Chan)} (h : (q, ch) ∈ used) : ch ∈ portChannels used q :=
  List.mem_map.2 ⟨(q, ch), List.mem_filter.2 ⟨h, beq_self_eq_true q⟩, rfl⟩

/-- A component reads the channel that it swizzles, from the RGB address or, for alpha, from the alpha address. -/
theorem mem_directChannel {sel : SrcSel}
    (h : (sel = .src0 ∧ q = if ch = .a then .alpha0 else .rgb0) ∨ (sel = .src1 ∧ q = if ch = .a then .alpha1 else .rgb1) ∨
      (sel = .src2 ∧ q = if ch = .a then .alpha2 else .rgb2)) : (q, ch) ∈ directChannel (sel, chanSwz ch) := by
  have hself : ∀ p : Port × Chan, p ∈ [p] := fun p => List.mem_singleton.2 rfl
  rcases h with ⟨rfl, rfl⟩ | ⟨rfl, rfl⟩ | ⟨rfl, rfl⟩ <;> cases ch <;> exact hself _

theorem srcpUsesOne_iff {op : SrcpOp} : srcpUsesOne op = true ↔ op = .sub ∨ op = .add := by cases op <;> decide

/-- The RGB presubtract reads every RGB channel of its sources. -/
theorem mem_presubChannels_rgb {ch' : Chan} (hch : ch ≠ .a) (hch' : ch' ≠ .a) (hread : (.srcp, chanSwz ch') ∈ reads)
    (h : q = .rgb0 ∨ (q = .rgb1 ∧ (f.rgbAddr.srcp = .sub ∨ f.rgbAddr.srcp = .add))) : (q, ch) ∈ presubChannels f reads := by
  have hused : (reads.any fun x => x.1 == .srcp && (x.2 == .r || x.2 == .g || x.2 == .b)) = true := by
    refine List.any_eq_true.2 ⟨_, hread, ?_⟩
    cases ch' with
    | r | g | b => rfl
    | a => exact absurd rfl hch'
  rw [presubChannels, if_pos hused]
  refine List.mem_append_left _ ?_
  rcases h with rfl | ⟨rfl, hone⟩
  · refine List.mem_append_left _ ?_
    cases ch with
    | r | g | b => decide
    | a => exact absurd rfl hch
  · rw [if_pos (srcpUsesOne_iff.2 hone)]
    refine List.mem_append_right _ ?_
    cases ch with
    | r | g | b => decide
    | a => exact absurd rfl hch

/-- The alpha presubtract reads the alpha channel of its sources. -/
theorem mem_presubChannels_alpha (hread : (.srcp, .a) ∈ reads)
    (h : q = .alpha0 ∨ (q = .alpha1 ∧ (f.alphaAddr.srcp = .sub ∨ f.alphaAddr.srcp = .add))) :
    (q, .a) ∈ presubChannels f reads := by
  have hused : (reads.any fun x => x.1 == .srcp && x.2 == .a) = true := List.any_eq_true.2 ⟨_, hread, rfl⟩
  rw [presubChannels, if_pos hused]
  refine List.mem_append_right _ ?_
  rcases h with rfl | ⟨rfl, hone⟩
  · exact List.mem_append_left _ (List.mem_singleton.2 rfl)
  · rw [if_pos (srcpUsesOne_iff.2 hone)]
    exact List.mem_append_right _ (List.mem_singleton.2 rfl)

/-- A source that names a temporary is fetched as that temporary. -/
theorem AluFetched.src_temp {s : State} {rop : RgbOp} {aop : AlphaOp} (c : AluFetched s rop aop f) {m : Nat}
    (h : c.pl.get q = .temp m) : c.src.get q = .temp m := by
  have hport : ∃ mem mem', fetchPort s.platform s.draws { c.g with lanes := waited c.g f.semWait } f.writeInactive
      (usedChannels rop aop f) (aluAddrs f) q mem = .ok (c.src.get q, mem') := by
    obtain ⟨m0, m1, m2, m3, m4, h0, h1, h2, h3, h4, h5⟩ := fetchSix_eq_ok.1 c.fetched
    cases q with
    | rgb0 => exact ⟨_, _, h0⟩
    | rgb1 => exact ⟨_, _, h1⟩
    | rgb2 => exact ⟨_, _, h2⟩
    | alpha0 => exact ⟨_, _, h3⟩
    | alpha1 => exact ⟨_, _, h4⟩
    | alpha2 => exact ⟨_, _, h5⟩
  obtain ⟨mem, mem', hfetch⟩ := hport
  obtain ⟨pl, hpl, hsrc⟩ := fetchPort_eq_ok hfetch
  have hsame : resolvePlace { c.g with lanes := waited c.g f.semWait } ((aluAddrs f).get q) = .ok (.temp m) := h ▸ c.places q
  rw [hsame] at hpl
  cases hpl
  exact hsrc.1

/-- A presubtract source that the previous instruction names as a destination is a hazard (R590). -/
theorem AluFetched.nopHazard_of {s : State} {rop : RgbOp} {aop : AlphaOp} (c : AluFetched s rop aop f) {dsts : List Nat} {m : Nat}
    (hprev : c.g.prev = .alu false dsts) (hpl : c.pl.get q = .temp m) (hch : (q, ch) ∈ presubChannels f (aluReads rop aop f))
    (hdst : regKey m ch ∈ dsts) : nopHazard c.g rop aop f c.src = true := by
  have hkey : regKey m ch ∈ tempKeys c.src (presubChannels f (aluReads rop aop f)) :=
    List.mem_filterMap.2 ⟨(q, ch), hch, by simp only [c.src_temp hpl]⟩
  simp only [nopHazard, hprev]
  exact List.any_eq_true.2 ⟨_, hkey, List.contains_iff_mem.2 hdst⟩

end

/-- A channel that is written and waits for a lookup is a hazard (R366). -/
theorem aluWriteHazard_of {f : AluInst} {dr da : Nat} {l : Lane} {ch : Chan} (hon : l.on f.writeInactive = true)
    (hmask : aluWmaskBit f ch = true) (hen : aluEnable f l ch = true) (hp : regKey (aluDst dr da ch) ch ∈ l.texPending) :
    aluWriteHazard f dr da l = true := by
  rw [aluWriteHazard, hon, Bool.true_and]
  refine List.any_eq_true.2 ⟨ch, mem_allChans ch, ?_⟩
  rw [hmask, hen, List.contains_iff_mem.2 hp]
  rfl

/-- Settles O29: the fields by `aluStatic`, an inline constant with aL by its address. -/
theorem invalidAluFieldsFault : Obligations.InvalidAluFieldsFault := by
  unfold Obligations.InvalidAluFieldsFault
  refine ⟨fun i rop aop f s k g hi ht hg hh => ?_, fun i rop aop f s hi c q hq => ?_⟩
  · intro invalid
    have hinvalid : invalid ↔ aluCombinationOk rop aop f = false := aluCombination_invalid_iff.symm
    have hvalid : ¬ invalid → aluCombinationOk rop aop f = true := fun h => by simpa [hinvalid] using h
    refine ⟨fun h => ?_, fun h ho he => ?_, fun h ho he => ?_, fun h hr ha hl he => ?_⟩
    · rw [exec_alu_static hi ht hg hh (aluStatic_combination (hinvalid.1 h)), conclude_fault]
    · rw [exec_alu_static hi ht hg hh (aluStatic_targets (hvalid h) he), ho, if_pos rfl, conclude_refuse]
    · rw [exec_alu_static hi ht hg hh (aluStatic_targets (hvalid h) he), ho, if_neg Bool.false_ne_true, conclude_fault]
    · rw [exec_alu_static hi ht hg hh (aluStatic_last (hvalid h) hr ha hl he), conclude_refuse]
  · intro a hb hc hrel
    rw [c.stops_at_address hi hq (resolvePlace_relInline hc hb hrel), conclude_fault]

/-- Settles O30: each hazard by the step that finds it, the components being those of `aluReads`. -/
theorem aluHazardFaults : Obligations.AluHazardFaults := by
  unfold Obligations.AluHazardFaults
  intro i rop aop f s hi acting vector scalar components swizzle reads
  have hacting : ∀ l, acting l → l.on f.writeInactive = true := fun l => Lane.on_iff.2
  have hswz : ∀ ch, swizzle ch = chanSwz ch := fun ch => by cases ch <;> rfl
  have hcomponents : components = aluReads rop aop f := by
    have happend : ∀ {a b c d : List Read}, a = b → c = d → a ++ c = b ++ d := fun h h' => by rw [h, h']
    refine happend ?_ ?_
    · cases rop <;> rfl
    · cases aop <;> rfl
  have hreads : ∀ q ch, reads q ch → (q, ch) ∈ usedChannels rop aop f := by
    rintro q ch (⟨sel, hsel, hq⟩ | ⟨hch, ⟨ch', hch', hsel⟩, hq⟩ | ⟨rfl, hsel, hq⟩)
    · rw [hcomponents, hswz] at hsel
      exact List.mem_append_left _ (List.mem_flatMap.2 ⟨_, hsel, mem_directChannel hq⟩)
    · rw [hcomponents, hswz] at hsel
      exact List.mem_append_right _ (mem_presubChannels_rgb hch hch' hsel hq)
    · rw [hcomponents] at hsel
      exact List.mem_append_right _ (mem_presubChannels_alpha hsel hq)
  refine ⟨fun c hw hprev hheld => ?_, fun c q m ch hq hp hread hl => ?_, fun c dsts m hprev => ⟨?_, ?_⟩, fun c l hl hact h => ?_⟩
  · have herratum : c.g.erratum = true := by
      simp only [Group.erratum, hprev]
      exact List.any_eq_true.2 hheld
    have hwait : c.g.semWait f.semWait = .error (.fault .semErratum) := by
      simp only [Group.semWait, hw, herratum, if_true]
    rw [c.stops_at_wait hi hwait, conclude_fault]
  · obtain ⟨l, hl, hact, hpending⟩ := hl
    refine c.stops_at_lookup hi hq hp (List.any_eq_true.2 ⟨l, hl, ?_⟩)
    rw [hacting l hact, Bool.true_and]
    exact List.any_eq_true.2 ⟨ch, mem_portChannels (hreads q ch hread), List.contains_iff_mem.2 hpending⟩
  · intro ch ch' hpl hch' hsel hch hdst
    rw [hcomponents, hswz] at hsel
    have hnop : nopHazard c.g rop aop f c.src = true := by
      rcases hpl with hpl | ⟨hpl, hone⟩
      · exact c.nopHazard_of (q := .rgb0) hprev hpl (mem_presubChannels_rgb hch hch' hsel (.inl rfl)) hdst
      · exact c.nopHazard_of (q := .rgb1) hprev hpl (mem_presubChannels_rgb hch hch' hsel (.inr ⟨rfl, hone⟩)) hdst
    exact c.exec_stops hi (aluRest_nop hnop)
  · intro hpl hsel hdst
    rw [hcomponents] at hsel
    have hnop : nopHazard c.g rop aop f c.src = true := by
      rcases hpl with hpl | ⟨hpl, hone⟩
      · exact c.nopHazard_of (q := .alpha0) hprev hpl (mem_presubChannels_alpha hsel (.inl rfl)) hdst
      · exact c.nopHazard_of (q := .alpha1) hprev hpl (mem_presubChannels_alpha hsel (.inr ⟨rfl, hone⟩)) hdst
    exact c.exec_stops hi (aluRest_nop hnop)
  · have hhazard : aluWriteHazard f c.dr c.da l = true := by
      rcases h with ⟨ch, hch, hmask, hen, hp⟩ | ⟨hmask, hen, hp⟩
      · refine aluWriteHazard_of (ch := ch) (hacting l hact) ?_ ?_ ?_
        · rwa [aluWmaskBit, wmaskBit_rgb hch]
        · rwa [aluEnable_rgb hch]
        · rwa [aluDst_eq, if_neg hch]
      · exact aluWriteHazard_of (ch := .a) (hacting l hact) hmask hen hp
    exact c.exec_stops hi (aluRest_lookup c.nop c.rgbDst c.alphaDst (List.any_eq_true.2 ⟨l, hl, hhazard⟩))

/-! ## The end address (R334, R350, R382) -/

section
variable {s : State} {f : FcInst} (c : FcPlaced s f) {op : FcOp}

theorem mem_waited {g : Group} {wait : Bool} {l : Lane} (h : l ∈ waited g wait) :
    ∃ l0 ∈ g.lanes, l.active = l0.active ∧ l.bcnt = l0.bcnt ∧ l.covered = l0.covered := by
  unfold waited at h
  split at h
  · obtain ⟨l0, hl0, rfl⟩ := List.mem_map.1 h
    exact ⟨l0, hl0, by simp, by simp, by simp⟩
  · exact ⟨l, h, rfl, rfl, rfl⟩

theorem Lane.endContinue_kept (depth : Nat) (l : Lane) :
    (l.endContinue depth).active = l.active ∧ (l.endContinue depth).bcnt = l.bcnt ∧
      (l.endContinue depth).covered = l.covered := by
  unfold Lane.endContinue
  split <;> exact ⟨rfl, rfl, rfl⟩

theorem mem_fcReenable {depth : Nat} {ls : List Lane} {l : Lane} (h : l ∈ fcReenable op depth ls) :
    ∃ l0 ∈ ls, l.active = l0.active ∧ l.bcnt = l0.bcnt ∧ l.covered = l0.covered := by
  cases op with
  | endloop | endrep =>
    obtain ⟨l0, hl0, rfl⟩ := List.mem_map.1 h
    exact ⟨l0, hl0, l0.endContinue_kept depth⟩
  | jump | loop | rep | breakloop | breakrep | cont => exact ⟨l, h, rfl, rfl, rfl⟩

theorem branchMax_pos (p : Program) : 0 < p.branchMax := by
  unfold Program.branchMax
  split <;> decide

include c

/-- With room in the branch counters an inactive processor that takes part in the vote stands below their limit (R400). -/
theorem FcPlaced.voters_room (h : c.countersRoom) {v : Voter} (hv : v ∈ c.voters op) (hact : v.lane.active = false)
    (hex : v.excluded f = false) : v.lane.bcnt + 1 ≤ c.g.env.prog.branchMax := by
  rcases fcVoters_counter hv hact with hzero | ⟨l, hl, hlact, hlcov, hlcnt⟩
  · rw [hzero]
    exact branchMax_pos _
  · obtain ⟨l1, hl1, hact1, hcnt1, hcov1⟩ := mem_fcReenable hl
    obtain ⟨l0, hl0, hact0, hcnt0, hcov0⟩ := mem_waited hl1
    have hcovered : f.ignoreUncovered = true → l0.covered = true := fun hu => by
      rw [← hcov0, ← hcov1, hlcov]
      simpa [Voter.excluded, hu] using hex
    have hlt := h l0 hl0 (by rw [← hact0, ← hact1, hlact]) hcovered
    rw [← hlcnt, hcnt1, hcnt0]
    exact hlt

/-- With room the branch operation answers (R399, R400). -/
theorem FcPlaced.branch_ok {jump : Bool} (hroom : c.room (jump = true)) {vs : List Voter}
    (hvs : vs = (c.voters op).map fun v => { v with lane := { v.lane with loopOff := c.offAfter op jump v } }) :
    ∃ vs', branchOp c.g f jump vs = .ok vs' := by
  have hcounters : (if jump = true then f.bOp1 else f.bOp0) = .incr → c.countersRoom := by
    obtain ⟨hyes, hno⟩ := hroom
    cases jump with
    | true => exact (hyes rfl).2
    | false => exact hno (by simp)
  unfold branchOp
  cases hop : (if jump = true then f.bOp1 else f.bOp0) with
  | none => exact ⟨_, rfl⟩
  | decr => exact ⟨_, rfl⟩
  | incr =>
    refine incrAll_ok fun v hv hact _ hex => ?_
    rw [hvs] at hv
    obtain ⟨v0, hv0, rfl⟩ := List.mem_map.1 hv
    exact c.voters_room (v := v0) (hcounters hop) hv0 hact hex

end

/-- Settles O31: each kind of instruction comes to its end-address check with its own steps done. -/
theorem badLastInstructionFaults : Obligations.BadLastInstructionFaults := by
  refine ⟨fun i rop aop f s hi c he h => ?_, fun i op f s hi c hw he => ?_, fun i op f s hi c jump hdec hroom he => ?_⟩
  · have hlookups : (waited c.g f.semWait).any (aluWriteHazard f c.dr c.da) = false :=
      List.any_eq_false.2 fun l hl => by simp [c.lookups l hl]
    exact c.exec_stops hi (aluRest_end c.nop c.rgbDst c.alphaDst hlookups (aluFinish_bad he h))
  · have hwf : f.wellFormed = true := by
      cases hacq : f.semAcquire with
      | false => simp [TexInst.wellFormed, hacq]
      | true => simp [TexInst.wellFormed, hw hacq]
    rw [exec_tex hi, c.run, if_pos hwf, if_pos he, conclude_fault]
  · obtain ⟨r, hr, hjump, hvs⟩ := c.loop hdec
    obtain ⟨tgt, htgt⟩ := c.target_ok fun hj => (hroom.1 hj).1
    obtain ⟨vs, hbranch⟩ := c.branch_ok hroom hvs
    rw [exec_fc hi, c.run op hr (hjump ▸ htgt) (hjump ▸ hbranch), if_pos he, conclude_fault]

/-! ## The registers of texture instructions (R351, R358) -/

section
variable {g : Group} {op : TexOp} {f : TexInst} {e : Stop}

theorem texPlaces_src (hop : op ≠ .nop) (h : g.tempIndex f.srcAddr.toNat f.srcRel = .error e) : texPlaces g op f = .error e := by
  cases op with
  | nop => exact absurd rfl hop
  | killLt0 =>
    rw [texPlaces, h]
    rfl
  | lookup | lookupProj | lookupUncached => simp only [texPlaces, h, error_bind]

theorem texPlaces_dst (hop : op ≠ .nop) (hkill : op ≠ .killLt0) {src : Nat} (hs : g.tempIndex f.srcAddr.toNat f.srcRel = .ok src)
    (h : g.tempIndex f.dstAddr.toNat f.dstRel = .error e) : texPlaces g op f = .error e := by
  cases op with
  | nop => exact absurd rfl hop
  | killLt0 => exact absurd rfl hkill
  | lookup | lookupProj | lookupUncached => simp only [texPlaces, hs, h, ok_bind, error_bind]

/-- Registers that stop a texture instruction stop it past its waits. -/
theorem exec_tex_places {i : Instr} {s : State} {k : Nat} (hi : i.tex? = some (op, f)) (ht : s.turn = .group k)
    (hg : s.groups[k]? = some g) (hh : g.halted = false)
    (hr : f.aluWait = true ∨ ∀ u ∈ texUses op f (texNamed g f), u ∉ g.aluPending) (hs : f.semWait = true → g.erratum = false)
    (h : texPlaces g op f = .error e) : exec i s = conclude s.turnStuck (.error e) := by
  have hplaces : texPlaces (waitedGroup g f.aluWait f.semWait) op f = .error e := h
  rw [exec_tex hi, runTex_eq ht hg hh hr hs, texRest, hplaces, error_bind]

end

/-- Settles O33: the index functions by the number with aL added, each instruction by the step that asks for a number. -/
theorem registerNumbersChecked : Obligations.RegisterNumbersChecked := by
  unfold Obligations.RegisterNumbersChecked
  refine ⟨fun g n rel x hr => ⟨Group.tempIndex_ok hr, Group.tempIndex_bad hr, Group.constIndex_ok hr, Group.constIndex_bad hr⟩, ?_⟩
  intro badTemp
  have hbad : ∀ {g n rel}, badTemp g n rel → g.tempIndex n rel = .error (.fault .registerRange) :=
    fun ⟨x, hr, hx⟩ => Group.tempIndex_bad hr hx
  refine ⟨fun i rop aop f s hi => ⟨fun c q hq => ?_, fun c hn => ⟨fun h => ?_, fun hrel hl => ?_,
    fun dr hr => ⟨fun h => ?_, fun hrel hl => ?_⟩⟩⟩, ?_⟩
  · intro a constant temporary
    have hexclusive : ¬ (constant ∧ temporary) := fun ⟨hc, ht, _⟩ => Bool.false_ne_true (ht.symm.trans hc)
    have stops : ∀ {e : Fault}, (constant → c.g.constIndex a.addr.toNat a.rel = .error (.fault e)) →
        (temporary → c.g.tempIndex a.addr.toNat a.rel = .error (.fault e)) → constant ∨ temporary → exec i s = .fault e := by
      intro e hconst htemp h
      have hplace : resolvePlace c.g a = .error (.fault e) := by
        rcases h with hc | ⟨hc, hb⟩
        · exact resolvePlace_const_stops hc (hconst hc)
        · exact resolvePlace_temp_stops hc hb (htemp ⟨hc, hb⟩)
      rw [c.stops_at_address hi hq hplace, conclude_fault]
    refine ⟨?_, fun h hrel hl => stops (fun _ => Group.constIndex_noLoop hrel hl) (fun _ => Group.tempIndex_noLoop hrel hl) h⟩
    rintro (⟨hc, x, hx, hout⟩ | ⟨ht, hout⟩)
    · refine stops (fun _ => Group.constIndex_bad hx hout) (fun ht => ?_) (.inl hc)
      exact absurd ⟨hc, ht⟩ hexclusive
    · refine stops (fun hc => ?_) (fun _ => hbad hout) (.inr ht)
      exact absurd ⟨hc, ht⟩ hexclusive
  · exact c.exec_stops hi (aluRest_rgbDst hn (hbad h))
  · exact c.exec_stops hi (aluRest_rgbDst hn (Group.tempIndex_noLoop (g := c.g) hrel hl))
  · exact c.exec_stops hi (aluRest_alphaDst hn hr (hbad h))
  · exact c.exec_stops hi (aluRest_alphaDst hn hr (Group.tempIndex_noLoop (g := c.g) hrel hl))
  · intro s k g ht hg hh i op f hi hop hr hs
    have stops : ∀ {e : Fault}, texPlaces g op f = .error (.fault e) → exec i s = .fault e := fun h => by
      rw [exec_tex_places hi ht hg hh hr hs h, conclude_fault]
    exact ⟨fun h => stops (texPlaces_src hop (hbad h)), fun hrel hl => stops (texPlaces_src hop (Group.tempIndex_noLoop hrel hl)),
      fun src hkill hsrc => ⟨fun h => stops (texPlaces_dst hop hkill hsrc (hbad h)),
        fun hrel hl => stops (texPlaces_dst hop hkill hsrc (Group.tempIndex_noLoop hrel hl))⟩⟩

end Sys2Proof.Machine
end

section
/-! SUPPORT. The three lookups (R352 to R366, R91, R94, R95): what arrives in a register, what a lookup writes on one processor, and
what the lookups of a group read. -/

namespace Sys2Proof.Machine

/-! ## What arrives in a register (R363) -/

theorem zeroBits_signBit (w : Word) : zeroBits (signBit w) = w &&& 0x80000000#32 := by
  have hbit : ∀ k < 32, (0x80000000#32).getLsbD k = decide (k = 31) := fun _ hk => (getLsbD_signMask hk).1
  refine BitVec.eq_of_getLsbD_eq fun k hk => ?_
  rw [BitVec.getLsbD_and, hbit k hk]
  by_cases h31 : k = 31
  · subst h31
    cases hs : signBit w with
    | false => simp only [show w.getLsbD 31 = false from hs, Bool.false_and]; rfl
    | true => simp only [show w.getLsbD 31 = true from hs, decide_true, Bool.and_self]; rfl
  · rw [decide_eq_false h31, Bool.and_false]
    cases signBit w with
    | false => exact BitVec.getLsbD_zero
    | true => exact (hbit k hk).trans (decide_eq_false h31)

/-- A NaN arrives as some NaN, a denormal as a zero of its sign, anything else as it is (log 29). -/
theorem arrive_spec (draw : Nat) (w : Word) :
    (isNaN w = true → isNaN (arrive draw w) = true) ∧ (expField w = 0 → arrive draw w = w &&& 0x80000000#32) ∧
      (isNaN w = false → expField w ≠ 0 → arrive draw w = w) := by
  refine ⟨fun hnan => ?_, fun h0 => ?_, fun hnan h0 => ?_⟩
  · rw [arrive, if_pos hnan]
    split
    · next h => exact h
    · decide
  · have hnan : ¬ isNaN w = true := by simp [isNaN, h0]
    rw [arrive, if_neg hnan, flushDenormal, if_pos h0, zeroBits_signBit]
  · rw [arrive, if_neg (by simp [hnan]), flushDenormal, if_neg h0]

theorem arriveAll_get (draw : Nat) (q : Quad Word) (ch : Chan) : ∃ draw', (arriveAll draw q).get ch = arrive draw' (q.get ch) := by
  cases ch <;> exact ⟨_, rfl⟩

/-! ## What a lookup writes on one processor (R353, R366) -/

/-- A channel that is written: masked and predicated (R353). -/
theorem texEnable_iff {f : TexInst} {l : Lane} {ch : Chan} :
    texEnable f l ch = true ↔
      if ch = .a then f.alphaWmask = true ∧ predEn l f.alphaPredSel f.alphaPredInv .a = true
      else f.rgbWmask.getLsbD ch.idx = true ∧ predEn l f.rgbPredSel f.rgbPredInv ch = true := by
  cases ch with
  | a =>
    rw [if_pos rfl]
    exact Bool.and_eq_true_iff
  | r | g | b => exact Bool.and_eq_true_iff

/-- Channels of one temporary, written one after the other. -/
theorem foldl_setTemp (dst : Nat) (v : Chan → Word) (chans : List Chan) (l : Lane) :
    (∀ m ch, (chans.foldl (fun acc c => acc.setTemp dst c (v c)) l).temp m ch =
        if ch ∈ chans ∧ m = dst then v ch else l.temp m ch) ∧
      chans.foldl (fun acc c => acc.setTemp dst c (v c)) l =
        { l with temps := (chans.foldl (fun acc c => acc.setTemp dst c (v c)) l).temps } := by
  induction chans generalizing l with
  | nil => exact ⟨fun m ch => by simp, rfl⟩
  | cons c rest ih =>
    obtain ⟨htemp, hkept⟩ := ih (l.setTemp dst c (v c))
    refine ⟨fun m ch => ?_, hkept⟩
    rw [List.foldl_cons, htemp, Lane.temp_setTemp]
    simp only [List.mem_cons]
    grind

section
variable (f : TexInst) (dst : Nat) (res : Quad Word) (l : Lane)

theorem mem_texChans {ch : Chan} : ch ∈ allChans.filter (texEnable f l) ↔ texEnable f l ch = true := by
  rw [List.mem_filter, and_iff_right (mem_allChans ch)]

theorem texWrite_temp (m : Nat) (ch : Chan) :
    (texWrite f dst res l).temp m ch = if texEnable f l ch = true ∧ m = dst then res.get (texDswz f ch) else l.temp m ch := by
  have h := (foldl_setTemp dst (fun ch => res.get (texDswz f ch)) (allChans.filter (texEnable f l)) l).1 m ch
  simp only [mem_texChans] at h
  exact h

theorem texWrite_pending (x : Nat) :
    x ∈ (texWrite f dst res l).texPending ↔ x ∈ l.texPending ∨ ∃ ch, texEnable f l ch = true ∧ x = regKey dst ch := by
  simp only [texWrite, mem_addNew, List.mem_map, mem_texChans, @eq_comm _ x]

/-- Its temporaries and what is noted as pending are all that a lookup changes. -/
theorem texWrite_kept :
    texWrite f dst res l = { l with temps := (texWrite f dst res l).temps, texPending := (texWrite f dst res l).texPending } := by
  have h := (foldl_setTemp dst (fun ch => res.get (texDswz f ch)) (allChans.filter (texEnable f l)) l).2
  unfold texWrite
  dsimp only
  rw [h]

end

/-! ## What lookups read (R91, R94, R95, R357, R362) -/

/-- The operations that look up. -/
def looksUp (op : TexOp) : Prop := op = .lookup ∨ op = .lookupProj ∨ op = .lookupUncached

/-- The byte that a lookup sees at an address: that of memory where it is uncached, else as the input cache shows it. -/
def texByte (op : TexOp) (mem : MemSys) : Nat → Byte := if op = .lookupUncached then mem.ram.get else seen mem.inp mem.ram

/-- The index pair of a lookup on one processor (R352, R357). -/
def lookupIndex (d : TallDesc) (op : TexOp) (f : TexInst) (src : Nat) (l : Lane) : Nat × Nat :=
  texIndex d f.unscaled (decide (op = .lookupProj)) (texCoord f src l)

/-- What a lookup makes of one processor, memory being seen as `byte`: one that takes part receives the element at its index pair. -/
def lookedUp (d : TallDesc) (op : TexOp) (f : TexInst) (src dst draw : Nat) (byte : Nat → Byte) (l l' : Lane) : Prop :=
  if texTakesPart f l = true then
    ∃ q, inputHolds d byte (lookupIndex d op f src l).1 (lookupIndex d op f src l).2 draw q ∧
      l' = texWrite f dst (arriveAll draw q) l
  else l' = l

/-- The second memory is the first one but for bytes of an input that the cache has taken in, of which an uncached lookup has none. -/
def inputFilled (op : TexOp) (mem m : MemSys) : Prop :=
  (∃ k, m = { mem with inp := k } ∧ mem.inp.filled k mem.ram) ∧ (op = .lookupUncached → m = mem)

theorem inputFilled_refl (op : TexOp) (mem : MemSys) : inputFilled op mem mem :=
  ⟨⟨_, rfl, ReadCache.filled_refl _ _⟩, fun _ => rfl⟩

section
variable {op : TexOp} {mem m m' : MemSys}

theorem inputFilled.trans (h : inputFilled op mem m) (h' : inputFilled op m m') : inputFilled op mem m' := by
  obtain ⟨⟨k, rfl, hk⟩, hsame⟩ := h
  obtain ⟨⟨k', rfl, hk'⟩, hsame'⟩ := h'
  exact ⟨⟨k', rfl, hk.trans hk'⟩, fun hop => (hsame' hop).trans (hsame hop)⟩

/-- Lookups see the same bytes after it. -/
theorem inputFilled.byte_eq (h : inputFilled op mem m) : texByte op m = texByte op mem := by
  obtain ⟨⟨k, rfl, hk⟩, -⟩ := h
  unfold texByte
  rw [hk.seen_eq]

variable {p : Platform} {draw : Nat} {d : TallDesc} {f : TexInst} {src dst : Nat} {l l' : Lane}

theorem texLookupLane_eq_ok {proj uncached : Bool} (hu : uncached = decide (op = .lookupUncached))
    (hp : proj = decide (op = .lookupProj)) (hpart : texTakesPart f l = true)
    (h : texLookupLane p draw d proj uncached f src dst l mem = .ok (l', m)) :
    lookedUp d op f src dst draw (texByte op mem) l l' ∧ inputFilled op mem m := by
  subst hp
  unfold lookedUp texByte
  rw [if_pos hpart]
  by_cases hop : op = .lookupUncached
  · rw [if_pos hop]
    rw [hu, decide_eq_true hop, texLookupLane, if_pos rfl, map_eq_ok] at h
    obtain ⟨q, hq, hres⟩ := h
    obtain ⟨rfl, rfl⟩ := Prod.mk.inj hres
    exact ⟨⟨q, readInputUncached_eq_ok hq, rfl⟩, inputFilled_refl op _⟩
  · rw [if_neg hop]
    rw [hu, decide_eq_false hop, texLookupLane, if_neg Bool.false_ne_true, map_eq_ok] at h
    obtain ⟨⟨q, m1⟩, hq, hres⟩ := h
    obtain ⟨rfl, rfl⟩ := Prod.mk.inj hres
    obtain ⟨hholds, hfilled⟩ := readInput_eq_ok hq
    exact ⟨⟨q, hholds, rfl⟩, hfilled, fun h => absurd h hop⟩

theorem texLane_eq_ok (hop : looksUp op) (h : texLane p draw d op f src dst l mem = .ok (l', m)) :
    lookedUp d op f src dst draw (texByte op mem) l l' ∧ inputFilled op mem m := by
  unfold texLane at h
  by_cases hpart : texTakesPart f l = true
  · rw [if_pos hpart] at h
    rcases hop with rfl | rfl | rfl <;> exact texLookupLane_eq_ok (by decide) (by decide) hpart h
  · rw [if_neg hpart] at h
    obtain ⟨rfl, rfl⟩ := Prod.mk.inj (Except.ok.inj h)
    exact ⟨by rw [lookedUp, if_neg hpart], inputFilled_refl op _⟩

/-- Every processor of the group sees the bytes of the memory before the instruction. -/
theorem texLanes_eq_ok (hop : looksUp op) {ls ls' : List Lane} (h : texLanes p draw d op f src dst ls mem = .ok (ls', m)) :
    inputFilled op mem m ∧ ∀ (n : Nat) (l : Lane), ls[n]? = some l →
      ∃ l' draw, ls'[n]? = some l' ∧ lookedUp d op f src dst draw (texByte op mem) l l' := by
  induction ls generalizing draw mem ls' with
  | nil =>
    obtain ⟨rfl, rfl⟩ := Prod.mk.inj (Except.ok.inj h)
    exact ⟨inputFilled_refl op _, fun n l hn => by simp at hn⟩
  | cons l0 rest ih =>
    simp only [texLanes, bind_eq_ok, pure_ok, Except.ok.injEq, Prod.mk.injEq, Prod.exists] at h
    obtain ⟨l1, m1, hone, ls1, m2, hrest, rfl, rfl⟩ := h
    obtain ⟨hl1, hm1⟩ := texLane_eq_ok hop hone
    obtain ⟨hm2, hls⟩ := ih hrest
    refine ⟨hm1.trans hm2, fun n l hn => ?_⟩
    cases n with
    | zero =>
      obtain rfl := Option.some.inj hn
      exact ⟨l1, draw, rfl, hl1⟩
    | succ n =>
      obtain ⟨l', draw', hl', hlook⟩ := hls n l hn
      rw [hm1.byte_eq] at hlook
      exact ⟨l', draw', hl', hlook⟩

end

/-! ## The semaphore (R368) -/

theorem semAcquireAll_getElem? {ls : List Lane} {n : Nat} {l : Lane} (acquire : Bool) (h : ls[n]? = some l) :
    (semAcquireAll acquire ls)[n]? = some (if acquire = true then l.semAcquire else l) := by
  cases acquire with
  | false => exact h
  | true =>
    rw [semAcquireAll, if_pos rfl, List.getElem?_map, h]
    rfl

theorem semAcquireAll_length (acquire : Bool) (ls : List Lane) : (semAcquireAll acquire ls).length = ls.length := by
  cases acquire with
  | false => rfl
  | true => exact List.length_map ..

/-- What the acquisition leaves of a processor. -/
theorem semAcquire_kept (acquire : Bool) (l : Lane) :
    ∃ l', l' = (if acquire = true then l.semAcquire else l) ∧ l'.temps = l.temps ∧ l'.texPending = l.texPending ∧
      (∀ m ch, l'.temp m ch = l.temp m ch) ∧ l' = { l with semHeld := l'.semHeld, semCover := l'.semCover } ∧
      (if acquire = true then l'.semHeld = true ∧ l'.semCover = l'.texPending
        else l'.semHeld = l.semHeld ∧ l'.semCover = l.semCover) := by
  cases acquire with
  | false => exact ⟨_, rfl, rfl, rfl, fun _ _ => rfl, rfl, rfl, rfl⟩
  | true => exact ⟨_, rfl, rfl, rfl, fun _ _ => rfl, rfl, rfl, rfl⟩

/-- The processors that take part (R319, R355). -/
theorem texTakesPart_iff {f : TexInst} {l : Lane} :
    texTakesPart f l = true ↔
      ((l.active = true ∧ l.loopOff = none) ∨ f.writeInactive = true) ∧ (f.ignoreUncovered = true → l.covered = true) := by
  rw [texTakesPart, Bool.and_eq_true, Lane.on_iff]
  refine and_congr_right fun _ => ?_
  cases l.covered <;> cases f.ignoreUncovered <;> simp

/-- What a lookup keeps of a processor, and what it writes where the processor takes part. -/
theorem lookedUp.effect {d : TallDesc} {op : TexOp} {f : TexInst} {src dst draw : Nat} {byte : Nat → Byte} {l l' : Lane}
    (h : lookedUp d op f src dst draw byte l l') :
    l' = { l with temps := l'.temps, texPending := l'.texPending } ∧
      (texTakesPart f l ≠ true → l'.temps = l.temps ∧ l'.texPending = l.texPending) ∧
      (∀ m ch, m ≠ dst ∨ texEnable f l ch ≠ true → l'.temp m ch = l.temp m ch) ∧
      (texTakesPart f l = true → ∃ q, inputHolds d byte (lookupIndex d op f src l).1 (lookupIndex d op f src l).2 draw q ∧
        (∀ ch, texEnable f l ch = true → l'.temp dst ch = (arriveAll draw q).get (texDswz f ch)) ∧
        ∀ x, x ∈ l'.texPending ↔ x ∈ l.texPending ∨ ∃ ch, texEnable f l ch = true ∧ x = regKey dst ch) := by
  unfold lookedUp at h
  by_cases hpart : texTakesPart f l = true
  · rw [if_pos hpart] at h
    obtain ⟨q, hq, rfl⟩ := h
    refine ⟨texWrite_kept .., fun hno => absurd hpart hno, fun m ch hno => ?_,
      fun _ => ⟨q, hq, fun ch hch => ?_, texWrite_pending _ _ _ _⟩⟩
    · rw [texWrite_temp, if_neg]
      rintro ⟨hen, hm⟩
      exact hno.elim (· hm) (· hen)
    · rw [texWrite_temp, if_pos ⟨hch, rfl⟩]
  · rw [if_neg hpart] at h
    subst h
    exact ⟨rfl, fun _ => ⟨rfl, rfl⟩, fun _ _ _ => rfl, fun hyes => absurd hyes hpart⟩

/-- Settles O35: the next state of `TexCase.run`, each processor by `lookedUp` and then by what the semaphore leaves of it. -/
theorem texLookupCompletes : Obligations.TexLookupCompletes := by
  intro i op f s hi hop c
  obtain ⟨hfilled, hlanes⟩ := texLanes_eq_ok hop c.reads
  obtain ⟨⟨k, hmem, hcache⟩, hsame⟩ := hfilled
  have hlength : c.after.lanes.length = c.g.lanes.length := by
    rw [TexReady.after, semAcquireAll_length, texLanes_length c.reads, length_waited]
  obtain ⟨hk, -⟩ := List.getElem?_eq_some_iff.1 c.group
  refine ⟨_, by rw [exec_tex hi, c.run, conclude_ok], ?_, ?_, othersKept_set rfl, ?_, hsame, c.after, List.getElem?_set_self hk,
    hlength, rfl, fun n l hl => ?_⟩
  · simp only [hmem]
  · intro a
    simp only [hmem]
  · simp only [hmem]
    exact hcache
  · obtain ⟨l1, draw, hl1, hlook⟩ := hlanes n l hl
    obtain ⟨hkept, hoff, hother, hon⟩ := hlook.effect
    obtain ⟨l2, hl2, htemps, hpending, htemp, hkept2, hsem⟩ := semAcquire_kept f.semAcquire l1
    refine ⟨l2, (semAcquireAll_getElem? f.semAcquire hl1).trans (congrArg some hl2.symm), ?_, ?_, ?_⟩
    · rw [hkept2, hkept]
    · rw [hkept] at hsem
      exact hsem
    · intro takesPart written
      have hpart : texTakesPart f l = true ↔ takesPart := texTakesPart_iff
      have hwritten : ∀ ch, texEnable f l ch = true ↔ written ch := fun ch => texEnable_iff
      refine ⟨fun hno => ?_, fun m ch hno => ?_, fun hyes => ?_⟩
      · obtain ⟨ht, hp⟩ := hoff (mt hpart.1 hno)
        exact ⟨htemps.trans ht, hpending.trans hp⟩
      · exact (htemp m ch).trans (hother m ch (hno.imp_right (mt (hwritten ch).1)))
      · obtain ⟨q, hq, hres, hnoted⟩ := hon (hpart.2 hyes)
        have hreceives : ∀ ch, written ch → l2.temp c.dst ch = (arriveAll draw q).get (texDswz f ch) := fun ch hch =>
          (htemp _ _).trans (hres ch ((hwritten ch).2 hch))
        refine ⟨draw, q, arriveAll draw q, hq, fun ch => ?_, hreceives .r, hreceives .g, hreceives .b, hreceives .a, fun x => ?_⟩
        · obtain ⟨draw', hch⟩ := arriveAll_get draw q ch
          rw [hch]
          exact arrive_spec draw' (q.get ch)
        · rw [hpending, hnoted]
          simp only [hwritten]

end Sys2Proof.Machine
end

section
/-! SUPPORT. The texture instructions that make no access to memory, TEX_INST_NOP and TEX_INST_KILL_LT_0 (R350, R358, R360, R367,
R368), and the index pair of a lookup where the spec pins it (R357, R363). -/

namespace Sys2Proof.Machine

/-! ## An operation without an access to memory (R350) -/

/-- An operation that makes `u l` of processor `l` and keeps memory. -/
def ActsOnProcessor (op : TexOp) (f : TexInst) (src : Nat) (u : Lane → Lane) : Prop :=
  ∀ (p : Platform) (draw : Nat) (d : TallDesc) (dst : Nat) (l : Lane) (mem : MemSys),
    texLane p draw d op f src dst l mem = .ok (u l, mem)

section
variable {op : TexOp} {f : TexInst} {src : Nat} {u : Lane → Lane}

theorem ActsOnProcessor.texLanes_eq (h : ActsOnProcessor op f src u) (p : Platform) (draw : Nat) (d : TallDesc) (dst : Nat)
    (ls : List Lane) (mem : MemSys) : texLanes p draw d op f src dst ls mem = .ok (ls.map u, mem) := by
  induction ls generalizing draw with
  | nil => rfl
  | cons l rest ih => simp only [texLanes, h p draw d dst l mem, ih, ok_bind, pure_ok, List.map_cons]

/-- With its group such an instruction changes no more than the processors, each on its own, and then the semaphore. -/
theorem TexCase.completes_onProcessors {i : Instr} {s : State} (hi : i.tex? = some (op, f)) (c : TexCase s op f)
    (h : ActsOnProcessor op f c.src u) :
    Completes i s fun t =>
      t = { s with groups := t.groups, draws := t.draws } ∧ othersKept s t c.k ∧
      ∃ g, t.groups[c.k]? = some g ∧ g.lanes.length = c.g.lanes.length ∧
        g = { c.g with lanes := g.lanes, pc := c.g.pc + 1, prev := .tex, started := true
                       aluPending := if f.aluWait = true then [] else c.g.aluPending } ∧
        ∀ (n : Nat) (l : Lane), (waited c.g f.semWait)[n]? = some l →
          g.lanes[n]? = some (if f.semAcquire = true then (u l).semAcquire else u l) := by
  have hreads := c.reads
  rw [h.texLanes_eq] at hreads
  obtain ⟨hlanes, hmem⟩ := Prod.mk.inj (Except.ok.inj hreads)
  obtain ⟨hk, -⟩ := List.getElem?_eq_some_iff.1 c.group
  refine ⟨_, by rw [exec_tex hi, c.run, conclude_ok], ?_, othersKept_set rfl, c.after, List.getElem?_set_self hk, ?_, rfl,
    fun n l hl => ?_⟩
  · simp only [← hmem]
  · rw [TexReady.after, semAcquireAll_length, ← hlanes, List.length_map, length_waited]
  · refine semAcquireAll_getElem? f.semAcquire ?_
    rw [← hlanes, List.getElem?_map, hl]
    rfl

end

/-! ## TEX_INST_NOP (R358) -/

theorem nop_actsOnProcessor (f : TexInst) (src : Nat) : ActsOnProcessor .nop f src id :=
  fun _ _ _ _ _ _ => ite_self _

/-- A processor once the wait is made: one that holds the semaphore frees it and ends the lookups that it covers (R367). -/
theorem waited_getElem? {g : Group} {wait : Bool} {n : Nat} {l : Lane} (h : g.lanes[n]? = some l) :
    (waited g wait)[n]? = some
      (if wait = true ∧ l.semHeld = true then
        { l with texPending := l.texPending.filter fun x => !l.semCover.contains x, semHeld := false, semCover := [] }
      else l) := by
  cases wait with
  | false => exact h
  | true =>
    simp only [waited, if_true, List.getElem?_map, h, Option.map_some, Lane.semWait, true_and]

/-- Settles O34: of a NOP the waits and the semaphore are left. -/
theorem texNopOnlySynchronises : Obligations.TexNopOnlySynchronises := by
  intro f s c
  refine (c.completes_onProcessors rfl (nop_actsOnProcessor f c.src)).mono
    fun t ⟨hkept, hothers, g, hg, hlength, hgroup, hlanes⟩ => ⟨hkept, hothers, g, hg, hlength, hgroup, fun n l hl => ?_⟩
  exact hlanes n _ (waited_getElem? hl)

/-! ## TEX_INST_KILL_LT_0 (R360) -/

/-- A processor after a kill. -/
def texKilled (f : TexInst) (src : Nat) (l : Lane) : Lane := if texTakesPart f l then texKillLane f src l else l

theorem kill_actsOnProcessor (f : TexInst) (src : Nat) : ActsOnProcessor .killLt0 f src (texKilled f src) := by
  intro p draw d dst l mem
  unfold texLane texKilled
  split <;> rfl

section
variable (f : TexInst) (src : Nat) (l : Lane)

/-- Some channel that a kill examines is below zero. -/
def examinesBelowZero : Prop := ∃ ch, texEnable f l ch = true ∧ fLt0 (l.temp src ch) = true

/-- The examined channels by their masks and predicates: those of the RGB unit, and alpha. -/
theorem examinesBelowZero_iff :
    examinesBelowZero f src l ↔
      (∃ ch, ch ≠ .a ∧ f.rgbWmask.getLsbD ch.idx = true ∧ predEn l f.rgbPredSel f.rgbPredInv ch = true ∧
        fLt0 (l.temp src ch) = true) ∨
      (f.alphaWmask = true ∧ predEn l f.alphaPredSel f.alphaPredInv .a = true ∧ fLt0 (l.temp src .a) = true) := by
  unfold examinesBelowZero
  constructor
  · rintro ⟨ch, hen, hlt⟩
    rw [texEnable_iff] at hen
    split at hen
    · next ha =>
      obtain ⟨hmask, hpred⟩ := hen
      exact .inr ⟨hmask, hpred, ha ▸ hlt⟩
    · next ha =>
      obtain ⟨hmask, hpred⟩ := hen
      exact .inl ⟨ch, ha, hmask, hpred, hlt⟩
  · rintro (⟨ch, ha, hmask, hpred, hlt⟩ | ⟨hmask, hpred, hlt⟩)
    · exact ⟨ch, texEnable_iff.2 (by rw [if_neg ha]; exact ⟨hmask, hpred⟩), hlt⟩
    · exact ⟨.a, texEnable_iff.2 (by rw [if_pos rfl]; exact ⟨hmask, hpred⟩), hlt⟩

/-- A kill uncovers the processors that take part and have an examined channel below zero. -/
theorem texKilled_eq_uncovered (h : texTakesPart f l = true ∧ examinesBelowZero f src l) :
    texKilled f src l = { l with covered := false } := by
  obtain ⟨hpart, ch, hen, hlt⟩ := h
  have hany : ((allChans.filter (texEnable f l)).any fun c => fLt0 (l.temp src c)) = true :=
    List.any_eq_true.2 ⟨ch, (mem_texChans f l).2 hen, hlt⟩
  rw [texKilled, if_pos hpart, texKillLane, if_pos hany]

/-- It leaves every other processor as it is. -/
theorem texKilled_eq_self (h : ¬ (texTakesPart f l = true ∧ examinesBelowZero f src l)) : texKilled f src l = l := by
  unfold texKilled texKillLane
  split
  · next hpart =>
    refine if_neg fun hany => h ⟨hpart, ?_⟩
    obtain ⟨ch, hch, hlt⟩ := List.any_eq_true.1 hany
    exact ⟨ch, (mem_texChans f l).1 hch, hlt⟩
  · rfl

theorem texKilled_kept : texKilled f src l = { l with covered := (texKilled f src l).covered } := by
  by_cases h : texTakesPart f l = true ∧ examinesBelowZero f src l
  · rw [texKilled_eq_uncovered f src l h]
  · rw [texKilled_eq_self f src l h]

theorem texKilled_covered :
    (texKilled f src l).covered = true ↔ l.covered = true ∧ ¬ (texTakesPart f l = true ∧ examinesBelowZero f src l) := by
  by_cases h : texTakesPart f l = true ∧ examinesBelowZero f src l
  · rw [texKilled_eq_uncovered f src l h]
    exact iff_of_false Bool.false_ne_true fun ⟨_, hno⟩ => hno h
  · rw [texKilled_eq_self f src l h, and_iff_left h]

end

/-- Settles O36: of a kill the waits, the covered flags by `texKilled`, and the semaphore are left. -/
theorem texKillUncovers : Obligations.TexKillUncovers := by
  intro f s c
  refine (c.completes_onProcessors rfl (kill_actsOnProcessor f c.src)).mono
    fun t ⟨hkept, hothers, g, hg, hlength, hgroup, hlanes⟩ => ⟨hkept, hothers, g, hg, hlength, hgroup, fun n l hl => ?_⟩
  rw [← examinesBelowZero_iff, ← texKilled_covered]
  have hkilled := texKilled_kept f c.src l
  obtain ⟨l', hl', -, -, -, hsame, hsem⟩ := semAcquire_kept f.semAcquire (texKilled f c.src l)
  refine ⟨l', by rw [hlanes n l hl, hl'], ?_, ?_, ?_⟩
  · rw [hsame, hkilled]
  · rw [hkilled] at hsem
    exact hsem
  · rw [hsame]

/-! ## The index pair where it is pinned (R357, R363) -/

/-- `integer?` finds the integer that a number is. -/
theorem integer?_of_number {m e n : Int} (h : (m : ℚ) * 2 ^ e = n) : integer? m e = some n := by
  unfold integer?
  split
  · next he =>
    obtain ⟨k, rfl⟩ := Int.eq_ofNat_of_zero_le he
    rw [zpow_natCast] at h
    rw [Int.toNat_natCast]
    exact congrArg some (by exact_mod_cast h)
  · next he =>
    obtain ⟨k, rfl⟩ : ∃ k : Nat, e = -k := ⟨(-e).toNat, by omega⟩
    rw [zpow_neg, zpow_natCast, ← div_eq_mul_inv, div_eq_iff (by positivity)] at h
    have hm : m = n * 2 ^ k := by exact_mod_cast h
    rw [neg_neg, Int.toNat_natCast, hm, if_pos (Int.mul_emod_left _ _), Int.mul_ediv_cancel _ (by positivity)]

/-- A finite coordinate that is an integer from 0 to 4095 stands for it, a zero of either sign for 0 (log 15). -/
theorem coordInt_of_number {w : Word} {n : Nat} (hn : n ≤ 4095) (hfinite : expField w ≠ 255) (h : floatValue w = n) :
    coordInt w = some n := by
  rcases Ext.ofBits_finite hfinite with ⟨neg, hw⟩ | ⟨m, e, hw⟩
  · have hzero : n = 0 := by
      rw [floatValue_of_zero hw] at h
      exact_mod_cast h.symm
    simp only [coordInt, hw, hzero]
  · obtain ⟨-, -, -, -, hvalue⟩ := Ext.ofBits_eq_real hw
    have hint : integer? m e = some (n : Int) := integer?_of_number (by rw [← hvalue, h, Int.cast_natCast])
    have hrange : (decide ((0 : Int) ≤ n) && decide ((n : Int) ≤ 4095)) = true := by
      rw [Bool.and_eq_true, decide_eq_true_iff, decide_eq_true_iff]
      omega
    simp only [coordInt, hw, hint, hrange, if_true, Int.toNat_natCast]

theorem texIndex_of_coordInt (d : TallDesc) {c : Coord} {x y : Nat} (hs : coordInt c.s = some x) (ht : coordInt c.t = some y) :
    texIndex d true false c = (x, y) := by
  simp only [texIndex, Bool.false_and, Bool.not_false, Bool.and_self, if_true, hs, ht]

/-- A projection by 1 is none. -/
theorem texIndex_proj_one (d : TallDesc) (unscaled : Bool) {c : Coord} (hq : c.q = oneBits) :
    texIndex d unscaled true c = texIndex d unscaled false c := by
  simp only [texIndex, hq, bne_self_eq_false, Bool.and_false]

/-- A coordinate that is no NaN is accepted as a channel of an element arrives. -/
theorem conditionCoord_eq_arrive (draw : Nat) {w : Word} (h : isNaN w = false) : conditionCoord w = arrive draw w := by
  rw [conditionCoord, arrive, h, if_neg Bool.false_ne_true, if_neg Bool.false_ne_true]

/-- A NaN counts as +Inf, a denormal as a zero of its sign, and any other coordinate is taken as it is. -/
theorem conditionCoord_spec (w : Word) :
    (isNaN w = true → conditionCoord w = infBits false) ∧ (expField w = 0 → conditionCoord w = w &&& 0x80000000#32) ∧
      (expField w ≠ 0 → isNaN w = false → conditionCoord w = w) := by
  obtain ⟨-, hdenormal, hother⟩ := arrive_spec 0 w
  refine ⟨fun hnan => if_pos hnan, fun h0 => ?_, fun h0 hnan => ?_⟩
  · have hnan : isNaN w = false := by simp [isNaN, h0]
    rw [conditionCoord_eq_arrive 0 hnan, hdenormal h0]
  · rw [conditionCoord_eq_arrive 0 hnan, hother hnan h0]

/-- Settles O38: two integer coordinates by `coordInt`, a projection by 1, and each coordinate as it is accepted. -/
theorem texIndexPinned : Obligations.TexIndexPinned :=
  ⟨fun d _ _ _ hx hy hs ht hsx hty => texIndex_of_coordInt d (coordInt_of_number hx hs hsx) (coordInt_of_number hy ht hty),
    fun d unscaled _ hq => texIndex_proj_one d unscaled hq, conditionCoord_spec⟩

end Sys2Proof.Machine
end

section
/-! SUPPORT. What the steps of a flow-control instruction make of the processors (R382): who votes and what a processor wants (R387, R389,
R396), and the loop variable (R409). -/

namespace Sys2Proof.Machine

/-! ## What a processor wants, and who votes (R387, R389, R396) -/

/-- JUMP_FUNC depends on an input where flipping its bit of the index changes some entry (R389). -/
theorem funcDepends_iff (f : BitVec 8) (bit : Nat) :
    funcDepends f bit = true ↔ ∃ n < 8, f.getLsbD n ≠ f.getLsbD (n ^^^ 2 ^ bit) := by
  simp only [funcDepends, List.any_eq_true, List.mem_range, bne_iff_ne]

/-- An input that JUMP_FUNC does not depend on counts as 0. -/
theorem funcDepends_and (f : BitVec 8) (bit : Nat) (x : Bool) :
    ((∃ n < 8, f.getLsbD n ≠ f.getLsbD (n ^^^ 2 ^ bit)) → (funcDepends f bit && x) = x) ∧
      (¬ (∃ n < 8, f.getLsbD n ≠ f.getLsbD (n ^^^ 2 ^ bit)) → (funcDepends f bit && x) = false) := by
  rw [← funcDepends_iff]
  cases funcDepends f bit with
  | false => exact ⟨fun h => absurd h Bool.false_ne_true, fun _ => rfl⟩
  | true => exact ⟨fun _ => rfl, fun h => absurd rfl h⟩

/-- One processor after steps 3 to 5 of R382. -/
def fcVoter (f : FcInst) (boolean : Bool) (l : Lane) : Voter :=
  let v : Voter := { lane := l, want := jumpWant f boolean l, byElse := false, voter := false }
  (if f.bElse then v.flip else v).register f

theorem fcVoters_eq_map (f : FcInst) (boolean : Bool) (ls : List Lane) : fcVoters f boolean ls = ls.map (fcVoter f boolean) := by
  unfold fcVoters fcVoter
  cases f.bElse with
  | false => exact List.map_map
  | true => simp only [if_true, List.map_map]; rfl

section
variable {f : FcInst} {l : Lane} (boolean : Bool)

theorem fcVoter_of_no_else (h : f.bElse = false) :
    fcVoter f boolean l =
      Voter.register f { lane := l, want := jumpWant f boolean l, byElse := false, voter := false } := by
  simp only [fcVoter, h, Bool.false_eq_true, if_false]

theorem fcVoter_else_active (h : f.bElse = true) (hin : l.loopOff = none) (hact : l.active = true) :
    fcVoter f boolean l =
      Voter.register f { lane := { l with active := false, bcnt := 0 }, want := true, byElse := true, voter := false } := by
  simp only [fcVoter, Voter.flip, h, hin, hact, Option.isSome_none, Bool.false_eq_true, if_true, if_false]

theorem fcVoter_else_innermost (h : f.bElse = true) (hin : l.loopOff = none) (hact : l.active = false) (hcnt : l.bcnt = 0) :
    fcVoter f boolean l =
      Voter.register f { lane := { l with active := true }, want := jumpWant f boolean l, byElse := false, voter := false } := by
  simp only [fcVoter, Voter.flip, h, hin, hact, hcnt, Option.isSome_none, Bool.false_eq_true, if_true, if_false]

theorem fcVoter_else_other (h : f.bElse = true) (ho : l.loopOff.isSome = true ∨ (l.active = false ∧ l.bcnt ≠ 0)) :
    fcVoter f boolean l =
      Voter.register f { lane := l, want := jumpWant f boolean l, byElse := false, voter := false } := by
  rcases ho with hoff | ⟨hact, hcnt⟩
  · simp only [fcVoter, Voter.flip, h, hoff, if_true]
  · simp only [fcVoter, Voter.flip, h, hact, hcnt, Bool.false_eq_true, if_false, ite_self]

end

/-- Who votes, by what the processor is before B_ELSE (R387, R396). -/
theorem fcVoter_votes_iff (f : FcInst) (boolean : Bool) (l : Lane) :
    (fcVoter f boolean l).votes f = true ↔
      l.loopOff = none ∧ (l.active = true ∨ (f.bElse = true ∧ l.bcnt = 0)) ∧
        (f.ignoreUncovered = true → l.covered = true) := by
  have covered : (!(f.ignoreUncovered && !l.covered)) = true ↔ (f.ignoreUncovered = true → l.covered = true) := by
    cases f.ignoreUncovered <;> cases l.covered <;> decide
  have votes : ∀ v : Voter, v.lane.covered = l.covered →
      ((v.register f).votes f = true ↔
        (v.lane.enabled = true ∨ v.byElse = true) ∧ (f.ignoreUncovered = true → l.covered = true)) := by
    intro v hv
    rw [Voter.register_votes, Voter.votes, Bool.and_eq_true, Bool.or_eq_true, Voter.excluded, hv, covered]
  have enabled : l.enabled = true ↔ l.active = true ∧ l.loopOff = none := by
    rw [Lane.enabled, Bool.and_eq_true, Option.isNone_iff_eq_none]
  cases helse : f.bElse with
  | false =>
    rw [fcVoter_of_no_else boolean helse, votes _ rfl, enabled]
    simp only [Bool.false_eq_true, false_and, or_false]
    tauto
  | true =>
    cases hoff : l.loopOff with
    | some x =>
      rw [fcVoter_else_other boolean helse (.inl (by simp only [hoff, Option.isSome_some])), votes _ rfl, enabled, hoff]
      simp only [reduceCtorEq, and_false, Bool.false_eq_true, or_self, false_and]
    | none =>
      cases hact : l.active with
      | true =>
        rw [fcVoter_else_active boolean helse hoff hact, votes _ rfl]
        simp only [or_true, true_or, true_and]
      | false =>
        by_cases hcnt : l.bcnt = 0
        · rw [fcVoter_else_innermost boolean helse hoff hact hcnt, votes _ rfl]
          simp only [Lane.enabled, hoff, hcnt, Option.isNone_none, Bool.and_self, true_or, and_self, or_true, true_and]
        · rw [fcVoter_else_other boolean helse (.inr ⟨hact, hcnt⟩), votes _ rfl, enabled]
          simp only [hact, hcnt, Bool.false_eq_true, false_and, and_false, or_self]

/-- Settles O45: a processor by the four cases of B_ELSE, and who votes by `fcVoter_votes_iff`. -/
theorem elseFlipsTheInnermostBlock : Obligations.ElseFlipsTheInnermostBlock := by
  intro f boolean ls n l hl
  refine ⟨fcVoter f boolean l, by rw [fcVoters_eq_map, List.getElem?_map, hl]; rfl, rfl, fcVoter_votes_iff f boolean l,
    fun h => ?_, fun h => ⟨fun hin hact => ?_, fun hin hact hcnt => ?_, fun ho => ?_⟩⟩
  · rw [fcVoter_of_no_else boolean h]
    exact ⟨rfl, rfl⟩
  · rw [fcVoter_else_active boolean h hin hact]
    exact ⟨rfl, rfl⟩
  · rw [fcVoter_else_innermost boolean h hin hact hcnt]
    exact ⟨rfl, rfl⟩
  · rw [fcVoter_else_other boolean h ho]
    exact ⟨rfl, rfl⟩

/-- The predicate of a select that names one channel for all (R318, R386). -/
theorem predEn_replicate (l : Lane) (sel : PredSel) (inv : Bool) (ch : Chan) :
    sel ≠ .rgba → predEn l sel inv ch =
      match sel with
      | .none => true
      | .gggg => l.pred.g != inv
      | .bbbb => l.pred.b != inv
      | .aaaa => l.pred.a != inv
      | _ => l.pred.r != inv := by
  intro h
  cases sel with
  | rgba => exact absurd rfl h
  | none | rrrr | gggg | bbbb | aaaa => rfl

/-! ## The loop variable (R409) -/

/-- Settles O32: the search for a LOOP frame passes the REP frames above it. -/
theorem loopVariableIsInnermostLoop : Obligations.LoopVariableIsInnermostLoop := by
  intro g
  have passed : ∀ fs : List Frame, (∀ x ∈ fs, x.kind = .rep) → fs.find? (fun fr => fr.kind == .loop) = none := fun fs h =>
    List.find?_eq_none.2 fun x hx => by rw [h x hx]; decide
  refine ⟨fun inner outer fr hst hinner hfr => ?_, fun hall => ?_⟩
  · have haL : g.aL = some fr.aL := by
      have htop : (fr.kind == FrameKind.loop) = true := by rw [hfr]; decide
      rw [Group.aL, hst, List.find?_append, passed inner hinner, Option.none_or,
        List.find?_cons_of_pos (p := fun fr : Frame => fr.kind == .loop) htop]
      rfl
    exact ⟨haL, fun n => by rw [Group.relative, haL]; rfl⟩
  · have haL : g.aL = none := by
      rw [Group.aL, passed g.loopStack hall]
      rfl
    exact ⟨haL, fun n => Group.relative_noLoop rfl haL⟩

end Sys2Proof.Machine
end

section
/-! SUPPORT. The branch operation of a flow-control instruction by what it answers, processor by processor (R387, R397 to R399,
R404). -/

namespace Sys2Proof.Machine

/-! ## Lists related item by item -/

section
variable {α β γ : Type} {R : α → β → Prop}

theorem forall₂_getElem? {xs : List α} {ys : List β} (h : List.Forall₂ R xs ys) {n : Nat} {x : α} (hx : xs[n]? = some x) :
    ∃ y, ys[n]? = some y ∧ R x y := by
  induction h generalizing n with
  | nil => simp at hx
  | cons hr _ ih =>
    cases n with
    | zero => exact ⟨_, rfl, by simpa [← Option.some.inj hx] using hr⟩
    | succ n => exact ih hx

theorem forall₂_mem_right {xs : List α} {ys : List β} (h : List.Forall₂ R xs ys) {y : β} (hy : y ∈ ys) : ∃ x ∈ xs, R x y := by
  induction h with
  | nil => cases hy
  | cons hr _ ih =>
    rcases List.mem_cons.1 hy with rfl | hy
    · exact ⟨_, List.mem_cons_self, hr⟩
    · obtain ⟨x, hx, hxy⟩ := ih hy
      exact ⟨x, List.mem_cons_of_mem _ hx, hxy⟩

theorem forall₂_mapIdx {S : α → γ → Prop} {u : Nat → β → γ} {xs : List α} {ys : List β} (h : List.Forall₂ R xs ys)
    (hu : ∀ n x y, R x y → S x (u n y)) : List.Forall₂ S xs (ys.mapIdx u) := by
  induction h generalizing u with
  | nil => exact .nil
  | cons hr _ ih =>
    rw [List.mapIdx_cons]
    exact .cons (hu 0 _ _ hr) (ih fun n => hu (n + 1))

end

/-! ## The branch operation (R397 to R399, R404) -/

/-- The processor with this loop-inactive state. -/
def Voter.withOff (v : Voter) (off : Option (OffKind × Nat)) : Voter := { v with lane := { v.lane with loopOff := off } }

/-- The branch operation takes the first processor to the second. -/
def Voter.branches (f : FcInst) (jump : Bool) (v v' : Voter) : Prop :=
  match (if jump = true then f.bOp1 else f.bOp0) with
  | .none => v' = v
  | .incr => ∃ max, v.incr f max jump = .ok v'
  | .decr => v' = v.decr f.bPopCnt.toNat

theorem incrAll_eq_ok {f : FcInst} {max : Nat} {jump : Bool} {vs vs' : List Voter} (h : incrAll f max jump vs = .ok vs') :
    List.Forall₂ (fun v v' => v.incr f max jump = .ok v') vs vs' := by
  induction vs generalizing vs' with
  | nil =>
    obtain rfl := Except.ok.inj h
    exact .nil
  | cons v rest ih =>
    unfold incrAll at h
    split at h
    · next v1 vs1 hv hvs =>
      obtain rfl := Except.ok.inj h
      exact .cons hv (ih hvs)
    · cases h
    · cases h

/-- The branch operation treats each processor on its own. -/
theorem branchOp_eq_ok {g : Group} {f : FcInst} {jump : Bool} {vs vs' : List Voter} (h : branchOp g f jump vs = .ok vs') :
    List.Forall₂ (Voter.branches f jump) vs vs' := by
  unfold branchOp at h
  unfold Voter.branches
  cases hop : (if jump = true then f.bOp1 else f.bOp0) with
  | none =>
    rw [hop] at h
    obtain rfl := Except.ok.inj h
    exact List.forall₂_same.2 fun _ _ => rfl
  | incr =>
    rw [hop] at h
    exact (incrAll_eq_ok h).imp fun _ _ hv => ⟨_, hv⟩
  | decr =>
    rw [hop] at h
    obtain rfl := Except.ok.inj h
    exact List.forall₂_map_right_iff.2 (List.forall₂_same.2 fun _ _ => rfl)

section
variable {f : FcInst} {max : Nat} {jump : Bool} {v v' : Voter}

/-- INCR leaves a loop-inactive processor as it is, and one that IGNORE_UNCOVERED excludes (R387, R404). -/
theorem Voter.incr_skips (h : v.incr f max jump = .ok v') (hskip : v.lane.loopOff.isSome = true ∨ v.excluded f = true) :
    v' = v := by
  rw [incr, if_pos (by rwa [Bool.or_eq_true])] at h
  exact (Except.ok.inj h).symm

/-- What INCR makes of any other processor (R397). -/
theorem Voter.incr_takes (h : v.incr f max jump = .ok v') (hoff : v.lane.loopOff = none) (hex : v.excluded f = false) :
    (v.lane.active = false → v' = { v with lane := { v.lane with bcnt := v.lane.bcnt + 1 } }) ∧
      (v.lane.active = true → v.voter = true → v.want ≠ jump →
        v' = { v with lane := { v.lane with active := false, bcnt := 0 } }) ∧
      (v.lane.active = true → v.voter = false ∨ v.want = jump → v' = v) := by
  have hskip : ¬ (v.lane.loopOff.isSome || v.excluded f) = true := by
    rw [hoff, hex]
    exact Bool.false_ne_true
  rw [incr, if_neg hskip] at h
  refine ⟨fun hact => ?_, fun hact hvoter hwant => ?_, fun hact hstay => ?_⟩
  · rw [if_pos (by rw [hact]; rfl)] at h
    split at h
    · exact (Except.ok.inj h).symm
    · cases h
  · rw [if_neg (by rw [hact]; decide), if_pos (by rw [hvoter, Bool.true_and]; exact bne_iff_ne.2 hwant)] at h
    exact (Except.ok.inj h).symm
  · have hno : ¬ (v.voter && v.want != jump) = true := by
      rw [Bool.and_eq_true, bne_iff_ne]
      rintro ⟨hvoter, hwant⟩
      exact hstay.elim (fun hv => by rw [hv] at hvoter; cases hvoter) hwant
    rw [if_neg (by rw [hact]; decide), if_neg hno] at h
    exact (Except.ok.inj h).symm

/-- DECR by cases (R398, R404). -/
theorem Voter.decr_cases (n : Nat) (v : Voter) :
    ((v.lane.loopOff.isSome = true ∨ v.lane.active = true) → v.decr n = v) ∧
      (v.lane.loopOff = none → v.lane.active = false →
        (v.lane.bcnt < n → v.decr n = { v with lane := { v.lane with active := true, bcnt := 0 } }) ∧
        (n ≤ v.lane.bcnt → v.decr n = { v with lane := { v.lane with bcnt := v.lane.bcnt - n } })) := by
  refine ⟨fun h => ?_, fun hoff hact => ⟨fun hlt => ?_, fun hle => ?_⟩⟩
  · exact if_pos (by simpa only [Bool.or_eq_true] using h)
  · simp only [Voter.decr, hoff, hact, hlt, Option.isSome_none, Bool.or_self, Bool.false_eq_true, if_false, if_true]
  · simp only [Voter.decr, hoff, hact, Nat.not_lt.2 hle, Option.isSome_none, Bool.or_self, Bool.false_eq_true, if_false]

/-- The branch operation changes no more of a processor than its active bit and its counter. -/
theorem Voter.branches.kept (h : v.branches f jump v') :
    v'.lane = { v.lane with active := v'.lane.active, bcnt := v'.lane.bcnt } := by
  unfold Voter.branches at h
  split at h
  · rw [h]
  · obtain ⟨max, h⟩ := h
    unfold Voter.incr at h
    split_ifs at h <;> cases h <;> rfl
  · rw [h, Voter.decr]
    split_ifs <;> rfl

theorem Voter.excluded_iff : v.excluded f = true ↔ f.ignoreUncovered = true ∧ v.lane.covered = false := by
  rw [excluded, Bool.and_eq_true, Bool.not_eq_true']

/-- A processor that votes is not excluded. -/
theorem Voter.excluded_of_votes (h : v.votes f = true) : v.excluded f = false := by
  rw [votes, Bool.and_eq_true, Bool.not_eq_true'] at h
  exact h.2

variable {off : Option (OffKind × Nat)}

/-- INCR on a processor of the vote that step 7 of R382 leaves in the loop. -/
theorem Voter.incr_branched (hv : v.voter = v.votes f) (hoff : off = none) (h : (v.withOff off).incr f max jump = .ok v') :
    (f.ignoreUncovered = true ∧ v.lane.covered = false → v'.lane.active = v.lane.active ∧ v'.lane.bcnt = v.lane.bcnt) ∧
    (v.lane.active = false → (f.ignoreUncovered = true → v.lane.covered = true) →
      v'.lane.active = false ∧ v'.lane.bcnt = v.lane.bcnt + 1) ∧
    (v.lane.active = true → v.votes f = true → ¬ (v.want = true ↔ jump = true) →
      v'.lane.active = false ∧ v'.lane.bcnt = 0) ∧
    (v.lane.active = true → v.votes f = false ∨ (v.want = true ↔ jump = true) →
      v'.lane.active = true ∧ v'.lane.bcnt = v.lane.bcnt) := by
  have left : v.excluded f = true → v' = v.withOff off := fun hex => incr_skips h (.inr hex)
  have taken := fun hex : v.excluded f = false => incr_takes h hoff hex
  refine ⟨fun hex => ?_, fun hact hcov => ?_, fun hact hvote hwant => ?_, fun hact hstay => ?_⟩
  · rw [left (excluded_iff.2 hex)]
    exact ⟨rfl, rfl⟩
  · have hin : v.excluded f = false := by
      rw [← Bool.not_eq_true, excluded_iff]
      rintro ⟨hu, hno⟩
      rw [hcov hu] at hno
      cases hno
    obtain ⟨hinactive, -, -⟩ := taken hin
    rw [hinactive hact]
    exact ⟨hact, rfl⟩
  · obtain ⟨-, hleaves, -⟩ := taken (excluded_of_votes hvote)
    rw [hleaves hact (hv.trans hvote) (mt Bool.eq_iff_iff.1 hwant)]
    exact ⟨rfl, rfl⟩
  · cases hex : v.excluded f with
    | true =>
      rw [left hex]
      exact ⟨hact, rfl⟩
    | false =>
      obtain ⟨-, -, hstays⟩ := taken hex
      rw [hstays hact (hstay.imp hv.trans Bool.eq_iff_iff.2)]
      exact ⟨hact, rfl⟩

/-- DECR on such a processor. -/
theorem Voter.decr_branched (n : Nat) (hoff : off = none) (h : v' = (v.withOff off).decr n) :
    (v.lane.active = true → v'.lane.active = true ∧ v'.lane.bcnt = v.lane.bcnt) ∧
    (v.lane.active = false → v.lane.bcnt < n → v'.lane.active = true ∧ v'.lane.bcnt = 0) ∧
    (v.lane.active = false → n ≤ v.lane.bcnt → v'.lane.active = false ∧ v'.lane.bcnt = v.lane.bcnt - n) := by
  obtain ⟨hleft, htaken⟩ := (v.withOff off).decr_cases n
  rw [h]
  refine ⟨fun hact => ?_, fun hact hlt => ?_, fun hact hle => ?_⟩
  · rw [hleft (.inr hact)]
    exact ⟨hact, rfl⟩
  · rw [(htaken hoff hact).1 hlt]
    exact ⟨rfl, rfl⟩
  · rw [(htaken hoff hact).2 hle]
    exact ⟨hact, rfl⟩

/-- The branch operation leaves a loop-inactive processor alone (R404). -/
theorem Voter.branches.loopInactive (h : v.branches f jump v') (hoff : v.lane.loopOff.isSome = true) : v' = v := by
  unfold Voter.branches at h
  split at h
  · exact h
  · obtain ⟨max, h⟩ := h
    exact incr_skips h (.inl hoff)
  · exact h.trans ((v.decr_cases _).1 (.inl hoff))

/-- The branch operation on a processor of the vote, once step 7 of R382 has left its loop-inactive state. -/
theorem Voter.branches.branched (hv : v.voter = v.votes f) (h : (v.withOff off).branches f jump v') :
    branched f (jump = true) v off v'.lane := by
  refine ⟨by rw [h.kept]; rfl, fun hoff => ?_, fun hoff b hyes hno => ?_⟩
  · rw [h.loopInactive hoff]
    exact ⟨rfl, rfl⟩
  · have hop : (if jump = true then f.bOp1 else f.bOp0) = b := by
      cases jump with
      | true => exact (hyes rfl).symm
      | false => exact (hno Bool.false_ne_true).symm
    unfold Voter.branches at h
    rw [hop] at h
    refine ⟨?_, ?_, ?_⟩
    · rintro rfl
      rw [h]
      exact ⟨rfl, rfl⟩
    · rintro rfl
      obtain ⟨max, h⟩ := h
      exact incr_branched hv hoff h
    · rintro rfl
      exact decr_branched _ hoff h

end

end Sys2Proof.Machine
end

section
/-! SUPPORT. The loop operations of a flow-control instruction by what they answer and where they are stuck (R404, R405, R411 to R417),
and the constants that it reads (R81, R95, R385, R408). -/

namespace Sys2Proof.Machine

/-! ## Constants (R81, R95) -/

/-- Constant n under this descriptor has a byte at an unmapped address (R81). -/
def constUnmapped (p : Platform) (d : Desc) (n : Nat) : Prop :=
  ∃ as, elementAddrs d none n 0 = .ok as ∧ ∃ a ∈ as, p.mapped a = false

theorem map_eq_error {α β : Type} {r : Res α} {u : α → β} {e : Stop} : r.map u = .error e ↔ r = .error e := by
  rcases r with x | a
  · exact ⟨fun h => congrArg Except.error (Except.error.inj h), fun h => congrArg Except.error (Except.error.inj h)⟩
  · exact ⟨fun h => (nomatch h), fun h => (nomatch h)⟩

section
variable {p : Platform} {mem m : MemSys} {d : Desc} {n : Nat}

theorem readElement_stuck_iff {k : ReadClient} :
    readElement p mem k d none n 0 = .error (.stuck m) ↔ m = mem ∧ constUnmapped p d n := by
  refine ⟨readElement_eq_stuck, ?_⟩
  rintro ⟨rfl, as, he, a, ha, hm⟩
  exact readElement_unmapped he ha hm

theorem readConsti_stuck_iff : readConsti p mem d n = .error (.stuck m) ↔ m = mem ∧ constUnmapped p d n := by
  rw [readConsti, map_eq_error, readElement_stuck_iff]

theorem readConstb_stuck_iff : readConstb p mem d n = .error (.stuck m) ↔ m = mem ∧ constUnmapped p d n := by
  rw [readConstb, map_eq_error, readElement_stuck_iff]

variable {f : FcInst}

/-- A flow-control instruction is stuck at its boolean where it depends on one that is unmapped (R81, R385). -/
theorem fcBoolean_stuck_iff :
    fcBoolean p d f mem = .error (.stuck m) ↔
      m = mem ∧ funcDepends f.jumpFunc 0 = true ∧ constUnmapped p d f.boolAddr.toNat := by
  unfold fcBoolean
  split
  · next h => rw [readConstb_stuck_iff, and_iff_right h]
  · next h => exact ⟨fun hr => (nomatch hr), fun ⟨_, hdep, _⟩ => absurd hdep h⟩

/-- The read of its boolean fills the boolean constant cache and touches nothing else (R95, R385). -/
theorem fcBoolean_eq_ok {b : Bool} (h : fcBoolean p d f mem = .ok (b, m)) :
    ∃ k, m = { mem with constb := k } ∧ mem.constb.filled k mem.ram := by
  unfold fcBoolean at h
  split at h
  · exact readConstb_eq_ok h
  · obtain ⟨rfl, rfl⟩ := Prod.mk.inj (Except.ok.inj h)
    exact ⟨_, rfl, ReadCache.filled_refl _ _⟩

end

/-! ## What the loop operations answer -/

/-- The second processors are the first ones but for the loop-inactive state (R404). -/
def offOnly (vs vs' : List Voter) : Prop := ∃ off : Voter → Option (OffKind × Nat), vs' = vs.map fun v => v.withOff (off v)

theorem offOnly_refl (vs : List Voter) : offOnly vs vs := ⟨fun v => v.lane.loopOff, (List.map_id vs).symm⟩

theorem offOnly_popFrame (depth : Nat) (vs : List Voter) :
    offOnly vs (vs.map fun v => { v with lane := v.lane.popFrame depth }) :=
  ⟨fun v => popped depth v.lane.loopOff, List.map_congr_left fun v _ => by rw [Lane.popFrame_eq]; rfl⟩

theorem offOnly_leave (kind : OffKind) (depth : Nat) (vs : List Voter) : offOnly vs (vs.map (Voter.leave kind depth)) := by
  refine ⟨fun v => if v.voter && v.want then some (kind, depth) else v.lane.loopOff, List.map_congr_left fun v _ => ?_⟩
  cases h : v.voter && v.want with
  | true => simp only [Voter.leave, Voter.withOff, h, if_true]
  | false => simp only [Voter.leave, Voter.withOff, h, Bool.false_eq_true, if_false]

theorem topFrame_eq_ok {g : Group} {kind : FrameKind} {fr : Frame} :
    topFrame g (some kind) = .ok fr ↔
      g.env.prog.fullMode = true ∧ (∃ rest, g.loopStack = fr :: rest) ∧ fr.kind = kind := by
  constructor
  · intro h
    obtain ⟨hmode, rest, hst⟩ := (leaves_topFrame (stuck := fun _ => True) g _).1 fr h
    refine ⟨hmode, ⟨rest, hst⟩, ?_⟩
    by_contra hk
    rw [topFrame_wrong hst hk] at h
    cases h
  · rintro ⟨hmode, ⟨rest, hst⟩, rfl⟩
    simp only [topFrame, hmode, hst, or_true, if_true]

section
variable {p : Platform} {g : Group} {kind : FrameKind} {f : FcInst} {vs : List Voter} {mem m : MemSys} {r : LoopResult}

/-- The frame that LOOP and REP push (R411, R413). -/
def newFrame (kind : FrameKind) (n : Nat × Int × Int) : Frame :=
  { kind := kind, count := n.1, aL := match kind with | .loop => n.2.1 | .rep => 0 }

/-- LOOP and REP read the integer constant, and push their frame unless they jump (R411, R413). -/
theorem beginLoop_eq_ok (h : beginLoop p g kind f vs mem = .ok r) :
    ∃ n, readConsti p mem g.env.descs.consti f.intAddr.toNat = .ok (n, r.mem) ∧ r.voters = vs ∧
      (r.jump = true → r.stack = g.loopStack) ∧ (r.jump = false → r.stack = newFrame kind n :: g.loopStack) := by
  rw [beginLoop, bind_eq_ok] at h
  obtain ⟨⟨n, m1⟩, hread, h⟩ := h
  dsimp only at h
  split at h
  · obtain rfl := Except.ok.inj h
    exact ⟨n, hread, rfl, fun _ => rfl, fun h => (nomatch h)⟩
  · rw [bind_eq_ok] at h
    obtain ⟨st, hpush, h⟩ := h
    obtain rfl := Except.ok.inj h
    refine ⟨n, hread, rfl, fun h => (nomatch h), fun _ => ?_⟩
    unfold pushFrame at hpush
    split at hpush
    · exact (Except.ok.inj hpush).symm
    · cases hpush

/-- ENDLOOP and ENDREP: the frame is popped, or goes on with one iteration less and, for ENDLOOP, with aL moved by the increment
(R412, R414). -/
theorem endLoop_eq_ok (h : endLoop p g kind f vs mem = .ok r) :
    ∃ fr rest, g.loopStack = fr :: rest ∧ offOnly vs r.voters ∧
      (r.jump = false → r.stack = rest ∧ r.mem = mem) ∧
      (r.jump = true → kind = .rep → r.stack = { fr with count := fr.count - 1 } :: rest ∧ r.mem = mem) ∧
      (r.jump = true → kind = .loop → ∃ n, readConsti p mem g.env.descs.consti f.intAddr.toNat = .ok (n, r.mem) ∧
        r.stack = { fr with count := fr.count - 1, aL := fr.aL + n.2.2 } :: rest) := by
  rw [endLoop, bind_eq_ok] at h
  obtain ⟨fr, htop, h⟩ := h
  obtain ⟨-, ⟨rest, hst⟩, -⟩ := topFrame_eq_ok.1 htop
  have htail : g.loopStack.tail = rest := by rw [hst]; rfl
  rw [htail] at h
  refine ⟨fr, rest, hst, ?_⟩
  dsimp only at h
  split at h
  · cases kind with
    | loop =>
      rw [bind_eq_ok] at h
      obtain ⟨⟨n, m1⟩, hread, h⟩ := h
      obtain rfl := Except.ok.inj h
      exact ⟨offOnly_refl vs, fun h => (nomatch h), fun _ h => (nomatch h), fun _ _ => ⟨n, hread, rfl⟩⟩
    | rep =>
      obtain rfl := Except.ok.inj h
      exact ⟨offOnly_refl vs, fun h => (nomatch h), fun _ _ => ⟨rfl, rfl⟩, fun _ h => (nomatch h)⟩
  · obtain rfl := Except.ok.inj h
    exact ⟨offOnly_popFrame _ vs, fun _ => ⟨rfl, rfl⟩, fun h => (nomatch h), fun h => (nomatch h)⟩

/-- BREAKLOOP and BREAKREP pop the frame where they jump (R415, R416). -/
theorem breakLoop_eq_ok (h : breakLoop g kind f vs mem = .ok r) :
    r.mem = mem ∧ offOnly vs r.voters ∧
      (r.jump = true → r.stack = g.loopStack.tail) ∧ (r.jump = false → r.stack = g.loopStack) := by
  rw [breakLoop, bind_eq_ok] at h
  obtain ⟨fr, -, h⟩ := h
  dsimp only at h
  split at h
  · obtain rfl := Except.ok.inj h
    exact ⟨rfl, offOnly_popFrame _ vs, fun _ => rfl, fun h => (nomatch h)⟩
  · obtain rfl := Except.ok.inj h
    exact ⟨rfl, offOnly_leave _ _ vs, fun h => (nomatch h), fun _ => rfl⟩

/-- CONTINUE pops nothing (R417). -/
theorem continueLoop_eq_ok (h : continueLoop g f vs mem = .ok r) :
    r.mem = mem ∧ offOnly vs r.voters ∧ r.stack = g.loopStack := by
  rw [continueLoop, bind_eq_ok] at h
  obtain ⟨fr, -, h⟩ := h
  dsimp only at h
  split at h
  · obtain rfl := Except.ok.inj h
    exact ⟨rfl, offOnly_refl vs, rfl⟩
  · obtain rfl := Except.ok.inj h
    exact ⟨rfl, offOnly_leave _ _ vs, rfl⟩

/-- The second memory is the first one but for integer constants that the cache has taken in (R95). -/
def constiFilled (mem m : MemSys) : Prop := ∃ k, m = { mem with consti := k } ∧ mem.consti.filled k mem.ram

theorem constiFilled_refl (mem : MemSys) : constiFilled mem mem := ⟨_, rfl, ReadCache.filled_refl _ _⟩

/-- A loop operation changes of the processors no more than the loop-inactive state, and of memory no more than the integer constant
cache. -/
theorem fcLoop_keeps {op : FcOp} (h : fcLoop p g op f vs mem = .ok r) : offOnly vs r.voters ∧ constiFilled mem r.mem := by
  have begins : ∀ {kind}, beginLoop p g kind f vs mem = .ok r → offOnly vs r.voters ∧ constiFilled mem r.mem := by
    intro kind h
    obtain ⟨n, hread, hvs, -⟩ := beginLoop_eq_ok h
    exact ⟨hvs ▸ offOnly_refl vs, readConsti_eq_ok hread⟩
  have same : r.mem = mem → constiFilled mem r.mem := fun hm => hm ▸ constiFilled_refl mem
  have ends : ∀ {kind}, endLoop p g kind f vs mem = .ok r → offOnly vs r.voters ∧ constiFilled mem r.mem := by
    intro kind h
    obtain ⟨fr, rest, -, hvs, hpop, hrep, hloop⟩ := endLoop_eq_ok h
    refine ⟨hvs, ?_⟩
    cases hj : r.jump with
    | false => exact same (hpop hj).2
    | true =>
      cases kind with
      | rep => exact same (hrep hj rfl).2
      | loop =>
        obtain ⟨n, hread, -⟩ := hloop hj rfl
        exact readConsti_eq_ok hread
  have breaks : ∀ {kind}, breakLoop g kind f vs mem = .ok r → offOnly vs r.voters ∧ constiFilled mem r.mem := by
    intro kind h
    obtain ⟨hm, hvs, -⟩ := breakLoop_eq_ok h
    exact ⟨hvs, same hm⟩
  cases op with
  | jump =>
    obtain rfl := Except.ok.inj h
    exact ⟨offOnly_refl vs, constiFilled_refl mem⟩
  | loop => exact begins (kind := .loop) h
  | rep => exact begins (kind := .rep) h
  | endloop => exact ends (kind := .loop) h
  | endrep => exact ends (kind := .rep) h
  | breakloop => exact breaks (kind := .loop) h
  | breakrep => exact breaks (kind := .rep) h
  | cont =>
    obtain ⟨hm, hvs, -⟩ := continueLoop_eq_ok h
    exact ⟨hvs, same hm⟩

/-! ## Where the loop operations are stuck -/

/-- LOOP and REP are stuck at their integer constant. -/
theorem beginLoop_stuck_iff :
    beginLoop p g kind f vs mem = .error (.stuck m) ↔
      readConsti p mem g.env.descs.consti f.intAddr.toNat = .error (.stuck m) := by
  rw [beginLoop, bind_eq_stuck]
  refine or_iff_left ?_
  rintro ⟨⟨n, m1⟩, -, h⟩
  dsimp only at h
  split at h
  · cases h
  · rw [bind_eq_stuck] at h
    rcases h with h | ⟨st, -, h⟩
    · exact (leaves_pushFrame (stuck := fun _ => False) g _).2 m h
    · cases h

/-- An ENDLOOP that jumps is stuck at its integer constant; no other ENDLOOP or ENDREP is. -/
theorem endLoop_stuck_iff :
    endLoop p g kind f vs mem = .error (.stuck m) ↔
      kind = .loop ∧ (∃ fr, topFrame g (some .loop) = .ok fr ∧ fr.count - 1 ≠ 0 ∧ vote f vs = true) ∧
        readConsti p mem g.env.descs.consti f.intAddr.toNat = .error (.stuck m) := by
  rw [endLoop, bind_eq_stuck, or_iff_right fun h => (leaves_topFrame (stuck := fun _ => False) g _).2 m h]
  constructor
  · rintro ⟨fr, htop, h⟩
    dsimp only at h
    split at h
    · next hj =>
      rw [Bool.and_eq_true, bne_iff_ne] at hj
      cases kind with
      | rep => cases h
      | loop =>
        rw [bind_eq_stuck] at h
        rcases h with h | ⟨n, -, h⟩
        · exact ⟨rfl, ⟨fr, htop, hj⟩, h⟩
        · cases h
    · cases h
  · rintro ⟨rfl, ⟨fr, htop, hj⟩, hread⟩
    refine ⟨fr, htop, ?_⟩
    dsimp only
    rw [if_pos (by rwa [Bool.and_eq_true, bne_iff_ne]), hread, error_bind]

theorem breakLoop_not_stuck : breakLoop g kind f vs mem ≠ .error (.stuck m) := by
  intro h
  refine ((leaves_topFrame (stuck := fun _ => False) g _).bind (ok' := fun _ => True) fun fr _ => ?_).2 m h
  dsimp only
  split <;> exact (leaves_ok _).2 trivial

theorem continueLoop_not_stuck : continueLoop g f vs mem ≠ .error (.stuck m) := by
  intro h
  refine ((leaves_topFrame (stuck := fun _ => False) g _).bind (ok' := fun _ => True) fun fr _ => ?_).2 m h
  dsimp only
  split <;> exact (leaves_ok _).2 trivial

end

section
variable {s : State} {f : FcInst}

/-- The instructions that read their integer constant: LOOP, REP and an ENDLOOP that jumps (R408, R411 to R413). -/
def FcPlaced.readsInteger (c : FcPlaced s f) (op : FcOp) : Prop :=
  op = .loop ∨ op = .rep ∨ (op = .endloop ∧ c.g.env.prog.fullMode = true ∧ ∃ fr rest, c.g.loopStack = fr :: rest ∧
    fr.kind = .loop ∧ fr.count - 1 ≠ 0 ∧ decides f (c.voters op))

/-- A loop operation is stuck exactly where it reads an integer constant that is unmapped (R81, R408). -/
theorem FcPlaced.loop_stuck_iff (c : FcPlaced s f) {op : FcOp} {m : MemSys} :
    fcLoop s.platform c.g op f (c.voters op) c.mem = .error (.stuck m) ↔
      m = c.mem ∧ c.readsInteger op ∧ constUnmapped s.platform c.g.env.descs.consti f.intAddr.toNat := by
  have hvote : vote f (c.voters op) = true ↔ decides f (c.voters op) := vote_iff fun v hv => fcVoters_voter hv
  have begins : ∀ {kind}, c.readsInteger op →
      (beginLoop s.platform c.g kind f (c.voters op) c.mem = .error (.stuck m) ↔
        m = c.mem ∧ c.readsInteger op ∧ constUnmapped s.platform c.g.env.descs.consti f.intAddr.toNat) := fun h => by
    rw [beginLoop_stuck_iff, readConsti_stuck_iff, and_iff_right h]
  have never : ∀ {res : Res LoopResult}, res ≠ .error (.stuck m) → ¬ c.readsInteger op →
      (res = .error (.stuck m) ↔
        m = c.mem ∧ c.readsInteger op ∧ constUnmapped s.platform c.g.env.descs.consti f.intAddr.toNat) :=
    fun hres hno => ⟨fun h => absurd h hres, fun ⟨_, h, _⟩ => absurd h hno⟩
  cases op with
  | loop => exact begins (.inl rfl)
  | rep => exact begins (.inr (.inl rfl))
  | jump => exact never (fun h => (nomatch h)) (by simp [FcPlaced.readsInteger])
  | breakloop => exact never breakLoop_not_stuck (by simp [FcPlaced.readsInteger])
  | breakrep => exact never breakLoop_not_stuck (by simp [FcPlaced.readsInteger])
  | cont => exact never continueLoop_not_stuck (by simp [FcPlaced.readsInteger])
  | endrep => exact never (fun h => nomatch (endLoop_stuck_iff (p := s.platform).1 h).1) (by simp [FcPlaced.readsInteger])
  | endloop =>
    refine endLoop_stuck_iff.trans ?_
    rw [and_iff_right rfl, readConsti_stuck_iff, and_left_comm]
    refine and_congr_right fun _ => and_congr_left fun _ => ?_
    simp only [FcPlaced.readsInteger, reduceCtorEq, false_or, true_and, topFrame_eq_ok, hvote]
    constructor
    · rintro ⟨fr, ⟨hmode, ⟨rest, hst⟩, hk⟩, hcount, hd⟩
      exact ⟨hmode, fr, rest, hst, hk, hcount, hd⟩
    · rintro ⟨hmode, fr, rest, hst, hk, hcount, hd⟩
      exact ⟨fr, ⟨hmode, ⟨rest, hst⟩, hk⟩, hcount, hd⟩

end

end Sys2Proof.Machine
end

section
/-! SUPPORT. A flow-control instruction as a whole (R382): what it answers and where it is stuck, for any state; where it goes
(R392, R393); and what it leaves where its group can execute it. -/

namespace Sys2Proof.Machine

/-! ## What a flow-control instruction can do (R81, R382) -/

theorem Group.aluWait_results {g g' : Group} {wait : Bool} {uses : List AluItem} (h : g.aluWait wait uses = .ok g') :
    wait = true ∨ ∀ u ∈ uses, u ∉ g.aluPending := by
  unfold Group.aluWait at h
  split at h
  · next hw => exact .inl hw
  · split at h
    · cases h
    · next hu =>
      refine .inr fun u hmem hpending => hu (List.any_eq_true.2 ⟨u, hmem, ?_⟩)
      simpa using hpending

theorem Group.semWait_erratum {g g' : Group} {wait : Bool} (h : g.semWait wait = .ok g') : wait = true → g.erratum = false := by
  rintro rfl
  rw [Group.semWait, if_pos rfl] at h
  split at h
  · cases h
  · next he => exact Bool.eq_false_iff.2 he

/-- A result as what it is, where the memory of a stuck agent has the property. -/
theorem leaves_of_stuck {α : Type} {r : Res α} {stuck : MemSys → Prop} (h : ∀ m, r = .error (.stuck m) → stuck m) :
    Leaves r (fun a => r = .ok a) stuck :=
  ⟨fun _ => id, h⟩

/-- What a flow-control instruction answers comes from its loop operation, its address-stack operation and its branch operation; it is
stuck at its boolean or in its loop operation. -/
theorem runFc_leaves (op : FcOp) (f : FcInst) (s : State) :
    Leaves (runFc op f s)
      (fun _ => ∃ (c : FcCase s f) (r : LoopResult) (tgt : Nat × List Nat) (vs : List Voter),
        fcLoop s.platform c.g op f (c.voters op) c.mem = .ok r ∧ fcTarget c.g f r.jump = .ok tgt ∧
        branchOp c.g f r.jump r.voters = .ok vs)
      fun m => (∃ c : FcFields s f, fcBoolean s.platform c.g.env.descs.constb f s.mem = .error (.stuck m)) ∨
        ∃ c : FcPlaced s f, fcLoop s.platform c.g op f (c.voters op) c.mem = .error (.stuck m) := by
  refine (leaves_current s).bind fun ⟨k, g⟩ ⟨hturn, hgroup, hrun⟩ =>
    (leaves_of_stuck (leaves_aluWait ..).2).bind fun g1 hwait => ?_
  have hresults := Group.aluWait_results hwait
  obtain rfl := Group.aluWait_eq_ok hwait
  refine (leaves_of_stuck (leaves_semWait ..).2).bind fun g2 hsem => ?_
  have herratum := Group.semWait_erratum hsem
  obtain rfl := Group.semWait_eq_ok hsem
  let fields : FcFields s f :=
    { k := k, g := g, turn := hturn, group := hgroup, running := hrun, results := hresults, erratum := herratum }
  refine (leaves_of_stuck fun m h => .inl ⟨fields, h⟩).bind fun ⟨b, mem⟩ hbool => (leaves_require ..).bind fun _ hwf => ?_
  let placed : FcPlaced s f :=
    { fields with boolean := b, mem := mem, bool := hbool, fields := by simpa only [FcInst.wellFormed, bne_iff_ne] using hwf }
  refine (leaves_of_stuck fun m h => .inr ⟨placed, h⟩).bind fun r hloop =>
    (leaves_of_stuck (leaves_fcTarget ..).2).bind fun tgt htarget =>
    (leaves_of_stuck (leaves_branchOp ..).2).bind fun vs hbranch => (leaves_require ..).bind fun _ hend => (leaves_ok _).2 ?_
  exact ⟨{ placed with notEnd := (Bool.not_eq_true' g.atEnd).mp hend }, r, tgt, vs, hloop, htarget, hbranch⟩

/-! ## Where a flow-control instruction goes (R392, R393) -/

section
variable {s : State} {f : FcInst}

/-- A flow-control instruction goes where its decision says. -/
theorem FcPlaced.goes_after (c : FcPlaced s f) {r : LoopResult} {tgt : Nat × List Nat} (vs : List Voter)
    (h : fcTarget c.g f r.jump = .ok tgt) : c.goes (r.jump = true) (c.after r tgt vs) := by
  refine ⟨fun hj => ?_, fun hj => ?_, rfl, rfl⟩
  · rw [hj, fcTarget, if_pos rfl] at h
    dsimp only at h
    cases hop : f.aOp with
    | none =>
      rw [hop] at h
      obtain rfl := Except.ok.inj h
      exact ⟨fun h => (nomatch h), fun _ => rfl, fun h => (nomatch h), fun _ => rfl⟩
    | push =>
      rw [hop] at h
      dsimp only at h
      split at h
      · obtain rfl := Except.ok.inj h
        exact ⟨fun h => (nomatch h), fun _ => rfl, fun _ => rfl, fun h => (nomatch h)⟩
      · cases h
    | pop =>
      rw [hop] at h
      dsimp only at h
      split at h
      · cases h
      · next a rest hst =>
        split at h
        · obtain rfl := Except.ok.inj h
          exact ⟨fun _ => ⟨rest, hst, rfl⟩, fun h => absurd rfl h, fun h => (nomatch h), fun h => (nomatch h)⟩
        · cases h
  · rw [Bool.not_eq_true] at hj
    rw [hj] at h
    obtain rfl := Except.ok.inj h
    exact ⟨rfl, rfl⟩

/-! ## What an instruction leaves that its group can execute -/

/-- The state after a flow-control instruction, given what steps 6 to 9 of R382 answer. -/
def FcPlaced.next (c : FcPlaced s f) (r : LoopResult) (tgt : Nat × List Nat) (vs : List Voter) : State :=
  { s with
    mem := r.mem, groups := s.groups.set c.k (c.after r tgt vs), draws := s.draws + drawsPerLane * c.g.lanes.length }

theorem FcPlaced.group_next (c : FcPlaced s f) {r : LoopResult} {tgt : Nat × List Nat} {vs : List Voter} :
    (c.next r tgt vs).groups[c.k]? = some (c.after r tgt vs) := by
  obtain ⟨hk, -⟩ := List.getElem?_eq_some_iff.1 c.group
  exact List.getElem?_set_self hk

theorem FcCase.run_next (c : FcCase s f) {op : FcOp} {r : LoopResult} {tgt : Nat × List Nat} {vs : List Voter}
    (hl : fcLoop s.platform c.g op f (c.voters op) c.mem = .ok r) (ht : fcTarget c.g f r.jump = .ok tgt)
    (hb : branchOp c.g f r.jump r.voters = .ok vs) : runFc op f s = .ok (c.next r tgt vs) := by
  rw [c.run op hl ht hb, c.notEnd, if_neg Bool.false_ne_true]
  rfl

/-- The claim about a flow-control instruction whose loop operation answers `r`: its memory, the other groups, where its group goes,
its loop stack, and each of its processors after the branch operation. -/
def FcPlaced.outcome (c : FcPlaced s f) (op : FcOp) (r : LoopResult) (t : State) : Prop :=
  t = { s with mem := r.mem, groups := t.groups, draws := t.draws } ∧ othersKept s t c.k ∧
  ∃ g, t.groups[c.k]? = some g ∧ c.goes (r.jump = true) g ∧ g.loopStack = r.stack ∧
    List.Forall₂ (fun v l => branched f (r.jump = true) v (c.offAfter op r.jump v) l) (c.voters op) g.lanes

/-- A flow-control instruction that its group can execute, that comes to its address-stack operation and that has room completes. -/
theorem FcCase.completes {i : Instr} {op : FcOp} (c : FcCase s f) (hi : i.fc? = some (op, f)) {jump : Prop}
    (hdec : c.decided op jump) (hroom : c.room jump) :
    ∃ r, fcLoop s.platform c.g op f (c.voters op) c.mem = .ok r ∧ jump = (r.jump = true) ∧ Completes i s (c.outcome op r) := by
  obtain ⟨b, rfl⟩ : ∃ b : Bool, jump = (b = true) := by
    by_cases hj : jump
    · exact ⟨true, propext (iff_of_true hj rfl)⟩
    · exact ⟨false, propext (iff_of_false hj Bool.false_ne_true)⟩
  obtain ⟨r, hl, rfl, hvs⟩ := c.loop hdec
  obtain ⟨tgt, ht⟩ := c.target_ok fun hj => (hroom.1 hj).1
  obtain ⟨vs, hb⟩ := c.branch_ok hroom hvs
  have hrun : exec i s = .next (c.next r tgt vs) := by rw [exec_fc hi, c.run_next hl ht hb, conclude_ok]
  refine ⟨r, hl, rfl, _, hrun, rfl, othersKept_set rfl, c.after r tgt vs, c.group_next, c.goes_after vs ht, rfl, ?_⟩
  have hbranches := branchOp_eq_ok hb
  rw [hvs] at hbranches
  have hnoted := (List.forall₂_and_left _ _).2
    ⟨fun v (hv : v ∈ c.voters op) => fcVoters_voter hv, List.forall₂_map_left_iff.1 hbranches⟩
  exact forall₂_mapIdx hnoted fun n v v' ⟨hv, hv'⟩ => Voter.branches.branched hv hv'

end

end Sys2Proof.Machine
end

section
/-! SUPPORT. The eight flow-control operations (R382, R389 to R393, R396 to R399, R404, R405, R410 to R418): each by the next state of
an instruction that its group can execute and by what its loop operation answers. -/

namespace Sys2Proof.Machine

/-! ## Memory, and the loop-inactive state -/

section
variable {s t : State} {f : FcInst} {r : LoopResult}

/-- An instruction that reads an integer constant changes of memory no more than the two constant caches, which it fills (R95). -/
theorem FcPlaced.constants_kept (c : FcPlaced s f) (hm : constiFilled c.mem r.mem)
    (ht : t = { s with mem := r.mem, groups := t.groups, draws := t.draws }) :
    t = { s with mem.constb := t.mem.constb, mem.consti := t.mem.consti, groups := t.groups, draws := t.draws } ∧ sameRam s t ∧
      s.mem.constb.filled t.mem.constb s.mem.ram ∧ s.mem.consti.filled t.mem.consti s.mem.ram := by
  obtain ⟨kb, hcb, hb⟩ := fcBoolean_eq_ok c.bool
  obtain ⟨ki, hri, hi⟩ := hm
  rw [hcb] at hri hi
  have hmem : t.mem = { s.mem with constb := kb, consti := ki } := (congrArg State.mem ht).trans hri
  refine ⟨?_, fun a => by rw [hmem], by rw [hmem]; exact hb, by rw [hmem]; exact hi⟩
  rw [hri] at ht
  rw [hmem]
  exact ht

/-- One that reads none changes no more than the boolean constant cache, which it fills (R95). -/
theorem FcPlaced.boolean_kept (c : FcPlaced s f) (hm : r.mem = c.mem)
    (ht : t = { s with mem := r.mem, groups := t.groups, draws := t.draws }) :
    t = { s with mem.constb := t.mem.constb, groups := t.groups, draws := t.draws } ∧ sameRam s t ∧
      s.mem.constb.filled t.mem.constb s.mem.ram := by
  obtain ⟨kb, hcb, hb⟩ := fcBoolean_eq_ok c.bool
  have hmem : t.mem = { s.mem with constb := kb } := (congrArg State.mem ht).trans (hm.trans hcb)
  refine ⟨?_, fun a => by rw [hmem], by rw [hmem]; exact hb⟩
  rw [hm, hcb] at ht
  rw [hmem]
  exact ht

/-- JUMP, LOOP and REP disable and re-enable no processor. -/
theorem FcPlaced.offAfter_begin (c : FcPlaced s f) {op : FcOp} (hop : op = .jump ∨ op = .loop ∨ op = .rep) (jump : Bool)
    (v : Voter) : c.offAfter op jump v = v.lane.loopOff := by
  rcases hop with rfl | rfl | rfl <;> cases jump <;> rfl

/-- A popped frame leaves no processor disabled in it (R404). -/
theorem popped_ne (depth : Nat) (off : Option (OffKind × Nat)) (k : OffKind) : popped depth off ≠ some (k, depth) := by
  rcases off with _ | ⟨k', d⟩
  · exact fun h => (nomatch h)
  · simp only [popped]
    split_ifs with hd
    · exact fun h => (nomatch h)
    · exact fun h => hd (Prod.mk.inj (Option.some.inj h)).2

end

/-! ## JUMP (R397 to R399, R410) -/

/-- Settles O39: what a processor wants by the inputs that JUMP_FUNC depends on, and the next state of a jump. -/
theorem jumpFollowsTheVote : Obligations.JumpFollowsTheVote := by
  refine ⟨fun f boolean l hsel => ?_, fun f s c hroom => ?_⟩
  · intro depends predicate
    have hpred : predEn l f.predSel f.predInv .r = predicate := predEn_replicate l f.predSel f.predInv .r hsel
    obtain ⟨ha, ha0⟩ := funcDepends_and f.jumpFunc 2 l.ar
    obtain ⟨hp, hp0⟩ := funcDepends_and f.jumpFunc 1 (predEn l f.predSel f.predInv .r)
    obtain ⟨hb, hb0⟩ := funcDepends_and f.jumpFunc 0 boolean
    refine ⟨_, _, _, ?_, ha, ha0, fun h => (hp h).trans hpred, hp0, hb, hb0⟩
    rw [jumpWant, Nat.mul_comm 4, Nat.mul_comm 2]
  · obtain ⟨r, hl, hj, hc⟩ := c.completes (i := .fcJump f) (op := .jump) rfl Iff.rfl hroom
    refine hc.mono fun t ⟨ht, hothers, g, hg, hgoes, hst, _⟩ => ?_
    obtain rfl := Except.ok.inj hl
    obtain ⟨hkept, hram, hfilled⟩ := c.boolean_kept rfl ht
    rw [hj]
    exact ⟨hkept, hram, hothers, hfilled, g, hg, hgoes, hst⟩

/-- Settles O44: a processor after a jump is what `branched` says of it. -/
theorem branchCountersFollowTheDecision : Obligations.BranchCountersFollowTheDecision := by
  intro f s c hroom jump hjump n v hv
  rw [← hjump] at hroom
  obtain ⟨r, -, hj, hc⟩ := c.completes (i := .fcJump f) (op := .jump) rfl hjump hroom
  have hwant : ∀ w : Bool, (w = true ↔ (r.jump = true)) ↔ w = jump := fun w => by
    rw [← hj]
    exact Bool.eq_iff_iff.symm
  refine hc.mono fun t ⟨_, _, g, hg, _, _, hlanes⟩ => ?_
  obtain ⟨l, hl, -, hoff, hin⟩ := forall₂_getElem? hlanes hv
  rw [c.offAfter_begin (.inl rfl)] at hoff hin
  refine ⟨l, ⟨g, hg, hl⟩, hoff, fun hnone => ?_⟩
  obtain ⟨hstay, hincr, hdecr⟩ := hin hnone (if jump = true then f.bOp1 else f.bOp0)
    (fun h => if_pos (hj.mpr h)) (fun h => if_neg (fun h' => h (hj.mp h')))
  refine ⟨hstay, fun hop => ?_, fun hop => ?_⟩
  · obtain ⟨hex, hinactive, hleaves, hkeeps⟩ := hincr hop
    exact ⟨hex, hinactive, fun hact hvote hne => hleaves hact hvote (mt (hwant _).1 hne),
      fun hact h => hkeeps hact (h.imp_right (hwant _).2)⟩
  · obtain ⟨hactive, hlow, hhigh⟩ := hdecr hop
    exact ⟨hlow, hhigh, hactive⟩

/-! ## LOOP and REP (R411, R413) -/

/-- Settles O40: the frame of `beginLoop_eq_ok`. -/
theorem loopAndRepPush : Obligations.LoopAndRepPush := by
  intro i op f s hi hop c count a0 d mem hread jump hpush hroom
  have hdec : c.decided op jump := by
    rcases hop with rfl | rfl <;> exact ⟨count, ⟨a0, d, mem, hread⟩, Iff.rfl, hpush⟩
  obtain ⟨r, hl, hj, hc⟩ := c.completes hi hdec hroom
  have hbegin : beginLoop s.platform c.g (if op = .loop then .loop else .rep) f (c.voters op) c.mem = .ok r := by
    rcases hop with rfl | rfl <;> exact hl
  obtain ⟨n, hn, -, hstay, hnew⟩ := beginLoop_eq_ok hbegin
  obtain rfl : (count, a0, d) = n := (Prod.mk.inj (Except.ok.inj (hread.symm.trans hn))).1
  clear_value jump
  subst hj
  refine hc.mono fun t ⟨ht, hothers, g, hg, hgoes, hst, hlanes⟩ => ?_
  obtain ⟨hkept, hram, hb, hi⟩ := c.constants_kept (fcLoop_keeps hl).2 ht
  refine ⟨hkept, hram, hothers, hb, hi, g, hg, hgoes, fun h => hst.trans (hstay h), fun h => ?_, fun m v hv => ?_⟩
  · rw [hst, hnew (Bool.eq_false_iff.2 h)]
    rcases hop with rfl | rfl <;> rfl
  · obtain ⟨l, hlane, hbranched⟩ := forall₂_getElem? hlanes hv
    rw [c.offAfter_begin (.inr hop)] at hbranched
    exact ⟨l, hlane, hbranched⟩

/-! ## ENDLOOP and ENDREP (R412, R414) -/

section
variable {s : State} {f : FcInst} {op : FcOp}

/-- B_ELSE changes no more of a processor than its active bit and its counter. -/
theorem Voter.flip_kept (v : Voter) :
    v.flip.lane = { v.lane with active := v.flip.lane.active, bcnt := v.flip.lane.bcnt } := by
  unfold Voter.flip
  split_ifs <;> rfl

theorem fcVoter_kept (f : FcInst) (boolean : Bool) (l : Lane) :
    (fcVoter f boolean l).lane =
      { l with active := (fcVoter f boolean l).lane.active, bcnt := (fcVoter f boolean l).lane.bcnt } := by
  cases helse : f.bElse with
  | false => rw [fcVoter_of_no_else boolean helse]; rfl
  | true =>
    have hflip : (fcVoter f boolean l).lane =
        (Voter.flip { lane := l, want := jumpWant f boolean l, byElse := false, voter := false }).lane := by
      simp only [fcVoter, helse, if_true, Voter.register]
    rw [hflip]
    exact Voter.flip_kept _

/-- ENDLOOP and ENDREP re-enable the processors that a CONTINUE disabled in the top frame before the vote (R404, R412). -/
theorem FcPlaced.voters_end_loopOff (c : FcPlaced s f) (hop : op = .endloop ∨ op = .endrep) {n : Nat} {v : Voter} {l : Lane}
    (hv : (c.voters op)[n]? = some v) (hl : (waited c.g f.semWait)[n]? = some l) :
    v.lane.loopOff = if l.loopOff = some (.cont, c.g.loopStack.length) then none else l.loopOff := by
  have hmap : fcReenable op c.g.loopStack.length (waited c.g f.semWait) =
      (waited c.g f.semWait).map (Lane.endContinue c.g.loopStack.length) := by
    rcases hop with rfl | rfl <;> rfl
  rw [FcPlaced.voters, hmap, fcVoters_eq_map, List.getElem?_map, List.getElem?_map, hl] at hv
  obtain rfl := Option.some.inj hv
  rw [fcVoter_kept, Lane.endContinue]
  split <;> rfl

/-- The pop of a frame re-enables those as well. -/
theorem popped_endContinue (depth : Nat) (off : Option (OffKind × Nat)) :
    popped depth (if off = some (.cont, depth) then none else off) = popped depth off := by
  split_ifs with h
  · rw [h]
    exact (if_pos rfl).symm
  · rfl

end

/-- Settles O41: the frame of `endLoop_eq_ok`, and of each processor its loop-inactive state before the re-enabling. -/
theorem endLoopAndEndRepIterate : Obligations.EndLoopAndEndRepIterate := by
  intro i op kind f s hi hop c fr rest count a0 d mem hmode hst hk jump hread hroom
  have hends : op = .endloop ∨ op = .endrep := hop.imp And.left And.left
  have hdec : c.decided op jump := by
    rcases hop with ⟨rfl, rfl⟩ | ⟨rfl, rfl⟩
    · exact ⟨fr, ⟨hmode, rest, hst⟩, hk, Iff.rfl, fun hj => ⟨count, a0, d, mem, hread hj rfl⟩⟩
    · exact ⟨fr, ⟨hmode, rest, hst⟩, hk, Iff.rfl⟩
  obtain ⟨r, hl, hj, hc⟩ := c.completes hi hdec hroom
  have hend : endLoop s.platform c.g kind f (c.voters op) c.mem = .ok r := by
    rcases hop with ⟨rfl, rfl⟩ | ⟨rfl, rfl⟩ <;> exact hl
  obtain ⟨fr', rest', hst', -, hpop, hrep, hloop⟩ := endLoop_eq_ok hend
  obtain ⟨rfl, rfl⟩ := List.cons.inj (hst'.symm.trans hst)
  have hstays : r.jump = true → ∀ v, c.offAfter op r.jump v = v.lane.loopOff := fun h v => by
    rw [h]
    rcases hends with rfl | rfl <;> rfl
  have hpops : r.jump = false → ∀ v, c.offAfter op r.jump v = popped c.g.loopStack.length v.lane.loopOff := fun h v => by
    rw [h]
    rcases hends with rfl | rfl <;> rfl
  clear_value jump
  subst hj
  refine hc.mono fun t ⟨ht, hothers, g, hg, hgoes, hgst, hlanes⟩ => ?_
  obtain ⟨hkept, hram, hb, hi⟩ := c.constants_kept (fcLoop_keeps hl).2 ht
  have hconsti : c.mem.consti = s.mem.consti := by
    obtain ⟨kb, hcb, -⟩ := fcBoolean_eq_ok c.bool
    rw [hcb]
  have hmem : t.mem = r.mem := congrArg State.mem ht
  refine ⟨hkept, hram, hothers, hb, hi, fun h => ?_, g, hg, hgoes, fun h => ?_, fun h => ?_, fun n v l0 hv hl0 => ?_⟩
  · rw [hmem, ← hconsti]
    cases hjump : r.jump with
    | false => rw [(hpop hjump).2]
    | true => rw [(hrep hjump (h.resolve_right fun hno => hno hjump)).2]
  · rw [hgst]
    cases kind with
    | rep => exact (hrep h rfl).1
    | loop =>
      obtain ⟨n, hn, hnew⟩ := hloop h rfl
      obtain rfl : (count, a0, d) = n := (Prod.mk.inj (Except.ok.inj ((hread h rfl).symm.trans hn))).1
      exact hnew
  · rw [Bool.not_eq_true] at h
    refine ⟨hgst.trans (hpop h).1, fun l hmember o => ?_⟩
    obtain ⟨v, -, hoff, -⟩ := forall₂_mem_right hlanes hmember
    rw [hoff, hpops h]
    exact popped_ne _ _ o
  · obtain ⟨l, hlane, hbranched⟩ := forall₂_getElem? hlanes hv
    have hoff := c.voters_end_loopOff hends hv hl0
    refine ⟨l, hlane, fun h => ?_, fun h => ?_⟩
    · rwa [hstays h, hoff] at hbranched
    · rw [Bool.not_eq_true] at h
      rwa [hpops h, hoff, popped_endContinue] at hbranched

/-! ## BREAKLOOP, BREAKREP and CONTINUE (R415 to R418) -/

/-- Settles O42: the frame of `breakLoop_eq_ok`, and of each processor the pop or the leaving. -/
theorem breakLeavesTheLoop : Obligations.BreakLeavesTheLoop := by
  intro i op kind f s hi hop c fr rest hmode hst hk inhibits jump hroom
  have hbreaks : op = .breakloop ∨ op = .breakrep := hop.imp And.left And.left
  have hinhibits : ∀ v, c.blocks op v ↔ inhibits v := fun v => by
    have hcont : op ≠ .cont := by rcases hbreaks with rfl | rfl <;> decide
    exact or_congr_right (and_iff_right hcont)
  have hdecides : jump ↔ decides f (c.voters op) ∧ ∀ v ∈ c.voters op, ¬ c.blocks op v := by simp only [hinhibits]; rfl
  have hdec : c.decided op jump := by
    rcases hop with ⟨rfl, rfl⟩ | ⟨rfl, rfl⟩ <;> exact ⟨fr, ⟨hmode, rest, hst⟩, hk, hdecides⟩
  obtain ⟨r, hl, hj, hc⟩ := c.completes hi hdec hroom
  have hbreak : breakLoop c.g kind f (c.voters op) c.mem = .ok r := by
    rcases hop with ⟨rfl, rfl⟩ | ⟨rfl, rfl⟩ <;> exact hl
  obtain ⟨hmem, -, hpop, hstay⟩ := breakLoop_eq_ok hbreak
  have hpops : r.jump = true → ∀ v, c.offAfter op r.jump v = popped c.g.loopStack.length v.lane.loopOff := fun h v => by
    rw [h]
    rcases hbreaks with rfl | rfl <;> rfl
  have hleaves : r.jump = false → ∀ v : Voter, c.offAfter op r.jump v =
      if v.votes f = true ∧ v.want = true then some (.brk, c.g.loopStack.length) else v.lane.loopOff := fun h v => by
    rw [h]
    rcases hbreaks with rfl | rfl <;> rfl
  clear_value jump
  subst hj
  refine hc.mono fun t ⟨ht, hothers, g, hg, hgoes, hgst, hlanes⟩ => ?_
  obtain ⟨hkept, hram, hfilled⟩ := c.boolean_kept hmem ht
  refine ⟨hkept, hram, hothers, hfilled, g, hg, hgoes, fun h => ⟨?_, fun l hmember o => ?_⟩, fun h => ?_, fun n v hv => ?_⟩
  · rw [hgst, hpop h, hst]
    rfl
  · obtain ⟨v, -, hoff, -⟩ := forall₂_mem_right hlanes hmember
    rw [hoff, hpops h]
    exact popped_ne _ _ o
  · exact hgst.trans (hstay (Bool.eq_false_iff.2 h))
  · obtain ⟨l, hlane, hbranched⟩ := forall₂_getElem? hlanes hv
    refine ⟨l, hlane, fun h => ?_, fun h => ?_⟩
    · rwa [hpops h] at hbranched
    · rwa [hleaves (Bool.eq_false_iff.2 h)] at hbranched

/-- Settles O43: CONTINUE pops nothing, and only processors with a clear active bit inhibit it. -/
theorem continueSkipsTheRest : Obligations.ContinueSkipsTheRest := by
  intro f s c fr rest hmode hst inhibits jump hroom
  have hinhibits : ∀ v, c.blocks .cont v ↔ inhibits v := fun v => or_iff_left fun ⟨hcont, _⟩ => hcont rfl
  have hdecides : jump ↔ decides f (c.voters .cont) ∧ ∀ v ∈ c.voters .cont, ¬ c.blocks .cont v := by
    simp only [hinhibits]; rfl
  obtain ⟨r, hl, hj, hc⟩ := c.completes (i := .fcContinue f) (op := .cont) rfl ⟨fr, ⟨hmode, rest, hst⟩, hdecides⟩ hroom
  obtain ⟨hmem, -, hstack⟩ := continueLoop_eq_ok hl
  clear_value jump
  subst hj
  refine hc.mono fun t ⟨ht, hothers, g, hg, hgoes, hgst, hlanes⟩ => ?_
  obtain ⟨hkept, hram, hfilled⟩ := c.boolean_kept hmem ht
  refine ⟨hkept, hram, hothers, hfilled, g, hg, hgoes, hgst.trans hstack, fun n v hv => ?_⟩
  obtain ⟨l, hlane, hbranched⟩ := forall₂_getElem? hlanes hv
  refine ⟨l, hlane, fun h => ?_, fun h => ?_⟩
  · have hstays : c.offAfter .cont r.jump v = v.lane.loopOff := by
      rw [h]
      rfl
    rwa [hstays] at hbranched
  · have hleaves : c.offAfter .cont r.jump v =
        if v.votes f = true ∧ v.want = true then some (.cont, c.g.loopStack.length) else v.lane.loopOff := by
      rw [Bool.eq_false_iff.2 h]
      rfl
    rwa [hleaves] at hbranched

end Sys2Proof.Machine
end

section
/-! SUPPORT. What no flow-control instruction changes, and exactly where its group gets stuck (R81, R382, R385, R388, R408, R588, R594;
log 21, 33). -/

namespace Sys2Proof.Machine

/-! ## One processor (R382, R388) -/

/-- The second processor is the first one but for its active bit, its counter and its loop-inactive state. -/
def flowKept (l l' : Lane) : Prop :=
  ∃ (active : Bool) (bcnt : Nat) (off : Option (OffKind × Nat)), l' = { l with active := active, bcnt := bcnt, loopOff := off }

theorem flowKept.trans {l l' l'' : Lane} (h : flowKept l l') (h' : flowKept l' l'') : flowKept l l'' := by
  obtain ⟨a, n, o, rfl⟩ := h
  obtain ⟨a', n', o', rfl⟩ := h'
  exact ⟨a', n', o', rfl⟩

section
variable {s : State} {f : FcInst} {op : FcOp}

theorem fcReenable_eq_map (op : FcOp) (depth : Nat) (ls : List Lane) :
    ∃ u : Lane → Lane, (∀ l, flowKept l (u l)) ∧ fcReenable op depth ls = ls.map u := by
  cases op with
  | endloop | endrep =>
    refine ⟨Lane.endContinue depth, fun l => ?_, rfl⟩
    unfold Lane.endContinue
    split
    · exact ⟨_, _, _, rfl⟩
    · exact ⟨_, _, _, rfl⟩
  | jump | loop | rep | breakloop | breakrep | cont => exact ⟨id, fun l => ⟨_, _, _, rfl⟩, (List.map_id ls).symm⟩

/-- The processors of the vote are those of the group after its waits, one for one. -/
theorem FcPlaced.voters_kept (c : FcPlaced s f) (op : FcOp) :
    List.Forall₂ (fun l v => flowKept l v.lane) (waited c.g f.semWait) (c.voters op) := by
  obtain ⟨u, hu, hmap⟩ := fcReenable_eq_map op c.g.loopStack.length (waited c.g f.semWait)
  rw [FcPlaced.voters, hmap, fcVoters_eq_map, List.map_map, List.forall₂_map_right_iff, List.forall₂_same]
  exact fun l _ => (hu l).trans ⟨_, _, _, fcVoter_kept f c.boolean (u l)⟩

variable {r : LoopResult} {vs : List Voter}

/-- Of the processors a flow-control instruction changes no more than the active bit, the counter, the loop-inactive state and the ALU
result, which counts as not written (R382, R388; log 21). -/
theorem FcPlaced.lanes_kept (c : FcPlaced s f) (tgt : Nat × List Nat) (hvs : offOnly (c.voters op) r.voters)
    (hb : branchOp c.g f r.jump r.voters = .ok vs) :
    (c.after r tgt vs).lanes.length = c.g.lanes.length ∧
      ∀ (n : Nat) (l : Lane), (waited c.g f.semWait)[n]? = some l → ∃ l', (c.after r tgt vs).lanes[n]? = some l' ∧
        l'.arSet = false ∧
        l' = { l with active := l'.active, bcnt := l'.bcnt, loopOff := l'.loopOff, ar := l'.ar, arSet := l'.arSet } := by
  have hvoters := c.voters_kept op
  have hbranches := branchOp_eq_ok hb
  obtain ⟨off, hoff⟩ := hvs
  constructor
  · rw [FcPlaced.after, List.length_mapIdx, ← hbranches.length_eq, hoff, List.length_map, ← hvoters.length_eq, length_waited]
  · intro n l hl
    obtain ⟨v, hv, hkept⟩ := forall₂_getElem? hvoters hl
    have hv1 : r.voters[n]? = some (v.withOff (off v)) := by rw [hoff, List.getElem?_map, hv]; rfl
    obtain ⟨v', hv', hbranch⟩ := forall₂_getElem? hbranches hv1
    have hmoved : flowKept (v.withOff (off v)).lane v'.lane := ⟨_, _, _, hbranch.kept⟩
    obtain ⟨a, k, o, hlane⟩ := hkept.trans (.trans ⟨_, _, off v, rfl⟩ hmoved)
    refine ⟨v'.lane.dropAr (laneDraw s n), by rw [FcPlaced.after, List.getElem?_mapIdx, hv']; rfl, rfl, ?_⟩
    rw [hlane]
    rfl

end

/-! ## A stuck group (R81) -/

/-- The group of the turn is stuck, and beside this only the boolean constant cache may have changed. -/
def groupStops (s t : State) (k : Nat) (g : Group) : Prop :=
  t = { s with mem.constb := t.mem.constb, groups := t.groups } ∧ othersKept s t k ∧
    t.groups[k]? = some { g with lanes := g.lanes.map fun l => { l with stuck := true } }

theorem groupStops_groupStuck {s : State} {k : Nat} {g : Group} (hg : s.groups[k]? = some g) (kb : ReadCache) :
    groupStops s (s.groupStuck k { s.mem with constb := kb }) k g := by
  refine ⟨rfl, ⟨List.length_modify .., fun j hj => List.getElem?_modify_ne _ _ (Ne.symm hj)⟩, ?_⟩
  rw [State.groupStuck, List.getElem?_modify_eq, hg]
  rfl

section
variable {s : State} {f : FcInst} {i : Instr} {op : FcOp} (hi : i.fc? = some (op, f))
include hi

theorem FcFields.exec_stuck (c : FcFields s f) (hdep : funcDepends f.jumpFunc 0 = true)
    (h : constUnmapped s.platform c.g.env.descs.constb f.boolAddr.toNat) : exec i s = .next (s.groupStuck c.k s.mem) := by
  have hbool : fcBoolean s.platform (waitedGroup c.g f.aluWait f.semWait).env.descs.constb f s.mem = .error (.stuck s.mem) :=
    fcBoolean_stuck_iff.2 ⟨rfl, hdep, h⟩
  rw [exec_fc hi, c.run, fcRest, hbool, error_bind, conclude_stuck, State.turnStuck_eq c.turn]

theorem FcPlaced.exec_stuck (c : FcPlaced s f) (hread : c.readsInteger op)
    (h : constUnmapped s.platform c.g.env.descs.consti f.intAddr.toNat) : exec i s = .next (s.groupStuck c.k c.mem) := by
  obtain ⟨rest, hrest⟩ := c.exec_steps hi
  rw [hrest, c.loop_stuck_iff.2 ⟨rfl, hread, h⟩, error_bind, conclude_stuck, State.turnStuck_eq c.turn]

/-- All that a flow-control instruction can do when it makes no stop: it completes, or its group is stuck at its boolean or at its
integer. -/
theorem exec_fc_next {t : State} (h : exec i s = .next t) :
    (∃ (c : FcPlaced s f) (r : LoopResult) (tgt : Nat × List Nat) (vs : List Voter),
      fcLoop s.platform c.g op f (c.voters op) c.mem = .ok r ∧ branchOp c.g f r.jump r.voters = .ok vs ∧ t = c.next r tgt vs) ∨
    (∃ c : FcFields s f, funcDepends f.jumpFunc 0 = true ∧ constUnmapped s.platform c.g.env.descs.constb f.boolAddr.toNat ∧
      t = s.groupStuck c.k s.mem) ∨
    ∃ c : FcPlaced s f, c.readsInteger op ∧ constUnmapped s.platform c.g.env.descs.consti f.intAddr.toNat ∧
      t = s.groupStuck c.k c.mem := by
  rw [exec_fc hi, conclude_eq_next] at h
  rcases h with hrun | ⟨m, hrun, rfl⟩
  · obtain ⟨c, r, tgt, vs, hl, ht, hb⟩ := (runFc_leaves op f s).1 t hrun
    exact .inl ⟨c.toFcPlaced, r, tgt, vs, hl, hb, Except.ok.inj (hrun.symm.trans (c.run_next hl ht hb))⟩
  · rcases (runFc_leaves op f s).2 m hrun with ⟨c, hbool⟩ | ⟨c, hloop⟩
    · obtain ⟨rfl, hdep, hun⟩ := fcBoolean_stuck_iff.1 hbool
      exact .inr (.inl ⟨c, hdep, hun, State.turnStuck_eq c.turn _⟩)
    · obtain ⟨rfl, hread, hun⟩ := c.loop_stuck_iff.1 hloop
      exact .inr (.inr ⟨c, hread, hun, State.turnStuck_eq c.turn _⟩)

end

/-- Settles O46: an instruction that completes by `lanes_kept`, one that is stuck by the constant that it reads. -/
theorem flowControlFrame : Obligations.FlowControlFrame := by
  unfold Obligations.FlowControlFrame
  intro unmapped stuck usesBoolean usesInteger
  have huses : ∀ f : FcInst, funcDepends f.jumpFunc 0 = true ↔ usesBoolean f := fun f => funcDepends_iff f.jumpFunc 0
  refine ⟨fun i op f s hi => ⟨fun c hdep hun => ?_, fun c hread hun => ?_⟩, fun i op f s t hi hnext => ?_⟩
  · exact ⟨_, c.exec_stuck hi ((huses f).2 hdep) hun, rfl, groupStops_groupStuck c.group s.mem.constb⟩
  · obtain ⟨kb, hmem, -⟩ := fcBoolean_eq_ok c.bool
    refine ⟨_, c.exec_stuck hi hread hun, rfl, ?_⟩
    rw [hmem]
    exact groupStops_groupStuck c.group kb
  · rcases exec_fc_next hi hnext with ⟨c, r, tgt, vs, hl, hb, rfl⟩ | ⟨c, hdep, hun, rfl⟩ | ⟨c, hread, hun, rfl⟩
    · obtain ⟨hvs, hconsti⟩ := fcLoop_keeps hl
      obtain ⟨hkept, hram, hfillb, hfilli⟩ := c.constants_kept (t := c.next r tgt vs) hconsti rfl
      obtain ⟨hlength, hlanes⟩ := c.lanes_kept tgt hvs hb
      exact ⟨hram, hfillb, hfilli, c.k, c.g, c.after r tgt vs, c.turn, c.group, c.group_next, othersKept_set rfl,
        .inl ⟨hkept, rfl, rfl, hlength, rfl, rfl, hlanes⟩⟩
    · obtain ⟨hkept, hothers, hgroup⟩ := groupStops_groupStuck c.group s.mem.constb
      exact ⟨fun _ => rfl, ReadCache.filled_refl _ _, ReadCache.filled_refl _ _, c.k, c.g, _, c.turn, c.group, hgroup, hothers,
        .inr ⟨.inl ⟨(huses f).1 hdep, hun⟩, hkept, hothers, hgroup⟩⟩
    · obtain ⟨kb, hmem, hfill⟩ := fcBoolean_eq_ok c.bool
      obtain ⟨hkept, hothers, hgroup⟩ := groupStops_groupStuck c.group kb
      rw [hmem]
      exact ⟨fun _ => rfl, hfill, ReadCache.filled_refl _ _, c.k, c.g, _, c.turn, c.group, hgroup, hothers,
        .inr ⟨.inr ⟨c, rfl, rfl, hread, hun⟩, hkept, hothers, hgroup⟩⟩

end Sys2Proof.Machine
end

section
/-! SUPPORT. Comparisons of patterns and of the numbers they stand for (R450): what a pattern is read as, the order of the extended
values, and the four tests against zero. -/

namespace Sys2Proof.Machine

/-! ## What a pattern is read as (R440, R442) -/

section
variable {w : Word} {n : Bool}

theorem Ext.ofBits_nan (h : isNaN w = true) : Ext.ofBits w = .nan := by
  simp only [isNaN, Bool.and_eq_true, beq_iff_eq, bne_iff_ne] at h
  rw [Ext.ofBits, if_pos h.1, if_neg h.2]

theorem Ext.ofBits_inf (hnan : isNaN w = false) (h255 : expField w = 255) : Ext.ofBits w = .inf (signBit w) := by
  have hman : manField w = 0 := by simpa [isNaN, h255] using hnan
  rw [Ext.ofBits, if_pos h255, if_pos hman]

theorem Ext.isFinite_ofBits (h255 : expField w ≠ 255) : (Ext.ofBits w).isFinite := by
  rcases Ext.ofBits_finite h255 with ⟨b, hx⟩ | ⟨m, e, hx⟩
  · exact hx ▸ Ext.isFinite_zero b
  · exact hx ▸ Ext.isFinite_real m e

theorem Ext.ofBits_ne_nan (hnan : isNaN w = false) : Ext.ofBits w ≠ .nan := by
  by_cases h255 : expField w = 255
  · simp [Ext.ofBits_inf hnan h255]
  · exact (Ext.isFinite_ofBits h255).1

theorem toNat_eq_fields (w : Word) : w.toNat = (signBit w).toNat * 2 ^ 31 + expField w * 2 ^ 23 + manField w := by
  have hlt := w.isLt
  have hsign : (signBit w).toNat = w.toNat / 2 ^ 31 := by
    rw [signBit, BitVec.getLsbD, Nat.toNat_testBit]
    omega
  rw [hsign, expField, manField]
  omega

/-- Each infinity has one pattern. -/
theorem Ext.ofBits_eq_inf_iff : Ext.ofBits w = .inf n ↔ w = infBits n := by
  constructor
  · intro h
    have h255 : expField w = 255 := by
      by_contra h255
      exact (Ext.isFinite_ofBits h255).2 n h
    have hman : manField w = 0 := by
      by_contra hman
      rw [Ext.ofBits, if_pos h255, if_neg hman] at h
      cases h
    rw [Ext.ofBits, if_pos h255, if_pos hman] at h
    have hfields := toNat_eq_fields w
    rw [h255, hman, Ext.inf.inj h] at hfields
    refine BitVec.eq_of_toNat_eq (hfields.trans ?_)
    cases n <;> rfl
  · rintro rfl
    cases n <;> rfl

/-- Every pattern but a NaN has the sign of its sign bit. -/
theorem Ext.isNeg_ofBits (hnan : isNaN w = false) : (Ext.ofBits w).isNeg = signBit w := by
  by_cases h255 : expField w = 255
  · rw [Ext.ofBits_inf hnan h255, Ext.isNeg]
  · by_cases h0 : expField w = 0
    · rw [Ext.ofBits_zero h0, Ext.isNeg]
    · have hx := Ext.ofBits_real h0 h255
      rw [hx, Ext.isNeg, Bool.eq_iff_iff, decide_eq_true_iff]
      exact Ext.ofBits_neg hx

end

/-! ## The order of extended values -/

section
variable {a b : Ext}

@[simp] theorem Ext.nan_lt (b : Ext) : Ext.nan.lt b = false := rfl

@[simp] theorem Ext.lt_nan (a : Ext) : a.lt .nan = false := by cases a <;> rfl

@[simp] theorem Ext.posInf_lt (b : Ext) : (Ext.inf false).lt b = false := by cases b <;> rfl

@[simp] theorem Ext.lt_negInf (a : Ext) : a.lt (.inf true) = false := by
  cases a with
  | nan | zero n | real m e => rfl
  | inf n => cases n <;> rfl

theorem Ext.negInf_lt (hnan : b ≠ .nan) (hinf : b ≠ .inf true) : (Ext.inf true).lt b = true := by
  cases b with
  | nan => exact absurd rfl hnan
  | zero n | real m e => rfl
  | inf n => cases n with
    | false => rfl
    | true => exact absurd rfl hinf

theorem Ext.lt_posInf (hnan : a ≠ .nan) (hinf : a ≠ .inf false) : a.lt (.inf false) = true := by
  cases a with
  | nan => exact absurd rfl hnan
  | zero n | real m e => rfl
  | inf n => cases n with
    | false => exact absurd rfl hinf
    | true => rfl

/-- A zero compares as the number 0 * 2^0. -/
theorem Ext.lt_finite (ha : a.isFinite) (hb : b.isFinite) : a.lt b = true ↔ a.number < b.number := by
  rcases ha.cases with ⟨n, rfl⟩ | ⟨m, e, rfl⟩ <;> rcases hb.cases with ⟨n', rfl⟩ | ⟨m', e', rfl⟩
  · exact (Ext.lt_real 0 0 0 0).trans (by simp)
  · exact (Ext.lt_real 0 0 m' e').trans (by simp)
  · exact (Ext.lt_real m e 0 0).trans (by simp)
  · exact Ext.lt_real m e m' e'

end

/-! ## The tests of patterns (R450) -/

section
variable {w : Word}

theorem tests_nan (h : isNaN w = true) : fLt0 w = false ∧ fGe0 w = false ∧ fEq0 w = false ∧ fNe0 w = true := by
  rw [fNe0, fLt0, fGe0, fEq0, Ext.ofBits_nan h]
  exact ⟨rfl, rfl, rfl, rfl⟩

/-- A zero, or a denormal, which is read as one. -/
theorem tests_zero (h : expField w = 0) : fLt0 w = false ∧ fGe0 w = true ∧ fEq0 w = true ∧ fNe0 w = false := by
  rw [fNe0, fLt0, fGe0, fEq0, Ext.ofBits_zero h]
  exact ⟨rfl, rfl, rfl, rfl⟩

/-- An infinity or a normal number. -/
theorem tests_signed (hnan : isNaN w = false) (h0 : expField w ≠ 0) :
    fLt0 w = signBit w ∧ fGe0 w = (!signBit w) ∧ fEq0 w = false ∧ fNe0 w = true := by
  rw [fNe0, fLt0, fGe0, fEq0, ← Ext.isNeg_ofBits hnan]
  by_cases h255 : expField w = 255
  · rw [Ext.ofBits_inf hnan h255]
    exact ⟨rfl, rfl, rfl, rfl⟩
  · rw [Ext.ofBits_real h0 h255]
    exact ⟨rfl, rfl, rfl, rfl⟩

theorem fLt_nan {a b : Word} (h : isNaN a = true ∨ isNaN b = true) : fLt a b = false := by
  rcases h with ha | hb
  · rw [fLt, Ext.ofBits_nan ha, Ext.nan_lt]
  · rw [fLt, Ext.ofBits_nan hb, Ext.lt_nan]

theorem fLt_finite {a b : Word} (ha : expField a ≠ 255) (hb : expField b ≠ 255) :
    fLt a b = true ↔ floatValue a < floatValue b := by
  rw [fLt, Ext.lt_finite (Ext.isFinite_ofBits ha) (Ext.isFinite_ofBits hb), Ext.number_ofBits ha, Ext.number_ofBits hb]

end

/-- Settles O48: each test by the value that its pattern is read as, the comparison by the order of the extended values. -/
theorem comparisonsFollowTheTable : Obligations.ComparisonsFollowTheTable := by
  unfold Obligations.ComparisonsFollowTheTable
  refine ⟨fun w => ⟨rfl, tests_nan, tests_zero, tests_signed⟩, fun a b => ⟨rfl, fLt_nan, fLt_finite, fun ha hb => ?_⟩⟩
  have hposInf : Ext.ofBits 0x7F800000#32 = .inf false := Ext.ofBits_eq_inf_iff.2 rfl
  have hnegInf : Ext.ofBits 0xFF800000#32 = .inf true := Ext.ofBits_eq_inf_iff.2 rfl
  refine ⟨?_, ?_, ?_, ?_⟩
  · rintro rfl
    rw [fLt, hposInf, Ext.posInf_lt]
  · rintro rfl
    rw [fLt, hnegInf, Ext.lt_negInf]
  · rintro rfl hne
    rw [fLt, hnegInf, Ext.negInf_lt (Ext.ofBits_ne_nan hb) (fun h => hne (Ext.ofBits_eq_inf_iff.1 h))]
  · rintro rfl hne
    rw [fLt, hposInf, Ext.lt_posInf (Ext.ofBits_ne_nan ha) (fun h => hne (Ext.ofBits_eq_inf_iff.1 h))]

end Sys2Proof.Machine
end

section
/-! SUPPORT. Multiplication and addition inside MAD (R446, R447): the table of special values, case by case, and the exact real
results. -/

namespace Sys2Proof.Machine

/-! ## Multiplication (R446) -/

section
variable {a b : Ext}

theorem mulExt_nan (h : a = .nan ∨ b = .nan) : mulExt a b = .nan := by
  rcases h with rfl | rfl
  · rfl
  · cases a <;> rfl

theorem mulExt_zero_inf {x y : Bool} (h : (a = .zero x ∧ b = .inf y) ∨ (a = .inf x ∧ b = .zero y)) : mulExt a b = .nan := by
  rcases h with ⟨rfl, rfl⟩ | ⟨rfl, rfl⟩ <;> rfl

theorem mulExt_inf_left (x : Bool) (hnan : b ≠ .nan) (hzero : ∀ y, b ≠ .zero y) : mulExt (.inf x) b = .inf (x != b.isNeg) := by
  cases b with
  | nan => exact absurd rfl hnan
  | zero y => exact absurd rfl (hzero y)
  | inf y | real m e => rfl

theorem mulExt_inf_right (x : Bool) (hnan : a ≠ .nan) (hzero : ∀ y, a ≠ .zero y) : mulExt a (.inf x) = .inf (a.isNeg != x) := by
  cases a with
  | nan => exact absurd rfl hnan
  | zero y => exact absurd rfl (hzero y)
  | inf y | real m e => rfl

theorem mulExt_zero_left (x : Bool) (hnan : b ≠ .nan) (hinf : ∀ y, b ≠ .inf y) : mulExt (.zero x) b = .zero (x != b.isNeg) := by
  cases b with
  | nan => exact absurd rfl hnan
  | inf y => exact absurd rfl (hinf y)
  | zero y | real m e => rfl

theorem mulExt_zero_right (x : Bool) (hnan : a ≠ .nan) (hinf : ∀ y, a ≠ .inf y) : mulExt a (.zero x) = .zero (a.isNeg != x) := by
  cases a with
  | nan => exact absurd rfl hnan
  | inf y => exact absurd rfl (hinf y)
  | zero y | real m e => rfl

theorem mulExt_real (m e m' e' : Int) : mulExt (.real m e) (.real m' e') = .real (m * m') (e + e') := rfl

theorem mulExt_real_number (m e m' e' : Int) :
    (mulExt (.real m e) (.real m' e')).number = (Ext.real m e).number * (Ext.real m' e').number := by
  rw [mulExt_real, Ext.number_real, Ext.number_real, Ext.number_real, zpow_add₀ two_ne_zero]
  push_cast
  ring

end

/-! ## Addition (R447) -/

section
variable {p c : Ext}

theorem addExt_nan (h : p = .nan ∨ c = .nan) : addExt p c = .nan := by
  rcases h with rfl | rfl
  · rfl
  · cases p <;> rfl

theorem addExt_inf_opposite (x : Bool) : addExt (.inf x) (.inf (!x)) = .nan := by cases x <;> rfl

/-- Beside an infinity stands nothing but itself and finite values. -/
theorem addExt_one_inf {x : Bool}
    (h : (p = .inf x ∧ c ≠ .nan ∧ c ≠ .inf (!x)) ∨ (c = .inf x ∧ p ≠ .nan ∧ p ≠ .inf (!x))) : addExt p c = .inf x := by
  have hself : Ext.inf x ≠ .nan ∧ Ext.inf x ≠ .inf (!x) := ⟨by simp, by simp⟩
  rcases h with ⟨rfl, hc⟩ | ⟨rfl, hp⟩
  · exact (addExt_inf hself hc).2 (.inl rfl)
  · exact (addExt_inf hp hself).2 (.inr rfl)

/-- An exact sum of zero is +0 unless both terms are zeros. -/
theorem addExt_cancel (hp : p.isFinite) (hc : c.isFinite) (hokp : p.ok) (hokc : c.ok)
    (hzeros : ∀ x y, ¬ (p = .zero x ∧ c = .zero y)) (h : p.number + c.number = 0) : addExt p c = .zero false := by
  obtain ⟨hfin, hok, hnum, hneg⟩ := addExt_finite hp hc hokp hokc
  obtain ⟨n, hn⟩ := hfin.zero_of_number hok (hnum.trans h)
  cases n with
  | false => exact hn
  | true => exact absurd (hneg.1 hn) (hzeros _ _)

theorem addExt_real (hp : p.isFinite) (hc : c.isFinite) (hokp : p.ok) (hokc : c.ok) (h : p.number + c.number ≠ 0) :
    ∃ m e, addExt p c = .real m e := by
  obtain ⟨hfin, -, hnum, -⟩ := addExt_finite hp hc hokp hokc
  rcases hfin.cases with ⟨n, hn⟩ | hreal
  · rw [hn, Ext.number_zero] at hnum
    exact absurd hnum.symm h
  · exact hreal

end

/-- Settles O49: the table by the cases of the two operations, the real results by `mulExt_real_number` and `addExt_finite`. -/
theorem madArithmetic : Obligations.MadArithmetic := by
  unfold Obligations.MadArithmetic
  refine ⟨fun x y z => rfl, fun a b hoka hokb => ⟨mulExt_nan, fun x y => mulExt_zero_inf, fun x => ⟨?_, ?_, ?_, ?_⟩, ?_⟩,
    fun p c hokp hokc => ⟨addExt_nan, ?_, fun x => addExt_one_inf, ?_, fun hinf hp hc hzeros => ?_⟩⟩
  · rintro ⟨rfl, hnan, hzero⟩
    exact mulExt_inf_left x hnan hzero
  · rintro ⟨rfl, hnan, hzero⟩
    exact mulExt_inf_right x hnan hzero
  · rintro ⟨rfl, hnan, hinf⟩
    exact mulExt_zero_left x hnan hinf
  · rintro ⟨rfl, hnan, hinf⟩
    exact mulExt_zero_right x hnan hinf
  · rintro m e m' e' rfl rfl
    exact ⟨_, _, mulExt_real .., mul_ne_zero hoka hokb, mulExt_real_number ..⟩
  · rintro x rfl rfl
    exact addExt_inf_opposite x
  · rintro x y rfl rfl
    rfl
  · have hfp : p.isFinite := ⟨hp, fun x => (hinf x).1⟩
    have hfc : c.isFinite := ⟨hc, fun x => (hinf x).2⟩
    obtain ⟨-, hok, hnum, -⟩ := addExt_finite hfp hfc hokp hokc
    exact ⟨hok, hnum, addExt_cancel hfp hfc hokp hokc hzeros, addExt_real hfp hfc hokp hokc⟩

end Sys2Proof.Machine
end

section
/-! SUPPORT. Finishing a result under an output modifier (R312, R445, R456, R460; log 13) and clamping it (R314): the two limits of
the normal range as inequalities of numbers. -/

namespace Sys2Proof.Machine

/-! ## The limits of the normal range (R445) -/

theorem two_zpow_eq_div (k : Int) : (2 : ℚ) ^ k = 2 ^ k.toNat / 2 ^ (-k).toNat := by
  conv_lhs => rw [← Int.toNat_sub_toNat_neg k]
  rw [zpow_sub₀ two_ne_zero, zpow_natCast, zpow_natCast]

theorem abs_scaled (m e : Int) : |(m : ℚ) * 2 ^ e| = (m.natAbs : ℚ) * 2 ^ e := by
  rw [abs_mul, abs_of_pos (show (0 : ℚ) < 2 ^ e by positivity), Nat.cast_natAbs, Int.cast_abs]

theorem belowNormal_iff (m e : Int) : belowNormal m e = true ↔ |(m : ℚ) * 2 ^ e| < 2 ^ (-126 : Int) := by
  have hscaled : (m.natAbs : ℚ) * 2 ^ e = m.natAbs * 2 ^ (e + 126) * 2 ^ (-126 : Int) := by
    rw [mul_assoc, ← zpow_add₀ two_ne_zero, add_neg_cancel_right]
  rw [belowNormal, decide_eq_true_iff, abs_scaled, hscaled, mul_lt_iff_lt_one_left (by positivity), two_zpow_eq_div,
    ← mul_div_assoc, div_lt_one (by positivity)]
  exact_mod_cast Iff.rfl

theorem aboveFinite_iff (m e : Int) : aboveFinite m e = true ↔ (2 ^ 24 - 1) * 2 ^ 104 < |(m : ℚ) * 2 ^ e| := by
  have hscaled : (m.natAbs : ℚ) * 2 ^ e = m.natAbs * 2 ^ (e - 104) * 2 ^ 104 := by
    rw [mul_assoc, ← zpow_natCast (2 : ℚ) 104, ← zpow_add₀ two_ne_zero]
    simp
  rw [aboveFinite, decide_eq_true_iff, abs_scaled, hscaled, mul_lt_mul_iff_left₀ (by positivity), two_zpow_eq_div,
    ← mul_div_assoc, lt_div_iff₀ (by positivity), neg_sub, show (2 ^ 24 - 1 : ℚ) = ((2 ^ 24 - 1 : Nat) : ℚ) by norm_num]
  exact_mod_cast Iff.rfl

/-! ## Rounding (R445, R460; log 13) -/

section
variable (fa : FArith) (draw : Nat) {m e : Int}

theorem rounded_below (h : |(m : ℚ) * 2 ^ e| < 2 ^ (-126 : Int)) : rounded fa draw m e = zeroBits (decide (m < 0)) :=
  if_pos ((belowNormal_iff m e).2 h)

theorem rounded_normal (hlow : 2 ^ (-126 : Int) ≤ |(m : ℚ) * 2 ^ e|) (hhigh : |(m : ℚ) * 2 ^ e| ≤ (2 ^ 24 - 1) * 2 ^ 104) :
    normalPattern (rounded fa draw m e) := by
  rw [rounded, if_neg (mt (belowNormal_iff m e).1 hlow.not_gt), if_neg (mt (aboveFinite_iff m e).1 hhigh.not_gt)]
  exact normalBits_normal _

end

/-- A modifier scales by the power of two that `omodShift` names (R312). -/
theorem scaled_omodShift (m e : Int) (om : OMod) : (m : ℚ) * 2 ^ (e + omodShift om) = m * 2 ^ e * 2 ^ omodShift om := by
  rw [zpow_add₀ two_ne_zero, mul_assoc]

/-! ## Clamping (R314) -/

section
variable (draw : Nat) {w : Word}

theorem zeroBits_cases (n : Bool) : zeroBits n = 0#32 ∨ zeroBits n = 0x80000000#32 := by
  cases n
  · exact .inl rfl
  · exact .inr rfl

/-- Clamping by the tests of R450. -/
theorem clampBits_eq (hnan : isNaN w = false) :
    clampBits draw w = if fLt0 w = true ∨ fEq0 w = true then zeroBits (Config.freeBool draw)
      else if fLt oneBits w = true then oneBits else w := by
  rw [clampBits, fLt0, fEq0, fLt]
  rcases hx : Ext.ofBits w with _ | n | n | ⟨m, e⟩
  · exact absurd hx (Ext.ofBits_ne_nan hnan)
  · simp
  · simp
  · simp

/-- A number beyond one is neither a zero nor below zero. -/
theorem not_below_of_above_one (h : fLt oneBits w = true) : ¬ (fLt0 w = true ∨ fEq0 w = true) := by
  have hone : Ext.ofBits oneBits = .real (2 ^ 23) (-23) := rfl
  rw [fLt, hone] at h
  rw [fLt0, fEq0]
  rcases hx : Ext.ofBits w with _ | n | n | ⟨m, e⟩ <;> rw [hx] at h
  · simp
  · cases n with
    | false => simp [Ext.isNeg]
    | true => rw [Ext.lt_negInf] at h; cases h
  · rw [Ext.lt_finite (Ext.isFinite_real ..) (Ext.isFinite_zero n)] at h
    norm_num at h
  · have hpos : (0 : ℚ) < m * 2 ^ e := lt_trans (by norm_num) ((Ext.lt_real ..).1 h)
    have hm : 0 < m := by exact_mod_cast (pos_iff_pos_of_mul_pos hpos).2 (by positivity)
    simp [Ext.isNeg, hm.le]

end

/-- Settles O50: the modifier's factor is a power of two that rounding meets in the exponent; clamping goes by the tests of R450. -/
theorem finishAndClamp : Obligations.FinishAndClamp := by
  unfold Obligations.FinishAndClamp
  refine ⟨fun draw om hom => ⟨rfl, fun x => rfl, fun x => rfl, fun m e _ => ?_⟩, fun draw w hnan => ?_⟩
  · intro factor
    have hfactor : factor = 2 ^ omodShift om := by
      cases om with
      | disabled => exact absurd rfl hom
      | u1 | u2 | u4 | u8 | d2 | d4 | d8 => norm_num [factor, omodShift]
    have hfinish : finish Config.fArith draw om (.real m e) = rounded Config.fArith draw m (e + omodShift om) := rfl
    obtain ⟨hnotNan, hnotDenormal⟩ := rounded_tidy Config.fArith draw m (e + omodShift om)
    rw [hfactor, ← scaled_omodShift, hfinish]
    refine ⟨fun hbelow => ?_, rounded_normal _ draw, hnotNan, hnotDenormal⟩
    rw [rounded_below _ draw hbelow, zeroBits]
    simp only [decide_eq_true_eq]
  · rw [clampBits_eq draw hnan]
    refine ⟨fun hlow => ?_, fun hhigh => ?_, fun hneg hzero hmid => ?_⟩
    · rw [if_pos hlow]
      exact zeroBits_cases _
    · rw [if_neg (not_below_of_above_one hhigh)]
      exact if_pos hhigh
    · rw [if_neg (by simp [hneg, hzero])]
      exact if_neg (Bool.eq_false_iff.1 hmid)

end Sys2Proof.Machine
end

section
/-! SUPPORT. What stops a texture or flow-control instruction before it completes (R84, R88, R91, R92, R350, R366, R369, R382, R386,
R588, R594): its waits, the registers that lookups have yet to write, and the elements that its lookups read. -/

namespace Sys2Proof.Machine

/-! ## The waits (R588, R594) -/

section
variable {g : Group} {wait : Bool} {uses : List AluItem} {u : AluItem}

/-- A pending result that is used without a wait is a hazard (R588). -/
theorem Group.aluWait_hazard (hw : wait = false) (hu : u ∈ uses) (hp : u ∈ g.aluPending) :
    g.aluWait wait uses = .error (.fault .aluHazard) := by
  have hany : uses.any g.aluPending.contains = true := List.any_eq_true.2 ⟨u, hu, List.contains_iff_mem.2 hp⟩
  rw [Group.aluWait, hw, if_neg Bool.false_ne_true, if_pos hany]

/-- A semaphore that is held after a flow-control instruction which did not wait may not be waited for (R594). -/
theorem Group.semWait_held {l : Lane} (hw : wait = true) (hprev : g.prev = .fc false) (hl : l ∈ g.lanes) (hheld : l.semHeld = true) :
    g.semWait wait = .error (.fault .semErratum) := by
  have herratum : g.erratum = true := by
    simp only [Group.erratum, hprev]
    exact List.any_eq_true.2 ⟨l, hl, hheld⟩
  rw [Group.semWait, hw, if_pos rfl, if_pos herratum]

/-- The two waits that texture and flow-control instructions begin with, and what comes after them. -/
def Group.waitsThen (g : Group) (aluWait semWait : Bool) (uses : List AluItem) (rest : Group → Res State) : Res State :=
  g.aluWait aluWait uses >>= fun g1 => g1.semWait semWait >>= rest

variable {semWait : Bool} {rest : Group → Res State}

theorem Group.waitsThen_hazard (hw : wait = false) (hu : u ∈ uses) (hp : u ∈ g.aluPending) :
    g.waitsThen wait semWait uses rest = .error (.fault .aluHazard) := by
  rw [Group.waitsThen, Group.aluWait_hazard hw hu hp, error_bind]

theorem Group.waitsThen_held {l : Lane} (hr : wait = true ∨ ∀ u ∈ uses, u ∉ g.aluPending) (hw : semWait = true)
    (hprev : g.prev = .fc false) (hl : l ∈ g.lanes) (hheld : l.semHeld = true) :
    g.waitsThen wait semWait uses rest = .error (.fault .semErratum) := by
  rw [Group.waitsThen, Group.aluWait_ok hr, ok_bind,
    Group.semWait_held (g := { g with aluPending := if wait then [] else g.aluPending }) hw hprev hl hheld, error_bind]

end

section
variable {i : Instr} {s : State} {k : Nat} {g : Group} (ht : s.turn = .group k) (hg : s.groups[k]? = some g) (hh : g.halted = false)
include ht hg hh

theorem exec_tex_waits {op : TexOp} {f : TexInst} (hi : i.tex? = some (op, f)) :
    ∃ rest, exec i s = conclude s.turnStuck (g.waitsThen f.aluWait f.semWait (texUses op f (texNamed g f)) rest) := by
  have hcur : s.current = .ok (k, g) := State.current_eq_ok.2 ⟨ht, hg, hh⟩
  rw [exec_tex hi, runTex, hcur, ok_bind]
  exact ⟨_, rfl⟩

theorem exec_fc_waits {op : FcOp} {f : FcInst} (hi : i.fc? = some (op, f)) :
    ∃ rest, exec i s = conclude s.turnStuck (g.waitsThen f.aluWait f.semWait (fcUses f) rest) := by
  have hcur : s.current = .ok (k, g) := State.current_eq_ok.2 ⟨ht, hg, hh⟩
  rw [exec_fc hi, runFc, hcur, ok_bind]
  exact ⟨_, rfl⟩

end

/-! ## What an instruction uses of the pending results (R318, R386, R388, R588; log 38) -/

/-- A select that names this one channel for all (R318). -/
def replicatesChan (sel : PredSel) (ch : Chan) : Prop :=
  (sel = .rrrr ∧ ch = .r) ∨ (sel = .gggg ∧ ch = .g) ∨ (sel = .bbbb ∧ ch = .b) ∨ (sel = .aaaa ∧ ch = .a)

theorem mem_predUses {sel : PredSel} {chans : List Chan} {u : AluItem} :
    u ∈ predUses sel chans ↔ ∃ ch, u = .pred ch ∧ ((ch ∈ chans ∧ sel = .rgba) ∨ replicatesChan sel ch) := by
  cases sel with
  | none => simp [predUses, replicatesChan]
  | rgba => simp [predUses, replicatesChan, eq_comm, and_comm]
  | rrrr | gggg | bbbb | aaaa => simp [predUses, replicatesChan]

theorem mem_rgbChans {ch : Chan} : ch ∈ [Chan.r, .g, .b] ↔ ch ≠ .a := by cases ch <;> decide

/-- The mask of a texture instruction by its two parts. -/
theorem wmaskBit_iff {rgb : BitVec 3} {alpha : Bool} {ch : Chan} :
    wmaskBit rgb alpha ch = true ↔ (ch ≠ .a ∧ rgb.getLsbD ch.idx = true) ∨ (ch = .a ∧ alpha = true) := by
  cases ch <;> simp [wmaskBit, maskBit, Chan.idx]

/-- The source channels that count as used: those of the four swizzles, and those of a kill's mask. -/
theorem mem_texUsedChans {op : TexOp} {f : TexInst} {ch : Chan} :
    ch ∈ [f.swzS, f.swzT, f.swzR, f.swzQ] ++ texReads op f ↔
      ch = f.swzS ∨ ch = f.swzT ∨ ch = f.swzR ∨ ch = f.swzQ ∨
        (op = .killLt0 ∧ ((ch ≠ .a ∧ f.rgbWmask.getLsbD ch.idx = true) ∨ (ch = .a ∧ f.alphaWmask = true))) := by
  cases op with
  | nop => simp [texReads]
  | killLt0 => simp [texReads, mem_allChans, wmaskBit_iff]
  | lookup | lookupUncached | lookupProj => simp [texReads]; tauto

/-- The register that a source address names, where it names one. -/
theorem texNamed_eq_some {g : Group} {f : TexInst} {m : Nat} :
    texNamed g f = some m ↔ g.relative f.srcAddr.toNat f.srcRel = .ok (m : Int) := by
  unfold texNamed
  cases hr : g.relative f.srcAddr.toNat f.srcRel with
  | error e => simp
  | ok x => simp only [Except.ok.injEq]; split <;> simp <;> omega

theorem mem_texUses {g : Group} {op : TexOp} {f : TexInst} {u : AluItem} :
    u ∈ texUses op f (texNamed g f) ↔
      (∃ (m : Nat) (ch : Chan), u = .temp (regKey m ch) ∧ g.relative f.srcAddr.toNat f.srcRel = .ok m ∧
        (ch = f.swzS ∨ ch = f.swzT ∨ ch = f.swzR ∨ ch = f.swzQ ∨
          (op = .killLt0 ∧ ((ch ≠ .a ∧ f.rgbWmask.getLsbD ch.idx = true) ∨ (ch = .a ∧ f.alphaWmask = true))))) ∨
      ∃ ch : Chan, u = .pred ch ∧ ((ch ≠ .a ∧ f.rgbPredSel = .rgba) ∨ replicatesChan f.rgbPredSel ch ∨
        (ch = .a ∧ f.alphaPredSel = .rgba) ∨ replicatesChan f.alphaPredSel ch) := by
  unfold texUses
  rw [List.append_assoc, List.mem_append, List.mem_append, mem_predUses, mem_predUses]
  refine or_congr ?_ ?_
  · simp only [← texNamed_eq_some, ← mem_texUsedChans]
    cases texNamed g f with
    | none => simp
    | some n => simp only [List.mem_map, Option.some.injEq]; grind
  · simp only [mem_rgbChans, List.mem_singleton]
    rw [← exists_or]
    exact exists_congr fun ch => by tauto

theorem mem_fcUses {f : FcInst} {u : AluItem} :
    u ∈ fcUses f ↔
      (funcDepends f.jumpFunc 1 = true ∧
        ∃ ch : Chan, u = .pred ch ∧ ((ch ≠ .a ∧ f.predSel = .rgba) ∨ replicatesChan f.predSel ch)) ∨
      (funcDepends f.jumpFunc 2 = true ∧ u = .ar) := by
  rw [fcUses, List.mem_append]
  refine or_congr ?_ ?_
  · split
    · next h => rw [mem_predUses, and_iff_right h]; simp only [mem_rgbChans]
    · next h => exact iff_of_false List.not_mem_nil fun hu => h hu.1
  · split
    · next h => rw [List.mem_singleton, and_iff_right h]
    · next h => exact iff_of_false List.not_mem_nil fun hu => h hu.1

/-! ## Texture hazards (R366; log 22) -/

section
variable {op : TexOp} {f : TexInst} {l : Lane}

theorem texReadHazard_iff {src : Nat} :
    texReadHazard op f src l = true ↔
      texTakesPart f l = true ∧ ∃ ch, regKey src ch ∈ l.texPending ∧
        ((op = .killLt0 ∧ texEnable f l ch = true) ∨
          (looksUp op ∧ (ch = f.swzS ∨ ch = f.swzT ∨ (op = .lookupProj ∧ ch = f.swzQ)))) := by
  have hreads : ∀ ch, ch ∈ texReadsOn op f l ↔ (op = .killLt0 ∧ texEnable f l ch = true) ∨
      (looksUp op ∧ (ch = f.swzS ∨ ch = f.swzT ∨ (op = .lookupProj ∧ ch = f.swzQ))) := fun ch => by
    cases op with
    | killLt0 => simp [texReadsOn, looksUp, mem_allChans]
    | nop | lookup | lookupProj | lookupUncached => simp [texReadsOn, texReads, looksUp]
  simp only [texReadHazard, Bool.and_eq_true, List.any_eq_true, List.contains_iff_mem, hreads, and_comm]

theorem texWriteHazard_iff {dst : Nat} (hop : looksUp op) :
    texWriteHazard op f dst l = true ↔
      texTakesPart f l = true ∧ ∃ ch, texEnable f l ch = true ∧ regKey dst ch ∈ l.texPending := by
  have hwrites : texWritesOn op f l = allChans.filter (texEnable f l) := by rcases hop with rfl | rfl | rfl <;> rfl
  simp only [texWriteHazard, Bool.and_eq_true, List.any_eq_true, List.contains_iff_mem, hwrites, mem_texChans]

end

section
variable {op : TexOp} {f : TexInst} {s : State} {k : Nat} {g : Group} {src dst : Nat} (hp : texPlaces g op f = .ok (src, dst))
include hp

theorem texRest_read (h : g.lanes.any (texReadHazard op f src) = true) : texRest op f s k g = .error (.fault .texHazard) := by
  simp only [texRest, hp, ok_bind, h, require, Bool.not_true, Bool.false_eq_true, if_false, error_bind]

variable (hno : g.lanes.any (texReadHazard op f src) = false)
include hno

theorem texRest_lanes {e : Stop}
    (h : texLanes s.platform s.draws (g.env.descs.inp.get ⟨f.texId.toNat, f.texId.isLt⟩) op f src dst g.lanes s.mem = .error e) :
    texRest op f s k g = .error e := by
  simp only [texRest, hp, ok_bind, hno, require, Bool.not_false, if_true, h, error_bind]

theorem texRest_write {r : List Lane × MemSys}
    (hr : texLanes s.platform s.draws (g.env.descs.inp.get ⟨f.texId.toNat, f.texId.isLt⟩) op f src dst g.lanes s.mem = .ok r)
    (h : g.lanes.any (texWriteHazard op f dst) = true) : texRest op f s k g = .error (.fault .texHazard) := by
  simp only [texRest, hp, ok_bind, hno, require, Bool.not_false, Bool.not_true, Bool.false_eq_true, if_true, if_false, hr, h,
    error_bind]

end

/-! ## Results that stop exactly where something is wrong -/

/-- This fault where `bad` holds, and a value where it does not. -/
def StopsIff {α : Type} (r : Res α) (e : Fault) (bad : Prop) : Prop :=
  (bad → r = .error (.fault e)) ∧ (¬ bad → ∃ a, r = .ok a)

section
variable {α β : Type} {r : Res α} {e : Fault} {bad bad' : Prop}

theorem StopsIff.congr (h : StopsIff r e bad) (hb : bad ↔ bad') : StopsIff r e bad' :=
  propext hb ▸ h

theorem stopsIff_ok (a : α) (h : ¬ bad) : StopsIff (.ok a) e bad := ⟨fun hb => absurd hb h, fun _ => ⟨a, rfl⟩⟩

theorem stopsIff_fault (h : bad) : StopsIff (.error (.fault e) : Res α) e bad := ⟨fun _ => rfl, fun hb => absurd h hb⟩

theorem StopsIff.of_fault (h : r = .error (.fault e)) : StopsIff r e True := ⟨fun _ => h, fun hb => absurd trivial hb⟩

/-- A chain stops where its first part or the rest does. -/
theorem StopsIff.bind {k : α → Res β} (h : StopsIff r e bad) (hk : ∀ a, StopsIff (k a) e bad') :
    StopsIff (r >>= k) e (bad ∨ bad') := by
  by_cases hb : bad
  · rw [h.1 hb]
    exact stopsIff_fault (.inl hb)
  · obtain ⟨a, rfl⟩ := h.2 hb
    exact (hk a).congr (or_iff_right hb).symm

theorem StopsIff.map {u : α → β} (h : StopsIff r e bad) : StopsIff (r.map u) e bad := by
  by_cases hb : bad
  · rw [h.1 hb]
    exact stopsIff_fault hb
  · obtain ⟨a, rfl⟩ := h.2 hb
    exact stopsIff_ok _ hb

end

/-! ## The elements that lookups read (R84, R88, R91, R92) -/

theorem formatLog_eq_none {fmt : BitVec 3} : formatLog fmt = none ↔ 5 ≤ fmt.toNat := by
  revert fmt
  decide

/-- The formats of more than one channel (R88). -/
theorem formatChannels_ne_one {fmt : BitVec 3} (h : fmt.toNat < 5) :
    formatChannels fmt ≠ 1 ↔ fmt = 1#3 ∨ fmt = 3#3 ∨ fmt = 4#3 := by
  revert fmt
  decide

theorem Tiling.superfine_iff {t : Tiling} : t.superfine = true ↔ t = .linear2x2 ∨ t = .tiled2x2 := by cases t <;> decide

/-- An element that no client with this height may access (R84, R92). -/
def outOfRange (height x y : Nat) : Prop := 4096 ≤ x ∨ 4096 ≤ y ∨ height ≤ y

section
variable {p : Platform} {draw : Nat} {mem : MemSys}

theorem elementAddrs_stopsIff {d : Desc} {height x y : Nat} (hf : d.format.toNat < 5) :
    StopsIff (elementAddrs d (some height) x y) .indexRange (outOfRange height x y) := by
  obtain ⟨k, hk⟩ := Option.ne_none_iff_exists'.1 (mt formatLog_eq_none.1 (Nat.not_le.2 hf))
  have hrange : (decide (x < 4096) && decide (y < 4096) && inHeight (some height) y) = true ↔ ¬ outOfRange height x y := by
    simp [inHeight, outOfRange, and_assoc]
  rw [elementAddrs, hk]
  dsimp only
  split
  · next h => exact stopsIff_ok _ (hrange.1 h)
  · next h => exact stopsIff_fault (by_contra fun hno => h (hrange.2 hno))

/-- With every address mapped no read of an element is stuck. -/
theorem readElement_stopsIff {c : ReadClient} {d : Desc} {height x y : Nat} (hf : d.format.toNat < 5)
    (hm : ∀ a < 2 ^ 32, p.mapped a = true) :
    StopsIff (readElement p mem c d (some height) x y) .indexRange (outOfRange height x y) := by
  have haddrs := elementAddrs_stopsIff (height := height) (x := x) (y := y) hf
  by_cases hb : outOfRange height x y
  · rw [readElement, haddrs.1 hb]
    exact stopsIff_fault hb
  · obtain ⟨as, has⟩ := haddrs.2 hb
    obtain ⟨k, hread, -⟩ := readElement_ok (mem := mem) (k := c) has
      (List.all_eq_true.2 fun a ha => hm a (elementAddrs_lt has a ha))
    rw [hread]
    exact stopsIff_ok _ hb

variable {d : TallDesc} {x y : Nat}

/-- A reserved format stops every read of an input (R88). -/
theorem readInput_reserved (hf : 5 ≤ d.desc.format.toNat) : readInput p draw mem d x y = .error (.fault .reservedFormat) := by
  have hlog := formatLog_eq_none.2 hf
  cases hs : d.desc.tiling.superfine with
  | true => simp only [readInput, hs, hlog, if_true]
  | false => simp only [readInput, hs, readElement, elementAddrs, hlog, Bool.false_eq_true, if_false, error_bind]

/-- A superfine input of more than one channel stops every read (R91). -/
theorem readInput_multiChannel (hs : d.desc.tiling.superfine = true) (hf : d.desc.format.toNat < 5)
    (hc : formatChannels d.desc.format ≠ 1) : readInput p draw mem d x y = .error (.fault .superfineMultiChannel) := by
  obtain ⟨k, hk⟩ := Option.ne_none_iff_exists'.1 (mt formatLog_eq_none.1 (Nat.not_le.2 hf))
  simp only [readInput, hs, hk, hc, if_true, ne_eq, not_false_eq_true]

/-- An element of an input that lies outside it, or that has a superfine neighbour outside it (R84, R91, R92). -/
def inputOutside (d : TallDesc) (x y : Nat) : Prop :=
  outOfRange d.height.toNat x y ∨ (d.desc.tiling.superfine = true ∧ outOfRange d.height.toNat (x + 1) (y + 1))

/-- With every address mapped a read of an input stops where an element that it reads lies outside. -/
theorem readInput_stopsIff (hf : d.desc.format.toNat < 5) (hc : d.desc.tiling.superfine = true → formatChannels d.desc.format = 1)
    (hm : ∀ a < 2 ^ 32, p.mapped a = true) : StopsIff (readInput p draw mem d x y) .indexRange (inputOutside d x y) := by
  have one : ∀ mem x y, StopsIff (readElement p mem .inp d.desc (some d.height.toNat) x y) .indexRange
      (outOfRange d.height.toNat x y) := fun _ _ _ => readElement_stopsIff hf hm
  cases hs : d.desc.tiling.superfine with
  | false =>
    simp only [readInput, hs, Bool.false_eq_true, if_false]
    exact ((one mem x y).bind (bad' := False) fun _ => stopsIff_ok _ not_false).congr (by simp [inputOutside, hs])
  | true =>
    obtain ⟨k, hk⟩ := Option.ne_none_iff_exists'.1 (mt formatLog_eq_none.1 (Nat.not_le.2 hf))
    simp only [readInput, hs, hk, hc hs, if_true, ne_eq, not_true_eq_false, if_false]
    refine ((one mem (x + 1) y).bind fun r0 => (one r0.2 x (y + 1)).bind fun r1 => (one r1.2 (x + 1) (y + 1)).bind fun r2 =>
      (one r2.2 x y).bind (bad' := False) fun _ => stopsIff_ok _ not_false).congr ?_
    simp only [inputOutside, outOfRange, hs, true_and, or_false]
    omega

end

/-! ## The lookups of a group (R350, R355) -/

section
variable {p : Platform} {d : TallDesc} {op : TexOp} {f : TexInst} {src dst : Nat} {e : Fault} {bad : Nat → Nat → Prop}
  (hread : ∀ draw mem x y, StopsIff (readInput p draw mem d x y) e (bad x y))
include hread

theorem readInputUncached_stopsIff (draw : Nat) (mem : MemSys) (x y : Nat) :
    StopsIff (readInputUncached p draw mem d x y) e (bad x y) := by
  have h := hread draw { mem with inp := ReadCache.empty } x y
  unfold readInputUncached
  by_cases hb : bad x y
  · rw [h.1 hb]
    exact stopsIff_fault hb
  · obtain ⟨r, hr⟩ := h.2 hb
    rw [hr]
    exact stopsIff_ok _ hb

/-- A processor that takes part and whose element is bad. -/
def looksUpBad (d : TallDesc) (op : TexOp) (f : TexInst) (src : Nat) (bad : Nat → Nat → Prop) (l : Lane) : Prop :=
  texTakesPart f l = true ∧ bad (lookupIndex d op f src l).1 (lookupIndex d op f src l).2

omit hread in
theorem texLane_of_lookup (hop : looksUp op) (draw : Nat) (l : Lane) (mem : MemSys) (hpart : texTakesPart f l = true) :
    texLane p draw d op f src dst l mem =
      texLookupLane p draw d (decide (op = .lookupProj)) (decide (op = .lookupUncached)) f src dst l mem := by
  unfold texLane
  rw [if_pos hpart]
  rcases hop with rfl | rfl | rfl <;> rfl

theorem texLane_stopsIff (hop : looksUp op) (draw : Nat) (l : Lane) (mem : MemSys) :
    StopsIff (texLane p draw d op f src dst l mem) e (looksUpBad d op f src bad l) := by
  by_cases hpart : texTakesPart f l = true
  · rw [texLane_of_lookup hop draw l mem hpart, looksUpBad, propext (and_iff_right hpart)]
    unfold texLookupLane
    split
    · exact (readInputUncached_stopsIff hread ..).map
    · exact (hread ..).map
  · unfold texLane
    rw [if_neg hpart]
    exact stopsIff_ok _ fun h => hpart h.1

/-- The lookups of a group stop where some processor that takes part meets a bad element. -/
theorem texLanes_stopsIff (hop : looksUp op) (draw : Nat) (ls : List Lane) (mem : MemSys) :
    StopsIff (texLanes p draw d op f src dst ls mem) e (∃ l ∈ ls, looksUpBad d op f src bad l) := by
  induction ls generalizing draw mem with
  | nil => exact stopsIff_ok _ (by simp)
  | cons l rest ih =>
    refine ((texLane_stopsIff hread hop draw l mem).bind fun r1 => (ih (draw + drawsPerLane) r1.2).bind (bad' := False) fun r2 =>
      stopsIff_ok _ not_false).congr ?_
    simp only [List.exists_mem_cons_iff, or_false]

end

/-! ## The instructions -/

section
variable {s : State} {i : Instr} {op : TexOp} {f : TexInst}

/-- An acquisition without a wait stops the instruction that comes to it (R369; log 45). -/
theorem TexReady.stops_at_acquire (c : TexReady s op f) (hi : i.tex? = some (op, f)) (hacq : f.semAcquire = true)
    (hw : f.semWait = false) : exec i s = .fault .invalidEncoding := by
  have hwf : f.wellFormed = false := by simp [TexInst.wellFormed, hacq, hw]
  rw [exec_tex hi, c.run, hwf, if_neg Bool.false_ne_true, conclude_fault]

/-- A per-channel predicate select stops the instruction once its boolean is read (R386; log 45). -/
theorem FcFields.stops_at_select {op : FcOp} {f : FcInst} (c : FcFields s f) (hi : i.fc? = some (op, f)) {r : Bool × MemSys}
    (hr : fcBoolean s.platform c.g.env.descs.constb f s.mem = .ok r) (hsel : f.predSel = .rgba) :
    exec i s = .fault .invalidEncoding := by
  have hwf : f.wellFormed = false := by rw [FcInst.wellFormed, hsel]; rfl
  have hbool : fcBoolean s.platform (waitedGroup c.g f.aluWait f.semWait).env.descs.constb f s.mem = .ok r := hr
  rw [exec_fc hi, c.run, fcRest, hbool, ok_bind]
  simp only [hwf, require, Bool.false_eq_true, if_false, error_bind, conclude_fault]

end

/-- A texture instruction past its waits with its registers in range (R350, R351). -/
structure TexPlaced (s : State) (op : TexOp) (f : TexInst) where
  k : Nat
  g : Group
  src : Nat
  dst : Nat
  turn : s.turn = .group k
  group : s.groups[k]? = some g
  running : g.halted = false
  results : f.aluWait = true ∨ ∀ u ∈ texUses op f (texNamed g f), u ∉ g.aluPending
  erratum : f.semWait = true → g.erratum = false
  places : texPlaces g op f = .ok (src, dst)

section
variable {s : State} {op : TexOp} {f : TexInst}

/-- The input that such an instruction looks up in. -/
def TexPlaced.input (c : TexPlaced s op f) : TallDesc := c.g.env.descs.inp.get ⟨f.texId.toNat, f.texId.isLt⟩

/-- Its operation on the processors of its group. -/
def TexPlaced.lanes (c : TexPlaced s op f) : Res (List Lane × MemSys) :=
  texLanes s.platform s.draws c.input op f c.src c.dst (waited c.g f.semWait) s.mem

variable {i : Instr} (c : TexPlaced s op f) (hi : i.tex? = some (op, f))
include hi

theorem TexPlaced.exec_eq :
    exec i s = conclude s.turnStuck (texRest op f s c.k (waitedGroup c.g f.aluWait f.semWait)) := by
  rw [exec_tex hi, runTex_eq c.turn c.group c.running c.results c.erratum]

theorem TexPlaced.stops_at_read (h : ∃ l ∈ waited c.g f.semWait, texReadHazard op f c.src l = true) :
    exec i s = .fault .texHazard := by
  rw [c.exec_eq hi, texRest_read (g := waitedGroup c.g f.aluWait f.semWait) c.places (List.any_eq_true.2 h), conclude_fault]

variable (hno : ∀ l ∈ waited c.g f.semWait, texReadHazard op f c.src l ≠ true)
include hno

theorem TexPlaced.stops_at_lanes {e : Fault} (h : c.lanes = .error (.fault e)) : exec i s = .fault e := by
  rw [c.exec_eq hi, texRest_lanes (g := waitedGroup c.g f.aluWait f.semWait) c.places (List.any_eq_false.2 hno) h, conclude_fault]

theorem TexPlaced.stops_at_write {r : List Lane × MemSys} (hr : c.lanes = .ok r)
    (h : ∃ l ∈ waited c.g f.semWait, texWriteHazard op f c.dst l = true) : exec i s = .fault .texHazard := by
  rw [c.exec_eq hi, texRest_write (g := waitedGroup c.g f.aluWait f.semWait) c.places (List.any_eq_false.2 hno) hr
    (List.any_eq_true.2 h), conclude_fault]

variable (hop : looksUp op) {l : Lane} (hl : l ∈ waited c.g f.semWait)
include hop hl

/-- A fault that the reads of its input meet exactly at the bad elements stops a lookup of one. -/
theorem TexPlaced.stops_at_lookup {e : Fault} {bad : Nat → Nat → Prop}
    (hread : ∀ draw mem x y, StopsIff (readInput s.platform draw mem c.input x y) e (bad x y))
    (h : looksUpBad c.input op f c.src bad l) : exec i s = .fault e :=
  c.stops_at_lanes hi hno ((texLanes_stopsIff hread hop ..).1 ⟨l, hl, h⟩)

variable (hpart : texTakesPart f l = true)
include hpart

/-- A fault that stops every read of its input stops a lookup. -/
theorem TexPlaced.stops_at_input {e : Fault}
    (hread : ∀ draw mem x y, readInput s.platform draw mem c.input x y = .error (.fault e)) : exec i s = .fault e :=
  c.stops_at_lookup hi hno hop hl (bad := fun _ _ => True) (fun draw mem x y => .of_fault (hread draw mem x y)) ⟨hpart, trivial⟩

theorem TexPlaced.stops_at_multiChannel (hs : c.input.desc.tiling.superfine = true)
    (hch : c.input.desc.format = 1#3 ∨ c.input.desc.format = 3#3 ∨ c.input.desc.format = 4#3) :
    exec i s = .fault .superfineMultiChannel := by
  have hlow : c.input.desc.format.toNat < 5 := by rcases hch with h | h | h <;> rw [h] <;> decide
  exact c.stops_at_input hi hno hop hl hpart fun _ _ _ _ =>
    readInput_multiChannel hs hlow ((formatChannels_ne_one hlow).2 hch)

theorem TexPlaced.stops_at_index (hf : c.input.desc.format.toNat < 5)
    (hch : ¬ (c.input.desc.tiling.superfine = true ∧
      (c.input.desc.format = 1#3 ∨ c.input.desc.format = 3#3 ∨ c.input.desc.format = 4#3)))
    (hm : ∀ a < 2 ^ 32, s.platform.mapped a = true)
    (hout : inputOutside c.input (lookupIndex c.input op f c.src l).1 (lookupIndex c.input op f c.src l).2) :
    exec i s = .fault .indexRange := by
  have hone : c.input.desc.tiling.superfine = true → formatChannels c.input.desc.format = 1 := fun hs =>
    by_contra fun hne => hch ⟨hs, (formatChannels_ne_one hf).1 hne⟩
  exact c.stops_at_lookup hi hno hop hl (fun _ _ _ _ => readInput_stopsIff hf hone hm) ⟨hpart, hout⟩

end

/-- Settles O37: the fields by their own checks, the waits by `Group.waitsThen`, the hazards by what the instruction reads and writes, the
lookups by what a read of their input stops at. -/
theorem texAndFcHazardsFault : Obligations.TexAndFcHazardsFault := by
  unfold Obligations.TexAndFcHazardsFault
  intro replicates
  refine ⟨fun i op f s hi c => c.stops_at_acquire hi, fun i op f s hi c ⟨r, hr⟩ => c.stops_at_select hi hr,
    fun s k g ht hg hh => ⟨fun i op f hi => ?_, fun i op f hi => ?_⟩⟩
  · intro uses
    have huses : ∀ u, u ∈ texUses op f (texNamed g f) ↔ uses u := fun u => mem_texUses
    obtain ⟨rest, hwaits⟩ := exec_tex_waits ht hg hh hi
    refine ⟨fun hw u hu hp => ?_, fun hr => ?_⟩
    · rw [hwaits, Group.waitsThen_hazard hw ((huses u).2 hu) hp, conclude_fault]
    have hresults : f.aluWait = true ∨ ∀ u ∈ texUses op f (texNamed g f), u ∉ g.aluPending := by simpa only [huses] using hr
    refine ⟨fun hw hprev l hl hheld => ?_, fun hs src dst hplaces => ?_⟩
    · rw [hwaits, Group.waitsThen_held hresults hw hprev hl hheld, conclude_fault]
    intro lookup reads writes d superfine channels outside
    let c : TexPlaced s op f :=
      { k := k, g := g, src := src, dst := dst, turn := ht, group := hg, running := hh, results := hresults, erratum := hs
        places := hplaces }
    have hreads : ∀ l, texReadHazard op f src l = true ↔ reads l := fun l => texReadHazard_iff
    refine ⟨fun ⟨l, hl, h⟩ => c.stops_at_read hi ⟨l, hl, (hreads l).2 h⟩, fun hop hnone => ?_⟩
    have hno : ∀ l ∈ waited g f.semWait, texReadHazard op f src l ≠ true := fun l hl h => hnone l hl ((hreads l).1 h)
    have hsuperfine : d.desc.tiling.superfine = true ↔ superfine := Tiling.superfine_iff
    refine ⟨fun r hr ⟨l, hl, h⟩ => c.stops_at_write hi hno hr ⟨l, hl, (texWriteHazard_iff hop).2 h⟩,
      fun l hl hpart => ⟨fun hf => ?_, fun hsf hch => ?_, fun hf hch hm hout => ?_⟩⟩
    · exact c.stops_at_input hi hno hop hl hpart fun _ _ _ _ => readInput_reserved hf
    · exact c.stops_at_multiChannel hi hno hop hl hpart (hsuperfine.2 hsf) hch
    · refine c.stops_at_index hi hno hop hl hpart hf (fun ⟨hsf, h⟩ => hch ⟨hsuperfine.1 hsf, h⟩) hm ?_
      rcases hout with h | h | h | ⟨hsf, h⟩
      · exact .inl (.inl h)
      · exact .inl (.inr (.inl h))
      · exact .inl (.inr (.inr h))
      · exact .inr ⟨hsuperfine.2 hsf, h⟩
  · intro depends uses
    have huses : ∀ u, u ∈ fcUses f ↔ uses u := fun u => by
      rw [mem_fcUses, funcDepends_iff, funcDepends_iff]
      rfl
    obtain ⟨rest, hwaits⟩ := exec_fc_waits ht hg hh hi
    refine ⟨fun hw u hu hp => ?_, fun hr hw hprev l hl hheld => ?_⟩
    · rw [hwaits, Group.waitsThen_hazard hw ((huses u).2 hu) hp, conclude_fault]
    · rw [hwaits, Group.waitsThen_held (by simpa only [huses] using hr) hw hprev hl hheld, conclude_fault]

end Sys2Proof.Machine
end
